-- ==== Sys2Proof/Word.lean ====
section
/-! DEFINITION. The words of the part: bytes and half-words as they stand on the line and in the
image, and the two fixed-length rows of like things it has (six groups or zones, eight doors). -/

namespace Sys2Proof

/-- A byte: a character's data on the line, a byte of the image (R43, R178). -/
abbrev Byte := BitVec 8

/-- A field of two bytes, sent high byte first (R178). -/
abbrev Half := BitVec 16

/-- Six like things: the light groups 1 to 6 (R91) or the zones 1 to 6 (R17). -/
structure Six (α : Type) where
  g1 : α
  g2 : α
  g3 : α
  g4 : α
  g5 : α
  g6 : α
deriving DecidableEq, Repr

/-- Eight like things: the dock doors 1 to 8 and their contacts and curtains (R12, R111). -/
structure Eight (α : Type) where
  d1 : α
  d2 : α
  d3 : α
  d4 : α
  d5 : α
  d6 : α
  d7 : α
  d8 : α
deriving DecidableEq, Repr

/-- One thing for each analogue sensor, in the order of R4. -/
structure PerSensor (α : Type) where
  tempA    : α
  tempB    : α
  outdoor  : α
  exhaust  : α
  daylight : α
deriving DecidableEq, Repr

end Sys2Proof
end

