-- ==== Sys2Proof/Config.lean ====
section
/-! DEFINITION. What the configuration image fixes until the next reset: the site block, the
calendar, the phase table and the station's own bay block (Chapters 2, 5 to 8, 10 and 11). The
manual calls no result of a command undefined, so this file holds no free value. -/

namespace Sys2Proof

/-- The phases a calendar entry may bring in (R21). -/
inductive CalPhase where
  | closed | work | brk | changeover
deriving DecidableEq, Repr

/-- The operating phases (R35). -/
inductive Phase where
  | closed | preheat | work | brk | changeover
deriving DecidableEq, Repr

/-- The four bit rates of the bay line (R43). -/
inductive BitRate where
  | r19200 | r38400 | r57600 | r115200
deriving DecidableEq, Repr

/-- The four status intervals, 2, 4, 8 and 16 s (R58). -/
inductive Interval where
  | s2 | s4 | s8 | s16
deriving DecidableEq, Repr

/-- The edge of the bay a zone lies at (R19, Section 11.4). -/
inductive Edge where
  | noEdge | west | east
deriving DecidableEq, Repr

/-- A calendar entry (R21). -/
structure CalEntry where
  minute : Nat
  phase  : CalPhase
  fixed  : Bool
deriving DecidableEq, Repr

/-- The phase table's values for one calendar phase (R37). -/
structure PhaseRow where
  setpoint : Int
  ventMin  : Nat
  occHold  : Nat
  curtains : Bool
  base     : Six Nat
  occ      : Six Nat
deriving DecidableEq, Repr

/-- The phase table (R37). -/
structure PhaseTable where
  closed     : PhaseRow
  work       : PhaseRow
  brk        : PhaseRow
  changeover : PhaseRow
deriving DecidableEq, Repr

/-- The site block (Section 11.4): C, the design outdoor temperature, the long-open limit (R15), Kh
and Lmax (R36), the bit rate (R43), the status interval (R58), A (R101), P (R99), F (R110) and the
start-up level (R107). -/
structure SiteBlock where
  budget        : Nat
  designOutdoor : Int
  longOpenLimit : Nat
  leadPerDegree : Nat
  leadMax       : Nat
  bitRate       : BitRate
  interval      : Interval
  lookAhead     : Nat
  prelightHold  : Nat
  frostLimit    : Nat
  startLevel    : Nat
deriving DecidableEq, Repr

/-- The configuration of one light group (R91). -/
structure GroupConfig where
  rampRate   : Nat
  capLevel   : Nat
  capEnabled : Bool
  aisle      : Bool
deriving DecidableEq, Repr

/-- The configuration of one zone: its edge and the groups it raises, bit g-1 for group g. -/
structure ZoneConfig where
  edge   : Edge
  groups : BitVec 6
deriving DecidableEq, Repr

/-- A bay block (Section 11.4), with the symbols of R110, R127 and R147: G, PB, Ld, Rb, Tr, N, H, M,
qx_max, qs_max, Qd, EI_lo, EI_hi, s_fire, p_fire and the daylight threshold of R92. -/
structure BayBlock where
  doorsFitted   : BitVec 8
  outdoorFitted : Bool
  capacity      : Nat
  band          : Nat
  doorLoss      : Nat
  blindRequest  : Nat
  runOn         : Nat
  stageCount    : Nat
  hysteresis    : Nat
  minOff        : Nat
  extractMax    : Nat
  supplyMax     : Nat
  doorInflow    : Nat
  eiLow         : Nat
  eiHigh        : Nat
  fireSpeed     : Nat
  fireDamper    : Nat
  dayThreshold  : Nat
  groups        : Six GroupConfig
  zones         : Six ZoneConfig
deriving DecidableEq, Repr

/-- What a station adopts at the end of LOAD (R171), with the image version and the calendar
signature the SCU computes at the adoption (R41). -/
structure Configuration where
  site      : SiteBlock
  calendar  : List CalEntry
  phases    : PhaseTable
  bay       : BayBlock
  version   : Nat
  signature : Nat
deriving DecidableEq, Repr

end Sys2Proof
end

