-- ==== Sys2Proof/Syntax.lean ====
section
/-! DEFINITION. The commands of the block, whole: one constructor for each row of
spec/opcode_table.json, with the operands the outside world supplies with it. -/

namespace Sys2Proof

/-- The five analogue sensors (R3). -/
inductive Sensor where
  | tempA | tempB | outdoor | exhaust | daylight
deriving DecidableEq, Repr

/-- What stands at the input terminals: transmitter readings in the unit of their quantity, contacts
(bit k-1 for door k or zone k; door set = open, trailer set = present, detector set = active), the
fire contact and the six straps (00_scope Section 5, R3, R12, R17, R20, R171). -/
structure InputLevels where
  reading  : PerSensor Int
  doorOpen : BitVec 8
  trailer  : BitVec 8
  occupied : BitVec 6
  fire     : Bool
  straps   : BitVec 6
deriving DecidableEq, Repr

/-- What the read of the configuration memory gives: nothing, or the bytes read (R171). -/
inductive ImageRead where
  | noAnswer
  | bytes (l : List Byte)
deriving DecidableEq, Repr

/-- The named fields of a STATUS body (Section 11.3), at their widths on the line. -/
structure StatusBody where
  phase     : BitVec 3
  source    : BitVec 2
  flags     : BitVec 12
  minute    : Half
  second    : Byte
  rank      : Byte
  interval  : Byte
  tBay      : Half
  tOut      : Half
  request   : Byte
  grant     : Byte
  stagesOn  : Byte
  extract   : Half
  supply    : Half
  uncovered : Half
  exhaust   : Half
  unsealed  : Byte
  sealedDoors : Byte
  zones     : Byte
  signature : Half
deriving DecidableEq, Repr

/-- The body of a PRESENCE frame (Section 11.3). -/
structure PresenceBody where
  diag      : BitVec 5
  version   : Half
  signature : Half
  interval  : Byte
deriving DecidableEq, Repr

/-- The body of a TRAVEL frame (Section 11.3). -/
structure TravelBody where
  origin    : Byte
  direction : Byte
  hops      : Byte
  sequence  : Byte
deriving DecidableEq, Repr

/-- The body of an ALARM frame (Section 11.3). -/
structure AlarmBody where
  origin      : Byte
  alarmKind   : Byte
  repeatCount : Byte
deriving DecidableEq, Repr

/-- The body of a TIME frame (Section 11.3). -/
structure TimeBody where
  minute : Half
  second : Byte
deriving DecidableEq, Repr

/-- The part of a PANEL frame all commands share: the panel's sequence and the range of stations. -/
structure PanelAddress where
  sequence : Byte
  first    : Byte
  last     : Byte
deriving DecidableEq, Repr

/-- The commands. `now` is the moment of the command in microseconds, for the age of notices (R56).
`quiet` is the quiet the LC has measured, in bit times (R61). -/
inductive Instr where
  | powerReset
  | terminalReset
  | resetRelease (straps : BitVec 6)
  | imageAdopt (memory : ImageRead)
  | fiuSampleEvent (x : InputLevels) (now : Nat)
  | sensorRestored (sensor : Sensor) (x : InputLevels) (now : Nat)
  | tempBlind (x : InputLevels) (now : Nat)
  | doorLongOpen (door : Fin 8) (x : InputLevels) (now : Nat)
  | zoneHoldExpiry (zone : Fin 6) (x : InputLevels) (now : Nat)
  | scuSampleEvent
  | minuteBoundary
  | holdRetire (entry : Nat)
  | elapsedMinuteTick
  | amendmentExpiry
  | lcSampleEvent
  | statusIntervalExpiry
  | clashQuietExpiry
  | ptSampleEvent
  | entryStale (station : Nat)
  | entryLost (station : Nat)
  | ltcSampleEvent
  | prelightExpiry
  | hruSampleEvent
  | runOnExpiry (door : Fin 8)
  | hsuSampleEvent
  | minOffExpiry (stage : Nat)
  | abuSampleEvent
  | fmcSampleEvent
  | repeatTimerExpiry
  | sslSampleEvent (now : Nat)
  | selftestEnd (x : InputLevels) (now : Nat)
  | listenEnd (now : Nat)
  | joinEnd (now : Nat)
  | characterReceived (data : Byte) (marker : Bool) (now : Nat)
  | falseStart
  | brokenCharacter
  | frameTimeout (quiet : Nat)
  | alarmHoldHeard
  | dominantLevelEnd (bits : Nat)
  | frameStart (quiet : Nat) (now : Nat)
  | arbitrationLoss (sent : Nat)
  | frameSent
  | alarmHoldEnd
  | yieldEnd (quiet : Nat)
  | noticeAgeExpiry (now : Nat)
  | status (sender : Byte) (body : StatusBody)
  | presence (sender : Byte) (body : PresenceBody)
  | travel (sender : Byte) (body : TravelBody) (now : Nat)
  | alarm (sender : Byte) (body : AlarmBody)
  | time (sender : Byte) (body : TimeBody)
  | inquiry (sender : Byte) (target : Byte) (now : Nat)
  | holdPhase (panel : Byte) (addr : PanelAddress) (delay : Half)
  | advancePhase (panel : Byte) (addr : PanelAddress)
  | closeBays (panel : Byte) (addr : PanelAddress) (minutes : Half)
  | openBays (panel : Byte) (addr : PanelAddress)
  | lightForce (panel : Byte) (addr : PanelAddress) (minutes : Byte) (level : Byte)
  | cancelAmendments (panel : Byte) (addr : PanelAddress)
  | alarmReset (panel : Byte) (addr : PanelAddress)
  | restart (panel : Byte) (addr : PanelAddress)
  | unknownCommand (panel : Byte) (addr : PanelAddress) (code : Byte) (argument : Half)
deriving DecidableEq, Repr

end Sys2Proof
end

