-- ==== Sys2Proof/Decode.lean ====
section
/-! DEFINITION. The decoder of the host's table words. spec/opcode_table.json gives none of its
sixty rows any bits (the commands are events, not words), so no word spells a command. -/

namespace Sys2Proof

/-- No row of the table has bits: every word is refused. -/
def decodeTableWord (_nbits _w : Nat) : Option Instr := none

end Sys2Proof
end

