-- ==== Sys2Proof/Machine/State.lean ====
section
/-! DEFINITION. The state of one DBC-430, block by block, as plain data; the ways a step can stop; and
the state right after a power reset. Each structure's docstring names the chapter that owns it. -/

namespace Sys2Proof.Machine

/-- Which of the two held resets is being held (R177). -/
inductive ResetKind where
  | power | terminal
deriving DecidableEq, Repr

/-! ### Start-up Sequencer and Image Loader (Chapter 10) -/

/-- The start-up states (R170). -/
inductive Startup where
  | load | selftest | listen | join | run | strapFault
deriving DecidableEq, Repr

/-- The kinds of event record (R175). -/
inductive EventKind where
  | imageFallback | numberClash | sensorFault | sensorRestored | tempBlind | doorLongOpen
  | fireEnter | fireExit | calendarMismatch | amendmentReplaced
deriving DecidableEq, Repr

/-- A record of the event list (R175). -/
structure Event where
  kind   : EventKind
  detail : Nat
  minute : Nat
deriving DecidableEq, Repr

/-- What the SSL knows of the REPORT it built last: how many of the listed records, oldest first, it
carries, and whether a record has been replaced since it was built (R176). -/
structure ReportTrack where
  carried  : Nat
  replaced : Bool
deriving DecidableEq, Repr

/-- The SSL. `ticks` counts the FIU samples of SELFTEST and the SSL samples of LISTEN and JOIN (R170).
`checkResult` is the failure code while the fallback image is in use, so IMAGE_FALLBACK is set
exactly while it is present (R172). -/
structure Ssl where
  startup     : Startup
  own         : Nat
  ticks       : Nat
  checkResult : Option Nat
  diag        : PerSensor Bool
  events      : List Event
  overflow    : Bool
  report      : ReportTrack
deriving DecidableEq, Repr

/-! ### Bay Record and Field Input Unit (Chapter 1) -/

/-- Sensor validity (R3). -/
inductive Validity where
  | unsampled | valid | fault | notFitted
deriving DecidableEq, Repr

/-- Where the bay temperature came from (R5). -/
inductive TempSource where
  | own | substituted | held | blind
deriving DecidableEq, Repr

/-- Where the outdoor temperature came from (R10). -/
inductive OutdoorSource where
  | own | relayed | design
deriving DecidableEq, Repr

/-- Door states (R13). -/
inductive DoorState where
  | closed | openSealed | openUnsealed | disabled
deriving DecidableEq, Repr

/-- A door record (R13 to R15). -/
structure Door where
  state       : DoorState
  openSeconds : Nat
  longOpen    : Bool
deriving DecidableEq, Repr

/-- Zone states (R17). -/
inductive ZoneState where
  | vacant | occupied | hold
deriving DecidableEq, Repr

/-- A zone record (R17, R19). -/
structure Zone where
  state         : ZoneState
  holdRemaining : Nat
  edge          : Edge
  groups        : BitVec 6
deriving DecidableEq, Repr

/-- The Bay Record (R2). An absent exhaust or daylight value is INVALID (R11). -/
structure BayRecord where
  tBay          : Int
  tempSource    : TempSource
  tOut          : Int
  outdoorSource : OutdoorSource
  exhaust       : Option Nat
  daylight      : Option Nat
  validity      : PerSensor Validity
  doors         : Eight Door
  unsealed      : Nat
  sealedDoors   : Nat
  zones         : Six Zone
  occupiedZones : Nat
  fireInput     : Bool
  tempSubst     : Bool
  tempBlind     : Bool
  outdoorOwn    : Bool
  doorLongOpen  : Bool
deriving DecidableEq, Repr

/-- A debounced contact: its settled level and its pending mark (R12). -/
structure Contact where
  settled     : Bool
  pendingMark : Bool
deriving DecidableEq, Repr

/-- What the FIU keeps beside the Bay Record (R3, R7, R8, R12, R20). -/
structure Fiu where
  restore         : PerSensor Nat
  lastGood        : Option Int
  lastGoodAge     : Nat
  selected        : Bool
  doorContacts    : Eight Contact
  trailerContacts : Eight Contact
  firePending     : Bool
deriving DecidableEq, Repr

/-! ### Shift Calendar Unit (Chapter 2) -/

/-- The stage of a HOLD record (R29). -/
inductive HoldStage where
  | waiting | holding
deriving DecidableEq, Repr

/-- An amendment record (R28). A CLOSE with no remaining stands UNTIL_CANCELLED. -/
inductive Amendment where
  | hold (origin entry delay : Nat) (stage : HoldStage)
  | advance (origin entry : Nat)
  | close (origin : Nat) (remaining : Option Nat)
  | lightForce (origin remaining level : Nat)
deriving DecidableEq, Repr

/-- The SCU. TIME_INVALID is the complement of `valid`; BAY_CLOSED and the force level follow from the
amendment list (R31, R32). -/
structure Scu where
  minute     : Nat
  second     : Nat
  valid      : Bool
  rank       : Nat
  source     : Option Nat
  elapsed    : Nat
  amendments : List Amendment
  latch      : Bool
  phase      : Phase
  mismatch   : Bool
deriving DecidableEq, Repr

/-! ### Line Controller (Chapter 3) -/

/-- A frame's fault count and extra-gap mark (R54, R64). -/
structure Retry where
  faults   : Nat
  extraGap : Bool
deriving DecidableEq, Repr

/-- The notices (R54). -/
inductive NoticeKind where
  | travel | presence | report
deriving DecidableEq, Repr

/-- A notice in the transmit store (R54, R55). -/
structure Notice where
  kind   : NoticeKind
  body   : List Byte
  posted : Nat
  retry  : Retry
deriving DecidableEq, Repr

/-- An ALARM frame in the transmit store, with the moment it was posted (R54, R57; log 9). -/
structure AlarmFrame where
  body   : AlarmBody
  posted : Nat
  retry  : Retry
deriving DecidableEq, Repr

/-- A frame taken from the store for transmission; a STATUS carries the snapshot of its head (R60). -/
inductive TxFrame where
  | status (body : StatusBody) (retry : Retry)
  | notice (n : Notice)
  | alarm (a : AlarmFrame)
deriving DecidableEq, Repr

/-- The transmitter: idle; sending a frame; stopped after a loss behind the head, awaiting the end of
the dominant level (R64), with the frame if it is still in the store; or driving an alarm hold (R53). -/
inductive Tx where
  | idle
  | sending (f : TxFrame)
  | lost (f : Option TxFrame)
  | holding
deriving DecidableEq, Repr

/-- The frame assembler: in ASSEMBLE the characters received so far, head first, and the clash mark
(R46). -/
inductive Assembler where
  | hunt
  | skip
  | assemble (chars : List Byte) (clash : Bool)
deriving DecidableEq, Repr

/-- The eight line counters (R66). -/
structure Counters where
  checkFail    : Nat
  frameTimeout : Nat
  unknownKind  : Nat
  noticeDrop   : Nat
  noticeStale  : Nat
  statusLate   : Nat
  lineFault    : Nat
  clashCount   : Nat
deriving DecidableEq, Repr

/-- What R59 compares against: the request and the FIRE and FROST flags of the last STATUS head sent. -/
structure LastStatus where
  request : Nat
  fire    : Bool
  frost   : Bool
deriving DecidableEq, Repr

/-- The LC. The STATUS place is empty when `statusWaiting` is absent and `tx` holds no STATUS (R58).
`awaitRecessive` is the receiver's wait, behind a broken character or an alarm hold heard, for the
line to return recessive (R44, R52). -/
structure Lc where
  asm           : Assembler
  brokenFrame   : Bool
  holdHeard     : Bool
  awaitRecessive : Bool
  quiet         : Nat
  clock         : Nat
  tx            : Tx
  statusWaiting : Option Retry
  notices       : List Notice
  alarmWaiting  : Option AlarmFrame
  yielding      : Bool
  presenceMark  : Bool
  clash         : Bool
  clashQuiet    : Nat
  intervalCount : Nat
  lastStatus    : Option LastStatus
  counters      : Counters
deriving DecidableEq, Repr

/-! ### Peer Table (Chapter 4) -/

/-- Age states (R78, R79). -/
inductive Age where
  | fresh | stale | lost
deriving DecidableEq, Repr

/-- The join record of a peer's last PRESENCE (R70). -/
structure JoinRecord where
  diag    : BitVec 5
  version : Half
deriving DecidableEq, Repr

/-- A bay entry (R70). STATUS seen is set exactly while the announced state is present. -/
structure BayEntry where
  age       : Age
  silence   : Nat
  interval  : Interval
  announced : Option StatusBody
  joined    : Option JoinRecord
deriving DecidableEq, Repr

/-- A panel entry (R71). -/
structure PanelEntry where
  age          : Age
  silence      : Nat
  lastSequence : Option Byte
deriving DecidableEq, Repr

/-- The Peer Table: the occupied slots in ascending order of station number (R69). -/
structure Peers where
  bays   : List (Nat × BayEntry)
  panels : List (Nat × PanelEntry)
deriving DecidableEq, Repr

/-! ### Lighting Controller (Chapter 5) -/

/-- The part of a group record that changes (R91). -/
structure Group where
  level  : Nat
  target : Nat
deriving DecidableEq, Repr

/-- The pre-light state (R99). -/
inductive Prelight where
  | idle
  | active (remaining : Nat)
deriving DecidableEq, Repr

/-- The LTC. -/
structure Ltc where
  groups     : Six Group
  capEngaged : Bool
  prelight   : Prelight
  recent     : List (Nat × Nat)
  sequence   : Nat
deriving DecidableEq, Repr

/-! ### Heat Request Unit (Chapter 6) -/

/-- Curtain states; the remaining count is held in RUN_ON and is 0 elsewhere (R111). -/
inductive Curtain where
  | off
  | running
  | runOn (remaining : Nat)
  | inhibited
deriving DecidableEq, Repr

/-- The three terms of the heat request, B, L and V (R115 to R117). -/
structure HeatTerms where
  error  : Nat
  doors  : Nat
  intake : Nat
deriving DecidableEq, Repr

/-- The HRU. -/
structure Hru where
  curtains : Eight Curtain
  request  : Nat
  short    : Bool
  frost    : Bool
  terms    : Option HeatTerms
deriving DecidableEq, Repr

/-! ### Heater Staging Unit (Chapter 7) -/

/-- A stage record (R136). -/
structure Stage where
  on     : Bool
  minOff : Nat
  held   : Bool
deriving DecidableEq, Repr

/-- The HSU: stage k is the k-th of `stages` (R136). -/
structure Hsu where
  grant    : Nat
  allowed  : Nat
  stages   : List Stage
  onList   : List Nat
  rotation : List Nat
deriving DecidableEq, Repr

/-! ### Air Balance Unit (Chapter 8) -/

/-- The ABU: s, p, s_t, qx, need, U, qs_t, p_t and qs_cmd. -/
structure Abu where
  speed        : Nat
  damper       : Nat
  targetSpeed  : Nat
  extract      : Nat
  need         : Nat
  uncovered    : Nat
  supplyTarget : Nat
  damperTarget : Nat
  supply       : Nat
deriving DecidableEq, Repr

/-! ### Fire Mode Controller (Chapter 9) -/

/-- Why fire mode is in force (R161). -/
inductive Cause where
  | own | heard
deriving DecidableEq, Repr

/-- The mode, with cause and origin while it is FIRE; an absent origin is UNKNOWN (R161). -/
inductive Mode where
  | normal
  | fire (cause : Cause) (origin : Option Nat)
deriving DecidableEq, Repr

/-- The FMC; an absent timer is STOPPED (R161). -/
structure Fmc where
  mode        : Mode
  timer       : Option Nat
  repeatCount : Nat
  owed        : Bool
deriving DecidableEq, Repr

/-! ### The station -/

/-- No command of the part stops it with a fault: the manual names none, so this type has no
constructor. -/
inductive Fault where
deriving DecidableEq, Repr

/-- The one refusal is the host's: a command whose arm has no meaning yet. No arm uses it. Safe: a
refused command proves nothing. -/
inductive Refusal where
  /-- Raised by an arm of `exec` that is not modelled; safe. -/
  | notModelled (mnemonic : String)
deriving DecidableEq, Repr

/-- One DBC-430 and the queue of commands waiting for it. `pins` holds the levels at the input terminals
that the commands brought last (logs 4, 5). `cfg` is absent in LOAD. -/
structure State where
  held    : Option ResetKind
  pins    : InputLevels
  ssl     : Ssl
  cfg     : Option Configuration
  br      : BayRecord
  fiu     : Fiu
  scu     : Scu
  lc      : Lc
  pt      : Peers
  ltc     : Ltc
  hru     : Hru
  hsu     : Hsu
  abu     : Abu
  fmc     : Fmc
  pending : List Instr
deriving DecidableEq, Repr

/-- A row of six equal things. -/
def six {α : Type} (a : α) : Six α := ⟨a, a, a, a, a, a⟩

/-- A row of eight equal things. -/
def eight {α : Type} (a : α) : Eight α := ⟨a, a, a, a, a, a, a, a⟩

/-- The same thing for each sensor. -/
def perSensor {α : Type} (a : α) : PerSensor α := ⟨a, a, a, a, a⟩

/-- The values the FIU's Section 1.9 gives at a power or terminal reset. DESIGN CHOICE (log 35): R2 and
Section 1.9 give a zone's edge and group list no value before the bay block is adopted; NONE and no
groups stand here. -/
def BayRecord.reset : BayRecord where
  tBay          := 0
  tempSource    := .blind
  tOut          := -300
  outdoorSource := .design
  exhaust       := none
  daylight      := none
  validity      := perSensor .unsampled
  doors         := eight ⟨.closed, 0, false⟩
  unsealed      := 0
  sealedDoors   := 0
  zones         := six ⟨.vacant, 0, .noEdge, 0⟩
  occupiedZones := 0
  fireInput     := false
  tempSubst     := false
  tempBlind     := true
  outdoorOwn    := false
  doorLongOpen  := false

/-- The FIU's own state at a power or terminal reset (Section 1.9). -/
def Fiu.reset : Fiu where
  restore         := perSensor 0
  lastGood        := none
  lastGoodAge     := 0
  selected        := false
  doorContacts    := eight ⟨false, false⟩
  trailerContacts := eight ⟨false, false⟩
  firePending     := false

/-- The SCU at a power or terminal reset (R42). -/
def Scu.reset : Scu where
  minute     := 0
  second     := 0
  valid      := false
  rank       := 15
  source     := none
  elapsed    := 0
  amendments := []
  latch      := false
  phase      := .work
  mismatch   := false

/-- The line counters at a power or terminal reset (R66). -/
def Counters.reset : Counters := ⟨0, 0, 0, 0, 0, 0, 0, 0⟩

/-- The LC at a power or terminal reset (R68). DESIGN CHOICE (log 45): the quiet time, for which the manual
gives no reset value, starts at 0, and the receiver waits for no level's end. -/
def Lc.reset : Lc where
  asm           := .hunt
  brokenFrame   := false
  holdHeard     := false
  awaitRecessive := false
  quiet         := 0
  clock         := 0
  tx            := .idle
  statusWaiting := none
  notices       := []
  alarmWaiting  := none
  yielding      := false
  presenceMark  := false
  clash         := false
  clashQuiet    := 0
  intervalCount := 0
  lastStatus    := none
  counters      := Counters.reset

/-- The LTC at a power or terminal reset (R107). -/
def Ltc.reset : Ltc where
  groups     := six ⟨500, 500⟩
  capEngaged := false
  prelight   := .idle
  recent     := []
  sequence   := 0

/-- The HRU at every reset (R125). -/
def Hru.reset : Hru where
  curtains := eight .off
  request  := 0
  short    := false
  frost    := false
  terms    := none

/-- The HSU at a power or terminal reset (R144). -/
def Hsu.reset : Hsu where
  grant    := 0
  allowed  := 0
  stages   := []
  onList   := []
  rotation := []

/-- The ABU at a power or terminal reset (R159): fans at 20, damper shut. DESIGN CHOICE (log 19): the
two targets the manual gives no reset value for are 0. -/
def Abu.reset : Abu where
  speed        := 20
  damper       := 0
  targetSpeed  := 0
  extract      := 0
  need         := 0
  uncovered    := 0
  supplyTarget := 0
  damperTarget := 0
  supply       := 0

/-- The FMC at every reset (R169). -/
def Fmc.reset : Fmc where
  mode        := .normal
  timer       := none
  repeatCount := 0
  owed        := false

/-- The SSL at a power or terminal reset (R170, R175), with the own number of the straps. -/
def Ssl.reset (own : Nat) : Ssl where
  startup     := .load
  own         := own
  ticks       := 0
  checkResult := none
  diag        := perSensor false
  events      := []
  overflow    := false
  report      := ⟨0, false⟩

/-- The machine right after power is applied: every block at its power-reset values, the reset still
held until RESET_RELEASE (R177). DESIGN CHOICE (logs 4, 5, 6): the levels at the terminals, the own
number before the straps are read, and that the reset is still held. -/
def State.reset : State where
  held    := some .power
  pins    := ⟨perSensor 0, 0, 0, 0, false, 0⟩
  ssl     := Ssl.reset 0
  cfg     := none
  br      := BayRecord.reset
  fiu     := Fiu.reset
  scu     := Scu.reset
  lc      := Lc.reset
  pt      := ⟨[], []⟩
  ltc     := Ltc.reset
  hru     := Hru.reset
  hsu     := Hsu.reset
  abu     := Abu.reset
  fmc     := Fmc.reset
  pending := []

end Sys2Proof.Machine
end

