-- ==== Sys2Proof/WellFormed.lean ====
section
/-! DEFINITION. Which commands are well formed: the limits the manual sets on a row's operands that
their types do not already hold. The meanings are total and answer a next state for ill-formed
operands too; this check says what a sender may send. -/

namespace Sys2Proof

/-- A bay station's number, 1 to 48 (00_scope Section 4.3). -/
def isBayNumber (n : Nat) : Bool := 1 ≤ n && n ≤ 48

/-- A wall panel's number, 56 to 63 (00_scope Section 4.3). -/
def isPanelNumber (n : Nat) : Bool := 56 ≤ n && n ≤ 63

/-- What the receive filter and the layouts ask of a command's operands (R51, R21, R69, R127,
Section 11.3). -/
def Instr.wellFormed : Instr → Bool
  | .status p _ | .presence p _ | .travel p _ _ => isBayNumber p.toNat
  | .time p _ | .inquiry p _ _ => isPanelNumber p.toNat
  | .holdPhase p _ _ | .advancePhase p _ | .closeBays p _ _ | .openBays p _
  | .lightForce p _ _ _ | .cancelAmendments p _ | .alarmReset p _ | .restart p _ =>
      isPanelNumber p.toNat
  | .unknownCommand p _ c _ => isPanelNumber p.toNat && !(1 ≤ c.toNat && c.toNat ≤ 8)
  | .holdRetire k => 1 ≤ k && k ≤ 24
  | .minOffExpiry k => 1 ≤ k && k ≤ 8
  | .entryStale n | .entryLost n => isBayNumber n || isPanelNumber n
  | .imageAdopt (.bytes l) => l.length ≤ 4096
  | .arbitrationLoss k => k < 53
  | .powerReset | .terminalReset | .resetRelease _ | .imageAdopt .noAnswer
  | .fiuSampleEvent _ _ | .sensorRestored _ _ _ | .tempBlind _ _ | .doorLongOpen _ _ _
  | .zoneHoldExpiry _ _ _ | .scuSampleEvent | .minuteBoundary | .elapsedMinuteTick
  | .amendmentExpiry | .lcSampleEvent | .statusIntervalExpiry | .clashQuietExpiry
  | .ptSampleEvent | .ltcSampleEvent | .prelightExpiry | .hruSampleEvent | .runOnExpiry _
  | .hsuSampleEvent | .abuSampleEvent | .fmcSampleEvent | .repeatTimerExpiry
  | .sslSampleEvent _ | .selftestEnd _ _ | .listenEnd _ | .joinEnd _
  | .characterReceived _ _ _ | .falseStart | .brokenCharacter | .frameTimeout _
  | .alarmHoldHeard | .dominantLevelEnd _ | .frameStart _ _ | .frameSent | .alarmHoldEnd
  | .yieldEnd _ | .noticeAgeExpiry _ | .alarm _ _ => true

end Sys2Proof
end

