-- ==== Sys2Proof/Machine/Lanes.lean ====
section
/-! DEFINITION. Reading, building and counting the rows of six and eight like things, the counters
that saturate (00_scope Section 4.2) and the tables kept by station number (R69). -/

namespace Sys2Proof

/-- The thing of number i+1. -/
def Six.get {α : Type} (x : Six α) (i : Fin 6) : α :=
  match i with
  | 0 => x.g1
  | 1 => x.g2
  | 2 => x.g3
  | 3 => x.g4
  | 4 => x.g5
  | 5 => x.g6

/-- The row whose thing of number i+1 is `f i`. -/
def Six.ofFn {α : Type} (f : Fin 6 → α) : Six α := ⟨f 0, f 1, f 2, f 3, f 4, f 5⟩

/-- The things in ascending order of number. -/
def Six.toList {α : Type} (x : Six α) : List α := [x.g1, x.g2, x.g3, x.g4, x.g5, x.g6]

/-- The thing of number i+1. -/
def Eight.get {α : Type} (x : Eight α) (i : Fin 8) : α :=
  match i with
  | 0 => x.d1
  | 1 => x.d2
  | 2 => x.d3
  | 3 => x.d4
  | 4 => x.d5
  | 5 => x.d6
  | 6 => x.d7
  | 7 => x.d8

/-- The row whose thing of number i+1 is `f i`. -/
def Eight.ofFn {α : Type} (f : Fin 8 → α) : Eight α :=
  ⟨f 0, f 1, f 2, f 3, f 4, f 5, f 6, f 7⟩

/-- The things in ascending order of number. -/
def Eight.toList {α : Type} (x : Eight α) : List α :=
  [x.d1, x.d2, x.d3, x.d4, x.d5, x.d6, x.d7, x.d8]

/-- The thing of one sensor. -/
def PerSensor.get {α : Type} (x : PerSensor α) : Sensor → α
  | .tempA => x.tempA
  | .tempB => x.tempB
  | .outdoor => x.outdoor
  | .exhaust => x.exhaust
  | .daylight => x.daylight

/-- A thing for each sensor. -/
def PerSensor.ofFn {α : Type} (f : Sensor → α) : PerSensor α :=
  ⟨f .tempA, f .tempB, f .outdoor, f .exhaust, f .daylight⟩

/-- A counter of top 65535 raised by `k`: it stays at its top (00_scope Section 4.2). -/
def satAdd (n k : Nat) : Nat := min 65535 (n + k)

/-- The entry of a station in a table kept by number, if its slot is occupied (R69). -/
def slot? {α : Type} : List (Nat × α) → Nat → Option α
  | [], _ => none
  | (k, v) :: rest, n => if k = n then some v else slot? rest n

/-- The table with the slot of `n` holding `v`, in ascending order of number (R69). -/
def setSlot {α : Type} (n : Nat) (v : α) : List (Nat × α) → List (Nat × α)
  | [] => [(n, v)]
  | (k, w) :: rest =>
    if n < k then (n, v) :: (k, w) :: rest
    else if n = k then (n, v) :: rest
    else (k, w) :: setSlot n v rest

end Sys2Proof
end

