-- ==== Sys2Proof/Machine/Operands.lean ====
section
/-! DEFINITION. The operand forms of the bay line: byte order (R178), the levels of a character (R43), the
frame kinds and their body lengths (R45, R179), the bodies of Section 11.3 read from bytes and written to
bytes, and the check value of R45. -/

namespace Sys2Proof

/-! ### Fields of bytes -/

/-- Byte `i` of a string of bytes. -/
def byteAt (l : List Byte) (i : Nat) : Byte := l.getD i 0

/-- The two-byte field at `i`, high byte first (R178). -/
def halfAt (l : List Byte) (i : Nat) : Half := byteAt l i ++ byteAt l (i + 1)

/-- A two-byte field as bytes, high byte first (R178). -/
def halfBytes (h : Half) : List Byte := [h.extractLsb' 8 8, h.extractLsb' 0 8]

/-- An unsigned value as a byte. -/
def toByte (n : Nat) : Byte := BitVec.ofNat 8 n

/-- An unsigned value as a two-byte field. -/
def toHalf (n : Nat) : Half := BitVec.ofNat 16 n

/-- A temperature as a two-byte field in two's complement (R178). -/
def tempHalf (t : Int) : Half := BitVec.ofInt 16 t

/-! ### Frame kinds -/

/-- The frame kinds (R45). -/
inductive Kind where
  | status | presence | travel | alarm | report | panel | time | inquiry
deriving DecidableEq, Repr

/-- The kind codes of Section 11.2. -/
def Kind.code : Kind → Byte
  | .status => 1
  | .presence => 2
  | .travel => 3
  | .alarm => 4
  | .report => 5
  | .panel => 16
  | .time => 17
  | .inquiry => 18

/-- The kind a kind character names; none for an unknown kind (R45). -/
def Kind.ofCode (c : Byte) : Option Kind :=
  if c = 1 then some .status
  else if c = 2 then some .presence
  else if c = 3 then some .travel
  else if c = 4 then some .alarm
  else if c = 5 then some .report
  else if c = 16 then some .panel
  else if c = 17 then some .time
  else if c = 18 then some .inquiry
  else none

/-- Whether a length fits a kind (R47, R179). -/
def Kind.fits (k : Kind) (len : Nat) : Bool :=
  match k with
  | .status => len == 28
  | .presence => len == 6
  | .travel => len == 4
  | .alarm => len == 3
  | .report => len == 24 || len == 28 || len == 32 || len == 36 || len == 40
  | .panel => len == 6
  | .time => len == 3
  | .inquiry => len == 1

/-! ### Codes of Section 11.3 -/

/-- The interval in seconds (R58). -/
def Interval.seconds : Interval → Nat
  | .s2 => 2
  | .s4 => 4
  | .s8 => 8
  | .s16 => 16

/-- The interval code a STATUS or PRESENCE announces (Section 11.3). -/
def Interval.code : Interval → Nat
  | .s2 => 0
  | .s4 => 1
  | .s8 => 2
  | .s16 => 3

/-- The interval an announced code names; any other code is stored as 16 s (R76). -/
def Interval.ofAnnounced (c : Byte) : Interval :=
  if c = 0 then .s2 else if c = 1 then .s4 else if c = 2 then .s8 else .s16

/-- The operating phase codes of a STATUS. -/
def Phase.code : Phase → Nat
  | .closed => 0
  | .preheat => 1
  | .work => 2
  | .brk => 3
  | .changeover => 4

/-- The sensor codes in event details. -/
def Sensor.code : Sensor → Nat
  | .tempA => 1
  | .tempB => 2
  | .outdoor => 3
  | .exhaust => 4
  | .daylight => 5

/-! ### Bodies -/

/-- A PANEL body: the shared part, the command code and the argument (Section 11.3). -/
structure PanelBody where
  addr     : PanelAddress
  command  : Byte
  argument : Half
deriving DecidableEq, Repr

/-- A frame's body by kind, for the kinds a station accepts (R48). -/
inductive Frame where
  | status (b : StatusBody)
  | presence (b : PresenceBody)
  | travel (b : TravelBody)
  | alarm (b : AlarmBody)
  | panel (b : PanelBody)
  | time (b : TimeBody)
  | inquiry (target : Byte)
deriving DecidableEq, Repr

/-- The kind of a frame. -/
def Frame.kind : Frame → Kind
  | .status _ => .status
  | .presence _ => .presence
  | .travel _ => .travel
  | .alarm _ => .alarm
  | .panel _ => .panel
  | .time _ => .time
  | .inquiry _ => .inquiry

/-- A STATUS body read from its 28 bytes; bits the table gives no meaning are ignored (R178). -/
def StatusBody.ofBytes (l : List Byte) : StatusBody where
  phase     := (byteAt l 0).extractLsb' 0 3
  source    := (byteAt l 0).extractLsb' 4 2
  flags     := (halfAt l 1).extractLsb' 0 12
  minute    := halfAt l 3
  second    := byteAt l 5
  rank      := byteAt l 6
  interval  := byteAt l 7
  tBay      := halfAt l 8
  tOut      := halfAt l 10
  request   := byteAt l 12
  grant     := byteAt l 13
  stagesOn  := byteAt l 14
  extract   := halfAt l 15
  supply    := halfAt l 17
  uncovered := halfAt l 19
  exhaust   := halfAt l 21
  unsealed  := byteAt l 23
  sealedDoors := byteAt l 24
  zones     := byteAt l 25
  signature := halfAt l 26

/-- The 28 bytes of a STATUS body (Section 11.3); bits without a meaning are sent as 0. -/
def StatusBody.bytes (b : StatusBody) : List Byte :=
  [(0 : BitVec 2) ++ b.source ++ (0 : BitVec 1) ++ b.phase]
    ++ halfBytes ((0 : BitVec 4) ++ b.flags)
    ++ halfBytes b.minute ++ [b.second, b.rank, b.interval]
    ++ halfBytes b.tBay ++ halfBytes b.tOut ++ [b.request, b.grant, b.stagesOn]
    ++ halfBytes b.extract ++ halfBytes b.supply ++ halfBytes b.uncovered
    ++ halfBytes b.exhaust ++ [b.unsealed, b.sealedDoors, b.zones]
    ++ halfBytes b.signature

/-- A PRESENCE body read from its 6 bytes. -/
def PresenceBody.ofBytes (l : List Byte) : PresenceBody where
  diag      := (byteAt l 0).extractLsb' 0 5
  version   := halfAt l 1
  signature := halfAt l 3
  interval  := byteAt l 5

/-- The 6 bytes of a PRESENCE body. -/
def PresenceBody.bytes (b : PresenceBody) : List Byte :=
  [(0 : BitVec 3) ++ b.diag] ++ halfBytes b.version ++ halfBytes b.signature ++ [b.interval]

/-- A TRAVEL body read from its 4 bytes. -/
def TravelBody.ofBytes (l : List Byte) : TravelBody :=
  ⟨byteAt l 0, byteAt l 1, byteAt l 2, byteAt l 3⟩

/-- The 4 bytes of a TRAVEL body. -/
def TravelBody.bytes (b : TravelBody) : List Byte :=
  [b.origin, b.direction, b.hops, b.sequence]

/-- An ALARM body read from its 3 bytes. -/
def AlarmBody.ofBytes (l : List Byte) : AlarmBody := ⟨byteAt l 0, byteAt l 1, byteAt l 2⟩

/-- The 3 bytes of an ALARM body. -/
def AlarmBody.bytes (b : AlarmBody) : List Byte := [b.origin, b.alarmKind, b.repeatCount]

/-- A PANEL body read from its 6 bytes. -/
def PanelBody.ofBytes (l : List Byte) : PanelBody where
  addr     := ⟨byteAt l 0, byteAt l 2, byteAt l 3⟩
  command  := byteAt l 1
  argument := halfAt l 4

/-- The frame of a kind read from its body bytes; a REPORT is read by panels alone (R51). -/
def Frame.ofBytes (k : Kind) (l : List Byte) : Option Frame :=
  match k with
  | .status => some (.status (StatusBody.ofBytes l))
  | .presence => some (.presence (PresenceBody.ofBytes l))
  | .travel => some (.travel (TravelBody.ofBytes l))
  | .alarm => some (.alarm (AlarmBody.ofBytes l))
  | .report => none
  | .panel => some (.panel (PanelBody.ofBytes l))
  | .time => some (.time ⟨halfAt l 0, byteAt l 2⟩)
  | .inquiry => some (.inquiry (byteAt l 0))

/-! ### The check -/

/-- One bit of the cyclic check: the register shifted left, the generator 0x1021 taken in when the bit
shifted out is 1 (R45). -/
def crcShift (r : Half) : Half :=
  if r.msb then (r <<< 1) ^^^ 0x1021#16 else r <<< 1

/-- One byte into the check register, most significant bit first (R45). -/
def crcByte (r : Half) (b : Byte) : Half :=
  let x := r ^^^ (b ++ (0 : Byte))
  crcShift (crcShift (crcShift (crcShift (crcShift (crcShift (crcShift (crcShift x)))))))

/-- The check value of a string of bytes: register preset to 0xFFFF, no final inversion (R45). -/
def crcOf (l : List Byte) : Half := l.foldl crcByte 0xFFFF#16

/-- The characters of a frame in order: head, kind, length, body, check high and low byte (R45). -/
def frameBytes (head : Byte) (k : Kind) (body : List Byte) : List Byte :=
  let front := [head, k.code, toByte body.length] ++ body
  front ++ halfBytes (crcOf front)

/-! ### Characters on the line (R43) -/

/-- The two levels of the line. -/
inductive LineLevel where
  | dominant | recessive
deriving DecidableEq, Repr

/-- A bit of 0 is sent dominant, a bit of 1 recessive (R43). -/
def bitLevel (b : Bool) : LineLevel := if b then .recessive else .dominant

/-- The eleven levels of a character in the order they are sent: the start bit, the data with its least
significant bit first, the marker and the stop bit (R43). -/
def charLevels (data : Byte) (marker : Bool) : List LineLevel :=
  [.dominant] ++ (List.range 8).map (fun i => bitLevel (data.getLsbD i))
    ++ [bitLevel marker, .recessive]

/-- A frame's characters as the transmitter takes them, each data byte with its marker: 1 on the head, 0
on every other (R43). -/
def markedChars : List Byte → List (Byte × Bool)
  | [] => []
  | head :: rest => (head, true) :: rest.map fun d => (d, false)

/-- The levels of a frame's characters, sent back to back (R43). -/
def frameLevels (chars : List Byte) : List LineLevel :=
  (markedChars chars).flatMap fun e => charLevels e.1 e.2

/-- Bits a second of a bit rate (R43). -/
def BitRate.perSecond : BitRate → Nat
  | .r19200 => 19200
  | .r38400 => 38400
  | .r57600 => 57600
  | .r115200 => 115200

end Sys2Proof

namespace Sys2Proof.Machine

/-- The temp_source codes of a STATUS. -/
def TempSource.code : TempSource → Nat
  | .own => 0
  | .substituted => 1
  | .held => 2
  | .blind => 3

/-- The event kind codes of a REPORT. -/
def EventKind.code : EventKind → Nat
  | .imageFallback => 1
  | .numberClash => 2
  | .sensorFault => 3
  | .sensorRestored => 4
  | .tempBlind => 5
  | .doorLongOpen => 6
  | .fireEnter => 7
  | .fireExit => 8
  | .calendarMismatch => 9
  | .amendmentReplaced => 10

/-- The amendment kinds in event details. -/
def Amendment.code : Amendment → Nat
  | .hold _ _ _ _ => 1
  | .advance _ _ => 2
  | .close _ _ => 3
  | .lightForce _ _ _ => 4

end Sys2Proof.Machine
end

