-- ==== Sys2Proof/Machine/Flags.lean ====
section
/-! DEFINITION. The flags of the station: the twelve STATUS flags, computed from the blocks that own
them (R2, Chapter 2, R50, R118, R121, R161, R172), and the diagnostic flags of a PRESENCE (R173). -/

namespace Sys2Proof

/-- A peer's FROST flag, bit 1 of its announced flags (R128). -/
def StatusBody.frost (b : StatusBody) : Bool := b.flags.getLsbD 1

/-- A peer's OUTDOOR_OWN flag, bit 7 of its announced flags (R10). -/
def StatusBody.outdoorOwn (b : StatusBody) : Bool := b.flags.getLsbD 7

end Sys2Proof

namespace Sys2Proof.Machine

/-- Fire mode is in force (R161); this is the FIRE flag. -/
def Fmc.inForce (f : Fmc) : Bool :=
  match f.mode with
  | .normal => false
  | .fire _ _ => true

/-- Whether a record is a CLOSE record (R31). -/
def Amendment.isClose : Amendment → Bool
  | .close _ _ => true
  | .hold _ _ _ _ | .advance _ _ | .lightForce _ _ _ => false

/-- BAY_CLOSED: the amendment list holds a CLOSE record (R31). -/
def Scu.bayClosed (u : Scu) : Bool := u.amendments.any Amendment.isClose

/-- TIME_INVALID (R23). -/
def Scu.timeInvalid (u : Scu) : Bool := !u.valid

/-- IMAGE_FALLBACK (R172). -/
def Ssl.imageFallback (l : Ssl) : Bool := l.checkResult.isSome

/-- The STATUS flags, bit 0 FIRE to bit 11 CLASH (Section 11.3). -/
def State.statusFlags (s : State) : BitVec 12 :=
  BitVec.ofBool s.lc.clash ++ BitVec.ofBool s.ssl.imageFallback ++ BitVec.ofBool s.br.doorLongOpen
    ++ BitVec.ofBool s.scu.mismatch ++ BitVec.ofBool s.br.outdoorOwn
    ++ BitVec.ofBool s.scu.timeInvalid ++ BitVec.ofBool s.scu.bayClosed
    ++ BitVec.ofBool s.br.tempBlind ++ BitVec.ofBool s.br.tempSubst ++ BitVec.ofBool s.hru.short
    ++ BitVec.ofBool s.hru.frost ++ BitVec.ofBool s.fmc.inForce

/-- The diagnostic flags of a PRESENCE, bit 0 TEMP_A to bit 4 DAYLIGHT (Section 11.3). -/
def diagFlags (d : PerSensor Bool) : BitVec 5 :=
  BitVec.ofBool d.daylight ++ BitVec.ofBool d.exhaust ++ BitVec.ofBool d.outdoor
    ++ BitVec.ofBool d.tempB ++ BitVec.ofBool d.tempA

end Sys2Proof.Machine
end

