-- ==== Sys2Proof/Machine/Image.lean ====
section
/-! DEFINITION. The configuration image: its layout (Section 11.4), the seven tests of R171, the
built-in fallback image (R172, Section 11.5) and the calendar signature (R41). -/

namespace Sys2Proof

/-! ### Readings of the configuration -/

/-- The row of a calendar phase (R37). -/
def phaseRow (t : PhaseTable) : CalPhase → PhaseRow
  | .closed => t.closed
  | .work => t.work
  | .brk => t.brk
  | .changeover => t.changeover

/-- A calendar phase as an operating phase. -/
def operating : CalPhase → Phase
  | .closed => .closed
  | .work => .work
  | .brk => .brk
  | .changeover => .changeover

/-- The row all values but the heat setpoint come from: PREHEAT takes CLOSED (R37). -/
def Configuration.row (c : Configuration) : Phase → PhaseRow
  | .closed => c.phases.closed
  | .preheat => c.phases.closed
  | .work => c.phases.work
  | .brk => c.phases.brk
  | .changeover => c.phases.changeover

/-- The heat setpoint of an operating phase: PREHEAT takes WORK (R37). -/
def Configuration.setpoint (c : Configuration) : Phase → Int
  | .closed => c.phases.closed.setpoint
  | .preheat => c.phases.work.setpoint
  | .work => c.phases.work.setpoint
  | .brk => c.phases.brk.setpoint
  | .changeover => c.phases.changeover.setpoint

end Sys2Proof

namespace Sys2Proof.Machine

/-! ### Fields of the image -/

/-- An unsigned one-byte field. -/
def u8At (l : List Byte) (i : Nat) : Nat := (byteAt l i).toNat

/-- An unsigned two-byte field (R178). -/
def u16At (l : List Byte) (i : Nat) : Nat := (halfAt l i).toNat

/-- A temperature field (R178). -/
def s16At (l : List Byte) (i : Nat) : Int := (halfAt l i).toInt

/-- The sum of a string of bytes taken as 16-bit words, high byte first, a byte of 0 appended to an odd
length (test 4 of R171). -/
def wordSum : List Byte → Nat
  | [] => 0
  | [a] => a.toNat * 256
  | a :: b :: rest => a.toNat * 256 + b.toNat + wordSum rest

/-- The sum of a string of bytes (R41). -/
def byteSum (l : List Byte) : Nat := (l.map BitVec.toNat).sum

/-- Whether a temperature lies in the range of 00_scope Section 4.1. -/
def tempInRange (t : Int) : Bool := decide (-400 ≤ t) && decide (t ≤ 600)

/-! ### Section places -/

/-- Where the calendar section begins: behind the header of 8 and the site block of 17 bytes. -/
def calendarAt : Nat := 25

/-- The calendar's entry count. -/
def entryCount (l : List Byte) : Nat := u8At l calendarAt

/-- Where calendar entry `i` (from 0) begins. -/
def entryAt (i : Nat) : Nat := 26 + 3 * i

/-- Where the phase table begins. -/
def phasesAt (l : List Byte) : Nat := entryAt (entryCount l)

/-- Where the bay-block table begins. -/
def baysAt (l : List Byte) : Nat := phasesAt l + 120

/-- The bay-block table's block count. -/
def blockCount (l : List Byte) : Nat := u8At l (baysAt l)

/-- Where bay block `i` (from 0) begins. -/
def blockAt (l : List Byte) (i : Nat) : Nat := baysAt l + 1 + 67 * i

/-- Where the last section ends. -/
def sectionsEnd (l : List Byte) : Nat := blockAt l (blockCount l)

/-! ### Reading the sections; none when a field lies outside its range (test 7 of R171) -/

/-- A bit rate code of the image. -/
def BitRate.ofCode : Nat → Option BitRate
  | 0 => some .r19200
  | 1 => some .r38400
  | 2 => some .r57600
  | 3 => some .r115200
  | _ => none

/-- A status interval code of the image. -/
def Interval.ofCode : Nat → Option Interval
  | 0 => some .s2
  | 1 => some .s4
  | 2 => some .s8
  | 3 => some .s16
  | _ => none

/-- A phase code of a calendar entry; PREHEAT (1) is not one (R21). -/
def CalPhase.ofCode : Nat → Option CalPhase
  | 0 => some .closed
  | 2 => some .work
  | 3 => some .brk
  | 4 => some .changeover
  | _ => none

/-- A zone's edge code. -/
def Edge.ofCode : Nat → Option Edge
  | 0 => some .noEdge
  | 1 => some .west
  | 2 => some .east
  | _ => none

/-- The site block, with the ranges of R15, R36, R99, R101, R107, R110 and R127. -/
def readSite (l : List Byte) : Option SiteBlock :=
  match BitRate.ofCode (u8At l 16), Interval.ofCode (u8At l 17) with
  | some rate, some interval =>
    let s : SiteBlock :=
      { budget := u16At l 8, designOutdoor := s16At l 10, longOpenLimit := u16At l 12,
        leadPerDegree := u8At l 14, leadMax := u8At l 15, bitRate := rate, interval := interval,
        lookAhead := u8At l 18, prelightHold := u16At l 19, frostLimit := u16At l 21,
        startLevel := u16At l 23 }
    if 1 ≤ s.budget ∧ s.budget ≤ 12000 ∧ tempInRange s.designOutdoor ∧ s.longOpenLimit ≤ 3600
        ∧ s.leadPerDegree ≤ 60 ∧ s.leadMax ≤ 240 ∧ 1 ≤ s.lookAhead ∧ s.lookAhead ≤ 3
        ∧ 10 ≤ s.prelightHold ∧ s.prelightHold ≤ 600 ∧ s.frostLimit ≤ 300 ∧ s.startLevel ≤ 1000
    then some s else none
  | _, _ => none

/-- One calendar entry at `i`: minute, then bits 0 to 2 the phase code and bit 7 the fixed mark. -/
def readEntry (l : List Byte) (i : Nat) : Option CalEntry :=
  let flags := byteAt l (i + 2)
  match CalPhase.ofCode (flags.extractLsb' 0 3).toNat with
  | some p => if u16At l i ≤ 10079 then some ⟨u16At l i, p, flags.getLsbD 7⟩ else none
  | none => none

/-- The things read one after another; none when one of them is out of range. -/
def allRead {α : Type} : List (Option α) → Option (List α)
  | [] => some []
  | none :: _ => none
  | some a :: rest =>
    match allRead rest with
    | some as => some (a :: as)
    | none => none

/-- The calendar of 0 to 24 entries. -/
def readCalendar (l : List Byte) : Option (List CalEntry) :=
  if entryCount l ≤ 24 then
    allRead ((List.range (entryCount l)).map fun i => readEntry l (entryAt i))
  else none

/-- Six two-byte light levels at `i`, groups 1 to 6. -/
def readLevels (l : List Byte) (i : Nat) : Six Nat := Six.ofFn fun g => u16At l (i + 2 * g.val)

/-- One phase row of 30 bytes at `i`, with the ranges of R37. -/
def readPhaseRow (l : List Byte) (i : Nat) : Option PhaseRow :=
  let r : PhaseRow :=
    { setpoint := s16At l i, ventMin := u8At l (i + 2), occHold := u16At l (i + 3),
      curtains := u8At l (i + 5) == 1, base := readLevels l (i + 6), occ := readLevels l (i + 18) }
  if tempInRange r.setpoint ∧ r.ventMin ≤ 100 ∧ 10 ≤ r.occHold ∧ r.occHold ≤ 1800
      ∧ u8At l (i + 5) ≤ 1 ∧ r.base.toList.all (· ≤ 1000) ∧ r.occ.toList.all (· ≤ 1000)
  then some r else none

/-- The phase table: CLOSED, WORK, BREAK, CHANGEOVER. -/
def readPhases (l : List Byte) : Option PhaseTable :=
  let i := phasesAt l
  match readPhaseRow l i, readPhaseRow l (i + 30), readPhaseRow l (i + 60),
      readPhaseRow l (i + 90) with
  | some a, some b, some c, some d => some ⟨a, b, c, d⟩
  | _, _, _, _ => none

/-- One light group's 5 bytes at `i`. -/
def readGroup (l : List Byte) (i : Nat) : GroupConfig where
  rampRate   := u16At l i
  capLevel   := u16At l (i + 2)
  capEnabled := (byteAt l (i + 4)).getLsbD 0
  aisle      := (byteAt l (i + 4)).getLsbD 1

/-- The bay block at `i`, with the ranges of R92, R91, R110, R127 and R147. -/
def readBay (l : List Byte) (i : Nat) : Option BayBlock :=
  let edges := Six.ofFn fun z => Edge.ofCode (u8At l (i + 55 + 2 * z.val))
  let b : BayBlock :=
    { doorsFitted := byteAt l (i + 1), outdoorFitted := u8At l (i + 2) == 1,
      capacity := u8At l (i + 3), band := u8At l (i + 4), doorLoss := u8At l (i + 5),
      blindRequest := u8At l (i + 6), runOn := u8At l (i + 7), stageCount := u8At l (i + 8),
      hysteresis := u8At l (i + 9), minOff := u16At l (i + 10), extractMax := u16At l (i + 12),
      supplyMax := u16At l (i + 14), doorInflow := u8At l (i + 16), eiLow := u16At l (i + 17),
      eiHigh := u16At l (i + 19), fireSpeed := u8At l (i + 21), fireDamper := u8At l (i + 22),
      dayThreshold := u16At l (i + 23),
      groups := Six.ofFn fun g => readGroup l (i + 25 + 5 * g.val),
      zones := Six.ofFn fun z =>
        ⟨(edges.get z).getD .noEdge, (byteAt l (i + 56 + 2 * z.val)).extractLsb' 0 6⟩ }
  if isBayNumber (u8At l i) ∧ u8At l (i + 2) ≤ 1 ∧ 1 ≤ b.capacity ∧ b.capacity ≤ 250
      ∧ 5 ≤ b.band ∧ b.band ≤ 100 ∧ b.doorLoss ≤ 60 ∧ b.blindRequest ≤ b.capacity
      ∧ b.runOn ≤ 120 ∧ 1 ≤ b.stageCount ∧ b.stageCount ≤ 8 ∧ b.hysteresis ≤ 20
      ∧ b.minOff ≤ 900 ∧ b.extractMax ≤ 500 ∧ 1 ≤ b.supplyMax ∧ b.supplyMax ≤ 500
      ∧ b.doorInflow ≤ 50 ∧ b.eiHigh ≤ 1000 ∧ b.eiLow < b.eiHigh ∧ b.fireSpeed ≤ 100
      ∧ b.fireDamper ≤ 100 ∧ b.dayThreshold ≤ 20000
      ∧ b.groups.toList.all (fun g => decide (1 ≤ g.rampRate) && decide (g.rampRate ≤ 1000)
          && decide (g.capLevel ≤ 1000))
      ∧ edges.toList.all Option.isSome
  then some b else none

/-- Every bay block of the table. -/
def readBays (l : List Byte) : Option (List BayBlock) :=
  if blockCount l ≤ 48 then
    allRead ((List.range (blockCount l)).map fun i => readBay l (blockAt l i))
  else none

/-- The place of the first bay block, among those wholly within the image, whose station number field
lies in 1 to 48 and equals the own number (test 5 of R171). -/
def ownBlock (l : List Byte) (own : Nat) : Option Nat :=
  ((List.range (blockCount l)).map (blockAt l)).find? fun i =>
    decide (i + 67 ≤ l.length) && isBayNumber (u8At l i) && u8At l i == own

/-- The minutes of the calendar entries wholly within the image (test 6 of R171). -/
def minutesWithin (l : List Byte) : List Nat :=
  ((List.range (entryCount l)).filter fun i => decide (entryAt i + 3 ≤ l.length)).map
    fun i => u16At l (entryAt i)

/-- Whether numbers rise strictly. -/
def ascending : List Nat → Bool
  | a :: b :: rest => decide (a < b) && ascending (b :: rest)
  | _ => true

/-- Every field of every section within its range, and the own block's fields (test 7 of R171). -/
def readSections (l : List Byte) (at_ : Nat) : Option Configuration :=
  if sectionsEnd l ≤ l.length then
    match readSite l, readCalendar l, readPhases l, readBays l, readBay l at_ with
    | some site, some calendar, some phases, some _, some bay =>
      some { site, calendar, phases, bay, version := u16At l 4,
             signature := byteSum ((l.take (baysAt l)).drop calendarAt) % 65536 }
    | _, _, _, _, _ => none
  else none

/-- The SSL's judgement of a read of the memory for the own number: the adopted configuration, or the
code of the first test that fails, in the order of R171. DEDUCED (log 24): a read that stops short
is code 1, at the header before tests 2 and 3 and behind the header after them. -/
def judgeImage (own : Nat) (m : ImageRead) : Except Nat Configuration :=
  match m with
  | .noAnswer => .error 1
  | .bytes l =>
    let total := u16At l 2
    let image := l.take total
    if l.length < 8 then .error 1
    else if u16At l 0 ≠ 0x5D43 then .error 2
    else if 4096 < total then .error 3
    else if l.length < total then .error 1
    else if wordSum image % 65536 ≠ 0 then .error 4
    else
      match ownBlock image own with
      | none => .error 5
      | some i =>
        if ascending (minutesWithin image) then
          match readSections image i with
          | some c => .ok c
          | none => .error 7
        else .error 6

/-! ### The fallback image (Section 11.5) -/

/-- The fallback's values for every phase. -/
def fallbackRow : PhaseRow where
  setpoint := 50
  ventMin  := 20
  occHold  := 300
  curtains := true
  base     := six 500
  occ      := six 500

/-- The fallback's bay block, the same for every station number (R172). -/
def fallbackBay : BayBlock where
  doorsFitted   := 0xFF
  outdoorFitted := false
  capacity      := 50
  band          := 20
  doorLoss      := 10
  blindRequest  := 20
  runOn         := 20
  stageCount    := 1
  hysteresis    := 0
  minOff        := 180
  extractMax    := 100
  supplyMax     := 100
  doorInflow    := 10
  eiLow         := 200
  eiHigh        := 600
  fireSpeed     := 100
  fireDamper    := 100
  dayThreshold  := 10000
  groups        := six ⟨50, 1000, false, false⟩
  zones         := Six.ofFn fun k => ⟨.noEdge, 1#6 <<< k.val⟩

/-- The fallback's site block. -/
def fallbackSite : SiteBlock where
  budget        := 250
  designOutdoor := -300
  longOpenLimit := 600
  leadPerDegree := 0
  leadMax       := 0
  bitRate       := .r38400
  interval      := .s4
  lookAhead     := 1
  prelightHold  := 60
  frostLimit    := 50
  startLevel    := 500

/-- A phase row in its 30 bytes (Section 11.4). -/
def PhaseRow.bytes (r : PhaseRow) : List Byte :=
  halfBytes (tempHalf r.setpoint) ++ [toByte r.ventMin] ++ halfBytes (toHalf r.occHold)
    ++ [toByte r.curtains.toNat]
    ++ (r.base.toList ++ r.occ.toList).flatMap fun v => halfBytes (toHalf v)

/-- The bytes the signature of the fallback's calendar and phase table sums: an entry count of 0, then
four equal rows (R41). -/
def fallbackSigned : List Byte :=
  let row := PhaseRow.bytes fallbackRow
  0 :: (row ++ row ++ row ++ row)

/-- The built-in fallback image as adopted (R172). -/
def fallback : Configuration where
  site      := fallbackSite
  calendar  := []
  phases    := ⟨fallbackRow, fallbackRow, fallbackRow, fallbackRow⟩
  bay       := fallbackBay
  version   := 0
  signature := byteSum fallbackSigned % 65536

end Sys2Proof.Machine
end

