-- ==== Sys2Proof/Machine/Ops.lean ====
section
/-! DEFINITION. The operations several blocks share: writing an event record (R175), the transmit
store's posts, flush and alarm holds (R53 to R58), the age of notices (R56), the phase table's two
readings (R37) and the peers the readers take (R82 to R84). -/

namespace Sys2Proof.Machine

/-! ### When the block works -/

/-- No power or terminal reset is being held (R177). -/
def State.released (s : State) : Bool := s.held.isNone

/-- A command's effect, which does not come about while a power or terminal reset is held (R177). -/
def whenReleased (s : State) (f : State → State) : Host.Outcome State Fault Refusal :=
  .next (if s.released then f s else s)

/-- A sample event in which something named is due: it comes about when the thing is due at it, and is
no event otherwise (log 1). -/
def whenDue (due : Bool) (s : State) (f : State → State) : Host.Outcome State Fault Refusal :=
  .next (if s.released && due then f s else s)

/-- The start-up state is RUN (R170). -/
def Startup.isRun : Startup → Bool
  | .run => true
  | .load | .selftest | .listen | .join | .strapFault => false

/-! ### The event list (R175) -/

/-- A record written: to a full list, the oldest record goes first, the overflow mark is set, and a
REPORT in the store notes that a record was replaced (R175, R176). -/
def Ssl.writeEvent (l : Ssl) (e : Event) : Ssl :=
  if l.events.length < 8 then { l with events := l.events ++ [e] }
  else
    { l with
      events := l.events.tail ++ [e]
      overflow := true
      report := ⟨l.report.carried - 1, true⟩ }

/-- A record of a kind and detail at the SCU's present minute (R175). -/
def State.record (s : State) (k : EventKind) (detail : Nat) : State :=
  { s with ssl := s.ssl.writeEvent ⟨k, detail, s.scu.minute⟩ }

/-! ### The transmit store (R54) -/

/-- A fresh frame's fault count and extra-gap mark (R55, R57). -/
def Retry.fresh : Retry := ⟨0, false⟩

/-- The bytes a notice occupies: its length plus 5 (R54). -/
def Notice.size (n : Notice) : Nat := n.body.length + 5

/-- The bytes an ALARM frame occupies (R54, R179). -/
def alarmSize : Nat := 8

/-- The bytes of the shared part a frame out of the waiting lists occupies, if it is a shared one. -/
def TxFrame.sharedSize : TxFrame → Option Nat
  | .status _ _ => none
  | .notice n => some n.size
  | .alarm _ => some alarmSize

/-- The frame the transmitter has, sending or awaiting judgement; it is still in the store (R54). -/
def Tx.frame : Tx → Option TxFrame
  | .sending f => some f
  | .lost f => f
  | .idle | .holding => none

/-- Sizes of the frames of the shared part other than the waiting notices. -/
def Lc.otherSizes (l : Lc) : List Nat :=
  (if l.alarmWaiting.isSome then [alarmSize] else [])
    ++ ((l.tx.frame.bind TxFrame.sharedSize).toList)

/-- The bytes in use in the shared part of 223 (R54). -/
def Lc.sharedBytes (l : Lc) : Nat := l.otherSizes.sum + (l.notices.map Notice.size).sum

/-- The frames in the shared part, at most 7 (R54). -/
def Lc.sharedFrames (l : Lc) : Nat := l.otherSizes.length + l.notices.length

/-- The LC's answers to a request for space (R55). -/
inductive PostAnswer where
  | refused | dropped | taken
deriving DecidableEq, Repr

/-- The answer to a request for a body of `len` bytes (R55). -/
def Lc.answer (l : Lc) (len : Nat) : PostAnswer :=
  if 48 < len then .refused
  else if 223 < l.sharedBytes + (len + 5) ∨ 7 ≤ l.sharedFrames then .dropped
  else .taken

/-- A notice posted: stored as the newest when taken, counted by NOTICE_DROP when dropped (R55). -/
def Lc.postNotice (l : Lc) (k : NoticeKind) (body : List Byte) : Lc :=
  match l.answer body.length with
  | .refused => l
  | .dropped => { l with counters.noticeDrop := satAdd l.counters.noticeDrop 1 }
  | .taken => { l with notices := l.notices ++ [⟨k, body, l.clock, Retry.fresh⟩] }

/-- The STATUS place is empty (R58). -/
def Lc.statusPlaceEmpty (l : Lc) : Bool :=
  l.statusWaiting.isNone &&
    match l.tx.frame with
    | some (.status _ _) => false
    | some (.notice _) | some (.alarm _) | none => true

/-- A STATUS posted into the place, or a late post counted (R58). -/
def Lc.postStatus (l : Lc) : Lc :=
  if l.statusPlaceEmpty then { l with statusWaiting := some Retry.fresh }
  else { l with counters.statusLate := satAdd l.counters.statusLate 1 }

/-- The waiting notices left when the oldest are discarded until an ALARM frame has room beside
`bytes` and `frames` of other shared frames (R57). -/
def makeRoom (bytes frames : Nat) : List Notice → List Notice
  | [] => []
  | n :: rest =>
    if bytes + ((n :: rest).map Notice.size).sum + alarmSize ≤ 223
        ∧ frames + (n :: rest).length < 7 then n :: rest
    else makeRoom bytes frames rest

/-- An ALARM frame awaiting judgement after a loss waits like any other (R64): a new one takes its
place (log 17), and the removal at fire exit takes it too (DESIGN CHOICE, log 43). -/
def Tx.withoutLostAlarm : Tx → Tx
  | .lost (some (.alarm _)) => .lost none
  | t => t

/-- An ALARM frame posted, with its moment (R54): it replaces a waiting one in place, or makes room by
discarding notices, oldest first, each counted by NOTICE_DROP (R57). -/
def Lc.postAlarm (l : Lc) (a : AlarmBody) : Lc :=
  let l := { l with tx := l.tx.withoutLostAlarm }
  if l.alarmWaiting.isSome then { l with alarmWaiting := some ⟨a, l.clock, Retry.fresh⟩ }
  else
    let kept := makeRoom l.otherSizes.sum l.otherSizes.length l.notices
    { l with
      alarmWaiting := some ⟨a, l.clock, Retry.fresh⟩
      notices := kept
      counters.noticeDrop := satAdd l.counters.noticeDrop (l.notices.length - kept.length) }

/-- The transmitter with any notice cut off or forgotten (R57). -/
def Tx.withoutNotice : Tx → Tx
  | .sending (.notice _) => .idle
  | .lost (some (.notice _)) => .lost none
  | t => t

/-- The flush: every notice leaves the store, no counter changes (R57). -/
def Lc.flush (l : Lc) : Lc := { l with notices := [], tx := l.tx.withoutNotice }

/-- The waiting ALARM frame removed at fire exit; one in transmission is not affected (R57). DESIGN CHOICE
(log 43): one lost behind its head and not yet judged is a waiting one. -/
def Lc.removeAlarm (l : Lc) : Lc :=
  { l with alarmWaiting := none, tx := l.tx.withoutLostAlarm }

/-- A frame back among the waiting ones, where it came from: a notice as the oldest, an ALARM frame
unless a newer one waits already (log 17), a STATUS in its place (R53, R63). -/
def Lc.requeue (l : Lc) (f : TxFrame) : Lc :=
  match f with
  | .status _ r => { l with statusWaiting := some r }
  | .notice n => { l with notices := n :: l.notices }
  | .alarm a => { l with alarmWaiting := some (l.alarmWaiting.getD a) }

/-- The transmitter's frame, if it has one, back among the waiting ones unchanged. -/
def Lc.requeueTx (l : Lc) : Lc :=
  match l.tx.frame with
  | some f => l.requeue f
  | none => l

/-- An alarm hold ordered: carried out at once, cutting off a frame being sent and discarding one in
assembly, nothing counted; an order during a hold extends nothing (R53). A loss or broken character
still awaiting its level's end becomes one of a level that is an alarm hold (log 14). -/
def Lc.orderHold (l : Lc) : Lc :=
  if l.tx = .holding then l
  else { l.requeueTx with tx := .holding, asm := .hunt, brokenFrame := false }

/-! ### The age of notices (R56) -/

/-- Two seconds in the microseconds of the LC's clock. -/
def noticeLife : Nat := 2000000

/-- Whether a notice is `life` or more old at the present clock. -/
def Lc.outlived (l : Lc) (life : Nat) (n : Notice) : Bool := decide (n.posted + life ≤ l.clock)

/-- The transmitter with an outlived notice that waits for judgement forgotten. DESIGN CHOICE (log 42): such a
notice counts as a waiting one (R56) before its loss is judged (R64). -/
def Lc.txWithoutOutlived (l : Lc) (life : Nat) : Tx :=
  match l.tx with
  | .lost (some (.notice n)) => if l.outlived life n then .lost none else l.tx
  | t => t

/-- Waiting notices `life` or more old leave the store, each counted by NOTICE_STALE; a notice in
transmission stays (R56), one lost behind its head does not (log 42). -/
def Lc.expire (l : Lc) (life : Nat) : Lc :=
  let kept := l.notices.filter fun n => !l.outlived life n
  let tx := l.txWithoutOutlived life
  { l with
    notices := kept
    tx := tx
    counters.noticeStale := satAdd l.counters.noticeStale
      (l.notices.length - kept.length + (if tx = l.tx then 0 else 1)) }

/-- The clock brought to the moment of a command; what has passed 2 s by then is gone (R56, log 9). -/
def Lc.advance (l : Lc) (now : Nat) : Lc :=
  { l with clock := max l.clock now }.expire (noticeLife + 1)

/-- The station at a moment. -/
def State.atMoment (s : State) (now : Nat) : State := { s with lc := s.lc.advance now }

/-! ### Whether the line is heard (R67, R52, R65) -/

/-- The transmitter leaves the receive path to the line: neither driving a hold nor sending. -/
def Tx.listening : Tx → Bool
  | .idle | .lost _ => true
  | .sending _ | .holding => false

/-- The transmitter is sending a frame. -/
def Tx.isSending : Tx → Bool
  | .sending _ => true
  | .idle | .lost _ | .holding => false

/-- The LC receives: on after LOAD (R67), and not while the station itself drives the line. -/
def State.receiving (s : State) : Bool :=
  s.released && s.cfg.isSome && s.lc.tx.listening

/-- The receiver watches for a start bit and measures quiet: it receives, and does not wait for the line to
return recessive behind a broken character or an alarm hold heard (R44, R52). -/
def State.watching (s : State) : Bool := s.receiving && !s.lc.awaitRecessive

/-- Bit times of one character (R43). -/
def charBits : Nat := 11

/-! ### The peers a reader takes (R82 to R84) -/

/-- A bay entry's announced state while it is FRESH with STATUS seen (R84). -/
def BayEntry.freshState (e : BayEntry) : Option StatusBody :=
  match e.age with
  | .fresh => e.announced
  | .stale | .lost => none

/-- A bay entry's announced state while it is FRESH or STALE with STATUS seen (R83). -/
def BayEntry.claimState (e : BayEntry) : Option StatusBody :=
  match e.age with
  | .fresh | .stale => e.announced
  | .lost => none

/-- What a bay station announces at present, for the readers of FRESH entries (R84). -/
def Peers.fresh (p : Peers) (n : Nat) : Option StatusBody :=
  (slot? p.bays n).bind BayEntry.freshState

end Sys2Proof.Machine
end

