-- ==== Sys2Proof/Machine/PeerTable.lean ====
section
/-! DEFINITION. The Peer Table (Chapter 4): what it does with the frames it takes, ageing, and the rows
PT_SAMPLE_EVENT, ENTRY_STALE and ENTRY_LOST. -/

namespace Sys2Proof.Machine

/-- The start-up states in which the table takes frames and the SCU judges time (R72, R24). -/
def Startup.takesFrames : Startup → Bool
  | .listen | .join | .run | .strapFault => true
  | .load | .selftest => false

/-- A STATUS body as the table stores it: as received, but for an interval code that is none of the four,
which is stored as that of 16 s (R76). -/
def storedStatus (b : StatusBody) : StatusBody :=
  { b with interval := toByte (Interval.ofAnnounced b.interval).code }

/-- The entry an accepted STATUS makes of a slot (R73, R76). -/
def statusEntry (old : Option BayEntry) (b : StatusBody) : BayEntry where
  age       := .fresh
  silence   := 0
  interval  := Interval.ofAnnounced b.interval
  announced := some (storedStatus b)
  joined    := old.bind BayEntry.joined

/-- The entry an accepted PRESENCE makes of a slot (R74, R76). -/
def presenceEntry (b : PresenceBody) : BayEntry where
  age       := .fresh
  silence   := 0
  interval  := Interval.ofAnnounced b.interval
  announced := none
  joined    := some ⟨b.diag, b.version⟩

/-- The entry an accepted PANEL or TIME frame makes of a slot (R75). -/
def panelEntry (old : Option PanelEntry) : PanelEntry where
  age          := .fresh
  silence      := 0
  lastSequence := old.bind PanelEntry.lastSequence

/-- The table after an accepted STATUS from station n (R73). -/
def Peers.takeStatus (p : Peers) (n : Nat) (b : StatusBody) : Peers :=
  { p with bays := setSlot n (statusEntry (slot? p.bays n) b) p.bays }

/-- The table after an accepted PRESENCE from station n (R74). -/
def Peers.takePresence (p : Peers) (n : Nat) (b : PresenceBody) : Peers :=
  { p with bays := setSlot n (presenceEntry b) p.bays }

/-- The table after an accepted PANEL or TIME frame from panel n (R75). -/
def Peers.takePanel (p : Peers) (n : Nat) : Peers :=
  { p with panels := setSlot n (panelEntry (slot? p.panels n)) p.panels }

/-- The table after an accepted INQUIRY from panel n: an empty slot stays empty (R75). -/
def Peers.takeInquiry (p : Peers) (n : Nat) : Peers :=
  match slot? p.panels n with
  | none => p
  | some _ => p.takePanel n

/-- The table after the SCU has written a panel's last applied sequence (R71, R39). -/
def Peers.applySequence (p : Peers) (n : Nat) (seq : Byte) : Peers :=
  match slot? p.panels n with
  | none => p
  | some e => { p with panels := setSlot n { e with lastSequence := some seq } p.panels }

/-- A station's frame at the table, in the start-up states in which it takes frames (R72). -/
def State.peersTake (s : State) (f : Peers → Peers) : State :=
  if s.ssl.startup.takesFrames then { s with pt := f s.pt } else s

/-! ### Ageing -/

/-- The age state a bay entry's silence and interval give (R78). -/
def bayAge (i : Interval) (silence : Nat) : Age :=
  if silence ≤ 2 * i.seconds then .fresh
  else if silence ≤ 4 * i.seconds then .stale
  else .lost

/-- The age state a panel entry's silence gives (R79). -/
def panelAge (silence : Nat) : Age :=
  if silence ≤ 120 then .fresh else if silence ≤ 240 then .stale else .lost

/-- A bay entry at the table's sample event (R78). -/
def BayEntry.older (e : BayEntry) : BayEntry :=
  let silence := satAdd e.silence 1
  { e with silence := silence, age := bayAge e.interval silence }

/-- A panel entry at the table's sample event (R79). -/
def PanelEntry.older (e : PanelEntry) : PanelEntry :=
  let silence := satAdd e.silence 1
  { e with silence := silence, age := panelAge silence }

/-- Every entry at the table's sample event (R78, R79). -/
def Peers.older (p : Peers) : Peers where
  bays   := p.bays.map fun e => (e.1, e.2.older)
  panels := p.panels.map fun e => (e.1, e.2.older)

/-- The table's sample event, in every start-up state after LOAD (R78). -/
def State.ptSample (s : State) : State :=
  match s.cfg with
  | none => s
  | some _ => { s with pt := s.pt.older }

/-- The age state of a station's entry, bay or panel (R86). -/
def Peers.age? (p : Peers) (n : Nat) : Option Age :=
  match slot? p.bays n with
  | some e => some e.age
  | none => (slot? p.panels n).map PanelEntry.age

/-! ### The rows -/

/-- PT_SAMPLE_EVENT (R78). -/
def execPtSampleEvent (s : State) : Host.Outcome State Fault Refusal :=
  whenReleased s State.ptSample

/-- A station's entry goes from one age state to another at this sample event of the table. -/
def State.ageDue (s : State) (n : Nat) (was will : Age) : Bool :=
  s.cfg.isSome && s.pt.age? n == some was && s.pt.older.age? n == some will

/-- ENTRY_STALE: the table's sample event at which a station's entry becomes STALE (R78, log 1). -/
def execEntryStale (station : Nat) (s : State) : Host.Outcome State Fault Refusal :=
  whenDue (s.ageDue station .fresh .stale) s State.ptSample

/-- ENTRY_LOST: the table's sample event at which a station's entry becomes LOST (R78, log 1). -/
def execEntryLost (station : Nat) (s : State) : Host.Outcome State Fault Refusal :=
  whenDue (s.ageDue station .stale .lost) s State.ptSample

end Sys2Proof.Machine
end

