-- ==== Sys2Proof/Machine/Staging.lean ====
section
/-! DEFINITION. The Heater Staging Unit (Chapter 7): the share of the shed's budget, the allowed stage
count, stage switching, the rotation order, and the rows HSU_SAMPLE_EVENT and MIN_OFF_EXPIRY. -/

namespace Sys2Proof.Machine

/-! ### The share -/

/-- The requests and FROST flags taken into the share from the Peer Table: bay entries FRESH or STALE
with STATUS seen, in ascending station order (R83, R128). -/
def Peers.claims (p : Peers) : List (Nat × Bool) :=
  p.bays.filterMap fun e => e.2.claimState.map fun b => (b.request.toNat, b.frost)

/-- The sum of the gathered requests whose FROST flag is `frost` (R129). -/
def claimSum (frost : Bool) (claims : List (Nat × Bool)) : Nat :=
  ((claims.filter fun q => q.2 == frost).map Prod.fst).sum

/-- The grant of R130, from R, the own FROST flag, S_f, S_n and C. -/
def shareOf (request : Nat) (frost : Bool) (sumFrost sumOther budget : Nat) : Nat :=
  if request = 0 then 0
  else if sumFrost + sumOther ≤ budget then request
  else if budget ≤ sumFrost then (if frost then request * budget / sumFrost else 0)
  else if frost then request else request * (budget - sumFrost) / sumOther

/-- The grant of a sample event: 0 in fire mode (R133), 0 outside RUN unless FROST is set (R132), and
the share of R130 otherwise. -/
def State.grantOf (s : State) (c : Configuration) : Nat :=
  let claims := (s.hru.request, s.hru.frost) :: s.pt.claims
  if s.fmc.inForce then 0
  else if !s.ssl.startup.isRun && !s.hru.frost then 0
  else shareOf s.hru.request s.hru.frost (claimSum true claims) (claimSum false claims)
    c.site.budget

/-- The allowed stage count after a grant g (R134). -/
def allowedNext (bay : BayBlock) (a g : Nat) : Nat :=
  let down := g * bay.stageCount / bay.capacity
  let up := (g - bay.hysteresis) * bay.stageCount / bay.capacity
  if down < a then down else if a < up then up else a

/-! ### Stages -/

/-- A stage that may be switched on (R136). -/
def Stage.expired (t : Stage) : Bool := !t.on && t.minOff == 0 && !t.held

/-- An OFF stage's minimum-off time counted down at a sample event (R137). -/
def Stage.countDown (t : Stage) : Stage :=
  if t.on then t
  else if t.held then { t with held := false }
  else { t with minOff := t.minOff - 1 }

/-- Stage number k, if there is one. -/
def Hsu.stage? (h : Hsu) (k : Nat) : Option Stage := if k = 0 then none else h.stages[k - 1]?

/-- The stage records with that of stage k replaced. -/
def Hsu.setStage (h : Hsu) (k : Nat) (t : Stage) : Hsu :=
  { h with stages := h.stages.set (k - 1) t }

/-- The stage most recently switched on switched off, with min_off_remaining M (R138). -/
def Hsu.offNewest (minOff : Nat) (h : Hsu) : Hsu :=
  match h.onList.getLast? with
  | none => h
  | some k => { h.setStage k ⟨false, minOff, false⟩ with onList := h.onList.dropLast }

/-- The `n` stages most recently switched on switched off one after another (R138). -/
def Hsu.offMany (minOff : Nat) : Nat → Hsu → Hsu
  | 0, h => h
  | n + 1, h => Hsu.offMany minOff n (h.offNewest minOff)

/-- The first stage in the rotation order that has expired (R139). -/
def Hsu.firstExpired (h : Hsu) : Option Nat :=
  h.rotation.find? fun k => (h.stage? k).any Stage.expired

/-- One more stage switched on, if one has expired (R139). -/
def Hsu.onNext (h : Hsu) : Hsu :=
  match h.firstExpired with
  | none => h
  | some k => { h.setStage k ⟨true, 0, false⟩ with onList := h.onList ++ [k] }

/-- Up to `n` stages switched on (R139). -/
def Hsu.onMany : Nat → Hsu → Hsu
  | 0, h => h
  | n + 1, h => Hsu.onMany n h.onNext

/-- Steps 3 to 6 of a sample event whose share evaluation gave `g` (R126). -/
def Hsu.staged (h : Hsu) (bay : BayBlock) (g : Nat) : Hsu :=
  let a := allowedNext bay h.allowed g
  let h := { h with grant := g, allowed := a, stages := h.stages.map Stage.countDown }
  let h := h.offMany bay.minOff (h.onList.length - a)
  h.onMany (a - h.onList.length)

/-- The HSU's sample event (R126). -/
def State.hsuSample (s : State) : State :=
  match s.cfg with
  | none => s
  | some c => { s with hsu := s.hsu.staged c.bay (s.grantOf c) }

/-! ### Rotation, fire, resets, adoption -/

/-- A rotation bump: the first place of the order moves to the last (R140). -/
def Hsu.bump (h : Hsu) : Hsu :=
  match h.rotation with
  | [] => h
  | k :: rest => { h with rotation := rest ++ [k] }

/-- A stage switched off between two sample events, with M and held set; an OFF stage keeps its record
(R141, R145). -/
def Stage.forcedOff (minOff : Nat) (t : Stage) : Stage :=
  if t.on then ⟨false, minOff, true⟩ else t

/-- Every stage off at once, the grant and the allowed count 0, as at fire entry and at a restart
(R141, R145). -/
def Hsu.allOff (minOff : Nat) (h : Hsu) : Hsu :=
  { h with grant := 0, allowed := 0, onList := [], stages := h.stages.map (Stage.forcedOff minOff) }

/-- The adoption of the image: N fresh records and the order 1 to N, unless the kept records are as
many as N (R144, R145). -/
def Hsu.adopt (h : Hsu) (bay : BayBlock) : Hsu :=
  if h.stages.length = bay.stageCount then h
  else
    { h with
      stages := List.replicate bay.stageCount ⟨false, bay.minOff, false⟩
      rotation := (List.range bay.stageCount).map (· + 1) }

/-! ### The rows -/

/-- HSU_SAMPLE_EVENT (R126). -/
def execHsuSampleEvent (s : State) : Host.Outcome State Fault Refusal :=
  whenReleased s State.hsuSample

/-- Stage k expires at this sample event: its last second, or its held mark with none left, is counted
down at step 4 (R137). -/
def State.minOffDue (s : State) (k : Nat) : Bool :=
  s.cfg.isSome && (s.hsu.stage? k).any fun t => !t.expired && t.countDown.expired

/-- MIN_OFF_EXPIRY: the HSU sample event at which a stage expires (R137, log 1). -/
def execMinOffExpiry (stage : Nat) (s : State) : Host.Outcome State Fault Refusal :=
  whenDue (s.minOffDue stage) s State.hsuSample

end Sys2Proof.Machine
end

