-- ==== Sys2Proof/Machine/Calendar.lean ====
section
/-! DEFINITION. The Shift Calendar Unit (Chapter 2): the calendar and its amendments, the evaluation of
the operating phase, the pre-heat latch, time keeping and adoption, the panel's calendar commands,
and the rows SCU_SAMPLE_EVENT, MINUTE_BOUNDARY, HOLD_RETIRE, ELAPSED_MINUTE_TICK and
AMENDMENT_EXPIRY. Entries are numbered from 1 (R21). -/

namespace Sys2Proof.Machine

/-! ### The calendar as a ring (R21, R22) -/

/-- The number of the base entry at minute t: the latest at or before t, or the last entry (R22). -/
def baseEntry (cal : List CalEntry) (t : Nat) : Nat :=
  let passed := cal.countP fun e => decide (e.minute ≤ t)
  if passed = 0 then cal.length else passed

/-- The number of the entry before entry k, the last before entry 1 (R21). -/
def entryBefore (cal : List CalEntry) (k : Nat) : Nat := if k ≤ 1 then cal.length else k - 1

/-- The number of the entry after entry k, entry 1 after the last (R21). -/
def entryAfter (cal : List CalEntry) (k : Nat) : Nat := if cal.length ≤ k then 1 else k + 1

/-- Entry k, if there is one. -/
def entry? (cal : List CalEntry) (k : Nat) : Option CalEntry :=
  if k = 0 then none else cal[k - 1]?

/-- Entry k's scheduled minute. -/
def entryMinute (cal : List CalEntry) (k : Nat) : Nat :=
  match entry? cal k with
  | some e => e.minute
  | none => 0

/-- Entry k's phase. -/
def entryPhase (cal : List CalEntry) (k : Nat) : CalPhase :=
  match entry? cal k with
  | some e => e.phase
  | none => .work

/-- Entry k is fixed. -/
def entryFixed (cal : List CalEntry) (k : Nat) : Bool := (entry? cal k).any CalEntry.fixed

/-- Minutes from minute `a` forward to minute `b` of the week (R22). -/
def minutesForward (a b : Nat) : Nat := (b + 10080 - a) % 10080

/-! ### The amendment list at an evaluation (R29, R30, R34) -/

/-- What a record becomes at an evaluation at minute t; none when it retires (R29, R30). -/
def Amendment.broughtUp (cal : List CalEntry) (t : Nat) (a : Amendment) : Option Amendment :=
  match a with
  | .hold origin k delay stage =>
    if baseEntry cal t = k then
      if minutesForward (entryMinute cal k) t < delay then some (.hold origin k delay .holding)
      else none
    else if baseEntry cal t = entryBefore cal k then
      match stage with
      | .waiting => some a
      | .holding => none
    else none
  | .advance _ k => if baseEntry cal t = entryBefore cal k then some a else none
  | .close _ _ | .lightForce _ _ _ => some a

/-- A record is a HOLD on entry k in stage HOLDING. -/
def Amendment.holdsNow (k : Nat) : Amendment → Bool
  | .hold _ e _ .holding => e == k
  | .hold _ _ _ .waiting | .advance _ _ | .close _ _ | .lightForce _ _ _ => false

/-- A record is an ADVANCE on entry k. -/
def Amendment.advances (k : Nat) : Amendment → Bool
  | .advance _ e => e == k
  | .hold _ _ _ _ | .close _ _ | .lightForce _ _ _ => false

/-- A record is a HOLD or an ADVANCE on entry k (R28). -/
def Amendment.concerns (k : Nat) : Amendment → Bool
  | .hold _ e _ _ | .advance _ e => e == k
  | .close _ _ | .lightForce _ _ _ => false

/-- The entry in force: the base entry, or the entry before it while a HOLD on it is HOLDING (R22). -/
def entryInForce (cal : List CalEntry) (t : Nat) (l : List Amendment) : Nat :=
  let b := baseEntry cal t
  if l.any (Amendment.holdsNow b) then entryBefore cal b else b

/-- The pending entry: the entry after the entry in force (R22). -/
def pendingEntry (cal : List CalEntry) (t : Nat) (l : List Amendment) : Nat :=
  entryAfter cal (entryInForce cal t l)

/-- The scheduled phase, of a list brought up to date (R34). -/
def scheduledPhase (cal : List CalEntry) (t : Nat) (l : List Amendment) : CalPhase :=
  if cal.isEmpty then .work
  else
    let k := pendingEntry cal t l
    if l.any (Amendment.advances k) then entryPhase cal k
    else entryPhase cal (entryInForce cal t l)

/-! ### Pre-heat (R36) -/

/-- The lead in minutes: Lmax in BLIND, else by the WORK setpoint and the bay temperature (R36). -/
def preheatLead (c : Configuration) (br : BayRecord) : Nat :=
  match br.tempSource with
  | .blind => c.site.leadMax
  | .own | .substituted | .held =>
    min c.site.leadMax ((c.phases.work.setpoint - br.tBay) * c.site.leadPerDegree / 10).toNat

/-- A phase the pre-heat looks forward to (R36). -/
def isWorkPhase : CalPhase → Bool
  | .work | .changeover => true
  | .closed | .brk => false

/-- The target entry: from the pending entry on round the calendar, the first of phase WORK or
CHANGEOVER (R36). -/
def preheatTarget (cal : List CalEntry) (pending : Nat) : Option Nat :=
  ((List.range cal.length).map fun i => (pending - 1 + i) % cal.length + 1).find? fun k =>
    isWorkPhase (entryPhase cal k)

/-- The delay of the HOLD record on entry k, 0 without one (R36). -/
def holdDelay (k : Nat) (l : List Amendment) : Nat :=
  match l with
  | [] => 0
  | .hold _ e d _ :: rest => if e = k then d else holdDelay k rest
  | .advance _ _ :: rest | .close _ _ :: rest | .lightForce _ _ _ :: rest => holdDelay k rest

/-- The minutes until the target entry take effect are at or below the lead (R36). DESIGN CHOICE (log 40):
R36's formula decides also where the target entry's minute is the present one, so that 0 minutes are at or
below a lead of 0. -/
def preheatReached (c : Configuration) (br : BayRecord) (t : Nat) (l : List Amendment) : Bool :=
  (preheatTarget c.calendar (pendingEntry c.calendar t l)).any fun k =>
    decide (minutesForward t ((entryMinute c.calendar k + holdDelay k l) % 10080)
      ≤ preheatLead c br)

/-! ### The evaluation of the operating phase (R34 to R36, R38) -/

/-- The operating phase and the latch, from the scheduled phase and the latch before (R35). -/
def operatingPhase (closed valid : Bool) (scheduled : CalPhase) (latch : Bool) : Phase × Bool :=
  if closed then (.closed, false)
  else if !valid then (.work, latch)
  else
    match scheduled with
    | .closed => if latch then (.preheat, true) else (.closed, false)
    | .work => (.work, false)
    | .brk => (.brk, false)
    | .changeover => (.changeover, false)

/-- The SCU after an evaluation under the adopted image; at a minute boundary or time step the latch
may be set first (R34, R35, R36). -/
def Scu.evaluated (u : Scu) (c : Configuration) (br : BayRecord) (boundary : Bool) : Scu :=
  let l := u.amendments.filterMap (Amendment.broughtUp c.calendar u.minute)
  let scheduled := scheduledPhase c.calendar u.minute l
  let closed := l.any Amendment.isClose
  let sets := boundary && u.valid && !closed && scheduled == .closed && !u.latch
    && preheatReached c br u.minute l
  let r := operatingPhase closed u.valid scheduled (u.latch || sets)
  { u with amendments := l, phase := r.1, latch := r.2 }

/-- A new state of the SCU, with the rotation bump a change of operating phase hands the HSU (R38). -/
def State.withScu (s : State) (u : Scu) : State :=
  { s with scu := u, hsu := if u.phase = s.scu.phase then s.hsu else s.hsu.bump }

/-- An evaluation of the operating phase; WORK until the image is adopted (R35). -/
def State.evaluate (s : State) (boundary : Bool) : State :=
  s.withScu
    (match s.cfg with
     | none => { s.scu with phase := .work }
     | some c => s.scu.evaluated c s.br boundary)

/-! ### Time keeping (R23 to R27) -/

/-- The time of week and the elapsed count one second on (R23). -/
def Scu.oneSecond (u : Scu) : Scu :=
  { u with
    second := if u.second = 59 then 0 else u.second + 1
    minute := if u.second = 59 then (if u.minute = 10079 then 0 else u.minute + 1) else u.minute
    elapsed := if u.elapsed = 59 then 0 else u.elapsed + 1 }

/-- Source loss (R26). -/
def Scu.loseSource (u : Scu) : Scu := { u with rank := 15, source := none }

/-- The time source's entry is LOST (R26). -/
def State.sourceIsLost (s : State) : Bool :=
  s.scu.source.any fun n => s.pt.age? n == some .lost

/-- A time in seconds of the week (R25). -/
def weekSecond (minute second : Nat) : Nat := minute * 60 + second

/-- Seconds from one time of week forward to another. -/
def secondsForward (a b : Nat) : Nat := (b + 604800 - a) % 604800

/-- A minute lies among those a forward step from minute `a` to minute `b` skips (R25). -/
def skipped (a b m : Nat) : Bool :=
  decide (0 < minutesForward a m) && decide (minutesForward a m ≤ minutesForward a b)

/-- A record's fate at a forward step from minute `a` to minute `b`: a WAITING HOLD whose minute is
skipped retires unless the new time lies in its hold window, an ADVANCE whose minute is skipped
retires (R29, R30). DESIGN CHOICE (log 41): so on a calendar of any length, the entry before k reached by a
wrap round the calendar included, where R29's table alone keeps the HOLD and its further case names two
entries. -/
def Amendment.survivesStep (cal : List CalEntry) (a b : Nat) : Amendment → Bool
  | .hold _ k delay .waiting =>
    !skipped a b (entryMinute cal k) || decide (minutesForward (entryMinute cal k) b < delay)
  | .advance _ k => !skipped a b (entryMinute cal k)
  | .hold _ _ _ .holding | .close _ _ | .lightForce _ _ _ => true

/-- The calendar in use; none is consulted before the adoption. -/
def State.calendar (s : State) : List CalEntry :=
  match s.cfg with
  | some c => c.calendar
  | none => []

/-- A time step to the heard time: the amendments a forward step retires, the time made valid, the latch
cleared, the phase evaluated as at a minute boundary (R25, R27). -/
def State.timeStep (s : State) (minute second : Nat) : State :=
  let ahead := secondsForward (weekSecond s.scu.minute s.scu.second) (weekSecond minute second)
  let l :=
    if 0 < ahead ∧ ahead < 302400 then
      s.scu.amendments.filter (Amendment.survivesStep s.calendar s.scu.minute minute)
    else s.scu.amendments
  { s with scu := { s.scu with
      minute := minute, second := second, valid := true, latch := false, amendments := l } }.evaluate
    true

/-- The own time lies within 2 s of the heard time, the short way round the week (R25). -/
def Scu.near (u : Scu) (minute second : Nat) : Bool :=
  let ahead := secondsForward (weekSecond u.minute u.second) (weekSecond minute second)
  decide (min ahead (604800 - ahead) ≤ 2)

/-- A heard time adopted from a sender at a heard rank (R24, R25). -/
def State.adoptTime (s : State) (sender rank minute second : Nat) : State :=
  let s' := { s with scu := { s.scu with rank := rank + 1, source := some sender } }
  if s.scu.valid && s.scu.near minute second then s' else s'.timeStep minute second

/-- A heard minute and second within their ranges (R179). -/
def timeInRange (minute second : Nat) : Bool := decide (minute ≤ 10079) && decide (second ≤ 59)

/-- A heard time and rank judged (R24). A minute or second out of range is never adopted (R179); a rank
of 14 or more from the source loses it all the same (log 12). -/
def State.judgeTime (s : State) (sender rank minute second : Nat) : State :=
  if !s.ssl.startup.takesFrames then s
  else if s.scu.source = some sender then
    if 14 ≤ rank then { s with scu := s.scu.loseSource }
    else if timeInRange minute second then s.adoptTime sender rank minute second
    else s
  else if rank + 1 < s.scu.rank ∧ timeInRange minute second = true then
    s.adoptTime sender rank minute second
  else s

/-! ### Calendar signatures (R41) -/

/-- The bay stations, ascending, that announce FRESH with STATUS seen a signature other than `own`. -/
def Peers.differing (p : Peers) (own : Half) : List Nat :=
  (p.bays.filter fun e => e.2.freshState.any fun b => b.signature != own).map Prod.fst

/-- The comparison of signatures at a sample event after LOAD (R41). -/
def State.compareSignatures (s : State) : State :=
  match s.cfg with
  | none => s
  | some c =>
    match s.pt.differing (toHalf c.signature) with
    | [] => { s with scu := { s.scu with mismatch := false } }
    | n :: _ =>
      let s' := { s with scu := { s.scu with mismatch := true } }
      if s.scu.mismatch then s' else s'.record .calendarMismatch n

/-! ### Amendment countdowns (R33) -/

/-- A record at an elapsed-minute tick; none when its remaining reaches 0 (R33). -/
def Amendment.tick : Amendment → Option Amendment
  | .close origin (some r) => if r ≤ 1 then none else some (.close origin (some (r - 1)))
  | .lightForce origin r level =>
    if r ≤ 1 then none else some (.lightForce origin (r - 1) level)
  | .close origin none => some (.close origin none)
  | .hold origin k d st => some (.hold origin k d st)
  | .advance origin k => some (.advance origin k)

/-! ### The sample event -/

/-- The SCU one second on, its source lost where its entry is LOST, its records counted down at an
elapsed-minute tick (R23, R26, R33). -/
def State.scuSecond (s : State) : Scu :=
  let u := s.scu.oneSecond
  let u := if s.sourceIsLost then u.loseSource else u
  if s.scu.elapsed = 59 then { u with amendments := u.amendments.filterMap Amendment.tick } else u

/-- The SCU's sample event: time, source, countdowns, signatures, then one evaluation, as at a minute
boundary when the second rolls to 0 (R23, R33, R35, R36, R41; log 33). -/
def State.scuSample (s : State) : State :=
  ({ s with scu := s.scuSecond }.compareSignatures).evaluate (s.scu.second == 59)

/-! ### Panel commands of the calendar (R28, R40) -/

/-- A record added as the newest: a HOLD or ADVANCE first removes the one on its entry; a full list
loses its oldest record with an event; the phase is evaluated (R28). The command is one change of
the list (log 11). -/
def State.addAmendment (s : State) (a : Amendment) : State :=
  let l :=
    match a with
    | .hold _ k _ _ | .advance _ k => s.scu.amendments.filter fun x => !x.concerns k
    | .close _ _ | .lightForce _ _ _ => s.scu.amendments
  let s' :=
    if l.length < 8 then { s with scu := { s.scu with amendments := l ++ [a] } }
    else
      { s with scu := { s.scu with amendments := l.tail ++ [a] } }.record .amendmentReplaced
        ((l.head?.map Amendment.code).getD 0)
  s'.evaluate false

/-- The pending entry at the present moment (R40). -/
def State.pendingNow (s : State) : Nat := pendingEntry s.calendar s.scu.minute s.scu.amendments

/-- A HOLD_PHASE or ADVANCE_PHASE may act: the time is valid, the calendar has two entries or more and
the pending entry is not fixed (R40). -/
def State.mayAmend (s : State) : Bool :=
  s.scu.valid && decide (2 ≤ s.calendar.length) && !entryFixed s.calendar s.pendingNow

/-- HOLD_PHASE from a panel (R40). -/
def State.holdPhase (s : State) (panel delay : Nat) : State :=
  let k := s.pendingNow
  let gap := minutesForward (entryMinute s.calendar k)
    (entryMinute s.calendar (entryAfter s.calendar k))
  if s.mayAmend && decide (1 ≤ delay) && decide (delay ≤ 240) && decide (1 < gap) then
    s.addAmendment (.hold panel k (min delay (gap - 1)) .waiting)
  else s

/-- ADVANCE_PHASE from a panel (R40). -/
def State.advancePhase (s : State) (panel : Nat) : State :=
  if s.mayAmend then s.addAmendment (.advance panel s.pendingNow) else s

/-- CLOSE_BAYS from a panel (R40). -/
def State.closeBays (s : State) (panel minutes : Nat) : State :=
  if 1440 < minutes then s
  else s.addAmendment (.close panel (if minutes = 0 then none else some minutes))

/-- OPEN_BAYS (R40). -/
def State.openBays (s : State) : State :=
  if s.scu.bayClosed then
    { s with scu := { s.scu with
        amendments := s.scu.amendments.filter fun a => !a.isClose } }.evaluate false
  else s

/-- LIGHT_FORCE from a panel (R40). -/
def State.lightForce (s : State) (panel minutes code : Nat) : State :=
  if 1 ≤ minutes ∧ minutes ≤ 240 ∧ code ≤ 250 then
    s.addAmendment (.lightForce panel minutes (4 * code))
  else s

/-- CANCEL_AMENDMENTS (R40). -/
def State.cancelAmendments (s : State) : State :=
  if s.scu.amendments.isEmpty then s
  else { s with scu := { s.scu with amendments := [] } }.evaluate false

/-! ### The rows -/

/-- SCU_SAMPLE_EVENT (R23). -/
def execScuSampleEvent (s : State) : Host.Outcome State Fault Refusal :=
  whenReleased s State.scuSample

/-- MINUTE_BOUNDARY: the SCU sample event at which the second rolls to 0 (R23, R36, log 1). -/
def execMinuteBoundary (s : State) : Host.Outcome State Fault Refusal :=
  whenDue (s.scu.second == 59) s State.scuSample

/-- At this sample event the minutes since held entry k's scheduled minute reach its delay (R29). -/
def State.holdRetireDue (s : State) (k : Nat) : Bool :=
  let t := s.scu.oneSecond.minute
  s.cfg.isSome && baseEntry s.calendar t == k && s.scu.amendments.any fun a =>
    match a with
    | .hold _ e d _ => e == k && decide (d ≤ minutesForward (entryMinute s.calendar k) t)
    | .advance _ _ | .close _ _ | .lightForce _ _ _ => false

/-- HOLD_RETIRE: the SCU sample event at which a HOLD retires with its entry in force (R29, log 1). -/
def execHoldRetire (entry : Nat) (s : State) : Host.Outcome State Fault Refusal :=
  whenDue (s.holdRetireDue entry) s State.scuSample

/-- ELAPSED_MINUTE_TICK: the SCU sample event at which the elapsed count rolls to 0 (R23, R33, log 1). -/
def execElapsedMinuteTick (s : State) : Host.Outcome State Fault Refusal :=
  whenDue (s.scu.elapsed == 59) s State.scuSample

/-- A record's remaining reaches 0 at this sample event (R33). -/
def State.amendmentDue (s : State) : Bool :=
  s.scu.elapsed == 59 && s.scu.amendments.any fun a => a.tick.isNone

/-- AMENDMENT_EXPIRY: the SCU sample event at which a CLOSE or LIGHT_FORCE retires (R33, log 1). -/
def execAmendmentExpiry (s : State) : Host.Outcome State Fault Refusal :=
  whenDue s.amendmentDue s State.scuSample

end Sys2Proof.Machine
end

