-- ==== Sys2Proof/Machine/Air.lean ====
section
/-! DEFINITION. The Air Balance Unit (Chapter 8): fan speed, extract, need, uncovered extract, supply
target, damper and commanded supply, and the row ABU_SAMPLE_EVENT. -/

namespace Sys2Proof.Machine

/-- The target speed s_t from the exhaust index and the phase's ventilation minimum (R148). -/
def targetSpeedOf (bay : BayBlock) (ventMin : Nat) : Option Nat → Nat
  | none => 100
  | some ei =>
    if bay.eiHigh ≤ ei then 100
    else if ei ≤ bay.eiLow then ventMin
    else ventMin + (100 - ventMin) * (ei - bay.eiLow) / (bay.eiHigh - bay.eiLow)

/-- The commanded speed moved toward its target: up at once, down by 2 (R149). -/
def speedToward (s target : Nat) : Nat := if s ≤ target then target else max target (s - 2)

/-- The damper moved toward its target by at most 5 points (R154). -/
def damperToward (p target : Nat) : Nat :=
  if p ≤ target then min target (p + 5) else max target (p - 5)

/-- The commanded supply of a damper position (R155). -/
def supplyOf (bay : BayBlock) (damper : Nat) : Nat := damper * bay.supplyMax / 100

/-- The extract flow of a speed (R150). -/
def extractOf (bay : BayBlock) (speed : Nat) : Nat := speed * bay.extractMax / 100

/-- The need: the extract less the natural inflow of the unsealed doors (R150). -/
def needOf (bay : BayBlock) (extract unsealed : Nat) : Nat := extract - unsealed * bay.doorInflow

/-- A neighbour's uncovered extract as stored, 0 for no neighbour (R152). -/
def Peers.uncoveredOf (p : Peers) (n : Nat) : Nat :=
  match p.fresh n with
  | some b => b.uncovered.toNat
  | none => 0

/-- What the neighbours n-1 and n+1 of station n cannot cover (R152). -/
def Peers.neighboursUncovered (p : Peers) (own : Nat) : Nat :=
  p.uncoveredOf (own - 1) + p.uncoveredOf (own + 1)

/-- The supply target qs_t (R153). -/
def supplyTargetOf (bay : BayBlock) (need neighbours : Nat) : Nat :=
  min bay.supplyMax (need + neighbours / 2)

/-- The ABU's sample event: in fire mode speed and damper stay at their fire values and the uncovered
extract is 0 (R158); before RUN they stay as they are (R156); in RUN they follow their targets. The
targets keep their values while they are not computed (log 19). -/
def Abu.next (b : Abu) (bay : BayBlock) (fire run : Bool) (ventMin : Nat) (exhaust : Option Nat)
    (unsealed neighbours : Nat) : Abu :=
  let targetSpeed := if !fire && run then targetSpeedOf bay ventMin exhaust else b.targetSpeed
  let speed :=
    if fire then bay.fireSpeed else if run then speedToward b.speed targetSpeed else b.speed
  let extract := extractOf bay speed
  let need := needOf bay extract unsealed
  let supplyTarget := supplyTargetOf bay need neighbours
  let damperTarget := if !fire && run then supplyTarget * 100 / bay.supplyMax else b.damperTarget
  let damper :=
    if fire then bay.fireDamper else if run then damperToward b.damper damperTarget else b.damper
  { speed, damper, targetSpeed, extract, need, supplyTarget, damperTarget,
    uncovered := if fire then 0 else need - bay.supplyMax,
    supply := supplyOf bay damper }

/-- The ABU's sample event (R146). -/
def State.abuSample (s : State) : State :=
  match s.cfg with
  | none => s
  | some c =>
    let ventMin := (c.row s.scu.phase).ventMin
    let neighbours := s.pt.neighboursUncovered s.ssl.own
    { s with
      abu := s.abu.next c.bay s.fmc.inForce s.ssl.startup.isRun ventMin s.br.exhaust s.br.unsealed
        neighbours }

/-- The bay block whose fire values hold: the adopted one, and the fallback's during LOAD (R157). -/
def State.bayOrFallback (s : State) : BayBlock :=
  match s.cfg with
  | some c => c.bay
  | none => fallbackBay

/-- Fire entry at the ABU, and a second entry: the fire values at once, nothing uncovered (R157). -/
def Abu.fireEnter (b : Abu) (bay : BayBlock) : Abu :=
  { b with
    speed := bay.fireSpeed, damper := bay.fireDamper, uncovered := 0
    supply := supplyOf bay bay.fireDamper }

/-- The adoption of the image: the adopted fire values in fire mode, otherwise the commanded supply of
the held damper (R157, R159, R160). -/
def Abu.adopt (b : Abu) (bay : BayBlock) (fire : Bool) : Abu :=
  if fire then
    { b with
      speed := bay.fireSpeed, damper := bay.fireDamper, supply := supplyOf bay bay.fireDamper }
  else { b with supply := supplyOf bay b.damper }

/-- ABU_SAMPLE_EVENT (R146). -/
def execAbuSampleEvent (s : State) : Host.Outcome State Fault Refusal :=
  whenReleased s State.abuSample

end Sys2Proof.Machine
end

