-- ==== Sys2Proof/Machine/Heat.lean ====
section
/-! DEFINITION. The Heat Request Unit (Chapter 6): the door curtains, the heat request with its three
terms, SHORT and FROST, and the rows HRU_SAMPLE_EVENT and RUN_ON_EXPIRY. -/

namespace Sys2Proof.Machine

/-- A door stands OPEN_UNSEALED (R112). -/
def DoorState.isUnsealed : DoorState → Bool
  | .openUnsealed => true
  | .closed | .openSealed | .disabled => false

/-- A curtain record at a sample event, by whether curtains are allowed and its door's state, with the
run-on time Tr (R112). -/
def Curtain.next (runOn : Nat) (allowed : Bool) (door : DoorState) (c : Curtain) : Curtain :=
  if allowed then
    if door.isUnsealed then .running
    else
      match c with
      | .off => .off
      | .running => if runOn = 0 then .off else .runOn runOn
      | .runOn r => if r ≤ 1 then .off else .runOn (r - 1)
      | .inhibited => .off
  else .inhibited

/-- The curtain output (R111). -/
def Curtain.output : Curtain → Bool
  | .running | .runOn _ => true
  | .off | .inhibited => false

/-- The error term B (R115). -/
def errorTerm (capacity band : Nat) (setpoint tBay : Int) : Nat :=
  let e := setpoint - tBay
  if e ≤ 0 then 0 else min capacity ((e * capacity / band).toNat)

/-- One door's loss (R116). A door OPEN_UNSEALED has its curtain RUNNING or INHIBITED. -/
def doorLossOf (ld : Nat) (door : DoorState) (c : Curtain) : Nat :=
  match door with
  | .openUnsealed => if c.output then ld else 2 * ld
  | .openSealed => ld / 4
  | .closed | .disabled => 0

/-- The door term L, over doors 1 to 8 (R116). -/
def doorTerm (ld : Nat) (doors : Eight Door) (curtains : Eight Curtain) : Nat :=
  ((Eight.ofFn fun k => doorLossOf ld (doors.get k).state (curtains.get k)).toList).sum

/-- The intake term V (R117). -/
def intakeTerm (supply : Nat) (setpoint tOut : Int) : Nat :=
  supply * (max 0 (setpoint - tOut)).toNat * 12 / 1000

/-- The FROST flag after a sample event, with the frost limit F (R121). -/
def frostNext (limit : Nat) (source : TempSource) (tBay : Int) (frost : Bool) : Bool :=
  match source with
  | .blind => frost
  | .own | .substituted | .held =>
    if tBay < limit then true else if (limit : Int) + 10 ≤ tBay then false else frost

/-- The curtain records after step 1 of a sample event (R109, R111). -/
def State.nextCurtains (s : State) (c : Configuration) : Eight Curtain :=
  let allowed := !s.fmc.inForce && (c.row s.scu.phase).curtains
  Eight.ofFn fun k => (s.hru.curtains.get k).next c.bay.runOn allowed (s.br.doors.get k).state

/-- The three terms of the request at a sample event whose curtains are `curtains` (R114 to R117). -/
def State.heatTerms (s : State) (c : Configuration) (curtains : Eight Curtain) : HeatTerms where
  error  := errorTerm c.bay.capacity c.bay.band (c.setpoint s.scu.phase) s.br.tBay
  doors  := doorTerm c.bay.doorLoss s.br.doors curtains
  intake := intakeTerm s.abu.supply (c.setpoint s.scu.phase) s.br.tOut

/-- B + L + V. -/
def HeatTerms.sum (t : HeatTerms) : Nat := t.error + t.doors + t.intake

/-- The request, SHORT and the terms of a sample event: 0 in fire mode (R122), the blind request in
BLIND (R119), and min(G, B + L + V) otherwise (R118). Where the terms are not used they are absent
(log 18). -/
def State.heatRequest (s : State) (c : Configuration) (curtains : Eight Curtain) :
    Nat × Bool × Option HeatTerms :=
  if s.fmc.inForce then (0, false, none)
  else
    match s.br.tempSource with
    | .blind => (c.bay.blindRequest, false, none)
    | .own | .substituted | .held =>
      let t := s.heatTerms c curtains
      (min c.bay.capacity t.sum, decide (c.bay.capacity < t.sum), some t)

/-- The HRU's sample event: curtains, request and SHORT, FROST (R109). -/
def State.hruSample (s : State) : State :=
  match s.cfg with
  | none => s
  | some c =>
    let curtains := s.nextCurtains c
    let r := s.heatRequest c curtains
    { s with hru :=
        { curtains := curtains, request := r.1, short := r.2.1, terms := r.2.2,
          frost := frostNext c.site.frostLimit s.br.tempSource s.br.tBay s.hru.frost } }

/-- Fire entry at the HRU: every curtain INHIBITED, request 0, SHORT clear, FROST kept (R122). -/
def Hru.fireEnter (h : Hru) : Hru :=
  { h with curtains := eight .inhibited, request := 0, short := false, terms := none }

/-- HRU_SAMPLE_EVENT (R109). -/
def execHruSampleEvent (s : State) : Host.Outcome State Fault Refusal :=
  whenReleased s State.hruSample

/-- The run-on of door k+1's curtain ends at this sample event: the door stays out of OPEN_UNSEALED,
curtains are allowed and one second remains (R112, R113). -/
def State.runOnDue (s : State) (k : Fin 8) : Bool :=
  match s.cfg with
  | none => false
  | some c =>
    !s.fmc.inForce && (c.row s.scu.phase).curtains && !(s.br.doors.get k).state.isUnsealed &&
      match s.hru.curtains.get k with
      | .runOn r => decide (r ≤ 1)
      | .off | .running | .inhibited => false

/-- RUN_ON_EXPIRY: the HRU sample event at which a curtain's run-on ends (R113, log 1). -/
def execRunOnExpiry (door : Fin 8) (s : State) : Host.Outcome State Fault Refusal :=
  whenDue (s.runOnDue door) s State.hruSample

end Sys2Proof.Machine
end

