-- ==== Sys2Proof/Machine/Lighting.lean ====
section
/-! DEFINITION. The Lighting Controller (Chapter 5): group targets and ramps, pre-light, travel
notices raised and forwarded, and the rows LTC_SAMPLE_EVENT and PRELIGHT_EXPIRY. -/

namespace Sys2Proof.Machine

/-! ### Targets and ramps -/

/-- The daylight cap state after a sample event: it engages at the threshold and releases below nine
tenths of it or on an INVALID value (R92). -/
def capNext (threshold : Nat) (engaged : Bool) : Option Nat → Bool
  | none => false
  | some d => decide (threshold ≤ d) || (engaged && decide (9 * threshold / 10 ≤ d))

/-- The force level: that of the newest LIGHT_FORCE record; absent when force is inactive (R32). -/
def forceLevel : List Amendment → Option Nat
  | [] => none
  | a :: rest =>
    match forceLevel rest with
    | some v => some v
    | none =>
      match a with
      | .lightForce _ _ level => some level
      | .hold _ _ _ _ | .advance _ _ | .close _ _ => none

/-- A zone holds its groups up while it is OCCUPIED or HOLD (R93). -/
def Zone.holdsUp (z : Zone) : Bool :=
  match z.state with
  | .occupied | .hold => true
  | .vacant => false

/-- Some zone whose group list names group g+1 holds it up (R93). -/
def groupHeldUp (zones : Six Zone) (g : Fin 6) : Bool :=
  zones.toList.any fun z => z.groups.getLsbD g.val && z.holdsUp

/-- Pre-light is ACTIVE (R99). -/
def Prelight.isActive : Prelight → Bool
  | .idle => false
  | .active _ => true

/-- The uncapped target of group g+1 in RUN outside fire mode (R93). -/
def uncappedTarget (c : Configuration) (phase : Phase) (force : Option Nat) (zones : Six Zone)
    (prelit : Bool) (g : Fin 6) : Nat :=
  match force with
  | some level => level
  | none =>
    let row := c.row phase
    max (row.base.get g)
      (max (if groupHeldUp zones g then row.occ.get g else 0)
        (if (c.bay.groups.get g).aisle && prelit then c.phases.work.base.get g else 0))

/-- A target under the daylight cap (R94). -/
def cappedTarget (gc : GroupConfig) (engaged : Bool) (target : Nat) : Nat :=
  if gc.capEnabled && engaged then min target gc.capLevel else target

/-- A level moved toward its target by at most the ramp rate, never past it (R96). -/
def rampToward (rate level target : Nat) : Nat :=
  if level ≤ target then min target (level + rate) else max target (level - rate)

/-- The target of group g+1 at a sample event: full in fire mode, the start-up level before RUN, and by
R93 and R94 in RUN. -/
def State.lightTarget (s : State) (c : Configuration) (engaged : Bool) (g : Fin 6) : Nat :=
  if s.fmc.inForce then 1000
  else if s.ssl.startup.isRun then
    cappedTarget (c.bay.groups.get g) engaged
      (uncappedTarget c s.scu.phase (forceLevel s.scu.amendments) s.br.zones s.ltc.prelight.isActive g)
  else c.site.startLevel

/-- Pre-light counted down by one sample event (R99). -/
def Prelight.countDown : Prelight → Prelight
  | .idle => .idle
  | .active r => if r ≤ 1 then .idle else .active (r - 1)

/-- The LTC's sample event: cap state, targets, levels, pre-light (R90). -/
def State.ltcSample (s : State) : State :=
  match s.cfg with
  | none => s
  | some c =>
    let engaged := capNext c.bay.dayThreshold s.ltc.capEngaged s.br.daylight
    let group (g : Fin 6) : Group :=
      let target := s.lightTarget c engaged g
      ⟨rampToward (c.bay.groups.get g).rampRate (s.ltc.groups.get g).level target, target⟩
    { s with ltc := { s.ltc with
        groups := Six.ofFn group, capEngaged := engaged, prelight := s.ltc.prelight.countDown } }

/-! ### Fire, adoption -/

/-- Fire entry at the LTC: every target and level 1000 at once, pre-light IDLE (R97). -/
def Ltc.fireEnter (l : Ltc) : Ltc := { l with groups := six ⟨1000, 1000⟩, prelight := .idle }

/-- The adoption of the image: the start-up level at once, except while fire mode is in force (R107,
R97). -/
def Ltc.adopt (l : Ltc) (startLevel : Nat) (fire : Bool) : Ltc :=
  if fire then l else { l with groups := six ⟨startLevel, startLevel⟩ }

/-! ### Travel notices -/

/-- A pair added to the recent-notice list, the oldest going first when it holds 16 (R104). -/
def recentAdd (pair : Nat × Nat) (l : List (Nat × Nat)) : List (Nat × Nat) :=
  if l.length < 16 then l ++ [pair] else l.tail ++ [pair]

/-- Pre-light started or restarted at the hold P (R99). -/
def State.startPrelight (s : State) (c : Configuration) : State :=
  { s with ltc := { s.ltc with prelight := .active c.site.prelightHold } }

/-- A pair noted in the recent-notice list (R104). -/
def State.noteNotice (s : State) (origin sequence : Nat) : State :=
  { s with ltc := { s.ltc with recent := recentAdd (origin, sequence) s.ltc.recent } }

/-- A TRAVEL notice posted to the LC (R101, R106). -/
def State.postTravel (s : State) (b : TravelBody) : State :=
  { s with lc := s.lc.postNotice .travel b.bytes }

/-- The direction code of an edge (Section 11.3). -/
def directionCode : Edge → Byte
  | .east => 1
  | .west | .noEdge => 0

/-- A travel notice raised from an arrival at an edge; the sequence counter wraps at 255 (R101). -/
def State.raiseNotice (s : State) (c : Configuration) (edge : Edge) : State :=
  let seq := s.ltc.sequence
  let s' := s.noteNotice s.ssl.own seq
  { s' with ltc := { s'.ltc with sequence := (seq + 1) % 256 } }.postTravel
    ⟨toByte s.ssl.own, directionCode edge, toByte (c.site.lookAhead - 1), toByte seq⟩

/-- An edge arrival the FIU hands over: in RUN outside fire mode it starts pre-light and raises a
notice; otherwise it has no effect (R100). -/
def State.edgeArrival (s : State) (c : Configuration) (edge : Edge) : State :=
  if s.ssl.startup.isRun && !s.fmc.inForce then (s.startPrelight c).raiseNotice c edge else s

/-- A received notice is weighed by state and fields (R102). -/
def State.weighsNotice (s : State) (b : TravelBody) : Bool :=
  s.ssl.startup.isRun && !s.fmc.inForce && isBayNumber b.origin.toNat
    && b.origin.toNat != s.ssl.own && decide (b.direction.toNat ≤ 1)

/-- The sender lies on the side the notice comes from (R103). -/
def fromItsSide (own sender : Nat) (direction : Byte) : Bool :=
  if direction = 1 then decide (sender < own) else decide (own < sender)

/-- The hops remaining a received notice is taken with (R106). -/
def takenHops (b : TravelBody) : Nat := min b.hops.toNat 2

/-- A TRAVEL frame from the station `sender` at the LTC (R102 to R106). -/
def State.travelNotice (s : State) (c : Configuration) (sender : Nat) (b : TravelBody) : State :=
  let pair := (b.origin.toNat, b.sequence.toNat)
  if s.weighsNotice b && fromItsSide s.ssl.own sender b.direction
      && !s.ltc.recent.contains pair then
    let acted := (s.noteNotice pair.1 pair.2).startPrelight c
    if 0 < takenHops b then acted.postTravel { b with hops := toByte (takenHops b - 1) } else acted
  else s

/-! ### The rows -/

/-- LTC_SAMPLE_EVENT (R90). -/
def execLtcSampleEvent (s : State) : Host.Outcome State Fault Refusal :=
  whenReleased s State.ltcSample

/-- Pre-light runs out at this sample event (R99). -/
def State.prelightDue (s : State) : Bool :=
  s.cfg.isSome &&
    match s.ltc.prelight with
    | .active r => decide (r ≤ 1)
    | .idle => false

/-- PRELIGHT_EXPIRY: the LTC sample event at which pre-light becomes IDLE (R99, log 1). -/
def execPrelightExpiry (s : State) : Host.Outcome State Fault Refusal :=
  whenDue s.prelightDue s State.ltcSample

end Sys2Proof.Machine
end

