-- ==== Sys2Proof/Machine/Fire.lean ====
section
/-! DEFINITION. The Fire Mode Controller (Chapter 9): entering and leaving fire mode, the alarm hold and
ALARM frame, the repeat timer, and the rows FMC_SAMPLE_EVENT and REPEAT_TIMER_EXPIRY. -/

namespace Sys2Proof.Machine

/-- The own station number as an origin; 0 is UNKNOWN (R162). -/
def ownOrigin (own : Nat) : Option Nat := if own = 0 then none else some own

/-- The hold ordered and the ALARM frame posted, the count raised and the timer set to 30: a send that
is made (R165). -/
def State.makeSend (s : State) : State :=
  let body : AlarmBody := ⟨toByte s.ssl.own, 1, toByte s.fmc.repeatCount⟩
  { s with
    lc := s.lc.orderHold.postAlarm body
    fmc := { s.fmc with repeatCount := min 255 (s.fmc.repeatCount + 1), timer := some 30 } }

/-- One send, in the form of the start-up state (R165). -/
def State.send (s : State) : State :=
  match s.ssl.startup with
  | .load => { s with fmc := { s.fmc with owed := true } }
  | .selftest | .listen | .join | .run => s.makeSend
  | .strapFault => { s with fmc := { s.fmc with owed := false, timer := none } }

/-- The fire entry handed to the LTC, the HRU, the HSU and the ABU (R97, R122, R141, R157). -/
def State.handFireEntry (s : State) : State :=
  let bay := s.bayOrFallback
  { s with
    ltc := s.ltc.fireEnter
    hru := s.hru.fireEnter
    hsu := s.hsu.allOff bay.minOff
    abu := s.abu.fireEnter bay }

/-- Entry into FIRE from the line or the own input, without the send (R164). -/
def State.enterFire (s : State) (cause : Cause) (origin : Option Nat) : State :=
  let s' := { s with fmc := { s.fmc with mode := .fire cause origin }, lc := s.lc.flush }
  (s'.record .fireEnter (origin.getD 0)).handFireEntry

/-- A change of the settled fire input at the FMC (R162). -/
def State.fireInputChanged (s : State) (active : Bool) : State :=
  match s.fmc.mode, active with
  | .normal, true => (s.enterFire .own (ownOrigin s.ssl.own)).send
  | .normal, false => s
  | .fire .heard _, true =>
    { s with
      fmc := { s.fmc with mode := .fire .own (ownOrigin s.ssl.own) }
      abu := s.abu.fireEnter s.bayOrFallback }.send
  | .fire .heard _, false => s
  | .fire .own _, true => s.send
  | .fire .own _, false => { s with fmc := { s.fmc with timer := none, owed := false } }

/-- An alarm hold heard at the FMC (R163). -/
def State.holdHeard (s : State) : State :=
  match s.fmc.mode with
  | .normal => s.enterFire .heard none
  | .fire _ _ => s

/-- A body origin as a station number 1 to 63 (R163). -/
def bodyOrigin (b : AlarmBody) : Option Nat :=
  if 1 ≤ b.origin.toNat ∧ b.origin.toNat ≤ 63 then some b.origin.toNat else none

/-- An accepted ALARM frame at the FMC (R163). -/
def State.alarmFrame (s : State) (b : AlarmBody) : State :=
  match s.fmc.mode with
  | .normal => s.enterFire .heard (bodyOrigin b)
  | .fire .heard none =>
    match bodyOrigin b with
    | some n => { s with fmc := { s.fmc with mode := .fire .heard (some n) } }
    | none => s
  | .fire .heard (some _) => s
  | .fire .own _ => s

/-- Fire mode left: the event, the FMC's fields, the waiting ALARM frame; the output blocks change
nothing at the exit (R167). -/
def State.exitFire (s : State) (origin : Option Nat) : State :=
  let s' := s.record .fireExit (origin.getD 0)
  { s' with fmc := Fmc.reset, lc := s'.lc.removeAlarm }

/-- An ALARM_RESET handed to the FMC: refused while the settled input is ACTIVE (R167). -/
def State.alarmResetAtFmc (s : State) : State :=
  match s.fmc.mode with
  | .normal => s
  | .fire _ origin => if s.br.fireInput then s else s.exitFire origin

/-- The repeat timer expires: a send while the input is ACTIVE and the mode FIRE, else STOPPED (R166). -/
def State.timerExpired (s : State) : State :=
  let s' := { s with fmc := { s.fmc with timer := none } }
  if s.br.fireInput && s.fmc.inForce then s'.send else s'

/-- The FMC's sample event (R166). -/
def State.fmcSample (s : State) : State :=
  match s.fmc.timer with
  | none => s
  | some n =>
    if n ≤ 1 then s.timerExpired
    else { s with fmc := { s.fmc with timer := some (n - 1) } }

/-- FMC_SAMPLE_EVENT (R161, R166). -/
def execFmcSampleEvent (s : State) : Host.Outcome State Fault Refusal :=
  whenReleased s State.fmcSample

/-- The repeat timer reaches 0 at this sample event (R166). -/
def State.repeatDue (s : State) : Bool := s.fmc.timer.any fun n => decide (n ≤ 1)

/-- REPEAT_TIMER_EXPIRY: the FMC sample event at which the timer reaches 0 (R166, log 1). -/
def execRepeatTimerExpiry (s : State) : Host.Outcome State Fault Refusal :=
  whenDue s.repeatDue s State.fmcSample

end Sys2Proof.Machine
end

