-- ==== Sys2Proof/Machine/FieldInput.lean ====
section
/-! DEFINITION. The Field Input Unit (Chapter 1): sensor validity, the bay and outdoor temperatures,
contacts, doors, zones and the fire input, with the SSL's count of SELFTEST samples (R170, R173), and
the rows FIU_SAMPLE_EVENT, SENSOR_RESTORED, TEMP_BLIND, DOOR_LONG_OPEN, ZONE_HOLD_EXPIRY and
SELFTEST_END. -/

namespace Sys2Proof.Machine

/-! ### Analogue sensors (R3, R4) -/

/-- The in-range readings of a sensor, lowest and highest (Section 1.2). -/
def sensorRange : Sensor → Int × Int
  | .tempA | .tempB | .outdoor => (-400, 600)
  | .exhaust => (0, 1000)
  | .daylight => (0, 20000)

/-- A reading is in range. -/
def readingFits (k : Sensor) (r : Int) : Bool :=
  decide ((sensorRange k).1 ≤ r) && decide (r ≤ (sensorRange k).2)

/-- A sensor at a sample event: what it becomes, the value it contributes while VALID, and the event
it writes. -/
structure SensorSample where
  validity : Validity
  restore  : Nat
  value    : Option Int
  event    : Option EventKind
deriving DecidableEq, Repr

/-- The table of R3. -/
def sensorStep (k : Sensor) (v : Validity) (restore : Nat) (r : Int) : SensorSample :=
  match v with
  | .notFitted => ⟨.notFitted, restore, none, none⟩
  | .unsampled | .valid =>
    if readingFits k r then ⟨.valid, restore, some r, none⟩ else ⟨.fault, 0, none, some .sensorFault⟩
  | .fault =>
    if readingFits k r then
      if 3 ≤ restore + 1 then ⟨.valid, 0, some r, some .sensorRestored⟩
      else ⟨.fault, restore + 1, none, none⟩
    else ⟨.fault, 0, none, none⟩

/-- Every sensor at a sample event. -/
def State.sensorSamples (s : State) : PerSensor SensorSample :=
  PerSensor.ofFn fun k =>
    sensorStep k (s.br.validity.get k) (s.fiu.restore.get k) (s.pins.reading.get k)

/-- The event one sensor writes (R4). -/
def State.recordSensor (s : State) (samples : PerSensor SensorSample) (k : Sensor) : State :=
  match (samples.get k).event with
  | some e => s.record e k.code
  | none => s

/-- The events of a sample event's sensors, in the order of R4. -/
def State.recordSensors (s : State) (samples : PerSensor SensorSample) : State :=
  [Sensor.tempA, .tempB, .outdoor, .exhaust, .daylight].foldl
    (fun t k => t.recordSensor samples k) s

/-! ### The bay temperature chain (R5 to R8) -/

/-- The temperature of a neighbour that qualifies for substitution (R6). -/
def Peers.substitute? (p : Peers) (n : Nat) : Option Int :=
  match p.fresh n with
  | some b =>
    if b.source = 0 ∧ tempInRange b.tBay.toInt = true then some b.tBay.toInt else none
  | none => none

/-- The neighbours' mean: floor of the half sum of two, or the one (R6). -/
def neighboursMean (west east : Option Int) : Option Int :=
  match west, east with
  | some w, some e => some ((w + e) / 2)
  | some w, none => some w
  | none, some e => some e
  | none, none => none

/-- The measured figure of steps 1 to 3 of R5 and its source, if one of them applies. -/
def measured (a b west east : Option Int) : Option (Int × TempSource) :=
  match a, b with
  | some x, some y => some ((x + y) / 2, .own)
  | some x, none => some (x, .own)
  | none, some y => some (y, .own)
  | none, none => (neighboursMean west east).map fun t => (t, .substituted)

/-- The selection of R5: T_bay, source, last good value and its age, from the last good value, its age
and T_bay before (R7). -/
def selectTemp (m : Option (Int × TempSource)) (lastGood : Option Int) (age : Nat) (tBay : Int) :
    Int × TempSource × Option Int × Nat :=
  match m with
  | some (t, src) => (t, src, some t, 0)
  | none =>
    let age := satAdd age 1
    match lastGood with
    | some g => if age ≤ 600 then (g, .held, some g, age) else (tBay, .blind, some g, age)
    | none => (tBay, .blind, none, age)

/-- The source is BLIND. -/
def TempSource.isBlind : TempSource → Bool
  | .blind => true
  | .own | .substituted | .held => false

/-- The bay temperature selection at a sample event, from its sensors (R5, R6). -/
def State.selection (s : State) (samples : PerSensor SensorSample) :
    Int × TempSource × Option Int × Nat :=
  selectTemp
    (measured samples.tempA.value samples.tempB.value (s.pt.substitute? (s.ssl.own - 1))
      (s.pt.substitute? (s.ssl.own + 1)))
    s.fiu.lastGood s.fiu.lastGoodAge s.br.tBay

/-- A TEMP_BLIND event falls at a selection: it is BLIND and the one before it was not, or there was
none since the reset (R8). -/
def State.blindEvent (s : State) (source : TempSource) : Bool :=
  source.isBlind && (!s.br.tempSource.isBlind || !s.fiu.selected)

/-- Steps of the bay temperature at a sample event (R5 to R8). -/
def State.fiuTemp (s : State) (samples : PerSensor SensorSample) : State :=
  let r := s.selection samples
  let s' := if s.blindEvent r.2.1 then s.record .tempBlind 0 else s
  { s' with
    br := { s'.br with
      tBay := r.1, tempSource := r.2.1
      tempSubst := r.2.1 == .substituted, tempBlind := r.2.1.isBlind }
    fiu := { s'.fiu with lastGood := r.2.2.1, lastGoodAge := r.2.2.2, selected := true } }

/-! ### Outdoor temperature, exhaust and daylight (R10, R11) -/

/-- The distance of two bay stations (00_scope Section 4.3). -/
def distance (a b : Nat) : Nat := (a - b) + (b - a)

/-- The outdoor temperature a bay peer's entry relays (R10). -/
def BayEntry.outdoor? (e : BayEntry) : Option Int :=
  match e.freshState with
  | some b => if b.outdoorOwn && tempInRange b.tOut.toInt then some b.tOut.toInt else none
  | none => none

/-- The nearer of two relayed temperatures, the first of two equally near (R10). -/
def nearer (own : Nat) (best : Option (Nat × Int)) (n : Nat) (t : Int) : Option (Nat × Int) :=
  match best with
  | none => some (n, t)
  | some (m, u) => if distance own n < distance own m then some (n, t) else some (m, u)

/-- The relayed outdoor temperature of the nearest such peer, the lower number of two (R10). -/
def Peers.relayed (p : Peers) (own : Nat) : Option Int :=
  (p.bays.foldl (fun best e =>
    match e.2.outdoor? with
    | some t => nearer own best e.1 t
    | none => best) none).map Prod.snd

/-- The outdoor temperature and its source (R10). -/
def selectOutdoor (own relayed : Option Int) (design : Int) : Int × OutdoorSource :=
  match own, relayed with
  | some t, _ => (t, .own)
  | none, some t => (t, .relayed)
  | none, none => (design, .design)

/-- The outdoor, exhaust and daylight fields at a sample event (R10, R11). -/
def State.fiuAir (s : State) (c : Configuration) (samples : PerSensor SensorSample) : State :=
  let r := selectOutdoor samples.outdoor.value (s.pt.relayed s.ssl.own) c.site.designOutdoor
  { s with br := { s.br with
      tOut := r.1, outdoorSource := r.2, outdoorOwn := r.2 == .own
      exhaust := samples.exhaust.value.map Int.toNat
      daylight := samples.daylight.value.map Int.toNat } }

/-! ### Contacts and doors (R12 to R16) -/

/-- The debounce of R12. -/
def Contact.sampled (k : Contact) (level : Bool) : Contact :=
  if level = k.settled then ⟨k.settled, false⟩
  else if k.pendingMark then ⟨level, false⟩
  else ⟨k.settled, true⟩

/-- The contacts of eight doors at a sample event; an unfitted door's is not sampled (R13). -/
def sampleContacts (fitted levels : BitVec 8) (l : Eight Contact) : Eight Contact :=
  Eight.ofFn fun k =>
    if fitted.getLsbD k.val then (l.get k).sampled (levels.getLsbD k.val) else l.get k

/-- The door state of settled contacts (R13). -/
def doorStateOf (fitted door trailer : Bool) : DoorState :=
  if !fitted then .disabled
  else if !door then .closed
  else if trailer then .openSealed
  else .openUnsealed

/-- A door stands open. -/
def DoorState.isOpen : DoorState → Bool
  | .openSealed | .openUnsealed => true
  | .closed | .disabled => false

/-- A door record at a sample event that finds its state `now`, with the long-open limit (R14, R15). -/
def Door.next (limit : Nat) (d : Door) (now : DoorState) : Door :=
  let secs := if now.isOpen && now == d.state then satAdd d.openSeconds 1 else 0
  { state := now, openSeconds := secs,
    longOpen := now.isUnsealed &&
      (decide (limit ≠ 0 ∧ limit < secs) || (now == d.state && d.longOpen)) }

/-- A DOOR_LONG_OPEN event for each door whose long_open has just been set (R15). DESIGN CHOICE (log 36):
several at one sample event are written by ascending door number. -/
def State.recordDoors (s : State) (before after : Eight Door) : State :=
  (List.finRange 8).foldl (fun t k =>
    if (after.get k).longOpen && !(before.get k).longOpen then t.record .doorLongOpen (k.val + 1)
    else t) s

/-- The doors in a state. -/
def countDoors (l : Eight Door) (state : DoorState) : Nat := l.toList.countP fun d => d.state == state

/-- The door records a sample event makes from the settled contacts. -/
def nextDoors (c : Configuration) (doors : Eight Door) (door trailer : Eight Contact) : Eight Door :=
  Eight.ofFn fun k => (doors.get k).next c.site.longOpenLimit
    (doorStateOf (c.bay.doorsFitted.getLsbD k.val) (door.get k).settled (trailer.get k).settled)

/-- Contacts, doors, counts and DOOR_LONG_OPEN at a sample event (R12 to R16). -/
def State.fiuDoors (s : State) (c : Configuration) : State :=
  let door := sampleContacts c.bay.doorsFitted s.pins.doorOpen s.fiu.doorContacts
  let trailer := sampleContacts c.bay.doorsFitted s.pins.trailer s.fiu.trailerContacts
  let doors := nextDoors c s.br.doors door trailer
  let s' := s.recordDoors s.br.doors doors
  { s' with
    fiu := { s'.fiu with doorContacts := door, trailerContacts := trailer }
    br := { s'.br with
      doors := doors
      unsealed := countDoors doors .openUnsealed
      sealedDoors := countDoors doors .openSealed
      doorLongOpen := doors.toList.any Door.longOpen } }

/-! ### Zones (R17 to R19) -/

/-- A zone at a sample event, by its detector and the phase's hold time (R17, R18). -/
def Zone.next (hold : Nat) (z : Zone) (detected : Bool) : Zone :=
  match z.state, detected with
  | .vacant, true | .hold, true => { z with state := .occupied, holdRemaining := 0 }
  | .occupied, true | .vacant, false => z
  | .occupied, false => { z with state := .hold, holdRemaining := hold }
  | .hold, false =>
    if z.holdRemaining ≤ 1 then { z with state := .vacant, holdRemaining := 0 }
    else { z with holdRemaining := z.holdRemaining - 1 }

/-- A zone hands an arrival: it lies at an edge and goes from VACANT to OCCUPIED (R19). -/
def Zone.arrives (z : Zone) (detected : Bool) : Bool :=
  detected && z.state == .vacant && z.edge != .noEdge

/-- The zone records after a sample event. -/
def State.nextZones (s : State) (c : Configuration) : Six Zone :=
  Six.ofFn fun k =>
    (s.br.zones.get k).next (c.row s.scu.phase).occHold (s.pins.occupied.getLsbD k.val)

/-- The edge arrivals of a sample event handed to the LTC (R19, R100). DESIGN CHOICE (log 37): several
at one sample event are handed by ascending zone number. -/
def State.handArrivals (s : State) (c : Configuration) (zones : Six Zone) (found : BitVec 6) : State :=
  (List.finRange 6).foldl (fun t k =>
    if (zones.get k).arrives (found.getLsbD k.val) then t.edgeArrival c (zones.get k).edge else t) s

/-- A zone is OCCUPIED; one in HOLD is not counted (R17). -/
def Zone.isOccupied (z : Zone) : Bool := z.state == .occupied

/-- Zones at a sample event, with the arrivals they hand over (R17 to R19). -/
def State.fiuZones (s : State) (c : Configuration) : State :=
  let zones := s.nextZones c
  { s with br := { s.br with
      zones := zones
      occupiedZones := zones.toList.countP Zone.isOccupied } }.handArrivals c
    s.br.zones s.pins.occupied

/-! ### The fire input (R20) -/

/-- The fire input at a sample event, and a change handed to the FMC. -/
def State.fiuFire (s : State) : State :=
  let k := (Contact.mk s.br.fireInput s.fiu.firePending).sampled s.pins.fire
  let s' : State :=
    { s with
      br := { s.br with fireInput := k.settled }
      fiu := { s.fiu with firePending := k.pendingMark } }
  if k.settled = s.br.fireInput then s' else s'.fireInputChanged k.settled

/-! ### SELFTEST (R170, R173) -/

/-- The diagnostic flags with those of the sensors now in FAULT set (R173). -/
def diagAfter (d : PerSensor Bool) (v : PerSensor Validity) : PerSensor Bool :=
  PerSensor.ofFn fun k => d.get k || v.get k == .fault

/-- A FIU sample event at the SSL: in SELFTEST the flags are set and the third sample begins LISTEN
(R170, R173). -/
def State.selftestSample (s : State) : State :=
  match s.ssl.startup with
  | .selftest =>
    let diag := diagAfter s.ssl.diag s.br.validity
    if 2 ≤ s.ssl.ticks then { s with ssl := { s.ssl with startup := .listen, ticks := 0, diag } }
    else { s with ssl := { s.ssl with ticks := s.ssl.ticks + 1, diag } }
  | .load | .listen | .join | .run | .strapFault => s

/-! ### The sample event -/

/-- The analogue sensors' part of a sample event: validity, restore counts and events (R3, R4). -/
def State.fiuSensors (s : State) (samples : PerSensor SensorSample) : State :=
  let s' := s.recordSensors samples
  { s' with
    br := { s'.br with validity := PerSensor.ofFn fun k => (samples.get k).validity }
    fiu := { s'.fiu with restore := PerSensor.ofFn fun k => (samples.get k).restore } }

/-- Everything but the fire input, which alone is sampled before the adoption (R1). -/
def State.fiuInputs (s : State) : State :=
  match s.cfg with
  | none => s
  | some c =>
    let samples := s.sensorSamples
    ((((s.fiuSensors samples).fiuTemp samples).fiuAir c samples).fiuDoors c).fiuZones c

/-- The FIU's sample event, in the order of R1, then the SSL's count (log 32). -/
def State.fiuSample (s : State) : State := s.fiuInputs.fiuFire.selftestSample

/-- The station with the input terminals' levels at a moment. -/
def State.atField (s : State) (x : InputLevels) (now : Nat) : State :=
  { s with pins := x }.atMoment now

/-! ### The rows -/

/-- FIU_SAMPLE_EVENT (R1). -/
def execFiuSampleEvent (x : InputLevels) (now : Nat) (s : State) : Host.Outcome State Fault Refusal :=
  whenReleased s fun s => (s.atField x now).fiuSample

/-- The faulted sensor's restore count reaches 3 at this sample (R3). -/
def State.restoreDue (s : State) (k : Sensor) (x : InputLevels) : Bool :=
  s.cfg.isSome && s.br.validity.get k == .fault && decide (2 ≤ s.fiu.restore.get k)
    && readingFits k (x.reading.get k)

/-- SENSOR_RESTORED: the FIU sample event that restores the sensor (R3, log 1). -/
def execSensorRestored (sensor : Sensor) (x : InputLevels) (now : Nat) (s : State) :
    Host.Outcome State Fault Refusal :=
  whenDue (s.restoreDue sensor x) s fun s => (s.atField x now).fiuSample

/-- This sample selects BLIND and writes a TEMP_BLIND event (R7, R8). -/
def State.blindDue (s : State) (x : InputLevels) (now : Nat) : Bool :=
  let s := s.atField x now
  s.cfg.isSome && s.blindEvent (s.selection s.sensorSamples).2.1

/-- TEMP_BLIND: the FIU sample event at which the station goes blind (R7, R8, log 1). -/
def execTempBlind (x : InputLevels) (now : Nat) (s : State) : Host.Outcome State Fault Refusal :=
  whenDue (s.blindDue x now) s fun s => (s.atField x now).fiuSample

/-- Door k+1's record after the sample event of field levels `x`. -/
def State.doorAfter (s : State) (c : Configuration) (k : Fin 8) (x : InputLevels) : Door :=
  (nextDoors c s.br.doors (sampleContacts c.bay.doorsFitted x.doorOpen s.fiu.doorContacts)
    (sampleContacts c.bay.doorsFitted x.trailer s.fiu.trailerContacts)).get k

/-- Door k+1's long_open is set at this sample (R15). -/
def State.longOpenDue (s : State) (k : Fin 8) (x : InputLevels) : Bool :=
  match s.cfg with
  | some c => (s.doorAfter c k x).longOpen && !(s.br.doors.get k).longOpen
  | none => false

/-- DOOR_LONG_OPEN: the FIU sample event at which the door's long_open is set (R15, log 1). -/
def execDoorLongOpen (door : Fin 8) (x : InputLevels) (now : Nat) (s : State) :
    Host.Outcome State Fault Refusal :=
  whenDue (s.longOpenDue door x) s fun s => (s.atField x now).fiuSample

/-- Zone k+1's hold ends at this sample (R17). -/
def State.zoneDue (s : State) (k : Fin 6) (x : InputLevels) : Bool :=
  s.cfg.isSome && (s.br.zones.get k).state == .hold
    && decide ((s.br.zones.get k).holdRemaining ≤ 1) && !x.occupied.getLsbD k.val

/-- ZONE_HOLD_EXPIRY: the FIU sample event at which the zone becomes VACANT (R17, log 1). -/
def execZoneHoldExpiry (zone : Fin 6) (x : InputLevels) (now : Nat) (s : State) :
    Host.Outcome State Fault Refusal :=
  whenDue (s.zoneDue zone x) s fun s => (s.atField x now).fiuSample

/-- This is the third FIU sample event of SELFTEST (R170). -/
def State.selftestDue (s : State) : Bool :=
  s.ssl.startup == .selftest && decide (2 ≤ s.ssl.ticks)

/-- SELFTEST_END: the FIU sample event that begins LISTEN (R170, R173, log 1). -/
def execSelftestEnd (x : InputLevels) (now : Nat) (s : State) : Host.Outcome State Fault Refusal :=
  whenDue s.selftestDue s fun s => (s.atField x now).fiuSample

end Sys2Proof.Machine
end

