-- ==== Sys2Proof/Machine/StartUp.lean ====
section
/-! DEFINITION. The Start-up Sequencer and Image Loader (Chapter 10): the three resets, the adoption of
the image, LISTEN and JOIN, INQUIRY and REPORT, and the rows POWER_RESET, TERMINAL_RESET,
RESET_RELEASE, IMAGE_ADOPT, SSL_SAMPLE_EVENT, LISTEN_END and JOIN_END. -/

namespace Sys2Proof.Machine

/-! ### The resets (R177) -/

/-- A power or terminal reset taken and held: every block at its reset values, the terminals and the
LC's clock as they are, the queue untouched (R177; logs 5, 26, 29). -/
def State.heldReset (s : State) (k : ResetKind) : State :=
  { State.reset with
    held := some k
    pins := s.pins
    lc := { Lc.reset with clock := s.lc.clock }
    pending := s.pending }

/-- LOAD begun after a held reset: the straps read as the own number (R171, R177). -/
def State.beginLoad (s : State) (straps : BitVec 6) : State :=
  { s with
    held := none
    pins := { s.pins with straps := straps }
    ssl := { s.ssl with own := straps.toNat } }

/-- The Bay Record at a restart: the bay temperature HELD while the last good value is at most 600 s
old, else BLIND and unchanged; the other fields as at every reset (R9, Section 1.9). -/
def restartRecord (lastGood : Option Int) (age : Nat) (tBay : Int) : BayRecord :=
  match lastGood with
  | some g =>
    if age ≤ 600 then
      { BayRecord.reset with tBay := g, tempSource := .held, tempBlind := false }
    else { BayRecord.reset with tBay := tBay }
  | none => { BayRecord.reset with tBay := tBay }

/-- The SSL at a restart: LOAD, the straps read anew, the event list and its mark kept (R171, R175). -/
def Ssl.restart (l : Ssl) (own : Nat) : Ssl :=
  { Ssl.reset own with events := l.events, overflow := l.overflow }

/-- A restart, with what each block keeps across it: R9 (FIU), R42 (SCU), R68 (LC), R89 (PT), R108
(LTC), R125 (HRU), R145 (HSU), R160 (ABU), R169 (FMC), R175 (SSL). DESIGN CHOICE (log 45): the receiver's
marks and its quiet time as at every reset. -/
def State.restart (s : State) : State :=
  { s with
    ssl := s.ssl.restart s.pins.straps.toNat
    cfg := none
    br := restartRecord s.fiu.lastGood s.fiu.lastGoodAge s.br.tBay
    fiu := { Fiu.reset with lastGood := s.fiu.lastGood, lastGoodAge := s.fiu.lastGoodAge }
    scu := { Scu.reset with minute := s.scu.minute, second := s.scu.second, valid := s.scu.valid }
    lc := { Lc.reset with clock := s.lc.clock, counters := s.lc.counters }
    pt := ⟨[], []⟩
    ltc := { Ltc.reset with sequence := s.ltc.sequence }
    hru := Hru.reset
    hsu := s.hsu.allOff s.bayOrFallback.minOff
    abu := { s.abu with extract := 0, need := 0, uncovered := 0, supplyTarget := 0 }
    fmc := Fmc.reset }

/-- A RESTART command at the SSL, which reaches it in RUN and outside fire mode alone (R177). -/
def State.restartCommand (s : State) : State :=
  if s.ssl.startup.isRun && !s.fmc.inForce then s.restart else s

/-! ### The adoption of the image (R171, R172) -/

/-- The failure code of a judgement, absent when every test passed. -/
def failureCode : Except Nat Configuration → Option Nat
  | .error n => some n
  | .ok _ => none

/-- The configuration a judgement adopts: the stored one, or the fallback (R171, R172). -/
def adoptedConfig : Except Nat Configuration → Configuration
  | .ok c => c
  | .error _ => fallback

/-- The SSL at the end of LOAD: SELFTEST, or STRAP_FAULT for a number outside 1 to 48, the diagnostic
flags clear (R170, R173), the failure code kept (R172). -/
def Ssl.adopt (l : Ssl) (code : Option Nat) : Ssl :=
  { l with
    startup := if isBayNumber l.own then .selftest else .strapFault
    ticks := 0
    checkResult := code
    diag := perSensor false }

/-- The Bay Record at the adoption: an unfitted outdoor sensor NOT_FITTED, unfitted doors DISABLED, each
zone's edge and groups copied (R2, R3, R13). -/
def BayRecord.adopt (b : BayRecord) (bay : BayBlock) : BayRecord :=
  { b with
    validity := { b.validity with
      outdoor := if bay.outdoorFitted then b.validity.outdoor else .notFitted }
    doors := Eight.ofFn fun k =>
      if bay.doorsFitted.getLsbD k.val then b.doors.get k else ⟨.disabled, 0, false⟩
    zones := Six.ofFn fun k =>
      { b.zones.get k with edge := (bay.zones.get k).edge, groups := (bay.zones.get k).groups } }

/-- The IMAGE_FALLBACK event of a failed check (R172). -/
def State.recordFallback (s : State) (code : Option Nat) : State :=
  match code with
  | some n => s.record .imageFallback n
  | none => s

/-- Each block's configuration taken (R2, R107, R144, R145, R157, R159, R160). -/
def State.adoptBlocks (s : State) (c : Configuration) : State :=
  { s with
    cfg := some c
    br := s.br.adopt c.bay
    ltc := s.ltc.adopt c.site.startLevel s.fmc.inForce
    hsu := s.hsu.adopt c.bay
    abu := s.abu.adopt c.bay s.fmc.inForce }

/-- The owed send at the end of LOAD: made in SELFTEST while the settled input is ACTIVE, and cleared
(R165). -/
def State.settleOwed (s : State) : State :=
  let s' := { s with fmc := { s.fmc with owed := false } }
  if s.fmc.owed && s.br.fireInput && s.ssl.startup == .selftest then s'.makeSend else s'

/-- The adoption that a judgement leads to, and the SCU's first evaluation (R171, R38; log 20). -/
def State.adopt (s : State) (j : Except Nat Configuration) : State :=
  ((({ s with ssl := s.ssl.adopt (failureCode j) }.recordFallback (failureCode j)).adoptBlocks
    (adoptedConfig j)).evaluate false).settleOwed

/-- The image read completed in LOAD (R171). -/
def State.imageAdopt (s : State) (m : ImageRead) : State :=
  if s.ssl.startup = .load then s.adopt (judgeImage s.ssl.own m) else s

/-! ### LISTEN and JOIN (R170, R174) -/

/-- The PRESENCE body: diagnostic flags, image version, signature and interval code (R174). -/
def State.presenceBody (s : State) (c : Configuration) : PresenceBody :=
  ⟨diagFlags s.ssl.diag, toHalf c.version, toHalf c.signature, toByte c.site.interval.code⟩

/-- JOIN entered, a PRESENCE posted (R174). -/
def State.enterJoin (s : State) : State :=
  let s' := { s with ssl := { s.ssl with startup := .join, ticks := 0 } }
  match s.cfg with
  | some c => { s' with lc := s'.lc.postNotice .presence (s.presenceBody c).bytes }
  | none => s'

/-- RUN entered, the first STATUS posted and the interval count begun at 0 (R170, R58). -/
def State.enterRun (s : State) : State :=
  { s with
    ssl := { s.ssl with startup := .run, ticks := 0 }
    lc := { s.lc.postStatus with intervalCount := 0 } }

/-- The SSL's sample event: it times LISTEN, 20 s, and JOIN, 2 s (R170). -/
def State.sslSample (s : State) : State :=
  match s.ssl.startup with
  | .listen =>
    if 19 ≤ s.ssl.ticks then s.enterJoin else { s with ssl := { s.ssl with ticks := s.ssl.ticks + 1 } }
  | .join =>
    if 1 ≤ s.ssl.ticks then s.enterRun else { s with ssl := { s.ssl with ticks := s.ssl.ticks + 1 } }
  | .load | .selftest | .run | .strapFault => s

/-! ### INQUIRY and REPORT (R176) -/

/-- An event record in its four bytes (Section 11.3). -/
def Event.bytes (e : Event) : List Byte :=
  [toByte e.kind.code, toByte e.detail] ++ halfBytes (toHalf e.minute)

/-- The eight line counters in their sixteen bytes, in the order of R66. -/
def Counters.bytes (c : Counters) : List Byte :=
  [c.checkFail, c.frameTimeout, c.unknownKind, c.noticeDrop, c.noticeStale, c.statusLate, c.lineFault,
    c.clashCount].flatMap fun n => halfBytes (toHalf n)

/-- The REPORT body (Section 11.3). -/
def State.reportBody (s : State) (c : Configuration) : List Byte :=
  [67, 1] ++ halfBytes (toHalf c.version) ++ halfBytes (toHalf c.signature) ++ s.lc.counters.bytes
    ++ [toByte s.ssl.events.length, toByte s.ssl.overflow.toNat]
    ++ (s.ssl.events.take 4).flatMap Event.bytes

/-- A notice is a REPORT. -/
def Notice.isReport (n : Notice) : Bool := n.kind == .report

/-- A frame is a REPORT. -/
def TxFrame.isReport : TxFrame → Bool
  | .notice n => n.isReport
  | .status _ _ | .alarm _ => false

/-- A REPORT is in the store, waiting or in transmission (R55). -/
def Lc.reportPending (l : Lc) : Bool :=
  l.notices.any Notice.isReport || l.tx.frame.any TxFrame.isReport

/-- The REPORT built and posted; the records it carries are noted when it is taken (R176). -/
def State.postReport (s : State) (c : Configuration) : State :=
  let body := s.reportBody c
  let s' := { s with lc := s.lc.postNotice .report body }
  match s.lc.answer body.length with
  | .taken => { s' with ssl := { s'.ssl with report := ⟨min 4 s.ssl.events.length, false⟩ } }
  | .refused | .dropped => s'

/-- An accepted INQUIRY at the SSL (R176). -/
def State.inquiry (s : State) (target : Nat) : State :=
  match s.cfg with
  | some c =>
    if s.ssl.startup.isRun && target == s.ssl.own && !s.lc.reportPending then s.postReport c else s
  | none => s

/-- A REPORT sent to its end: the records it carried leave the list, and the mark clears unless one has
been replaced since (R176). -/
def Ssl.reportSent (l : Ssl) : Ssl :=
  { l with
    events := l.events.drop l.report.carried
    overflow := l.overflow && l.report.replaced
    report := ⟨0, false⟩ }

/-! ### The rows -/

/-- POWER_RESET (R177). -/
def execPowerReset (s : State) : Host.Outcome State Fault Refusal := .next (s.heldReset .power)

/-- TERMINAL_RESET (R177). -/
def execTerminalReset (s : State) : Host.Outcome State Fault Refusal := .next (s.heldReset .terminal)

/-- RESET_RELEASE: a held reset ends and LOAD begins (R177). -/
def execResetRelease (straps : BitVec 6) (s : State) : Host.Outcome State Fault Refusal :=
  .next (if s.released then s else s.beginLoad straps)

/-- IMAGE_ADOPT (R171). -/
def execImageAdopt (memory : ImageRead) (s : State) : Host.Outcome State Fault Refusal :=
  whenReleased s fun s => s.imageAdopt memory

/-- SSL_SAMPLE_EVENT (R170). -/
def execSslSampleEvent (now : Nat) (s : State) : Host.Outcome State Fault Refusal :=
  whenReleased s fun s => (s.atMoment now).sslSample

/-- This is the 20th SSL sample event of LISTEN (R170). -/
def State.listenDue (s : State) : Bool := s.ssl.startup == .listen && decide (19 ≤ s.ssl.ticks)

/-- LISTEN_END: the SSL sample event that begins JOIN (R174, log 1). -/
def execListenEnd (now : Nat) (s : State) : Host.Outcome State Fault Refusal :=
  whenDue s.listenDue s fun s => (s.atMoment now).sslSample

/-- This is the second SSL sample event of JOIN (R170). -/
def State.joinDue (s : State) : Bool := s.ssl.startup == .join && decide (1 ≤ s.ssl.ticks)

/-- JOIN_END: the SSL sample event that begins RUN (R170, log 1). -/
def execJoinEnd (now : Nat) (s : State) : Host.Outcome State Fault Refusal :=
  whenDue s.joinDue s fun s => (s.atMoment now).sslSample

end Sys2Proof.Machine
end

