-- ==== Sys2Proof/Machine/Frames.lean ====
section
/-! DEFINITION. Accepted frames: the receive filter (R51), the hand-over to the blocks (R48), the taking
of panel commands (R39, R40), and the rows that stand for an accepted frame (log 10): STATUS, PRESENCE,
TRAVEL, ALARM, TIME, INQUIRY and the nine panel commands. -/

namespace Sys2Proof.Machine

/-! ### The receive filter (R51) -/

/-- The station between a sender at distance 2 and this one has no entry or a LOST one (R51, R85). -/
def Peers.bridged (p : Peers) (middle : Nat) : Bool :=
  match slot? p.bays middle with
  | none => true
  | some e => e.age == .lost

/-- The receive filter on a head value and a kind (R51); distances in STRAP_FAULT are those of the
strap number (log 21). -/
def State.filterAccepts (s : State) (head : Nat) : Kind → Bool
  | .status | .presence => isBayNumber head
  | .travel =>
    isBayNumber head && (distance s.ssl.own head == 1 ||
      distance s.ssl.own head == 2 && s.pt.bridged ((s.ssl.own + head) / 2))
  | .alarm => true
  | .panel | .time | .inquiry => isPanelNumber head
  | .report => false

/-! ### Panel commands (R39, R40) -/

/-- The panel's last applied sequence, if it has one (R71). -/
def Peers.lastSequence (p : Peers) (n : Nat) : Option Byte :=
  (slot? p.panels n).bind PanelEntry.lastSequence

/-- The SCU takes the frame: the three conditions of R39. -/
def State.takesPanel (s : State) (panel : Nat) (a : PanelAddress) : Bool :=
  s.ssl.startup.isRun && decide (a.first.toNat ≤ s.ssl.own) && decide (s.ssl.own ≤ a.last.toNat)
    && s.pt.lastSequence panel != some a.sequence

/-- The command of a taken frame outside fire mode (R40). -/
def State.command (s : State) (panel : Nat) (b : PanelBody) : State :=
  if b.command = 1 then s.holdPhase panel b.argument.toNat
  else if b.command = 2 then s.advancePhase panel
  else if b.command = 3 then s.closeBays panel b.argument.toNat
  else if b.command = 4 then s.openBays
  else if b.command = 5 then
    s.lightForce panel (b.argument.extractLsb' 8 8).toNat (b.argument.extractLsb' 0 8).toNat
  else if b.command = 6 then s.cancelAmendments
  else if b.command = 7 then s.alarmResetAtFmc
  else if b.command = 8 then s.restartCommand
  else s

/-- A taken frame's command: in fire mode an ALARM_RESET alone has an effect (R40). -/
def State.obey (s : State) (panel : Nat) (b : PanelBody) : State :=
  if s.fmc.inForce && b.command != 7 then s else s.command panel b

/-- A PANEL frame at the SCU: taken, its sequence written into the panel's entry, then obeyed (R39). -/
def State.panelFrame (s : State) (panel : Nat) (b : PanelBody) : State :=
  if s.takesPanel panel b.addr then
    { s with pt := s.pt.applySequence panel b.addr.sequence }.obey panel b
  else s

/-! ### Hand-over (R48) -/

/-- A TRAVEL frame handed to the LTC. -/
def State.travelFrame (s : State) (sender : Nat) (b : TravelBody) : State :=
  match s.cfg with
  | some c => s.travelNotice c sender b
  | none => s

/-- An accepted frame handed to the blocks R48 names, the first and then the second. -/
def State.handOn (s : State) (sender : Nat) : Frame → State
  | .status b =>
    (s.peersTake fun p => p.takeStatus sender b).judgeTime sender b.rank.toNat b.minute.toNat
      b.second.toNat
  | .presence b =>
    let s' := s.peersTake fun p => p.takePresence sender b
    { s' with lc := { s'.lc with presenceMark := true } }
  | .travel b => s.travelFrame sender b
  | .alarm b => s.alarmFrame b
  | .panel b => (s.peersTake fun p => p.takePanel sender).panelFrame sender b
  | .time b =>
    (s.peersTake fun p => p.takePanel sender).judgeTime sender 0 b.minute.toNat b.second.toNat
  | .inquiry target => (s.peersTake fun p => p.takeInquiry sender).inquiry target.toNat

/-! ### The rows of accepted frames (log 10) -/

/-- The LC at the end of a frame from another station that passed its check: HUNT, the yield ended, the
quiet at 0 (R48, R61, R62). DESIGN CHOICE (log 38): at a row that stands for an accepted frame, a frame
whose characters stand in assembly is taken to be that frame, and nothing is counted for it. A hold
heard at that moment stays handed over (R52, R168). -/
def Lc.framePassed (l : Lc) : Lc :=
  { l with
    asm := .hunt, yielding := false, quiet := 0, holdHeard := l.holdHeard && l.awaitRecessive }

/-- A frame's acceptance can fall at this moment: the LC receives after LOAD (R67) and sends no frame, and
no broken character holds the receiver back (R44). DESIGN CHOICE (log 10): an alarm hold heard or driven
does not stand against it, since it may fall at the moment of the acceptance and act first (R168). -/
def State.mayAccept (s : State) : Bool :=
  s.released && s.cfg.isSome && !s.lc.tx.isSending && (!s.lc.awaitRecessive || s.lc.holdHeard)

/-- A frame of this kind from this sender can be accepted: the moment allows it, the sender is another
station, and the filter lets it pass (R50, R51). -/
def State.canAccept (s : State) (sender : Nat) (k : Kind) : Bool :=
  s.mayAccept && sender != s.ssl.own && s.filterAccepts sender k

/-- A frame accepted, or nothing where no such frame can be. -/
def State.accept (s : State) (sender : Nat) (f : Frame) : State :=
  if s.canAccept sender f.kind then { s with lc := s.lc.framePassed }.handOn sender f else s

/-- A PANEL frame of a command code and argument accepted. -/
def State.acceptPanel (s : State) (panel : Byte) (a : PanelAddress) (code : Byte) (argument : Half) :
    State :=
  s.accept panel.toNat (.panel ⟨a, code, argument⟩)

/-- STATUS: refreshes the sender's entry and is judged for time (R73, R24). -/
def execStatus (sender : Byte) (body : StatusBody) (s : State) : Host.Outcome State Fault Refusal :=
  .next (s.accept sender.toNat (.status body))

/-- PRESENCE (R74, R87). -/
def execPresence (sender : Byte) (body : PresenceBody) (s : State) :
    Host.Outcome State Fault Refusal :=
  .next (s.accept sender.toNat (.presence body))

/-- TRAVEL (R102 to R106). -/
def execTravel (sender : Byte) (body : TravelBody) (now : Nat) (s : State) :
    Host.Outcome State Fault Refusal :=
  whenReleased s fun s => (s.atMoment now).accept sender.toNat (.travel body)

/-- ALARM (R163). -/
def execAlarm (sender : Byte) (body : AlarmBody) (s : State) : Host.Outcome State Fault Refusal :=
  .next (s.accept sender.toNat (.alarm body))

/-- TIME (R24). -/
def execTime (sender : Byte) (body : TimeBody) (s : State) : Host.Outcome State Fault Refusal :=
  .next (s.accept sender.toNat (.time body))

/-- INQUIRY (R75, R176). -/
def execInquiry (sender : Byte) (target : Byte) (now : Nat) (s : State) :
    Host.Outcome State Fault Refusal :=
  whenReleased s fun s => (s.atMoment now).accept sender.toNat (.inquiry target)

/-- HOLD_PHASE (R40). -/
def execHoldPhase (panel : Byte) (addr : PanelAddress) (delay : Half) (s : State) :
    Host.Outcome State Fault Refusal :=
  .next (s.acceptPanel panel addr 1 delay)

/-- ADVANCE_PHASE (R40). -/
def execAdvancePhase (panel : Byte) (addr : PanelAddress) (s : State) :
    Host.Outcome State Fault Refusal :=
  .next (s.acceptPanel panel addr 2 0)

/-- CLOSE_BAYS (R40). -/
def execCloseBays (panel : Byte) (addr : PanelAddress) (minutes : Half) (s : State) :
    Host.Outcome State Fault Refusal :=
  .next (s.acceptPanel panel addr 3 minutes)

/-- OPEN_BAYS (R40). -/
def execOpenBays (panel : Byte) (addr : PanelAddress) (s : State) :
    Host.Outcome State Fault Refusal :=
  .next (s.acceptPanel panel addr 4 0)

/-- LIGHT_FORCE: the argument's byte 4 is the minutes, byte 5 the level code (R40, Section 11.3). -/
def execLightForce (panel : Byte) (addr : PanelAddress) (minutes level : Byte) (s : State) :
    Host.Outcome State Fault Refusal :=
  .next (s.acceptPanel panel addr 5 (minutes ++ level))

/-- CANCEL_AMENDMENTS (R40). -/
def execCancelAmendments (panel : Byte) (addr : PanelAddress) (s : State) :
    Host.Outcome State Fault Refusal :=
  .next (s.acceptPanel panel addr 6 0)

/-- ALARM_RESET (R40, R167). -/
def execAlarmReset (panel : Byte) (addr : PanelAddress) (s : State) :
    Host.Outcome State Fault Refusal :=
  .next (s.acceptPanel panel addr 7 0)

/-- RESTART (R40, R177). -/
def execRestart (panel : Byte) (addr : PanelAddress) (s : State) : Host.Outcome State Fault Refusal :=
  .next (s.acceptPanel panel addr 8 0)

/-- UNKNOWN_COMMAND: a command code that is none of the eight has no effect beyond its sequence
(R40). -/
def execUnknownCommand (panel : Byte) (addr : PanelAddress) (code : Byte) (argument : Half)
    (s : State) : Host.Outcome State Fault Refusal :=
  .next (s.acceptPanel panel addr code argument)

end Sys2Proof.Machine
end

