-- ==== Sys2Proof/Machine/Line.lean ====
section
/-! DEFINITION. The Line Controller (Chapter 3): frame assembly, broken characters, timeouts and clashes,
alarm holds on the line, line access, losses, the status interval and prompt STATUS, and the rows
LC_SAMPLE_EVENT to NOTICE_AGE_EXPIRY that name its events. -/

namespace Sys2Proof.Machine

/-! ### Counting -/

/-- FRAME_TIMEOUT raised (R66). -/
def Lc.countTimeout (l : Lc) : Lc :=
  { l with counters.frameTimeout := satAdd l.counters.frameTimeout 1 }

/-- CHECK_FAIL raised (R66). -/
def Lc.countCheckFail (l : Lc) : Lc :=
  { l with counters.checkFail := satAdd l.counters.checkFail 1 }

/-- UNKNOWN_KIND raised (R66). -/
def Lc.countUnknown (l : Lc) : Lc :=
  { l with counters.unknownKind := satAdd l.counters.unknownKind 1 }

/-- LINE_FAULT raised (R66). -/
def Lc.countLineFault (l : Lc) : Lc :=
  { l with counters.lineFault := satAdd l.counters.lineFault 1 }

/-- CLASH_COUNT raised (R66). -/
def Lc.countClash (l : Lc) : Lc :=
  { l with counters.clashCount := satAdd l.counters.clashCount 1 }

/-! ### Frame assembly (R46 to R48, R50) -/

/-- A frame is in assembly. -/
def Assembler.inFrame : Assembler → Bool
  | .assemble _ _ => true
  | .hunt | .skip => false

/-- A head character: a frame in assembly is discarded and counted, and a new frame begins, its clash
mark set when its head is the own number (R46). -/
def Lc.head (l : Lc) (own : Nat) (data : Byte) : Lc :=
  let l' := if l.asm.inFrame then l.countTimeout else l
  { l' with asm := .assemble [data] (data.toNat == own) }

/-- The kind character, the second of `chars` (R47). -/
def State.kindCharacter (s : State) (chars : List Byte) (clash : Bool) : State :=
  match Kind.ofCode (byteAt chars 1) with
  | none => { s with lc := { s.lc.countUnknown with asm := .skip } }
  | some k =>
    if clash || s.filterAccepts (byteAt chars 0).toNat k then
      { s with lc := { s.lc with asm := .assemble chars clash } }
    else { s with lc := { s.lc with asm := .skip } }

/-- The length character, the third of `chars` (R47, R179). -/
def State.lengthCharacter (s : State) (chars : List Byte) (clash : Bool) : State :=
  if (Kind.ofCode (byteAt chars 1)).any fun k => k.fits (byteAt chars 2).toNat then
    { s with lc := { s.lc with asm := .assemble chars clash } }
  else { s with lc := { s.lc.countCheckFail with asm := .skip } }

/-- A frame of the own number dropped as a number clash; the event carries its kind (R50). -/
def State.numberClash (s : State) (kind : Byte) : State :=
  let s' := if s.lc.clash then s else s.record .numberClash kind.toNat
  { s' with lc := { s'.lc.countClash with clash := true, clashQuiet := 0 } }

/-- A complete frame whose characters agree with its check value (R45). -/
def checkAgrees (chars : List Byte) : Bool :=
  let n := chars.length - 2
  crcOf (chars.take n) == halfAt chars n

/-- A frame that passed its check, taken apart and handed onward (R48). -/
def State.handOver (s : State) (chars : List Byte) : State :=
  match (Kind.ofCode (byteAt chars 1)).bind fun k =>
      Frame.ofBytes k ((chars.drop 3).take (byteAt chars 2).toNat) with
  | some f => s.handOn (byteAt chars 0).toNat f
  | none => s

/-- The second check character: HUNT, and the frame judged (R48). -/
def State.frameComplete (s : State) (chars : List Byte) (clash : Bool) : State :=
  if checkAgrees chars then
    let s' := { s with lc := s.lc.framePassed }
    if clash then s'.numberClash (byteAt chars 1) else s'.handOver chars
  else { s with lc := { s.lc.countCheckFail with asm := .hunt } }

/-- A character of a frame in assembly behind its head; `chars` ends with it (R47, R48). -/
def State.nextCharacter (s : State) (chars : List Byte) (clash : Bool) : State :=
  if chars.length = 2 then s.kindCharacter chars clash
  else if chars.length = 3 then s.lengthCharacter chars clash
  else if chars.length = (byteAt chars 2).toNat + 5 then s.frameComplete chars clash
  else { s with lc := { s.lc with asm := .assemble chars clash } }

/-- A complete character at the assembler (R46). -/
def State.assembleCharacter (s : State) (data : Byte) (marker : Bool) : State :=
  if marker then { s with lc := s.lc.head s.ssl.own data }
  else
    match s.lc.asm with
    | .hunt | .skip => s
    | .assemble chars clash => s.nextCharacter (chars ++ [data]) clash

/-- Line activity that is no alarm hold: quiet 0, and a new dominant level (R61). -/
def Lc.active (l : Lc) : Lc := { l with quiet := 0, holdHeard := false, awaitRecessive := false }

/-- A complete character received (R44, R46). -/
def State.characterReceived (s : State) (data : Byte) (marker : Bool) : State :=
  { s with lc := s.lc.active }.assembleCharacter data marker

/-! ### Broken characters and timeouts (R49) -/

/-- A broken character: a frame in assembly is discarded, its count awaited; HUNT (R49); the receiver
waits for the line to return recessive (R44). -/
def Lc.broken (l : Lc) : Lc :=
  { l with
    asm := .hunt, brokenFrame := l.brokenFrame || l.asm.inFrame, quiet := 0, awaitRecessive := true }

/-- The quiet measured so far. -/
def Lc.measured (l : Lc) (quiet : Nat) : Lc := { l with quiet := max l.quiet quiet }

/-- Two character times in bit times (R49). -/
def frameQuiet : Nat := 2 * charBits

/-- A quiet longer than 2 character times in ASSEMBLE (R49). -/
def Lc.timedOut (l : Lc) (quiet : Nat) : Bool :=
  l.asm.inFrame && decide (frameQuiet < (l.measured quiet).quiet)

/-- The frame in assembly ended by quiet (R49). -/
def Lc.timeout (l : Lc) (quiet : Nat) : Lc := { (l.measured quiet).countTimeout with asm := .hunt }

/-! ### Alarm holds on the line (R52, R53) -/

/-- The bit times that make a dominant level an alarm hold (R52). -/
def holdBits : Nat := 22

/-- The LC at a hold heard: a frame in assembly discarded uncounted, the receiver waiting for the line to
return recessive (R52). The transmitter stays as it is: the loss of a frame to the hold is an event of
its own (R63, R64, R164; log 16). -/
def Lc.hearHold (l : Lc) : Lc :=
  { l with asm := .hunt, holdHeard := true, quiet := 0, awaitRecessive := true }

/-- An alarm hold detected and handed to the FMC (R52, R163). -/
def State.hearHold (s : State) : State := { s with lc := s.lc.hearHold }.holdHeard

/-- The transmitter is driving a hold. -/
def Tx.isHolding : Tx → Bool
  | .holding => true
  | .idle | .sending _ | .lost _ => false

/-- The LC can detect a hold: it receives after LOAD, is not driving its own, and has not handed this
level over yet (R52, R67). -/
def State.canHear (s : State) : Bool :=
  s.released && s.cfg.isSome && !s.lc.tx.isHolding && !s.lc.holdHeard

/-! ### Losses (R63, R64) -/

/-- A frame's retry record. -/
def TxFrame.retry : TxFrame → Retry
  | .status _ r => r
  | .notice n => n.retry
  | .alarm a => a.retry

/-- A frame with another retry record. -/
def TxFrame.withRetry (f : TxFrame) (r : Retry) : TxFrame :=
  match f with
  | .status b _ => .status b r
  | .notice n => .notice { n with retry := r }
  | .alarm a => .alarm { a with retry := r }

/-- A frame lost behind its head to something other than a hold: it waits with its extra gap, or is
discarded at the fourth such loss (R64). -/
def Lc.faulted (l : Lc) (f : TxFrame) : Lc :=
  if f.retry.faults + 1 < 4 then l.requeue (f.withRetry ⟨f.retry.faults + 1, true⟩) else l

/-- A loss behind the head judged at the end of the level that caused it (R64). -/
def Lc.judgeLoss (l : Lc) (hold : Bool) : Lc :=
  match l.tx with
  | .lost f =>
    let l' := { l with tx := .idle }
    if hold then
      match f with
      | some f => l'.requeue f
      | none => l'
    else
      match f with
      | some f => l'.countLineFault.faulted f
      | none => l'.countLineFault
  | .idle | .sending _ | .holding => l

/-- A broken character judged at the end of the level that broke it (R49). -/
def Lc.judgeBroken (l : Lc) (hold : Bool) : Lc :=
  if l.brokenFrame && !hold then l.countCheckFail else l

/-- The line recessive again after a dominant level: what waited for it is judged, and the receiver watches
for the next start bit (R44, R49, R52, R64). -/
def Lc.levelEnds (l : Lc) (hold : Bool) : Lc :=
  { (l.judgeLoss hold).judgeBroken hold with
    brokenFrame := false, holdHeard := false, awaitRecessive := false, quiet := 0 }

/-- A dominant level of `bits` bit times ends; one of 22 or more not yet handed over is handed over here
(R52; log 15). -/
def State.dominantLevelEnd (s : State) (bits : Nat) : State :=
  let s' := if holdBits ≤ bits ∧ s.canHear = true then s.hearHold else s
  { s' with lc := s'.lc.levelEnds (s.lc.holdHeard || decide (holdBits ≤ bits)) }

/-- The kind of a notice's frame. -/
def NoticeKind.kind : NoticeKind → Kind
  | .travel => .travel
  | .presence => .presence
  | .report => .report

/-- A frame's characters as they go out, by their data bytes (R45). -/
def TxFrame.chars (f : TxFrame) (own : Nat) : List Byte :=
  match f with
  | .status b _ => frameBytes (toByte own) .status b.bytes
  | .notice n => frameBytes (toByte own) n.kind.kind n.body
  | .alarm a => frameBytes (toByte own) .alarm a.body.bytes

/-- What a frame drives on the line, level by level, its characters back to back (R43). -/
def TxFrame.levels (f : TxFrame) (own : Nat) : List LineLevel := frameLevels (f.chars own)

/-- The line lost within the head: the frame waits unchanged (R63). -/
def Lc.headLoss (l : Lc) (f : TxFrame) : Lc := { l with tx := .idle, quiet := 0 }.requeue f

/-- The line lost after `sent` characters: the assembler holds those, the clash mark set (R64). DESIGN CHOICE
(log 44): so too when the alarm hold that takes the line has been heard before (log 16). -/
def Lc.bodyLoss (l : Lc) (own : Nat) (f : TxFrame) (sent : Nat) : Lc :=
  { l with tx := .lost (some f), asm := .assemble ((f.chars own).take sent) true, quiet := 0 }

/-- The line lost while sending, after `sent` whole characters (R63, R64; log 13). -/
def State.lose (s : State) (sent : Nat) : State :=
  match s.lc.tx with
  | .sending f =>
    if sent = 0 then { s with lc := s.lc.headLoss f }
    else { s with lc := s.lc.bodyLoss s.ssl.own f sent }
  | .idle | .lost _ | .holding => s

/-! ### Line access (R60 to R62) -/

/-- The start-up states in which the LC starts frames (R67). -/
def Startup.sendsFrames : Startup → Bool
  | .join | .run => true
  | .load | .selftest | .listen | .strapFault => false

/-- The exhaust index in a STATUS, 65535 for INVALID (R178). -/
def exhaustHalf : Option Nat → Half
  | some n => toHalf n
  | none => 0xFFFF#16

/-- The snapshot of a STATUS head (R60, Section 11.3). -/
def State.snapshot (s : State) (c : Configuration) : StatusBody where
  phase       := BitVec.ofNat 3 s.scu.phase.code
  source      := BitVec.ofNat 2 s.br.tempSource.code
  flags       := s.statusFlags
  minute      := toHalf s.scu.minute
  second      := toByte s.scu.second
  rank        := toByte s.scu.rank
  interval    := toByte c.site.interval.code
  tBay        := tempHalf s.br.tBay
  tOut        := tempHalf s.br.tOut
  request     := toByte s.hru.request
  grant       := toByte s.hsu.grant
  stagesOn    := toByte s.hsu.onList.length
  extract     := toHalf s.abu.extract
  supply      := toHalf s.abu.supply
  uncovered   := toHalf s.abu.uncovered
  exhaust     := exhaustHalf s.br.exhaust
  unsealed    := toByte s.br.unsealed
  sealedDoors := toByte s.br.sealedDoors
  zones       := toByte s.br.occupiedZones
  signature   := toHalf c.signature

/-- What waits first in selection order: an ALARM frame, the oldest notice, a STATUS not held back by
the yield (R61, R62). -/
inductive Choice where
  | alarm (a : AlarmFrame)
  | notice (n : Notice) (rest : List Notice)
  | status (r : Retry)
deriving DecidableEq, Repr

/-- The first waiting frame in selection order (R61). -/
def Lc.choice (l : Lc) : Option Choice :=
  match l.alarmWaiting, l.notices, l.statusWaiting with
  | some a, _, _ => some (.alarm a)
  | none, n :: rest, _ => some (.notice n rest)
  | none, [], some r => if l.yielding then none else some (.status r)
  | none, [], none => none

/-- The extra gap in character times (R61). -/
def Retry.extra (r : Retry) : Nat := if r.extraGap then 4 else 0

/-- The gap of the chosen frame in bit times (R61). -/
def Choice.gap : Choice → Nat
  | .alarm a => charBits * (2 + a.retry.extra)
  | .notice n _ => charBits * (3 + n.retry.extra)
  | .status r => charBits * (4 + r.extra)

/-- The LC as a head of its own goes out: the assembler in HUNT while the station sends (R65). DEDUCED (log
28): a frame still in assembly ends there as at any new head, counted by FRAME_TIMEOUT (R46). -/
def Lc.headSent (l : Lc) : Lc :=
  let l' := if l.asm.inFrame then l.countTimeout else l
  { l'.active with asm := .hunt }

/-- The head of the chosen frame sent: it is in transmission, and a STATUS takes its snapshot, is noted
for R59 and clears the presence mark (R60). -/
def State.startFrame (s : State) (c : Configuration) (q : Choice) : State :=
  let l := s.lc.headSent
  match q with
  | .alarm a => { s with lc := { l with alarmWaiting := none, tx := .sending (.alarm a) } }
  | .notice n rest => { s with lc := { l with notices := rest, tx := .sending (.notice n) } }
  | .status r =>
    { s with lc := { l with
        statusWaiting := none
        tx := .sending (.status (s.snapshot c) r)
        lastStatus := some ⟨s.hru.request, s.fmc.inForce, s.hru.frost⟩
        presenceMark := false } }

/-- A frame may start: after LISTEN, with the transmitter idle and no dominant level known to stand on the
line, since quiet is measured from its end (R52, R61, R67). -/
def State.maySend (s : State) : Bool :=
  s.released && s.ssl.startup.sendsFrames && s.lc.tx == .idle && !s.lc.awaitRecessive

/-- The choice that starts at a quiet, if its gap is reached (R61). -/
def Lc.starting (l : Lc) (quiet : Nat) : Option Choice :=
  l.choice.filter fun q => decide (q.gap ≤ (l.measured quiet).quiet)

/-- The first waiting frame started at a quiet and a moment, if one waits and its gap is reached; a
notice past its age is gone by then (R56, R61). -/
def State.frameStart (s : State) (quiet now : Nat) : State :=
  if s.maySend then
    let t := s.atMoment now
    match t.lc.starting quiet, t.cfg with
    | some q, some c => t.startFrame c q
    | some _, none | none, _ => s
  else s

/-- The frame has gone out to its end: it leaves the store, a STATUS begins the yield and a REPORT is
reported to the SSL (R62, R65, R176). Its last stop bit was read recessive, so a level heard during it has
ended (DEDUCED, log 16). -/
def State.frameSent (s : State) : State :=
  match s.lc.tx with
  | .sending f =>
    let l := { s.lc.active with tx := .idle }
    match f with
    | .status _ _ => { s with lc := { l with yielding := true } }
    | .notice n => { s with lc := l, ssl := if n.isReport then s.ssl.reportSent else s.ssl }
    | .alarm _ => { s with lc := l }
  | .idle | .lost _ | .holding => s

/-- The own hold's 30 bit times are over: the line is released (R53). DESIGN CHOICE (log 46): the line
counts as recessive there, so that the receiver's wait ends and what another station still holds dominant is
a new level, which can be handed over anew (R52). -/
def Lc.holdEnd (l : Lc) : Lc :=
  match l.tx with
  | .holding => { l.active with tx := .idle }
  | .idle | .sending _ | .lost _ => l

/-- Twelve character times in bit times (R62). -/
def yieldQuiet : Nat := 12 * charBits

/-- The yield ended by quiet (R62). -/
def Lc.yieldEnd (l : Lc) (quiet : Nat) : Lc :=
  let l' := l.measured quiet
  if yieldQuiet ≤ l'.quiet then { l' with yielding := false } else l

/-! ### The sample event (R50, R58, R59, R67) -/

/-- The clash-quiet count raised while the flag is set; at 600 the flag clears (R50). -/
def Lc.clashSecond (l : Lc) : Lc :=
  if l.clash then
    { l with clashQuiet := l.clashQuiet + 1, clash := decide (l.clashQuiet + 1 < 600) }
  else l

/-- The status interval count raised; at the interval it returns to 0 and a STATUS is posted (R58). -/
def Lc.intervalSecond (l : Lc) (interval : Nat) : Lc :=
  if interval ≤ l.intervalCount + 1 then { l with intervalCount := 0 }.postStatus
  else { l with intervalCount := l.intervalCount + 1 }

/-- The announced request, FIRE or FROST has moved on from the last STATUS head's (R59). -/
def LastStatus.differs (t : LastStatus) (request : Nat) (fire frost : Bool) : Bool :=
  decide (t.request + 10 ≤ request) || decide (request + 10 ≤ t.request) || t.fire != fire
    || t.frost != frost

/-- A condition of R59 holds; before any STATUS head the presence mark alone counts (log 22). -/
def State.promptCause (s : State) : Bool :=
  s.lc.presenceMark ||
    s.lc.lastStatus.any fun t => t.differs s.hru.request s.fmc.inForce s.hru.frost

/-- The prompt check (R59). -/
def State.promptCheck (s : State) : State :=
  if s.lc.statusPlaceEmpty && s.promptCause then { s with lc := s.lc.postStatus } else s

/-- The LC's sample event (R67). DESIGN CHOICE (log 39): where the interval expires at the sample event
of a prompt check, the interval's STATUS is posted first. -/
def State.lcSample (s : State) : State :=
  match s.cfg with
  | none => s
  | some c =>
    let s' := { s with lc := s.lc.clashSecond }
    if s.ssl.startup.isRun then
      { s' with lc := s'.lc.intervalSecond c.site.interval.seconds }.promptCheck
    else s'

/-! ### The rows -/

/-- LC_SAMPLE_EVENT (R67). -/
def execLcSampleEvent (s : State) : Host.Outcome State Fault Refusal :=
  whenReleased s State.lcSample

/-- The interval count reaches the interval at this sample event (R58). -/
def State.intervalDue (s : State) : Bool :=
  s.ssl.startup.isRun &&
    s.cfg.any fun c => decide (c.site.interval.seconds ≤ s.lc.intervalCount + 1)

/-- STATUS_INTERVAL_EXPIRY: the LC sample event at which the interval expires (R58, log 1). -/
def execStatusIntervalExpiry (s : State) : Host.Outcome State Fault Refusal :=
  whenDue s.intervalDue s State.lcSample

/-- The clash-quiet count reaches 600 at this sample event (R50). -/
def State.clashDue (s : State) : Bool :=
  s.cfg.isSome && s.lc.clash && decide (600 ≤ s.lc.clashQuiet + 1)

/-- CLASH_QUIET_EXPIRY: the LC sample event at which the CLASH flag clears (R50, log 1). -/
def execClashQuietExpiry (s : State) : Host.Outcome State Fault Refusal :=
  whenDue s.clashDue s State.lcSample

/-- CHARACTER_RECEIVED (R46). -/
def execCharacterReceived (data : Byte) (marker : Bool) (now : Nat) (s : State) :
    Host.Outcome State Fault Refusal :=
  whenDue s.watching s fun s => (s.atMoment now).characterReceived data marker

/-- FALSE_START (R44, R61). -/
def execFalseStart (s : State) : Host.Outcome State Fault Refusal :=
  whenDue s.watching s fun s => { s with lc := s.lc.active }

/-- BROKEN_CHARACTER (R49). -/
def execBrokenCharacter (s : State) : Host.Outcome State Fault Refusal :=
  whenDue s.watching s fun s => { s with lc := s.lc.broken }

/-- FRAME_TIMEOUT (R49). -/
def execFrameTimeout (quiet : Nat) (s : State) : Host.Outcome State Fault Refusal :=
  whenDue (s.watching && s.lc.timedOut quiet) s fun s => { s with lc := s.lc.timeout quiet }

/-- ALARM_HOLD_HEARD (R52). -/
def execAlarmHoldHeard (s : State) : Host.Outcome State Fault Refusal :=
  whenDue s.canHear s State.hearHold

/-- DOMINANT_LEVEL_END (R49, R52, R64). -/
def execDominantLevelEnd (bits : Nat) (s : State) : Host.Outcome State Fault Refusal :=
  whenDue s.receiving s fun s => s.dominantLevelEnd bits

/-- FRAME_START (R61). -/
def execFrameStart (quiet now : Nat) (s : State) : Host.Outcome State Fault Refusal :=
  .next (s.frameStart quiet now)

/-- ARBITRATION_LOSS (R63). -/
def execArbitrationLoss (sent : Nat) (s : State) : Host.Outcome State Fault Refusal :=
  whenReleased s fun s => s.lose sent

/-- FRAME_SENT (R65). -/
def execFrameSent (s : State) : Host.Outcome State Fault Refusal := whenReleased s State.frameSent

/-- ALARM_HOLD_END (R53). -/
def execAlarmHoldEnd (s : State) : Host.Outcome State Fault Refusal :=
  whenReleased s fun s => { s with lc := s.lc.holdEnd }

/-- YIELD_END (R62). -/
def execYieldEnd (quiet : Nat) (s : State) : Host.Outcome State Fault Refusal :=
  whenDue s.watching s fun s => { s with lc := s.lc.yieldEnd quiet }

/-- NOTICE_AGE_EXPIRY: waiting notices of 2 s leave the store (R56, log 9). -/
def execNoticeAgeExpiry (now : Nat) (s : State) : Host.Outcome State Fault Refusal :=
  whenReleased s fun s => { s with lc := (s.lc.advance now).expire noticeLife }

end Sys2Proof.Machine
end

