-- ==== Sys2Proof/Machine/Dispatch.lean ====
section
/-! DEFINITION. One arm for each command of the table. -/

namespace Sys2Proof.Machine

/-- The effect of a command on everything but the queue. -/
def exec (i : Instr) (s : State) : Host.Outcome State Fault Refusal :=
  match i with
  | .powerReset => Sys2Proof.Machine.execPowerReset s
  | .terminalReset => Sys2Proof.Machine.execTerminalReset s
  | .resetRelease straps => Sys2Proof.Machine.execResetRelease straps s
  | .imageAdopt memory => Sys2Proof.Machine.execImageAdopt memory s
  | .fiuSampleEvent x now => Sys2Proof.Machine.execFiuSampleEvent x now s
  | .sensorRestored sensor x now => Sys2Proof.Machine.execSensorRestored sensor x now s
  | .tempBlind x now => Sys2Proof.Machine.execTempBlind x now s
  | .doorLongOpen door x now => Sys2Proof.Machine.execDoorLongOpen door x now s
  | .zoneHoldExpiry zone x now => Sys2Proof.Machine.execZoneHoldExpiry zone x now s
  | .scuSampleEvent => Sys2Proof.Machine.execScuSampleEvent s
  | .minuteBoundary => Sys2Proof.Machine.execMinuteBoundary s
  | .holdRetire entry => Sys2Proof.Machine.execHoldRetire entry s
  | .elapsedMinuteTick => Sys2Proof.Machine.execElapsedMinuteTick s
  | .amendmentExpiry => Sys2Proof.Machine.execAmendmentExpiry s
  | .lcSampleEvent => Sys2Proof.Machine.execLcSampleEvent s
  | .statusIntervalExpiry => Sys2Proof.Machine.execStatusIntervalExpiry s
  | .clashQuietExpiry => Sys2Proof.Machine.execClashQuietExpiry s
  | .ptSampleEvent => Sys2Proof.Machine.execPtSampleEvent s
  | .entryStale station => Sys2Proof.Machine.execEntryStale station s
  | .entryLost station => Sys2Proof.Machine.execEntryLost station s
  | .ltcSampleEvent => Sys2Proof.Machine.execLtcSampleEvent s
  | .prelightExpiry => Sys2Proof.Machine.execPrelightExpiry s
  | .hruSampleEvent => Sys2Proof.Machine.execHruSampleEvent s
  | .runOnExpiry door => Sys2Proof.Machine.execRunOnExpiry door s
  | .hsuSampleEvent => Sys2Proof.Machine.execHsuSampleEvent s
  | .minOffExpiry stage => Sys2Proof.Machine.execMinOffExpiry stage s
  | .abuSampleEvent => Sys2Proof.Machine.execAbuSampleEvent s
  | .fmcSampleEvent => Sys2Proof.Machine.execFmcSampleEvent s
  | .repeatTimerExpiry => Sys2Proof.Machine.execRepeatTimerExpiry s
  | .sslSampleEvent now => Sys2Proof.Machine.execSslSampleEvent now s
  | .selftestEnd x now => Sys2Proof.Machine.execSelftestEnd x now s
  | .listenEnd now => Sys2Proof.Machine.execListenEnd now s
  | .joinEnd now => Sys2Proof.Machine.execJoinEnd now s
  | .characterReceived data marker now => Sys2Proof.Machine.execCharacterReceived data marker now s
  | .falseStart => Sys2Proof.Machine.execFalseStart s
  | .brokenCharacter => Sys2Proof.Machine.execBrokenCharacter s
  | .frameTimeout quiet => Sys2Proof.Machine.execFrameTimeout quiet s
  | .alarmHoldHeard => Sys2Proof.Machine.execAlarmHoldHeard s
  | .dominantLevelEnd bits => Sys2Proof.Machine.execDominantLevelEnd bits s
  | .frameStart quiet now => Sys2Proof.Machine.execFrameStart quiet now s
  | .arbitrationLoss sent => Sys2Proof.Machine.execArbitrationLoss sent s
  | .frameSent => Sys2Proof.Machine.execFrameSent s
  | .alarmHoldEnd => Sys2Proof.Machine.execAlarmHoldEnd s
  | .yieldEnd quiet => Sys2Proof.Machine.execYieldEnd quiet s
  | .noticeAgeExpiry now => Sys2Proof.Machine.execNoticeAgeExpiry now s
  | .status sender body => Sys2Proof.Machine.execStatus sender body s
  | .presence sender body => Sys2Proof.Machine.execPresence sender body s
  | .travel sender body now => Sys2Proof.Machine.execTravel sender body now s
  | .alarm sender body => Sys2Proof.Machine.execAlarm sender body s
  | .time sender body => Sys2Proof.Machine.execTime sender body s
  | .inquiry sender target now => Sys2Proof.Machine.execInquiry sender target now s
  | .holdPhase panel addr delay => Sys2Proof.Machine.execHoldPhase panel addr delay s
  | .advancePhase panel addr => Sys2Proof.Machine.execAdvancePhase panel addr s
  | .closeBays panel addr minutes => Sys2Proof.Machine.execCloseBays panel addr minutes s
  | .openBays panel addr => Sys2Proof.Machine.execOpenBays panel addr s
  | .lightForce panel addr minutes level => Sys2Proof.Machine.execLightForce panel addr minutes level s
  | .cancelAmendments panel addr => Sys2Proof.Machine.execCancelAmendments panel addr s
  | .alarmReset panel addr => Sys2Proof.Machine.execAlarmReset panel addr s
  | .restart panel addr => Sys2Proof.Machine.execRestart panel addr s
  | .unknownCommand panel addr code argument => Sys2Proof.Machine.execUnknownCommand panel addr code argument s

end Sys2Proof.Machine
end

