-- ==== Sys2Proof/Machine/Outputs.lean ====
section
/-! DEFINITION. The output terminals, which follow the blocks that own them (00_scope Section 3.1, R91,
R111, R136, R146, R53). They have no home of their own in the state. -/

namespace Sys2Proof.Machine

/-- What the output terminals carry; `lineDominant` is the own alarm hold. -/
structure Outputs where
  lights       : Six Nat
  stages       : Eight Bool
  curtains     : Eight Bool
  fan          : Nat
  damper       : Nat
  lineDominant : Bool
deriving DecidableEq, Repr

/-- The heater stage output of stage k; none of the stages beyond N is on (R136). -/
def Hsu.stageOutput (h : Hsu) (k : Nat) : Bool := (h.stage? k).any Stage.on

/-- The output terminals of a station. -/
def State.outputs (s : State) : Outputs where
  lights       := Six.ofFn fun g => (s.ltc.groups.get g).level
  stages       := Eight.ofFn fun k => s.hsu.stageOutput (k.val + 1)
  curtains     := Eight.ofFn fun k => (s.hru.curtains.get k).output
  fan          := s.abu.speed
  damper       := s.abu.damper
  lineDominant := s.lc.tx.isHolding

end Sys2Proof.Machine
end

