-- ==== Sys2Proof/Safety.lean ====
section
/-! DEFINITION. What a safe station is: the properties the manual says always hold of the transmit
store, of fire mode, of the start-up states, of the ranges of counts, lists and outputs, of the Peer Table and
of the heater stages; how a configuration stands in an image; and the terms in which the claims say
when a station works, what it has heard and what stays as it is. -/

namespace Sys2Proof.Machine

/-! ### The transmit store (R54) -/

/-- A frame taken from the store is a STATUS. -/
def TxFrame.isStatus : TxFrame → Bool
  | .status _ _ => true
  | .notice _ | .alarm _ => false

/-- A frame taken from the store is a notice. -/
def TxFrame.isNotice : TxFrame → Bool
  | .notice _ => true
  | .status _ _ | .alarm _ => false

/-- The bytes that waiting notices occupy, each its length plus 5 (R54). -/
def noticeBytes (l : List Notice) : Nat := (l.map fun n => n.body.length + 5).sum

/-- A notice's body is at most 48 characters long (R45, R55). -/
def Notice.fits (n : Notice) : Bool := decide (n.body.length ≤ 48)

/-- A frame's body is at most 48 characters long, where it is not fixed (R45, R55). -/
def TxFrame.fits : TxFrame → Bool
  | .notice n => n.fits
  | .status _ _ | .alarm _ => true

/-- The shared part holds at most 223 bytes and 7 frames, every notice is at most 48 long, and there is
at most one STATUS frame (R54). -/
def Lc.storeSafe (l : Lc) : Prop :=
  l.sharedBytes ≤ 223 ∧ l.sharedFrames ≤ 7 ∧ l.notices.all Notice.fits = true
    ∧ l.tx.frame.all TxFrame.fits = true
    ∧ (l.statusWaiting.isSome && l.tx.frame.any TxFrame.isStatus) = false

/-! ### Fire mode (R97, R122, R133, R141, R157, R158) -/

/-- While fire mode is in force every light is full, pre-light IDLE, every curtain INHIBITED, the
request 0, the grant and the allowed count 0, every stage off, the fans and the damper at their fire
values with nothing uncovered. -/
def State.fireSafe (s : State) : Prop :=
  s.fmc.inForce = true →
    s.ltc.groups = six ⟨1000, 1000⟩ ∧ s.ltc.prelight = .idle ∧ s.hru.curtains = eight .inhibited
      ∧ s.hru.request = 0 ∧ s.hru.short = false ∧ s.hsu.grant = 0 ∧ s.hsu.allowed = 0
      ∧ s.hsu.onList = [] ∧ s.hsu.stages.any Stage.on = false
      ∧ s.abu.speed = s.bayOrFallback.fireSpeed ∧ s.abu.damper = s.bayOrFallback.fireDamper
      ∧ s.abu.uncovered = 0

/-! ### The start-up states (R67, R165, R170, R177) -/

/-- The transmitter has no frame of the store. -/
def Tx.frameless (t : Tx) : Bool := t.frame.isNone

/-- The station's own number is a bay number in the start-up states a bay station passes through, and is
none in STRAP_FAULT (R170). -/
def State.numberFits (s : State) : Bool :=
  match s.ssl.startup with
  | .load => true
  | .selftest | .listen | .join | .run => isBayNumber s.ssl.own
  | .strapFault => !isBayNumber s.ssl.own

/-- The start-up states in which the line is left alone: no frames and no holds (R67). -/
def Startup.isSilent : Startup → Bool
  | .load | .strapFault => true
  | .selftest | .listen | .join | .run => false

/-- A configuration is adopted exactly outside LOAD; a held reset stands in LOAD; LOAD and STRAP_FAULT
leave the transmitter idle, the store without frames and the repeat timer STOPPED; no frame is in
transmission before JOIN, no STATUS in its place before RUN; a send is owed in LOAD alone. -/
def State.startSafe (s : State) : Prop :=
  (s.cfg.isNone = (s.ssl.startup == .load)) ∧ (s.held.isSome = true → s.ssl.startup = .load)
    ∧ s.numberFits = true
    ∧ (s.ssl.startup.isSilent = true →
        s.lc.tx = .idle ∧ s.lc.alarmWaiting = none ∧ s.lc.notices = [] ∧ s.fmc.timer = none)
    ∧ (s.ssl.startup.sendsFrames = false → s.lc.tx.frame = none)
    ∧ (s.ssl.startup.isRun = false → s.lc.statusPlaceEmpty = true)
    ∧ (s.fmc.owed = true → s.ssl.startup = .load)

/-! ### Ranges (R3, R23, R24, R28, R66, R101, R104, R165, R175) -/

/-- Every line counter lies within 0 to 65535 (R66). -/
def Counters.inRange (c : Counters) : Prop :=
  c.checkFail ≤ 65535 ∧ c.frameTimeout ≤ 65535 ∧ c.unknownKind ≤ 65535 ∧ c.noticeDrop ≤ 65535
    ∧ c.noticeStale ≤ 65535 ∧ c.statusLate ≤ 65535 ∧ c.lineFault ≤ 65535 ∧ c.clashCount ≤ 65535

/-- The time of week, the rank, the counters and the lists stay within the ranges the manual states. -/
def State.inRange (s : State) : Prop :=
  s.scu.minute ≤ 10079 ∧ s.scu.second ≤ 59 ∧ s.scu.elapsed ≤ 59 ∧ s.scu.rank ≤ 15
    ∧ s.scu.amendments.length ≤ 8 ∧ s.ssl.events.length ≤ 8 ∧ s.ltc.recent.length ≤ 16
    ∧ s.ltc.sequence ≤ 255 ∧ s.fmc.repeatCount ≤ 255 ∧ s.fiu.lastGoodAge ≤ 65535
    ∧ s.lc.counters.inRange

/-! ### The Peer Table (R51, R69) -/

/-- A table's numbers rise strictly, each holds, and none is the own number. -/
def tableSafe {α : Type} (own : Nat) (may : Nat → Bool) (l : List (Nat × α)) : Prop :=
  (l.map Prod.fst).Pairwise (· < ·) ∧ ∀ e ∈ l, may e.1 = true ∧ e.1 ≠ own

/-- A head the filter may have let through with a kind, by its number alone (R51). -/
def senderFits (head : Nat) : Kind → Bool
  | .status | .presence | .travel => isBayNumber head
  | .panel | .time | .inquiry => isPanelNumber head
  | .alarm => true
  | .report => false

/-- A frame in assembly has a head; its clash mark is set when the head is the own number, and without
the mark its kind, once received, has passed the filter (R46, R47). -/
def Assembler.safe (own : Nat) : Assembler → Prop
  | .hunt | .skip => True
  | .assemble chars clash =>
    chars ≠ [] ∧ (clash = false → (byteAt chars 0).toNat ≠ own ∧ (2 ≤ chars.length →
      (Kind.ofCode (byteAt chars 1)).any (senderFits (byteAt chars 0).toNat) = true))

/-- The table holds bay stations 1 to 48 and panels 56 to 63 in ascending order, never the own number;
what is in assembly can add no other; a held reset leaves both empty. -/
def State.peersSafe (s : State) : Prop :=
  tableSafe s.ssl.own isBayNumber s.pt.bays ∧ tableSafe s.ssl.own isPanelNumber s.pt.panels
    ∧ s.lc.asm.safe s.ssl.own
    ∧ (s.held.isSome = true → s.pt.bays = [] ∧ s.pt.panels = [] ∧ s.lc.asm = .hunt)

/-! ### The heater stages (R134 to R136, R141) -/

/-- Whether stage k is on. -/
def Hsu.isOn (h : Hsu) (k : Nat) : Bool := (h.stage? k).any Stage.on

/-- The on-list holds each ON stage once and no OFF stage (R136). -/
def Hsu.listed (h : Hsu) : Prop := h.onList.Nodup ∧ ∀ k, k ∈ h.onList ↔ h.isOn k = true

/-- The stages on are the on-list's, at most the allowed count, which is at most what the grant allows;
without a configuration none is on; with one there are N stages (R135, R136, R144). -/
def State.stagesSafe (s : State) : Prop :=
  s.hsu.listed ∧ s.hsu.onList.length ≤ s.hsu.allowed
    ∧ (∀ c, s.cfg = some c → s.hsu.stages.length = c.bay.stageCount
        ∧ s.hsu.allowed ≤ s.hsu.grant * c.bay.stageCount / c.bay.capacity)
    ∧ (s.cfg = none → s.ssl.startup = .load ∧ s.hsu.grant = 0 ∧ s.hsu.allowed = 0)
    ∧ (s.ssl.startup = .load → s.cfg = none)

/-- The rotation order holds the number of every stage record once (R136). -/
def Hsu.rotates (h : Hsu) : Prop := h.rotation.Perm ((List.range h.stages.length).map (· + 1))

/-! ### The recent-notice list (R101, R104) -/

/-- The list holds no pair twice; the own pairs in it are those of the notices raised last, the newest one
below the sequence to come; while a reset is held it is empty. -/
def State.recentSafe (s : State) : Prop :=
  let own := ((s.ltc.recent.filter fun q => q.1 == s.ssl.own).map Prod.snd).reverse
  s.ltc.sequence ≤ 255 ∧ s.ltc.recent.length ≤ 16 ∧ s.ltc.recent.Nodup
    ∧ own = (List.range own.length).map (fun j => (s.ltc.sequence + 255 - j) % 256)
    ∧ (s.held.isSome = true → s.ltc.recent = [])

/-! ### The values of a power or terminal reset, field by field -/

/-- The Bay Record and FIU fields that every reset alike sets to its values (R10, R11, R16, R19, R20, Section
1.9). -/
def State.inputsCleared (s : State) : Prop :=
  s.br.tempSubst = false
    ∧ s.br.tOut = -300 ∧ s.br.outdoorSource = .design ∧ s.br.outdoorOwn = false
    ∧ s.br.exhaust = none ∧ s.br.daylight = none ∧ (∀ k, s.br.validity.get k = .unsampled)
    ∧ (∀ k, s.br.doors.get k = ⟨.closed, 0, false⟩) ∧ s.br.doorLongOpen = false
    ∧ s.br.unsealed = 0 ∧ s.br.sealedDoors = 0 ∧ s.br.occupiedZones = 0
    ∧ (∀ k, (s.br.zones.get k).state = .vacant ∧ (s.br.zones.get k).holdRemaining = 0)
    ∧ s.br.fireInput = false ∧ s.fiu.firePending = false ∧ (∀ k, s.fiu.restore.get k = 0)
    ∧ (∀ k, s.fiu.doorContacts.get k = ⟨false, false⟩ ∧ s.fiu.trailerContacts.get k = ⟨false, false⟩)

/-- The Bay Record and the FIU's own state at a power or terminal reset (R9, Section 1.9). -/
def State.inputsAtReset (s : State) : Prop :=
  s.inputsCleared ∧ s.br.tBay = 0 ∧ s.br.tempSource = .blind ∧ s.br.tempBlind = true
    ∧ s.fiu.lastGood = none ∧ s.fiu.lastGoodAge = 0

/-- The SCU's time and amendments (R42). -/
def Scu.atReset (u : Scu) : Prop :=
  u.minute = 0 ∧ u.second = 0 ∧ u.timeInvalid = true ∧ u.rank = 15 ∧ u.source = none
    ∧ u.amendments = [] ∧ u.bayClosed = false ∧ u.mismatch = false ∧ u.latch = false ∧ u.elapsed = 0
    ∧ u.phase = .work

/-- What the LC does at every kind of reset: nothing sent or held, an empty store, no yield, HUNT, no
clash, no marks (R68). -/
def Lc.cleared (l : Lc) : Prop :=
  l.tx = .idle ∧ l.notices = [] ∧ l.alarmWaiting = none ∧ l.statusPlaceEmpty = true
    ∧ l.yielding = false ∧ l.asm = .hunt ∧ l.clash = false ∧ l.clashQuiet = 0
    ∧ l.awaitRecessive = false ∧ l.presenceMark = false ∧ l.intervalCount = 0
    ∧ l.lastStatus = none

/-- The output blocks and the FMC (R107, R125, R144, R159, R169). -/
def State.outputsAtReset (s : State) : Prop :=
  (∀ g, s.ltc.groups.get g = ⟨500, 500⟩) ∧ s.ltc.capEngaged = false ∧ s.ltc.prelight = .idle
    ∧ s.ltc.recent = [] ∧ s.ltc.sequence = 0 ∧ (∀ k, s.hru.curtains.get k = .off)
    ∧ s.hru.request = 0 ∧ s.hru.short = false ∧ s.hru.frost = false ∧ s.hru.terms = none
    ∧ s.hsu.grant = 0 ∧ s.hsu.allowed = 0 ∧ s.hsu.onList = [] ∧ s.abu.speed = 20
    ∧ s.abu.damper = 0 ∧ s.abu.supply = 0 ∧ s.abu.extract = 0 ∧ s.abu.need = 0
    ∧ s.abu.uncovered = 0 ∧ s.abu.supplyTarget = 0 ∧ s.fmc.mode = .normal
    ∧ s.fmc.repeatCount = 0 ∧ s.fmc.timer = none ∧ s.fmc.owed = false

/-- The SSL in LOAD with an empty event list (R170, R173, R175). -/
def Ssl.atReset (l : Ssl) : Prop :=
  l.startup = .load ∧ l.imageFallback = false ∧ (∀ k, l.diag.get k = false) ∧ l.events = []
    ∧ l.overflow = false

end Sys2Proof.Machine

namespace Sys2Proof

/-! ### The configuration image, field by field (Section 11.4) -/

/-- The site block stands in an image at its places, every field within its range. -/
def SiteBlock.standsIn (b : SiteBlock) (l : List Byte) : Prop :=
  b.budget = (halfAt l 8).toNat ∧ 1 ≤ b.budget ∧ b.budget ≤ 12000
    ∧ b.designOutdoor = (halfAt l 10).toInt ∧ -400 ≤ b.designOutdoor ∧ b.designOutdoor ≤ 600
    ∧ b.longOpenLimit = (halfAt l 12).toNat ∧ b.longOpenLimit ≤ 3600
    ∧ b.leadPerDegree = (byteAt l 14).toNat ∧ b.leadPerDegree ≤ 60
    ∧ b.leadMax = (byteAt l 15).toNat ∧ b.leadMax ≤ 240
    ∧ (byteAt l 16).toNat
        = (match b.bitRate with | .r19200 => 0 | .r38400 => 1 | .r57600 => 2 | .r115200 => 3)
    ∧ (byteAt l 17).toNat = (match b.interval with | .s2 => 0 | .s4 => 1 | .s8 => 2 | .s16 => 3)
    ∧ b.lookAhead = (byteAt l 18).toNat ∧ 1 ≤ b.lookAhead ∧ b.lookAhead ≤ 3
    ∧ b.prelightHold = (halfAt l 19).toNat ∧ 10 ≤ b.prelightHold ∧ b.prelightHold ≤ 600
    ∧ b.frostLimit = (halfAt l 21).toNat ∧ b.frostLimit ≤ 300
    ∧ b.startLevel = (halfAt l 23).toNat ∧ b.startLevel ≤ 1000

/-- A calendar entry stands at `i`: the minute, then the phase code and the fixed mark (R21). -/
def CalEntry.standsAt (e : CalEntry) (l : List Byte) (i : Nat) : Prop :=
  e.minute = (halfAt l i).toNat ∧ e.minute ≤ 10079
    ∧ (byteAt l (i + 2)).toNat % 8
        = (match e.phase with | .closed => 0 | .work => 2 | .brk => 3 | .changeover => 4)
    ∧ e.fixed = (byteAt l (i + 2)).getLsbD 7

/-- A phase row stands at `i`, every field within its range (R37). -/
def PhaseRow.standsAt (r : PhaseRow) (l : List Byte) (i : Nat) : Prop :=
  r.setpoint = (halfAt l i).toInt ∧ -400 ≤ r.setpoint ∧ r.setpoint ≤ 600
    ∧ r.ventMin = (byteAt l (i + 2)).toNat ∧ r.ventMin ≤ 100
    ∧ r.occHold = (halfAt l (i + 3)).toNat ∧ 10 ≤ r.occHold ∧ r.occHold ≤ 1800
    ∧ (byteAt l (i + 5)).toNat = (if r.curtains then 1 else 0)
    ∧ ∀ g : Fin 6, r.base.get g = (halfAt l (i + 6 + 2 * g.val)).toNat ∧ r.base.get g ≤ 1000
      ∧ r.occ.get g = (halfAt l (i + 18 + 2 * g.val)).toNat ∧ r.occ.get g ≤ 1000

/-- A bay block stands at `i`, behind its station number, every field within its range (R91, R92, R110, R127,
R147, R171). -/
def BayBlock.standsAt (b : BayBlock) (l : List Byte) (i : Nat) : Prop :=
  isBayNumber (byteAt l i).toNat = true
    ∧ b.doorsFitted = byteAt l (i + 1)
    ∧ (byteAt l (i + 2)).toNat = (if b.outdoorFitted then 1 else 0)
    ∧ b.capacity = (byteAt l (i + 3)).toNat ∧ 1 ≤ b.capacity ∧ b.capacity ≤ 250
    ∧ b.band = (byteAt l (i + 4)).toNat ∧ 5 ≤ b.band ∧ b.band ≤ 100
    ∧ b.doorLoss = (byteAt l (i + 5)).toNat ∧ b.doorLoss ≤ 60
    ∧ b.blindRequest = (byteAt l (i + 6)).toNat ∧ b.blindRequest ≤ b.capacity
    ∧ b.runOn = (byteAt l (i + 7)).toNat ∧ b.runOn ≤ 120
    ∧ b.stageCount = (byteAt l (i + 8)).toNat ∧ 1 ≤ b.stageCount ∧ b.stageCount ≤ 8
    ∧ b.hysteresis = (byteAt l (i + 9)).toNat ∧ b.hysteresis ≤ 20
    ∧ b.minOff = (halfAt l (i + 10)).toNat ∧ b.minOff ≤ 900
    ∧ b.extractMax = (halfAt l (i + 12)).toNat ∧ b.extractMax ≤ 500
    ∧ b.supplyMax = (halfAt l (i + 14)).toNat ∧ 1 ≤ b.supplyMax ∧ b.supplyMax ≤ 500
    ∧ b.doorInflow = (byteAt l (i + 16)).toNat ∧ b.doorInflow ≤ 50
    ∧ b.eiLow = (halfAt l (i + 17)).toNat ∧ b.eiHigh = (halfAt l (i + 19)).toNat
    ∧ b.eiLow < b.eiHigh ∧ b.eiHigh ≤ 1000
    ∧ b.fireSpeed = (byteAt l (i + 21)).toNat ∧ b.fireSpeed ≤ 100
    ∧ b.fireDamper = (byteAt l (i + 22)).toNat ∧ b.fireDamper ≤ 100
    ∧ b.dayThreshold = (halfAt l (i + 23)).toNat ∧ b.dayThreshold ≤ 20000
    ∧ (∀ g : Fin 6, (b.groups.get g).rampRate = (halfAt l (i + 25 + 5 * g.val)).toNat
        ∧ 1 ≤ (b.groups.get g).rampRate ∧ (b.groups.get g).rampRate ≤ 1000
        ∧ (b.groups.get g).capLevel = (halfAt l (i + 27 + 5 * g.val)).toNat
        ∧ (b.groups.get g).capLevel ≤ 1000
        ∧ (b.groups.get g).capEnabled = (byteAt l (i + 29 + 5 * g.val)).getLsbD 0
        ∧ (b.groups.get g).aisle = (byteAt l (i + 29 + 5 * g.val)).getLsbD 1)
    ∧ ∀ z : Fin 6, (byteAt l (i + 55 + 2 * z.val)).toNat
          = (match (b.zones.get z).edge with | .noEdge => 0 | .west => 1 | .east => 2)
        ∧ (b.zones.get z).groups = (byteAt l (i + 56 + 2 * z.val)).extractLsb' 0 6

/-- A configuration stands in an image for a station: the sections one after another and within it, the
calendar ascending, every bay block within its ranges, the own block the first of that number (R171). -/
def Configuration.standsIn (c : Configuration) (l : List Byte) (own : Nat) : Prop :=
  let n := (byteAt l 25).toNat
  let p := 26 + 3 * n
  let m := (byteAt l (p + 120)).toNat
  let block := fun j => p + 121 + 67 * j
  block m ≤ l.length ∧ n ≤ 24 ∧ m ≤ 48
    ∧ c.site.standsIn l ∧ c.calendar.length = n
    ∧ (∀ (k : Nat) (e : CalEntry), c.calendar[k]? = some e → e.standsAt l (26 + 3 * k))
    ∧ (c.calendar.map CalEntry.minute).Pairwise (· < ·)
    ∧ c.phases.closed.standsAt l p ∧ c.phases.work.standsAt l (p + 30)
    ∧ c.phases.brk.standsAt l (p + 60) ∧ c.phases.changeover.standsAt l (p + 90)
    ∧ (∀ j, j < m → ∃ b : BayBlock, b.standsAt l (block j))
    ∧ (∃ j, j < m ∧ c.bay.standsAt l (block j) ∧ (byteAt l (block j)).toNat = own
        ∧ ∀ j', j' < j → (byteAt l (block j')).toNat ≠ own)
    ∧ c.version = (halfAt l 4).toNat
    ∧ c.signature = (((l.take (p + 120)).drop 25).map BitVec.toNat).sum % 65536

/-! ### The ranges of a configuration's fields (Section 11.4) -/

/-- A temperature of 00_scope Section 4.1. -/
def isTemperature (t : Int) : Prop := -400 ≤ t ∧ t ≤ 600

/-- The ranges of the site block (R15, R36, R99, R101, R107, R110, R127). -/
def SiteBlock.inRange (b : SiteBlock) : Prop :=
  1 ≤ b.budget ∧ b.budget ≤ 12000 ∧ isTemperature b.designOutdoor ∧ b.longOpenLimit ≤ 3600
    ∧ b.leadPerDegree ≤ 60 ∧ b.leadMax ≤ 240 ∧ 1 ≤ b.lookAhead ∧ b.lookAhead ≤ 3
    ∧ 10 ≤ b.prelightHold ∧ b.prelightHold ≤ 600 ∧ b.frostLimit ≤ 300 ∧ b.startLevel ≤ 1000

/-- The ranges of a phase row (R37). -/
def PhaseRow.inRange (r : PhaseRow) : Prop :=
  isTemperature r.setpoint ∧ r.ventMin ≤ 100 ∧ 10 ≤ r.occHold ∧ r.occHold ≤ 1800
    ∧ ∀ g, r.base.get g ≤ 1000 ∧ r.occ.get g ≤ 1000

/-- The ranges of a bay block (R91, R92, R110, R127, R147). -/
def BayBlock.inRange (b : BayBlock) : Prop :=
  1 ≤ b.capacity ∧ b.capacity ≤ 250 ∧ 5 ≤ b.band ∧ b.band ≤ 100 ∧ b.doorLoss ≤ 60
    ∧ b.blindRequest ≤ b.capacity ∧ b.runOn ≤ 120 ∧ 1 ≤ b.stageCount ∧ b.stageCount ≤ 8
    ∧ b.hysteresis ≤ 20 ∧ b.minOff ≤ 900 ∧ b.extractMax ≤ 500 ∧ 1 ≤ b.supplyMax
    ∧ b.supplyMax ≤ 500 ∧ b.doorInflow ≤ 50 ∧ b.eiLow < b.eiHigh ∧ b.eiHigh ≤ 1000
    ∧ b.fireSpeed ≤ 100 ∧ b.fireDamper ≤ 100 ∧ b.dayThreshold ≤ 20000
    ∧ ∀ g, 1 ≤ (b.groups.get g).rampRate ∧ (b.groups.get g).rampRate ≤ 1000
      ∧ (b.groups.get g).capLevel ≤ 1000

/-- Every field of a configuration lies in its range, and its calendar of at most 24 entries ascends (R21,
R171). -/
def Configuration.inRange (c : Configuration) : Prop :=
  c.site.inRange ∧ c.phases.closed.inRange ∧ c.phases.work.inRange ∧ c.phases.brk.inRange
    ∧ c.phases.changeover.inRange ∧ c.bay.inRange ∧ c.calendar.length ≤ 24
    ∧ (∀ e ∈ c.calendar, e.minute ≤ 10079)
    ∧ (c.calendar.map CalEntry.minute).Pairwise (· < ·)

/-- The header of a read lets tests 4 to 7 be made: signature and length, and the whole length read (tests 1
to 3 of R171). -/
def headerPasses (l : List Byte) : Prop :=
  8 ≤ l.length ∧ halfAt l 0 = 0x5D43 ∧ (halfAt l 2).toNat ≤ 4096 ∧ (halfAt l 2).toNat ≤ l.length

/-- Bay block `j` of an image lies wholly within it and is the own number's (test 5 of R171). -/
def blockMatches (l : List Byte) (own j : Nat) : Prop :=
  let at_ := 147 + 3 * (byteAt l 25).toNat + 67 * j
  j < (byteAt l (146 + 3 * (byteAt l 25).toNat)).toNat ∧ at_ + 67 ≤ l.length
    ∧ isBayNumber own = true ∧ (byteAt l at_).toNat = own

/-- Calendar entries `k` and `k + 1` lie wholly within the image and do not ascend (test 6 of R171). -/
def entryFalls (l : List Byte) (k : Nat) : Prop :=
  k + 1 < (byteAt l 25).toNat ∧ 32 + 3 * k ≤ l.length
    ∧ (halfAt l (29 + 3 * k)).toNat ≤ (halfAt l (26 + 3 * k)).toNat

end Sys2Proof

namespace Sys2Proof.Machine

/-! ### The ranges of the outputs and of the adopted configuration (R96, R149, R154, R171) -/

/-- The light levels and the force levels lie within 0 to 1000, the fan speed and the damper within 0 to 100,
and the adopted configuration within its ranges. -/
def State.outputsInRange (s : State) : Prop :=
  (∀ g, (s.ltc.groups.get g).level ≤ 1000) ∧ s.abu.speed ≤ 100 ∧ s.abu.damper ≤ 100
    ∧ (∀ o r v, .lightForce o r v ∈ s.scu.amendments → v ≤ 1000)
    ∧ ∀ c, s.cfg = some c → c.inRange

/-! ### The terms of the claims -/

/-- No reset is held and the configuration `c` is adopted. -/
def State.works (s : State) (c : Configuration) : Prop := s.held = none ∧ s.cfg = some c

/-- A frame of station `n`, not the own number, can be accepted at this moment: the LC receives after LOAD
and sends no frame, and no broken character holds the receiver back; an alarm hold heard or driven at that
moment is no hindrance (R44, R67, R168; log 10). -/
def State.hears (s : State) (n : Nat) : Prop :=
  s.held = none ∧ s.cfg.isSome = true ∧ (∀ f, s.lc.tx ≠ .sending f)
    ∧ (s.lc.awaitRecessive = true → s.lc.holdHeard = true) ∧ n ≠ s.ssl.own

/-- The SCU takes a panel's frame (R39). -/
def State.takesCommand (s : State) (panel : Byte) (a : PanelAddress) : Prop :=
  s.hears panel.toNat ∧ isPanelNumber panel.toNat = true ∧ s.ssl.startup = .run
    ∧ a.first.toNat ≤ s.ssl.own ∧ s.ssl.own ≤ a.last.toNat
    ∧ s.pt.lastSequence panel.toNat ≠ some a.sequence

/-- The LC after a frame from another station: HUNT, the yield ended, no quiet measured (R48, R61, R62), a
standing level handed over as a hold still so (R52); the rest as it was. -/
def Lc.afterFrame (l l' : Lc) : Prop :=
  l' = { l with
    asm := .hunt, yielding := false, quiet := 0, holdHeard := l.holdHeard && l.awaitRecessive }

/-- The LC `l'` with a frame waiting again in the store of `l`: a notice as the oldest, a STATUS in its place,
an ALARM frame unless one waits already (R53, R63; log 17). -/
def Lc.waitsAgain (l : Lc) (f : TxFrame) (l' : Lc) : Lc :=
  match f with
  | .status _ r => { l' with statusWaiting := some r }
  | .notice n => { l' with notices := n :: l.notices }
  | .alarm a => { l' with alarmWaiting := some (l.alarmWaiting.getD a) }

/-- The same frames wait in two LCs. -/
def Lc.sameStore (l l' : Lc) : Prop :=
  l.statusWaiting = l'.statusWaiting ∧ l.notices = l'.notices ∧ l.alarmWaiting = l'.alarmWaiting

/-- The panel's entry FRESH with the sequence as its last applied one, every other entry as it was (R39,
R75). -/
def Peers.recorded (p p' : Peers) (panel : Byte) (sequence : Byte) : Prop :=
  p'.bays = p.bays ∧ slot? p'.panels panel.toNat = some ⟨.fresh, 0, some sequence⟩
    ∧ ∀ n, n ≠ panel.toNat → slot? p'.panels n = slot? p.panels n

/-- The panel's entry FRESH with the last applied sequence it had, every other entry as it was (R75). -/
def Peers.refreshed (p p' : Peers) (panel : Byte) : Prop :=
  p'.bays = p.bays ∧ slot? p'.panels panel.toNat = some ⟨.fresh, 0, p.lastSequence panel.toNat⟩
    ∧ ∀ n, n ≠ panel.toNat → slot? p'.panels n = slot? p.panels n

/-- What a command of the amendment list leaves as it was: everything but the SCU, the event list, the
HSU's rotation order, the panel's entry and the end of the frame on the line (R28, R38, R39). -/
def State.amendsOnly (s t : State) (panel : Byte) (a : PanelAddress) : Prop :=
  t = { s with scu := t.scu, ssl := t.ssl, hsu := t.hsu, lc := t.lc, pt := t.pt }
    ∧ s.lc.afterFrame t.lc ∧ s.pt.recorded t.pt panel a.sequence
    ∧ t.hsu = { s.hsu with rotation := t.hsu.rotation }
    ∧ t.ssl = { s.ssl with events := t.ssl.events, overflow := t.ssl.overflow, report := t.ssl.report }
    ∧ t.scu = { s.scu with
        amendments := t.scu.amendments, latch := t.scu.latch, phase := t.scu.phase }

/-- A record of a CLOSE or a LIGHT_FORCE, which no evaluation retires (R29, R30). -/
def Amendment.isTimed : Amendment → Bool
  | .close _ _ | .lightForce _ _ _ => true
  | .hold _ _ _ _ | .advance _ _ => false

/-- What a time step from `s` to `t` makes of the amendment list, the latch and the phase: a forward step
retires the WAITING HOLD it carries past its window and the ADVANCE whose minute it skips; the other records
follow the base entry at the new minute; the latch is set anew by the lead (R27, R29, R30, R35, R36). -/
def State.stepped (s : State) (c : Configuration) (t : State) : Prop :=
  let m := t.scu.minute
  let ahead := secondsForward (weekSecond s.scu.minute s.scu.second) (weekSecond m t.scu.second)
  let base := baseEntry c.calendar m
  let since := fun k => minutesForward (entryMinute c.calendar k) m
  let passed := fun k => 0 < ahead ∧ ahead < 302400
    ∧ 0 < minutesForward s.scu.minute (entryMinute c.calendar k)
    ∧ minutesForward s.scu.minute (entryMinute c.calendar k) ≤ minutesForward s.scu.minute m
  let planned := scheduledPhase c.calendar m t.scu.amendments
  (∀ a : Amendment, a.isTimed = true → (a ∈ t.scu.amendments ↔ a ∈ s.scu.amendments))
    ∧ (∀ o k d, .hold o k d .waiting ∈ s.scu.amendments → passed k → d ≤ since k →
        ∀ o' st, .hold o' k d st ∉ t.scu.amendments)
    ∧ (∀ o k d st, .hold o k d st ∈ s.scu.amendments → base = k → since k < d →
        .hold o k d .holding ∈ t.scu.amendments)
    ∧ (∀ o k d, .hold o k d .waiting ∈ s.scu.amendments → ¬ passed k →
        base = entryBefore c.calendar k → base ≠ k → .hold o k d .waiting ∈ t.scu.amendments)
    ∧ (∀ o k d, base ≠ k → .hold o k d .holding ∉ t.scu.amendments)
    ∧ (∀ o k, passed k ∨ base ≠ entryBefore c.calendar k → .advance o k ∉ t.scu.amendments)
    ∧ (∀ o k, .advance o k ∈ s.scu.amendments → ¬ passed k → base = entryBefore c.calendar k →
        .advance o k ∈ t.scu.amendments)
    ∧ (t.scu.bayClosed = true → t.scu.phase = .closed ∧ t.scu.latch = false)
    ∧ (t.scu.bayClosed = false →
        (t.scu.latch = true ↔ planned = .closed
          ∧ ∃ k, preheatTarget c.calendar (pendingEntry c.calendar m t.scu.amendments) = some k
            ∧ minutesForward m ((entryMinute c.calendar k + holdDelay k t.scu.amendments) % 10080)
              ≤ preheatLead c s.br)
        ∧ (planned = .closed → t.scu.phase = if t.scu.latch then .preheat else .closed)
        ∧ (planned ≠ .closed → t.scu.phase = operating planned))

/-- An evaluation at minute `t` leaves the record as it is: a WAITING HOLD and an ADVANCE while the base entry
is the one before theirs, a HOLDING HOLD within its window, the others always (R29, R30). -/
def Amendment.stands (cal : List CalEntry) (t : Nat) : Amendment → Prop
  | .hold _ k _ .waiting => baseEntry cal t = entryBefore cal k ∧ baseEntry cal t ≠ k
  | .hold _ k d .holding => baseEntry cal t = k ∧ minutesForward (entryMinute cal k) t < d
  | .advance _ k => baseEntry cal t = entryBefore cal k
  | .close _ _ | .lightForce _ _ _ => True

/-- The operating phase and the latch of `t` are those of an evaluation of its list that begins from the latch
of `s` and sets none (R34, R35). -/
def State.phaseFollows (s t : State) (c : Configuration) : Prop :=
  let planned := scheduledPhase c.calendar t.scu.minute t.scu.amendments
  (t.scu.bayClosed = true → t.scu.phase = .closed ∧ t.scu.latch = false)
    ∧ (t.scu.bayClosed = false → t.scu.valid = false →
        t.scu.phase = .work ∧ t.scu.latch = s.scu.latch)
    ∧ (t.scu.bayClosed = false → t.scu.valid = true →
        (planned ≠ .closed → t.scu.phase = operating planned ∧ t.scu.latch = false)
        ∧ (planned = .closed → t.scu.latch = s.scu.latch
          ∧ t.scu.phase = if s.scu.latch then .preheat else .closed))

/-- No door becomes long-open from `s` to `t` (R15). -/
def State.makesNoDoorLate (s t : State) : Prop :=
  ∀ j, (t.br.doors.get j).longOpen = true → (s.br.doors.get j).longOpen = true

/-- The nine panel rows (R40). -/
def panelRows (p : Byte) (a : PanelAddress) (arg : Half) (m l : Byte) (code : Byte) : List Instr :=
  [.holdPhase p a arg, .advancePhase p a, .closeBays p a arg, .openBays p a, .lightForce p a m l,
    .cancelAmendments p a, .alarmReset p a, .restart p a, .unknownCommand p a code arg]

/-- The characters of a frame as commands: the head with its marker, the rest without (R43). -/
def characters (now : Nat) (chars : List Byte) : List Instr :=
  (markedChars chars).map fun e => .characterReceived e.1 e.2 now

/-- The characters of a frame from station `n`, received one after another with nothing else waiting, end
where the one row `i` ends at their moment (R43, R45). -/
def State.receives (s : State) (now : Nat) (n : Byte) (k : Kind) (body : List Byte) (i : Instr) : Prop :=
  Host.Core.run Sys2Proof.core (body.length + 5)
      { s with pending := characters now (frameBytes n k body) }
    = exec i (s.atMoment now)

end Sys2Proof.Machine
end

