-- ==== Sys2Proof/Certificates/Slice0/Obligations.lean ====
section
/-! DEFINITION. The statements about the model, for the provers. -/

open Sys2Proof Sys2Proof.Machine

/-! ### The step and the resets -/

/-- A step runs the front command on the queue's rest; on an empty queue it idles, which is the model's
choice (log 3). -/
def Obligations.StepRunsTheFrontCommand : Prop :=
  (∀ (s : State) (c : Instr) (rest : List Instr), s.pending = c :: rest →
    step s = exec c { s with pending := rest })
  ∧ ∀ s : State, s.pending = [] → step s = .next s

/-- Every command answers a next state, and none of them touches the queue. That a command for an event
which cannot come about in the present state answers next as well, with nothing changed, is the model's
choice (log 2). -/
def Obligations.EveryCommandAnswersAndLeavesTheQueue : Prop :=
  ∀ (c : Instr) (s : State), ∃ t, exec c s = .next t ∧ t.pending = s.pending

/-- Power reset and terminal reset set every block to its reset values, the FIU's of Section 1.9 and the
empty Peer Table of Section 4.6 among them; RESET_RELEASE then reads the straps (R177, R171). That the
release brings the strap levels while every other level is kept is the model's choice (log 5), and so is
that with the other reset already held the later kind is recorded and one RESET_RELEASE begins LOAD (log
26), and that the receiver waits for nothing after a reset (log 45). -/
def Obligations.HeldResetsSetResetValues : Prop :=
  (∀ (s : State) (i : Instr) (k : ResetKind),
    (i = .powerReset ∧ k = .power) ∨ (i = .terminalReset ∧ k = .terminal) → ∃ t,
    exec i s = .next t ∧ t.held = some k ∧ t.pins = s.pins ∧ t.pending = s.pending ∧ t.cfg = none
    ∧ t.inputsAtReset ∧ t.scu.atReset ∧ t.lc.cleared ∧ t.lc.counters = ⟨0, 0, 0, 0, 0, 0, 0, 0⟩
    ∧ t.pt = ⟨[], []⟩ ∧ t.outputsAtReset ∧ t.ssl.atReset)
  ∧ ∀ (s : State) (straps : BitVec 6), s.held ≠ none →
    exec (.resetRelease straps) s
      = .next { s with
          held := none, pins := { s.pins with straps := straps }
          ssl := { s.ssl with own := straps.toNat } }

/-- What a RESTART keeps and what it resets (Section 1.9, R42, R68, R89, R108, R125, R145, R160, R169,
R175). That the row is the moment of the frame's acceptance is the model's choice (log 10), and so is that
the straps it reads are the levels brought last (log 5) and that the receiver waits for nothing after it
(log 45). -/
def Obligations.RestartKeepsWhatSurvives : Prop :=
  ∀ (s : State) (p : Byte) (a : PanelAddress), s.takesCommand p a → s.fmc.mode = .normal →
    ∃ t, exec (.restart p a) s = .next t
    ∧ t.held = none ∧ t.pins = s.pins ∧ t.pending = s.pending ∧ t.cfg = none
    ∧ t.ssl.startup = .load ∧ t.ssl.own = s.pins.straps.toNat ∧ t.ssl.events = s.ssl.events
    ∧ t.ssl.overflow = s.ssl.overflow ∧ t.ssl.imageFallback = false
    ∧ (∀ k, t.ssl.diag.get k = false)
    ∧ t.scu.minute = s.scu.minute ∧ t.scu.second = s.scu.second ∧ t.scu.valid = s.scu.valid
    ∧ t.scu.rank = 15 ∧ t.scu.source = none ∧ t.scu.amendments = [] ∧ t.scu.latch = false
    ∧ t.scu.elapsed = 0 ∧ t.scu.phase = .work ∧ t.scu.mismatch = false
    ∧ t.lc.cleared ∧ t.lc.counters = s.lc.counters ∧ t.pt = ⟨[], []⟩
    ∧ t.ltc = { Ltc.reset with sequence := s.ltc.sequence } ∧ t.hru = Hru.reset
    ∧ t.hsu.grant = 0 ∧ t.hsu.allowed = 0 ∧ t.hsu.onList = [] ∧ t.hsu.rotation = s.hsu.rotation
    ∧ (∀ (c : Configuration) (k : Nat) (g : Stage), s.cfg = some c → s.hsu.stages[k]? = some g →
        t.hsu.stages[k]? = some (if g.on then ⟨false, c.bay.minOff, true⟩ else g))
    ∧ t.abu.speed = s.abu.speed ∧ t.abu.damper = s.abu.damper ∧ t.abu.supply = s.abu.supply
    ∧ t.abu.extract = 0 ∧ t.abu.need = 0 ∧ t.abu.uncovered = 0 ∧ t.abu.supplyTarget = 0
    ∧ t.fmc = Fmc.reset
    ∧ t.inputsCleared
    ∧ t.fiu.lastGood = s.fiu.lastGood ∧ t.fiu.lastGoodAge = s.fiu.lastGoodAge
    ∧ (∀ g, s.fiu.lastGood = some g → s.fiu.lastGoodAge ≤ 600 →
        t.br.tBay = g ∧ t.br.tempSource = .held ∧ t.br.tempBlind = false)
    ∧ ((s.fiu.lastGood = none ∨ 600 < s.fiu.lastGoodAge) →
        t.br.tBay = s.br.tBay ∧ t.br.tempSource = .blind ∧ t.br.tempBlind = true)

/-- A read passes the check exactly when a configuration stands in it by the layout of Section 11.4, every
field in its range; that configuration is adopted: LOAD ends in SELFTEST, every block takes its
configuration, the operating phase is evaluated with its bump of the rotation order, and an owed send is
made (R171, R2, R13, R34, R35, R38, R107, R144, R155, R165, R170). The memory read is an operand (log 7);
which image fields have which range, and the order within the adoption, are read by inference (logs 23, 24,
20). The posting moment of the owed ALARM frame is the moment brought last, which is the model's choice (log
9). -/
def Obligations.StoredImageIsAdopted : Prop :=
  (∀ (own : Nat) (l : List Byte) (c : Configuration), judgeImage own (.bytes l) = .ok c ↔
    headerPasses l ∧ wordSum (l.take (halfAt l 2).toNat) % 65536 = 0
    ∧ c.standsIn (l.take (halfAt l 2).toNat) own)
  ∧ ∀ (s : State) (m : ImageRead) (c : Configuration), s.held = none → s.ssl.startup = .load →
    isBayNumber s.ssl.own = true → judgeImage s.ssl.own m = .ok c →
    ∃ t, exec (.imageAdopt m) s = .next t
    ∧ t.cfg = some c ∧ t.ssl.startup = .selftest ∧ t.ssl.imageFallback = false
    ∧ (∀ k, t.ssl.diag.get k = false) ∧ t.ssl.events = s.ssl.events ∧ t.ssl.own = s.ssl.own
    ∧ t.br.validity.outdoor
        = (if c.bay.outdoorFitted then s.br.validity.outdoor else .notFitted)
    ∧ (∀ k, c.bay.doorsFitted.getLsbD k.val = false →
        t.br.doors.get k = ⟨.disabled, 0, false⟩)
    ∧ (∀ k, c.bay.doorsFitted.getLsbD k.val = true → t.br.doors.get k = s.br.doors.get k)
    ∧ (∀ k, (t.br.zones.get k).edge = (c.bay.zones.get k).edge
        ∧ (t.br.zones.get k).groups = (c.bay.zones.get k).groups
        ∧ (t.br.zones.get k).state = (s.br.zones.get k).state)
    ∧ (s.fmc.mode = .normal →
        (∀ g, t.ltc.groups.get g = ⟨c.site.startLevel, c.site.startLevel⟩)
        ∧ t.abu = { s.abu with supply := s.abu.damper * c.bay.supplyMax / 100 })
    ∧ (s.fmc.inForce = true → t.ltc = s.ltc ∧ t.abu.speed = c.bay.fireSpeed
        ∧ t.abu.damper = c.bay.fireDamper
        ∧ t.abu.supply = c.bay.fireDamper * c.bay.supplyMax / 100)
    ∧ (s.hsu.stages.length = c.bay.stageCount → t.hsu.stages = s.hsu.stages)
    ∧ (s.hsu.stages.length ≠ c.bay.stageCount → t.hsu.stages.length = c.bay.stageCount
        ∧ ∀ g ∈ t.hsu.stages, g = ⟨false, c.bay.minOff, false⟩)
    ∧ t.scu = { s.scu with
        phase := t.scu.phase, latch := t.scu.latch, amendments := t.scu.amendments }
    ∧ (s.scu.amendments = [] → t.scu.amendments = []
        ∧ (s.scu.valid = false ∨ c.calendar = [] → t.scu.phase = .work)
        ∧ (s.scu.valid = true → c.calendar ≠ [] →
          (entryPhase c.calendar (baseEntry c.calendar s.scu.minute) = .closed →
            t.scu.phase = if s.scu.latch then .preheat else .closed)
          ∧ (entryPhase c.calendar (baseEntry c.calendar s.scu.minute) ≠ .closed →
            t.scu.phase = operating (entryPhase c.calendar (baseEntry c.calendar s.scu.minute)))))
    ∧ (∀ order, order = (if s.hsu.stages.length = c.bay.stageCount then s.hsu.rotation
          else (List.range c.bay.stageCount).map (· + 1)) →
        (t.scu.phase = s.scu.phase → t.hsu.rotation = order)
        ∧ (t.scu.phase ≠ s.scu.phase → ∀ k rest, order = k :: rest →
            t.hsu.rotation = rest ++ [k]))
    ∧ (s.fmc.owed = false → t.lc = s.lc ∧ t.fmc = s.fmc)
    ∧ (s.fmc.owed = true → s.br.fireInput = false →
        t.lc = s.lc ∧ t.fmc = { s.fmc with owed := false })
    ∧ (s.fmc.owed = true → s.br.fireInput = true →
        t.fmc = { s.fmc with
          owed := false, repeatCount := min 255 (s.fmc.repeatCount + 1), timer := some 30 }
        ∧ t.lc.tx = .holding
        ∧ t.lc.alarmWaiting = some ⟨⟨toByte s.ssl.own, 1, toByte s.fmc.repeatCount⟩, s.lc.clock,
            ⟨0, false⟩⟩)
    ∧ t.held = none ∧ t.pins = s.pins ∧ t.fiu = s.fiu ∧ t.pt = s.pt ∧ t.hru = s.hru

/-- The tests of the image check in their order, each with its code; a failed check adopts the built-in
fallback image, whose values are those of Section 11.5, sets IMAGE_FALLBACK and writes an event carrying the
code; a strap number outside 1 to 48 fails at test 5 at the latest and ends in STRAP_FAULT, an owed send
cleared unmade (R165, R170, R171, R172). The memory read is an operand (log 7); the code of a read that
stops short is read by inference (log 24). -/
def Obligations.FailedImageAdoptsFallback : Prop :=
  (fallback.version = 0 ∧ fallback.calendar = [] ∧ fallback.signature = 12224
    ∧ fallback.site = {
        budget := 250, designOutdoor := -300, longOpenLimit := 600, leadPerDegree := 0, leadMax := 0
        bitRate := .r38400, interval := .s4, lookAhead := 1, prelightHold := 60, frostLimit := 50
        startLevel := 500 }
    ∧ (∀ r ∈ [fallback.phases.closed, fallback.phases.work, fallback.phases.brk,
          fallback.phases.changeover],
        r.setpoint = 50 ∧ r.ventMin = 20 ∧ r.occHold = 300 ∧ r.curtains = true
        ∧ ∀ g, r.base.get g = 500 ∧ r.occ.get g = 500)
    ∧ fallback.bay = {
        doorsFitted := 255, outdoorFitted := false, capacity := 50, band := 20, doorLoss := 10
        blindRequest := 20, runOn := 20, stageCount := 1, hysteresis := 0, minOff := 180
        extractMax := 100, supplyMax := 100, doorInflow := 10, eiLow := 200, eiHigh := 600
        fireSpeed := 100, fireDamper := 100, dayThreshold := 10000
        groups := fallback.bay.groups, zones := fallback.bay.zones }
    ∧ (∀ g, fallback.bay.groups.get g = ⟨50, 1000, false, false⟩)
    ∧ ∀ z j : Fin 6, (fallback.bay.zones.get z).edge = .noEdge
        ∧ ((fallback.bay.zones.get z).groups.getLsbD j.val = true ↔ j = z))
  ∧ (∀ own : Nat, judgeImage own .noAnswer = .error 1)
  ∧ (∀ (own : Nat) (l : List Byte), l.length < 8 → judgeImage own (.bytes l) = .error 1)
  ∧ (∀ (own : Nat) (l : List Byte), 8 ≤ l.length →
    (halfAt l 0 ≠ 0x5D43 → judgeImage own (.bytes l) = .error 2)
    ∧ (halfAt l 0 = 0x5D43 → 4096 < (halfAt l 2).toNat → judgeImage own (.bytes l) = .error 3)
    ∧ (halfAt l 0 = 0x5D43 → (halfAt l 2).toNat ≤ 4096 → l.length < (halfAt l 2).toNat →
        judgeImage own (.bytes l) = .error 1))
  ∧ (∀ (own : Nat) (l image : List Byte), headerPasses l → image = l.take (halfAt l 2).toNat →
    (wordSum image % 65536 ≠ 0 → judgeImage own (.bytes l) = .error 4)
    ∧ (wordSum image % 65536 = 0 → (∀ j, ¬ blockMatches image own j) →
        judgeImage own (.bytes l) = .error 5)
    ∧ (wordSum image % 65536 = 0 → (∃ j, blockMatches image own j) → (∃ k, entryFalls image k) →
        judgeImage own (.bytes l) = .error 6)
    ∧ (wordSum image % 65536 = 0 → (∃ j, blockMatches image own j) → (∀ k, ¬ entryFalls image k) →
        (∀ c : Configuration, ¬ c.standsIn image own) → judgeImage own (.bytes l) = .error 7))
  ∧ (∀ (own : Nat) (m : ImageRead) (n : Nat), judgeImage own m = .error n → 1 ≤ n ∧ n ≤ 7)
  ∧ (∀ (own : Nat) (m : ImageRead), isBayNumber own = false → ∃ n,
      judgeImage own m = .error n ∧ n ≤ 5)
  ∧ ∀ (s : State) (m : ImageRead) (n : Nat), s.held = none → s.ssl.startup = .load →
    judgeImage s.ssl.own m = .error n →
    ∃ t, exec (.imageAdopt m) s = .next t
    ∧ t.cfg = some fallback ∧ t.statusFlags.getLsbD 10 = true
    ∧ t.ssl.startup = (if isBayNumber s.ssl.own then .selftest else .strapFault)
    ∧ t.ssl.events = (if s.ssl.events.length < 8 then s.ssl.events else s.ssl.events.tail)
        ++ [⟨.imageFallback, n, s.scu.minute⟩]
    ∧ (isBayNumber s.ssl.own = false → t.fmc = { s.fmc with owed := false } ∧ t.lc = s.lc)
    ∧ t.held = none ∧ t.pins = s.pins ∧ t.fiu = s.fiu ∧ t.pt = s.pt ∧ t.hru = s.hru

/-- Each FIU sample of SELFTEST sets the flags of the sensors then in FAULT; the third begins LISTEN
(R170, R173). That a row naming part of a sample event is that whole sample event is the model's choice
(log 1). -/
def Obligations.SelftestEndsAtTheThirdSample : Prop :=
  ∀ (s : State) (c : Configuration) (x : InputLevels) (now : Nat), s.works c →
    s.ssl.startup = .selftest → ∃ t, exec (.fiuSampleEvent x now) s = .next t
    ∧ (∀ k, t.ssl.diag.get k = (s.ssl.diag.get k || t.br.validity.get k == .fault))
    ∧ (s.ssl.ticks < 2 → t.ssl.startup = .selftest ∧ t.ssl.ticks = s.ssl.ticks + 1)
    ∧ (s.ssl.ticks = 2 → t.ssl.startup = .listen ∧ t.ssl.ticks = 0
        ∧ exec (.selftestEnd x now) s = .next t)

/-- LISTEN ends at its 20th SSL sample event with a PRESENCE posted as the newest notice where its 11 bytes
and its place are free and counted by NOTICE_DROP otherwise, a waiting ALARM frame staying ahead of it, JOIN
at its second with the first STATUS posted; before that the count alone moves (R170, R174, R54, R55, R58).
That a row naming part of a sample event is that whole sample event is the model's choice (log 1), and so is
that the moment is an operand and that outlived notices leave the store at it, one awaiting the judgement of
its loss too (logs 9, 42). -/
def Obligations.ListenThenJoinThenRun : Prop :=
  ∀ (s : State) (c : Configuration) (now : Nat), s.works c →
    (s.ssl.startup = .listen → s.ssl.ticks < 19 →
      exec (.sslSampleEvent now) s
        = .next { s.atMoment now with ssl := { s.ssl with ticks := s.ssl.ticks + 1 } })
    ∧ (s.ssl.startup = .listen → s.ssl.ticks = 19 → ∃ t,
        exec (.sslSampleEvent now) s = .next t ∧ exec (.listenEnd now) s = .next t
        ∧ t = { s with ssl := { s.ssl with startup := .join, ticks := 0 }, lc := t.lc }
        ∧ ∀ l, l = s.lc.advance now →
          (l.sharedBytes + 11 ≤ 223 → l.sharedFrames < 7 →
            t.lc = { l with notices := l.notices ++ [⟨.presence,
              [(0 : BitVec 3) ++ diagFlags s.ssl.diag] ++ halfBytes (toHalf c.version)
                ++ halfBytes (toHalf c.signature) ++ [toByte c.site.interval.code],
              max s.lc.clock now, ⟨0, false⟩⟩] })
          ∧ (223 < l.sharedBytes + 11 ∨ 7 ≤ l.sharedFrames →
            t.lc = { l with counters.noticeDrop := min 65535 (l.counters.noticeDrop + 1) }))
    ∧ (s.ssl.startup = .join → s.ssl.ticks = 0 →
        exec (.sslSampleEvent now) s
          = .next { s.atMoment now with ssl := { s.ssl with ticks := 1 } })
    ∧ (s.ssl.startup = .selftest ∨ s.ssl.startup = .run ∨ s.ssl.startup = .strapFault →
        exec (.sslSampleEvent now) s = .next (s.atMoment now))
    ∧ (s.ssl.startup = .join → s.ssl.ticks = 1 → ∃ t,
        exec (.sslSampleEvent now) s = .next t ∧ exec (.joinEnd now) s = .next t
        ∧ t = { s with ssl := { s.ssl with startup := .run, ticks := 0 }, lc := t.lc }
        ∧ t.lc.intervalCount = 0
        ∧ (s.lc.statusPlaceEmpty = true → t.lc.statusWaiting = some ⟨0, false⟩))

/-! ### Field inputs -/

/-- The validity table of an analogue sensor over the in-range readings of Section 1.2, and the row that
restores one; the events of a sample that makes no door long-open, sensor by sensor in the order of R4, then
the bay temperature's by the order of R1, behind those the list held (R1, R3, R4, R8). That a row naming
part of a sample event is that whole sample event is the model's choice (log 1). -/
def Obligations.SensorValidityTable : Prop :=
  (∀ (k : Sensor) (r : Int), readingFits k r = true ↔ match k with
    | .tempA | .tempB | .outdoor => -400 ≤ r ∧ r ≤ 600
    | .exhaust => 0 ≤ r ∧ r ≤ 1000
    | .daylight => 0 ≤ r ∧ r ≤ 20000)
  ∧ (∀ (s : State) (c : Configuration) (x : InputLevels) (now : Nat), s.works c →
    s.ssl.events.length ≤ 8 → x.fire = s.br.fireInput →
    ∃ t, exec (.fiuSampleEvent x now) s = .next t
    ∧ (s.makesNoDoorLate t → ∀ written : List Event, written =
        ([Sensor.tempA, .tempB, .outdoor, .exhaust, .daylight].filterMap fun k =>
          match s.br.validity.get k, t.br.validity.get k with
          | .unsampled, .fault | .valid, .fault => some ⟨.sensorFault, k.code, s.scu.minute⟩
          | .fault, .valid => some ⟨.sensorRestored, k.code, s.scu.minute⟩
          | _, _ => none)
        ++ (if t.br.tempSource = .blind ∧ (s.br.tempSource ≠ .blind ∨ s.fiu.selected = false)
            then [⟨.tempBlind, 0, s.scu.minute⟩] else []) →
        t.ssl.events
          = (s.ssl.events ++ written).drop (s.ssl.events.length + written.length - 8)))
  ∧ ∀ (s : State) (c : Configuration) (x : InputLevels) (now : Nat) (k : Sensor), s.works c →
    ∃ t, exec (.fiuSampleEvent x now) s = .next t
    ∧ (s.br.validity.get k = .notFitted →
        t.br.validity.get k = .notFitted ∧ t.fiu.restore.get k = s.fiu.restore.get k)
    ∧ (s.br.validity.get k = .unsampled ∨ s.br.validity.get k = .valid →
        readingFits k (x.reading.get k) = true → t.br.validity.get k = .valid)
    ∧ (s.br.validity.get k ≠ .notFitted → readingFits k (x.reading.get k) = false →
        t.br.validity.get k = .fault ∧ t.fiu.restore.get k = 0)
    ∧ (s.br.validity.get k = .unsampled ∨ s.br.validity.get k = .valid →
        readingFits k (x.reading.get k) = false → s.makesNoDoorLate t →
        (⟨.sensorFault, k.code, s.scu.minute⟩ : Event) ∈ t.ssl.events)
    ∧ (s.br.validity.get k = .fault → readingFits k (x.reading.get k) = true →
        s.fiu.restore.get k < 2 →
        t.br.validity.get k = .fault ∧ t.fiu.restore.get k = s.fiu.restore.get k + 1)
    ∧ (s.br.validity.get k = .fault → readingFits k (x.reading.get k) = true →
        s.fiu.restore.get k = 2 →
        t.br.validity.get k = .valid ∧ t.fiu.restore.get k = 0
        ∧ exec (.sensorRestored k x now) s = .next t
        ∧ (s.makesNoDoorLate t →
            (⟨.sensorRestored, k.code, s.scu.minute⟩ : Event) ∈ t.ssl.events))

/-- The bay temperature chain, its last good value and flags, and the row that goes blind, its event in the
list after a sample that makes no door long-open (R5 to R8). That a row naming part of a sample event is
that whole sample event is the model's choice (log 1); that the numbers beside the own one are its
neighbours in STRAP_FAULT too is read by inference (log 21). -/
def Obligations.BayTemperatureChain : Prop :=
  (∀ (p : Peers) (n : Nat) (v : Int), p.substitute? n = some v ↔
    ∃ b, p.fresh n = some b ∧ b.source = 0 ∧ b.tBay.toInt = v ∧ -400 ≤ v ∧ v ≤ 600)
  ∧ (∀ (s : State) (c : Configuration) (x : InputLevels) (now : Nat), s.works c →
    (∀ k ∈ [Sensor.tempA, .tempB], s.br.validity.get k = .notFitted
      ∨ readingFits k (x.reading.get k) = false
      ∨ (s.br.validity.get k = .fault ∧ s.fiu.restore.get k < 2)) →
    s.pt.substitute? (s.ssl.own - 1) = none → s.pt.substitute? (s.ssl.own + 1) = none →
    s.fiu.lastGood = none ∨ 600 ≤ s.fiu.lastGoodAge →
    s.br.tempSource ≠ .blind ∨ s.fiu.selected = false →
    ∃ t, exec (.tempBlind x now) s = .next t ∧ exec (.fiuSampleEvent x now) s = .next t
    ∧ t.br.tempSource = .blind ∧ t.br.tBay = s.br.tBay ∧ t.br.tempBlind = true
    ∧ (s.makesNoDoorLate t →
        (⟨.tempBlind, 0, s.scu.minute⟩ : Event) ∈ t.ssl.events))
  ∧ ∀ (s : State) (c : Configuration) (x : InputLevels) (now : Nat), s.works c →
    ∃ t, exec (.fiuSampleEvent x now) s = .next t
    ∧ (t.br.validity.tempA = .valid → t.br.validity.tempB = .valid →
        t.br.tBay = (x.reading.tempA + x.reading.tempB) / 2 ∧ t.br.tempSource = .own)
    ∧ (t.br.validity.tempA = .valid → t.br.validity.tempB ≠ .valid →
        t.br.tBay = x.reading.tempA ∧ t.br.tempSource = .own)
    ∧ (t.br.validity.tempA ≠ .valid → t.br.validity.tempB = .valid →
        t.br.tBay = x.reading.tempB ∧ t.br.tempSource = .own)
    ∧ (t.br.validity.tempA ≠ .valid → t.br.validity.tempB ≠ .valid →
        match s.pt.substitute? (s.ssl.own - 1), s.pt.substitute? (s.ssl.own + 1) with
        | some w, some e => t.br.tBay = (w + e) / 2 ∧ t.br.tempSource = .substituted
        | some w, none => t.br.tBay = w ∧ t.br.tempSource = .substituted
        | none, some e => t.br.tBay = e ∧ t.br.tempSource = .substituted
        | none, none =>
          (∀ g, s.fiu.lastGood = some g → s.fiu.lastGoodAge + 1 ≤ 600 →
            t.br.tBay = g ∧ t.br.tempSource = .held)
          ∧ (s.fiu.lastGood = none ∨ 600 ≤ s.fiu.lastGoodAge →
            t.br.tBay = s.br.tBay ∧ t.br.tempSource = .blind
            ∧ (s.br.tempSource ≠ .blind → exec (.tempBlind x now) s = .next t)))
    ∧ (t.br.tempSource = .own ∨ t.br.tempSource = .substituted →
        t.fiu.lastGood = some t.br.tBay ∧ t.fiu.lastGoodAge = 0)
    ∧ (t.br.tempSource = .held ∨ t.br.tempSource = .blind →
        t.fiu.lastGood = s.fiu.lastGood
        ∧ t.fiu.lastGoodAge = min 65535 (s.fiu.lastGoodAge + 1))
    ∧ (t.br.tempSubst = true ↔ t.br.tempSource = .substituted)
    ∧ (t.br.tempBlind = true ↔ t.br.tempSource = .blind)

/-- The outdoor temperature: the own sensor's, else the nearest peer's that measures it, the lower
number of two equally near, else the site's design value (R10); exhaust and daylight are the sensor's
value while VALID and INVALID otherwise; and what a FIU sample event leaves alone (R1, R2, R11). The
levels at the terminals are operands (log 4); the distance of a station in STRAP_FAULT is read by
inference (log 21). -/
def Obligations.OutdoorExhaustAndDaylightReadings : Prop :=
  (∀ (e : BayEntry) (v : Int), e.outdoor? = some v ↔ ∃ b, e.age = .fresh ∧ e.announced = some b
    ∧ b.flags.getLsbD 7 = true ∧ b.tOut.toInt = v ∧ -400 ≤ v ∧ v ≤ 600)
  ∧ (∀ (s : State) (c : Configuration) (x : InputLevels) (now : Nat), s.works c →
    (s.pt.bays.map Prod.fst).Pairwise (· < ·) →
    ∃ t, exec (.fiuSampleEvent x now) s = .next t
    ∧ (t.br.validity.outdoor = .valid →
        t.br.tOut = x.reading.outdoor ∧ t.br.outdoorSource = .own ∧ t.br.outdoorOwn = true)
    ∧ (t.br.validity.outdoor ≠ .valid → ∀ n e v, slot? s.pt.bays n = some e →
        e.outdoor? = some v →
        (∀ m e' v', slot? s.pt.bays m = some e' → e'.outdoor? = some v' →
          distance s.ssl.own n < distance s.ssl.own m
          ∨ (distance s.ssl.own n = distance s.ssl.own m ∧ n ≤ m)) →
        t.br.tOut = v ∧ t.br.outdoorSource = .relayed ∧ t.br.outdoorOwn = false)
    ∧ (t.br.validity.outdoor ≠ .valid →
        (∀ m e, slot? s.pt.bays m = some e → e.outdoor? = none) →
        t.br.tOut = c.site.designOutdoor ∧ t.br.outdoorSource = .design
        ∧ t.br.outdoorOwn = false))
  ∧ ∀ (s : State) (c : Configuration) (x : InputLevels) (now : Nat), s.works c →
    ∃ t, exec (.fiuSampleEvent x now) s = .next t
    ∧ (t.br.validity.exhaust = .valid → t.br.exhaust = some x.reading.exhaust.toNat)
    ∧ (t.br.validity.exhaust ≠ .valid → t.br.exhaust = none)
    ∧ (t.br.validity.daylight = .valid → t.br.daylight = some x.reading.daylight.toNat)
    ∧ (t.br.validity.daylight ≠ .valid → t.br.daylight = none)
    ∧ t.held = none ∧ t.pins = x ∧ t.cfg = s.cfg ∧ t.scu = s.scu
    ∧ t.pt = s.pt ∧ (x.fire = s.br.fireInput →
        t.fmc = s.fmc ∧ t.hru = s.hru ∧ t.hsu = s.hsu ∧ t.abu = s.abu
        ∧ t.ltc.groups = s.ltc.groups)

/-- A fitted door's contacts settle after two consecutive samples, an unfitted one's are not sampled;
the door's state follows the settled levels (R12, R13, R16). The levels at the terminals are operands
(log 4). -/
def Obligations.DoorContactsAndStates : Prop :=
  ∀ (s : State) (c : Configuration) (x : InputLevels) (now : Nat) (k : Fin 8), s.works c →
    ∃ t, exec (.fiuSampleEvent x now) s = .next t
    ∧ (c.bay.doorsFitted.getLsbD k.val = false →
        t.fiu.doorContacts.get k = s.fiu.doorContacts.get k
        ∧ t.fiu.trailerContacts.get k = s.fiu.trailerContacts.get k
        ∧ (t.br.doors.get k).state = .disabled)
    ∧ (c.bay.doorsFitted.getLsbD k.val = true →
        ∀ before after level,
          (before, after, level) ∈
            [(s.fiu.doorContacts.get k, t.fiu.doorContacts.get k, x.doorOpen.getLsbD k.val),
             (s.fiu.trailerContacts.get k, t.fiu.trailerContacts.get k,
              x.trailer.getLsbD k.val)] →
          (level = before.settled → after = ⟨before.settled, false⟩)
          ∧ (level ≠ before.settled → before.pendingMark = false →
              after = ⟨before.settled, true⟩)
          ∧ (level ≠ before.settled → before.pendingMark = true → after = ⟨level, false⟩))
    ∧ (c.bay.doorsFitted.getLsbD k.val = true →
        (t.br.doors.get k).state =
          (match (t.fiu.doorContacts.get k).settled, (t.fiu.trailerContacts.get k).settled with
           | false, _ => .closed
           | true, true => .openSealed
           | true, false => .openUnsealed))
    ∧ t.br.unsealed = (List.finRange 8).countP (fun j => (t.br.doors.get j).state == .openUnsealed)
    ∧ t.br.sealedDoors
        = (List.finRange 8).countP fun j => (t.br.doors.get j).state == .openSealed

/-- The open seconds of a door, its long-open mark, the flag, and the row that sets the mark with its event
(R14, R15). That a row naming part of a sample event is that whole sample event is the model's choice (log
1). -/
def Obligations.OpenSecondsAndLongOpen : Prop :=
  (∀ (s : State) (c : Configuration) (x : InputLevels) (now : Nat) (k : Fin 8), s.works c →
    c.bay.doorsFitted.getLsbD k.val = true → (s.br.doors.get k).state = .openUnsealed →
    (s.br.doors.get k).longOpen = false → (s.fiu.doorContacts.get k).settled = true →
    x.doorOpen.getLsbD k.val = true → (s.fiu.trailerContacts.get k).settled = false →
    x.trailer.getLsbD k.val = false → c.site.longOpenLimit ≠ 0 → c.site.longOpenLimit < 65535 →
    c.site.longOpenLimit ≤ (s.br.doors.get k).openSeconds →
    ∃ t, exec (.doorLongOpen k x now) s = .next t ∧ exec (.fiuSampleEvent x now) s = .next t
    ∧ t.br.doors.get k = ⟨.openUnsealed, min 65535 ((s.br.doors.get k).openSeconds + 1), true⟩
    ∧ t.br.doorLongOpen = true
    ∧ ((∀ j, j ≠ k → (t.br.doors.get j).longOpen = true → (s.br.doors.get j).longOpen = true) →
        x.fire = s.br.fireInput →
        t.ssl.events.getLast? = some ⟨.doorLongOpen, k.val + 1, s.scu.minute⟩))
  ∧ ∀ (s : State) (c : Configuration) (x : InputLevels) (now : Nat) (k : Fin 8), s.works c →
    ∃ t, exec (.fiuSampleEvent x now) s = .next t
    ∧ ((t.br.doors.get k).state = .closed ∨ (t.br.doors.get k).state = .disabled →
        (t.br.doors.get k).openSeconds = 0 ∧ (t.br.doors.get k).longOpen = false)
    ∧ ((t.br.doors.get k).state = .openSealed → (t.br.doors.get k).longOpen = false)
    ∧ ((t.br.doors.get k).state = .openSealed ∨ (t.br.doors.get k).state = .openUnsealed →
        (t.br.doors.get k).openSeconds =
          if (s.br.doors.get k).state = (t.br.doors.get k).state
          then min 65535 ((s.br.doors.get k).openSeconds + 1) else 0)
    ∧ ((t.br.doors.get k).state = .openUnsealed → c.site.longOpenLimit ≠ 0 →
        c.site.longOpenLimit < (t.br.doors.get k).openSeconds →
        (t.br.doors.get k).longOpen = true
        ∧ ((s.br.doors.get k).longOpen = false →
            exec (.doorLongOpen k x now) s = .next t))
    ∧ ((s.br.doors.get k).longOpen = false →
        c.site.longOpenLimit = 0 ∨ (t.br.doors.get k).openSeconds ≤ c.site.longOpenLimit →
        (t.br.doors.get k).longOpen = false)
    ∧ (t.br.doorLongOpen = true ↔ ∃ j, (t.br.doors.get j).longOpen = true)

/-- The occupancy table of a zone, the occupied count, and the row that ends a hold (R17, R18). That a
row naming part of a sample event is that whole sample event is the model's choice (log 1). -/
def Obligations.OccupancyZones : Prop :=
  ∀ (s : State) (c : Configuration) (x : InputLevels) (now : Nat) (k : Fin 6), s.works c →
    ∃ t, exec (.fiuSampleEvent x now) s = .next t
    ∧ (t.br.zones.get k).edge = (s.br.zones.get k).edge
    ∧ (t.br.zones.get k).groups = (s.br.zones.get k).groups
    ∧ (x.occupied.getLsbD k.val = true → (t.br.zones.get k).state = .occupied)
    ∧ (x.occupied.getLsbD k.val = true → (s.br.zones.get k).state ≠ .occupied →
        (t.br.zones.get k).holdRemaining = 0)
    ∧ (x.occupied.getLsbD k.val = false → (s.br.zones.get k).state = .vacant →
        (t.br.zones.get k).state = .vacant)
    ∧ (x.occupied.getLsbD k.val = false → (s.br.zones.get k).state = .occupied →
        (t.br.zones.get k).state = .hold
        ∧ (t.br.zones.get k).holdRemaining = (c.row s.scu.phase).occHold)
    ∧ (x.occupied.getLsbD k.val = false → (s.br.zones.get k).state = .hold →
        1 < (s.br.zones.get k).holdRemaining →
        (t.br.zones.get k).state = .hold
        ∧ (t.br.zones.get k).holdRemaining = (s.br.zones.get k).holdRemaining - 1)
    ∧ (x.occupied.getLsbD k.val = false → (s.br.zones.get k).state = .hold →
        (s.br.zones.get k).holdRemaining = 1 →
        (t.br.zones.get k).state = .vacant ∧ (t.br.zones.get k).holdRemaining = 0
        ∧ exec (.zoneHoldExpiry k x now) s = .next t)
    ∧ t.br.occupiedZones = (List.finRange 6).countP fun j => (t.br.zones.get j).state == .occupied

/-- The fire input settles after two consecutive samples, LOAD included; each settled change at the FMC by
its mode, and the send it starts by the start-up state: owed in LOAD, a hold and an ALARM frame from
SELFTEST to RUN, none in STRAP_FAULT (R1, R20, R162, R164, R165). The levels at the terminals are operands
(log 4), and so is the moment (log 9); that the edge arrivals of a sample come before its fire input, so
that the entry flushes their notices, is read by inference (log 32). -/
def Obligations.FireInputSettlesAndEnters : Prop :=
  ∀ (s : State) (x : InputLevels) (now : Nat), s.held = none →
    ∃ t, exec (.fiuSampleEvent x now) s = .next t
    ∧ (x.fire = s.br.fireInput →
        t.br.fireInput = s.br.fireInput ∧ t.fiu.firePending = false ∧ t.fmc = s.fmc)
    ∧ (x.fire ≠ s.br.fireInput → s.fiu.firePending = false →
        t.br.fireInput = s.br.fireInput ∧ t.fiu.firePending = true ∧ t.fmc = s.fmc)
    ∧ (x.fire ≠ s.br.fireInput → s.fiu.firePending = true →
        t.br.fireInput = x.fire ∧ t.fiu.firePending = false
        ∧ (x.fire = false → s.fmc.mode = .normal → t.fmc = s.fmc)
        ∧ (∀ o, x.fire = false → s.fmc.mode = .fire .own o →
            t.fmc = { s.fmc with timer := none, owed := false })
        ∧ (x.fire = true →
            (∀ o, s.fmc.mode = .fire .own o → t.fmc.mode = .fire .own o)
            ∧ (s.fmc.mode = .normal ∨ (∃ o, s.fmc.mode = .fire .heard o) →
                t.fmc.mode = .fire .own (if s.ssl.own = 0 then none else some s.ssl.own))
            ∧ (∀ o, s.fmc.mode = .fire .heard o →
                t.ltc = s.ltc ∧ t.hru = s.hru ∧ t.hsu = s.hsu)
            ∧ (s.fmc.mode = .normal → t.ssl.events.getLast?
                = some ⟨.fireEnter, s.ssl.own, s.scu.minute⟩)
            ∧ (s.ssl.startup = .load → t.fmc.owed = true ∧ t.fmc.timer = s.fmc.timer
                ∧ t.fmc.repeatCount = s.fmc.repeatCount
                ∧ (s.fmc.mode = .normal → t.lc.tx = s.lc.flush.tx))
            ∧ (s.ssl.startup = .selftest ∨ s.ssl.startup = .listen ∨ s.ssl.startup = .join
                  ∨ s.ssl.startup = .run →
                t.fmc.timer = some 30 ∧ t.fmc.repeatCount = min 255 (s.fmc.repeatCount + 1)
                ∧ t.lc.tx = .holding
                ∧ t.lc.alarmWaiting = some ⟨⟨toByte s.ssl.own, 1, toByte s.fmc.repeatCount⟩,
                    max s.lc.clock now, ⟨0, false⟩⟩
                ∧ (s.fmc.mode = .normal → t.lc.notices = []))
            ∧ (s.ssl.startup = .strapFault → t.fmc.timer = none ∧ t.fmc.owed = false
                ∧ t.fmc.repeatCount = s.fmc.repeatCount
                ∧ t.lc.alarmWaiting = s.lc.alarmWaiting)))
    ∧ (s.cfg = none → t.br = { s.br with fireInput := t.br.fireInput })

/-- The arrivals at edge zones of one sample start pre-light and raise a travel notice each in RUN outside
fire mode, with the next sequence each, and have no effect otherwise; the notice of a single arrival joins
the store as the newest where its 9 bytes and its place are free, and is dropped and counted otherwise (R19,
R54, R55, R99, R100, R101, R104). The levels at the terminals are operands (log 4); that several arrivals
are handed by ascending zone number is the model's choice (log 37), and so are the posting moment, the
latest one brought, and the store as a timed command leaves it (logs 9, 42). -/
def Obligations.EdgeArrivalRaisesNotice : Prop :=
  ∀ (s : State) (c : Configuration) (x : InputLevels) (now : Nat), s.works c →
    x.fire = s.br.fireInput →
    ∀ (arrivals : List (Fin 6)) (l : Lc),
    arrivals = (List.finRange 6).filter (fun k => (s.br.zones.get k).state == .vacant
      && (s.br.zones.get k).edge != .noEdge && x.occupied.getLsbD k.val) →
    l = s.lc.advance now →
    ∃ t, exec (.fiuSampleEvent x now) s = .next t
    ∧ (s.ssl.startup ≠ .run ∨ s.fmc.inForce = true ∨ arrivals = [] → t.ltc = s.ltc ∧ t.lc = l)
    ∧ (s.ssl.startup = .run → s.fmc.inForce = false → arrivals ≠ [] →
        t.ltc.prelight = .active c.site.prelightHold ∧ t.ltc.groups = s.ltc.groups
        ∧ t.ltc.sequence = (s.ltc.sequence + arrivals.length) % 256
        ∧ (l.notices = [] → l.tx = .idle → l.alarmWaiting = none →
            t.lc.counters = l.counters
            ∧ t.lc.notices = arrivals.zipIdx.map (fun e => ⟨.travel,
              [toByte s.ssl.own, if (s.br.zones.get e.1).edge = .east then 1 else 0,
                toByte (c.site.lookAhead - 1), toByte (s.ltc.sequence + e.2)],
              max s.lc.clock now, ⟨0, false⟩⟩))
        ∧ ∀ k, arrivals = [k] →
          t.ltc.recent.getLast? = some (s.ssl.own, s.ltc.sequence)
          ∧ (l.sharedBytes + 9 ≤ 223 → l.sharedFrames < 7 →
            t.lc.counters = l.counters
            ∧ t.lc.notices = l.notices ++ [⟨.travel,
              [toByte s.ssl.own, if (s.br.zones.get k).edge = .east then 1 else 0,
                toByte (c.site.lookAhead - 1), toByte s.ltc.sequence],
              max s.lc.clock now, ⟨0, false⟩⟩])
          ∧ (223 < l.sharedBytes + 9 ∨ 7 ≤ l.sharedFrames → t.lc.notices = l.notices
            ∧ t.lc.counters = { l.counters with
                noticeDrop := min 65535 (l.counters.noticeDrop + 1) }))

/-! ### Calendar and time -/

/-- The SCU's second: time of week, elapsed count and source loss, with the two rows that name a second
rolling over (R23, R26). That a row naming part of a sample event is that whole sample event is the
model's choice (log 1). -/
def Obligations.TimeOfWeekAdvances : Prop :=
  ∀ s : State, s.held = none → ∃ t, exec .scuSampleEvent s = .next t
    ∧ (s.scu.second < 59 → t.scu.second = s.scu.second + 1 ∧ t.scu.minute = s.scu.minute)
    ∧ (s.scu.second = 59 → t.scu.second = 0
        ∧ t.scu.minute = (if s.scu.minute = 10079 then 0 else s.scu.minute + 1)
        ∧ exec .minuteBoundary s = .next t)
    ∧ (s.scu.elapsed < 59 → t.scu.elapsed = s.scu.elapsed + 1)
    ∧ (s.scu.elapsed = 59 → t.scu.elapsed = 0 ∧ exec .elapsedMinuteTick s = .next t)
    ∧ t.scu.valid = s.scu.valid
    ∧ (∀ n, s.scu.source = some n → s.pt.age? n = some .lost →
        t.scu.rank = 15 ∧ t.scu.source = none)
    ∧ ((∀ n, s.scu.source = some n → s.pt.age? n ≠ some .lost) →
        t.scu.rank = s.scu.rank ∧ t.scu.source = s.scu.source)
    ∧ t = { s with scu := t.scu, ssl := t.ssl, hsu := t.hsu }
    ∧ t.hsu = { s.hsu with rotation := t.hsu.rotation }
    ∧ t.ssl = { s.ssl with
        events := t.ssl.events, overflow := t.ssl.overflow, report := t.ssl.report }

/-- Countdown of CLOSE and LIGHT_FORCE records: at an elapsed-minute tick each remaining falls by 1 and
a record retires at 0; at no other second does one change; with the row that names an expiry (R33).
That a row naming part of a sample event is that whole sample event is the model's choice (log 1). -/
def Obligations.TimedAmendmentsCountDown : Prop :=
  ∀ s : State, s.held = none → ∃ t, exec .scuSampleEvent s = .next t
    ∧ (∀ o, .close o none ∈ t.scu.amendments ↔ .close o none ∈ s.scu.amendments)
    ∧ (s.scu.elapsed ≠ 59 → ∀ a : Amendment, a.isTimed = true →
        (a ∈ t.scu.amendments ↔ a ∈ s.scu.amendments))
    ∧ (s.scu.elapsed = 59 → ∀ o r, 1 ≤ r →
        (.close o (some r) ∈ t.scu.amendments ↔ .close o (some (r + 1)) ∈ s.scu.amendments))
    ∧ (s.scu.elapsed = 59 → ∀ o r v, 1 ≤ r →
        (.lightForce o r v ∈ t.scu.amendments ↔ .lightForce o (r + 1) v ∈ s.scu.amendments))
    ∧ (s.scu.elapsed = 59 → ∀ o v, .close o (some 0) ∉ t.scu.amendments
        ∧ .lightForce o 0 v ∉ t.scu.amendments)
    ∧ (s.scu.elapsed = 59 →
        (∃ o, .close o (some 1) ∈ s.scu.amendments ∨ ∃ v, .lightForce o 1 v ∈ s.scu.amendments) →
        exec .amendmentExpiry s = .next t)

/-- A HOLD whose entry is the base entry holds until the minutes since its scheduled minute reach its delay,
and retires there, with the row that names it, its entry in force from then on (R29). That a row naming part
of a sample event is that whole sample event is the model's choice (log 1). -/
def Obligations.HoldRetiresAtItsDelay : Prop :=
  (∀ (s : State) (c : Configuration) (o k d m : Nat) (stage : HoldStage), s.works c →
    .hold o k d stage ∈ s.scu.amendments →
    m = (if s.scu.second = 59 then (if s.scu.minute = 10079 then 0 else s.scu.minute + 1)
      else s.scu.minute) →
    baseEntry c.calendar m = k → d ≤ minutesForward (entryMinute c.calendar k) m →
    ∃ t, exec (.holdRetire k) s = .next t ∧ exec .scuSampleEvent s = .next t ∧ t.scu.minute = m
    ∧ (∀ o' st, .hold o' k d st ∉ t.scu.amendments)
    ∧ (s.scu.amendments.filter (fun a => !a.isTimed) = [.hold o k d stage] →
        c.calendar ≠ [] →
        scheduledPhase c.calendar m t.scu.amendments = entryPhase c.calendar k))
  ∧ ∀ (s : State) (c : Configuration) (o k d : Nat) (stage : HoldStage), s.works c →
    .hold o k d stage ∈ s.scu.amendments →
    ∃ t, exec .scuSampleEvent s = .next t
    ∧ (baseEntry c.calendar t.scu.minute = k →
        minutesForward (entryMinute c.calendar k) t.scu.minute < d →
        .hold o k d .holding ∈ t.scu.amendments)
    ∧ (baseEntry c.calendar t.scu.minute = k →
        d ≤ minutesForward (entryMinute c.calendar k) t.scu.minute →
        (∀ o' st, .hold o' k d st ∉ t.scu.amendments) ∧ exec (.holdRetire k) s = .next t)
    ∧ (baseEntry c.calendar t.scu.minute = entryBefore c.calendar k →
        baseEntry c.calendar t.scu.minute ≠ k →
        (.hold o k d .waiting ∈ s.scu.amendments → .hold o k d .waiting ∈ t.scu.amendments)
        ∧ .hold o k d .holding ∉ t.scu.amendments)
    ∧ (baseEntry c.calendar t.scu.minute ≠ k →
        baseEntry c.calendar t.scu.minute ≠ entryBefore c.calendar k →
        ∀ st, .hold o k d st ∉ t.scu.amendments)

/-- The base entry of an ascending calendar: the latest at or before the minute, or the last one carried
over the week end (R22). The operating phase at an evaluation: CLOSED under a CLOSE record, WORK while the
time is invalid, else by the scheduled phase and the latch; the scheduled phase without amendments is the
base entry's, WORK on an empty calendar, the entry's before it under a HOLDING HOLD, and the pending entry's
under an ADVANCE (R34, R35). PREHEAT takes the WORK setpoint and CLOSED's other values (R37). That one
sample event makes one evaluation, so one bump, is read by inference (log 33). -/
def Obligations.OperatingPhaseFollowsTheCalendar : Prop :=
  (∀ (c : Configuration) (p : Phase),
    c.row p = (match p with
      | .closed | .preheat => c.phases.closed
      | .work => c.phases.work
      | .brk => c.phases.brk
      | .changeover => c.phases.changeover)
    ∧ c.setpoint p = (match p with
      | .closed => c.phases.closed.setpoint
      | .preheat | .work => c.phases.work.setpoint
      | .brk => c.phases.brk.setpoint
      | .changeover => c.phases.changeover.setpoint))
  ∧ (∀ (cal : List CalEntry) (t k : Nat) (l : List Amendment), cal ≠ [] → baseEntry cal t = k →
    ((∃ o d, .hold o k d .holding ∈ l) → pendingEntry cal t l = k
      ∧ ((∀ o, .advance o k ∉ l) →
        scheduledPhase cal t l = entryPhase cal (if k = 1 then cal.length else k - 1)))
    ∧ ((∀ o d, .hold o k d .holding ∉ l) →
      pendingEntry cal t l = (if k = cal.length then 1 else k + 1)
      ∧ ∀ o, .advance o (if k = cal.length then 1 else k + 1) ∈ l →
        scheduledPhase cal t l = entryPhase cal (if k = cal.length then 1 else k + 1)))
  ∧ (∀ (cal : List CalEntry) (t : Nat), cal ≠ [] →
    (cal.map CalEntry.minute).Pairwise (· < ·) →
    1 ≤ baseEntry cal t ∧ baseEntry cal t ≤ cal.length
    ∧ ((∃ e ∈ cal, e.minute ≤ t) → entryMinute cal (baseEntry cal t) ≤ t
        ∧ ∀ k, 1 ≤ k → k ≤ cal.length → entryMinute cal k ≤ t →
          entryMinute cal k ≤ entryMinute cal (baseEntry cal t))
    ∧ ((∀ e ∈ cal, t < e.minute) → baseEntry cal t = cal.length))
  ∧ ∀ (s : State) (c : Configuration), s.works c → ∃ t, exec .scuSampleEvent s = .next t
    ∧ (t.scu.bayClosed = true → t.scu.phase = .closed ∧ t.scu.latch = false)
    ∧ (t.scu.bayClosed = false → s.scu.valid = false →
        t.scu.phase = .work ∧ t.scu.latch = s.scu.latch)
    ∧ (t.scu.bayClosed = false → s.scu.valid = true →
        (scheduledPhase c.calendar t.scu.minute t.scu.amendments = .closed →
          t.scu.phase = if t.scu.latch then .preheat else .closed)
        ∧ (scheduledPhase c.calendar t.scu.minute t.scu.amendments ≠ .closed →
          t.scu.phase = operating (scheduledPhase c.calendar t.scu.minute t.scu.amendments)
          ∧ t.scu.latch = false))
    ∧ (c.calendar = [] → scheduledPhase c.calendar t.scu.minute t.scu.amendments = .work)
    ∧ (c.calendar ≠ [] → t.scu.amendments.all Amendment.isTimed = true →
        scheduledPhase c.calendar t.scu.minute t.scu.amendments
          = entryPhase c.calendar (baseEntry c.calendar t.scu.minute))
    ∧ (t.scu.phase = s.scu.phase → t.hsu = s.hsu)
    ∧ (t.scu.phase ≠ s.scu.phase → ∀ k rest, s.hsu.rotation = k :: rest →
        t.hsu.rotation = rest ++ [k])

/-- The pre-heat latch is set at a minute boundary exactly when the minutes until the target entry are at or
below the lead, in a valid time whose scheduled phase is CLOSED with no CLOSE record; the target entry is
the first of phase WORK or CHANGEOVER from the pending entry on round the calendar; a latch already set
stays until a CLOSE record or, in a valid time, a scheduled phase other than CLOSED clears it (R35, R36).
That the records of the same sample event count down before the latch is judged is read by inference (log
33); that 0 minutes are at or below a lead of 0 is the model's choice (log 40). -/
def Obligations.PreheatLatchIsSetAtTheLead : Prop :=
  (∀ (c : Configuration) (br : BayRecord), br.tempSource ≠ .blind →
    (preheatLead c br : Int) = max 0 (min (c.site.leadMax : Int)
      ((c.phases.work.setpoint - br.tBay) * c.site.leadPerDegree / 10)))
  ∧ (∀ (c : Configuration) (br : BayRecord), br.tempSource = .blind →
    preheatLead c br = c.site.leadMax)
  ∧ (∀ (cal : List CalEntry) (pending k : Nat), 1 ≤ pending → pending ≤ cal.length →
    ∀ at_ : Nat → Nat, (∀ i, at_ i = (pending - 1 + i) % cal.length + 1) →
    (preheatTarget cal pending = some k ↔ ∃ i, i < cal.length ∧ k = at_ i
      ∧ (entryPhase cal (at_ i) = .work ∨ entryPhase cal (at_ i) = .changeover)
      ∧ ∀ j, j < i → entryPhase cal (at_ j) = .closed ∨ entryPhase cal (at_ j) = .brk)
    ∧ (preheatTarget cal pending = none ↔ ∀ j, 1 ≤ j → j ≤ cal.length →
        entryPhase cal j = .closed ∨ entryPhase cal j = .brk))
  ∧ (∀ (s : State) (c : Configuration), s.works c → s.scu.latch = true →
    ∃ t, exec .scuSampleEvent s = .next t
    ∧ (t.scu.latch = true ↔ t.scu.bayClosed = false
        ∧ (s.scu.valid = false
          ∨ scheduledPhase c.calendar t.scu.minute t.scu.amendments = .closed)))
  ∧ ∀ (s : State) (c : Configuration), s.works c → s.scu.latch = false →
    ∃ t, exec .scuSampleEvent s = .next t
    ∧ (s.scu.second ≠ 59 → t.scu.latch = false)
    ∧ (s.scu.second = 59 →
        (t.scu.latch = true ↔ s.scu.valid = true ∧ t.scu.bayClosed = false
          ∧ scheduledPhase c.calendar t.scu.minute t.scu.amendments = .closed
          ∧ ∃ k, preheatTarget c.calendar
                (pendingEntry c.calendar t.scu.minute t.scu.amendments) = some k
            ∧ minutesForward t.scu.minute
                ((entryMinute c.calendar k + holdDelay k t.scu.amendments) % 10080)
              ≤ preheatLead c s.br))

/-- CALENDAR_MISMATCH is set exactly while a FRESH peer's STATUS signature differs; going set, it writes
an event naming the lowest such station (R41). -/
def Obligations.CalendarMismatchNamesTheLowest : Prop :=
  ∀ (s : State) (c : Configuration), s.works c → (s.pt.bays.map Prod.fst).Pairwise (· < ·) →
    ∃ t, exec .scuSampleEvent s = .next t
    ∧ (t.scu.mismatch = true ↔
        ∃ n b, s.pt.fresh n = some b ∧ b.signature ≠ toHalf c.signature)
    ∧ (s.scu.mismatch = true ∨ t.scu.mismatch = false → t.ssl = s.ssl)
    ∧ (s.scu.mismatch = false → ∀ n b, s.pt.fresh n = some b → b.signature ≠ toHalf c.signature →
        (∀ m b', s.pt.fresh m = some b' → b'.signature ≠ toHalf c.signature → n ≤ m) →
        t.ssl.events = (if s.ssl.events.length < 8 then s.ssl.events else s.ssl.events.tail)
          ++ [⟨.calendarMismatch, n, t.scu.minute⟩])

/-! ### Frames that carry time and state -/

/-- A panel's TIME frame: its entry is refreshed, and from the source or to a worse rank its time is
adopted: kept within 2 s, stepped to otherwise; at a step the HOLD and ADVANCE records a forward step skips
retire, the others follow the new base entry, and phase and latch are evaluated anew at the new minute; in
SELFTEST the table and the SCU take nothing (R24, R25, R27, R29, R30, R35, R36, R72, R75). That the row is
the moment of the frame's acceptance is the model's choice (log 10), and so is that R36's formula decides at
0 minutes (log 40) and that a forward step past a WAITING HOLD's window retires it on every calendar (log
41). -/
def Obligations.TimeFrameIsJudgedByRank : Prop :=
  (∀ (s : State) (p : Byte) (b : TimeBody), s.hears p.toNat → isPanelNumber p.toNat = true →
    s.ssl.startup = .selftest → ∃ t, exec (.time p b) s = .next t ∧ t = { s with lc := t.lc }
    ∧ s.lc.afterFrame t.lc)
  ∧ ∀ (s : State) (p : Byte) (b : TimeBody), s.hears p.toNat → isPanelNumber p.toNat = true →
    s.ssl.startup = .run ∨ s.ssl.startup = .join ∨ s.ssl.startup = .listen
      ∨ s.ssl.startup = .strapFault →
    ∃ t, exec (.time p b) s = .next t
    ∧ s.lc.afterFrame t.lc ∧ s.pt.refreshed t.pt p
    ∧ t = { s with scu := t.scu, hsu := t.hsu, lc := t.lc, pt := t.pt }
    ∧ t.hsu = { s.hsu with rotation := t.hsu.rotation }
    ∧ (s.scu.source ≠ some p.toNat → s.scu.rank ≤ 1 → t.scu = s.scu)
    ∧ (10079 < b.minute.toNat ∨ 59 < b.second.toNat → t.scu = s.scu)
    ∧ (s.scu.source = some p.toNat ∨ 1 < s.scu.rank → b.minute.toNat ≤ 10079 →
        b.second.toNat ≤ 59 →
        t.scu.rank = 1 ∧ t.scu.source = some p.toNat
        ∧ (s.scu.valid = true →
            secondsForward (weekSecond s.scu.minute s.scu.second)
                (weekSecond b.minute.toNat b.second.toNat) ≤ 2
              ∨ 604798 ≤ secondsForward (weekSecond s.scu.minute s.scu.second)
                (weekSecond b.minute.toNat b.second.toNat) →
            t.scu = { s.scu with rank := 1, source := some p.toNat })
        ∧ (s.scu.valid = false ∨
            (2 < secondsForward (weekSecond s.scu.minute s.scu.second)
                (weekSecond b.minute.toNat b.second.toNat)
              ∧ secondsForward (weekSecond s.scu.minute s.scu.second)
                (weekSecond b.minute.toNat b.second.toNat) < 604798) →
            t.scu.valid = true ∧ t.scu.minute = b.minute.toNat ∧ t.scu.second = b.second.toNat
            ∧ t.scu.elapsed = s.scu.elapsed ∧ ∀ c, s.cfg = some c → s.stepped c t))

/-- A peer's STATUS: its entry becomes FRESH with the announced state, its join record kept, no other entry
changes; from the source or when it betters the own rank its time is adopted: kept within 2 s, stepped to
otherwise; rank 14 from the source loses the source, and a time out of range is never adopted; in SELFTEST
the table and the SCU take nothing (R24 to R27, R72, R73, R76, R179). That the row is the moment of the
frame's acceptance is the model's choice (log 10), and so is that R36's formula decides at 0 minutes (log
40) and that a forward step past a WAITING HOLD's window retires it on every calendar (log 41); that an
out-of-range time does not keep rank 14 from losing the source is read by inference (log 12). -/
def Obligations.StatusFrameRefreshesItsSender : Prop :=
  (∀ (s : State) (n : Byte) (b : StatusBody), s.hears n.toNat → isBayNumber n.toNat = true →
    s.ssl.startup = .selftest → ∃ t, exec (.status n b) s = .next t ∧ t = { s with lc := t.lc }
    ∧ s.lc.afterFrame t.lc)
  ∧ ∀ (s : State) (n : Byte) (b : StatusBody), s.hears n.toNat → isBayNumber n.toNat = true →
    s.ssl.startup = .run ∨ s.ssl.startup = .join ∨ s.ssl.startup = .listen
      ∨ s.ssl.startup = .strapFault →
    ∃ t, exec (.status n b) s = .next t
    ∧ s.lc.afterFrame t.lc ∧ t.pt.panels = s.pt.panels
    ∧ slot? t.pt.bays n.toNat = some
        { age := .fresh, silence := 0
          interval := if b.interval = 0 then .s2 else if b.interval = 1 then .s4
            else if b.interval = 2 then .s8 else .s16
          announced := some { b with
            interval := if b.interval.toNat ≤ 3 then b.interval else 3 }
          joined := (slot? s.pt.bays n.toNat).bind BayEntry.joined }
    ∧ (∀ m, m ≠ n.toNat → slot? t.pt.bays m = slot? s.pt.bays m)
    ∧ t = { s with scu := t.scu, hsu := t.hsu, lc := t.lc, pt := t.pt }
    ∧ (s.scu.source = some n.toNat → 14 ≤ b.rank.toNat →
        t.scu = { s.scu with rank := 15, source := none })
    ∧ (s.scu.source ≠ some n.toNat → s.scu.rank ≤ b.rank.toNat + 1 → t.scu = s.scu)
    ∧ (10079 < b.minute.toNat ∨ 59 < b.second.toNat →
        s.scu.source ≠ some n.toNat ∨ b.rank.toNat ≤ 13 → t.scu = s.scu)
    ∧ ((s.scu.source = some n.toNat ∧ b.rank.toNat ≤ 13)
          ∨ (s.scu.source ≠ some n.toNat ∧ b.rank.toNat + 1 < s.scu.rank) →
        b.minute.toNat ≤ 10079 → b.second.toNat ≤ 59 →
        t.scu.rank = b.rank.toNat + 1 ∧ t.scu.source = some n.toNat
        ∧ (s.scu.valid = true →
            secondsForward (weekSecond s.scu.minute s.scu.second)
                (weekSecond b.minute.toNat b.second.toNat) ≤ 2
              ∨ 604798 ≤ secondsForward (weekSecond s.scu.minute s.scu.second)
                (weekSecond b.minute.toNat b.second.toNat) →
            t.scu = { s.scu with rank := b.rank.toNat + 1, source := some n.toNat })
        ∧ (s.scu.valid = false ∨
            (2 < secondsForward (weekSecond s.scu.minute s.scu.second)
                (weekSecond b.minute.toNat b.second.toNat)
              ∧ secondsForward (weekSecond s.scu.minute s.scu.second)
                (weekSecond b.minute.toNat b.second.toNat) < 604798) →
            t.scu.valid = true ∧ t.scu.minute = b.minute.toNat ∧ t.scu.second = b.second.toNat
            ∧ t.scu.elapsed = s.scu.elapsed ∧ ∀ c, s.cfg = some c → s.stepped c t))

/-- A peer's PRESENCE: its entry FRESH with a join record and no announced state, the presence mark
set; in SELFTEST the table takes nothing (R72, R74, R87). That the row is the moment of the frame's
acceptance is the model's choice (log 10). -/
def Obligations.PresenceResetsItsSendersEntry : Prop :=
  ∀ (s : State) (n : Byte) (b : PresenceBody), s.hears n.toNat → isBayNumber n.toNat = true →
    ∃ t, exec (.presence n b) s = .next t
    ∧ t = { s with pt := t.pt, lc := { s.lc with
        asm := .hunt, yielding := false, quiet := 0
        holdHeard := s.lc.holdHeard && s.lc.awaitRecessive, presenceMark := true } }
    ∧ (s.ssl.startup = .selftest → t.pt = s.pt)
    ∧ (s.ssl.startup = .run ∨ s.ssl.startup = .join ∨ s.ssl.startup = .listen
          ∨ s.ssl.startup = .strapFault →
        slot? t.pt.bays n.toNat = some
          { age := .fresh, silence := 0
            interval := if b.interval = 0 then .s2 else if b.interval = 1 then .s4
              else if b.interval = 2 then .s8 else .s16
            announced := none
            joined := some ⟨b.diag, b.version⟩ }
        ∧ (∀ m, m ≠ n.toNat → slot? t.pt.bays m = slot? s.pt.bays m)
        ∧ t.pt.panels = s.pt.panels)

/-- The Peer Table's second: every entry's silence rises and its age state follows, by twice and four
times its interval or by 120 and 240 s for a panel, with the rows that name a crossing (R78, R79). That
a row naming part of a sample event is that whole sample event is the model's choice (log 1). -/
def Obligations.EntriesAgeByTheirSilence : Prop :=
  ∀ (s : State) (c : Configuration), s.works c → ∃ t, exec .ptSampleEvent s = .next t
    ∧ t = { s with pt := t.pt }
    ∧ (∀ n e, slot? s.pt.bays n = some e → ∃ e', slot? t.pt.bays n = some e'
        ∧ e' = { e with silence := min 65535 (e.silence + 1), age := e'.age }
        ∧ (e'.silence ≤ 2 * e.interval.seconds → e'.age = .fresh)
        ∧ (2 * e.interval.seconds < e'.silence → e'.silence ≤ 4 * e.interval.seconds →
            e'.age = .stale)
        ∧ (4 * e.interval.seconds < e'.silence → e'.age = .lost)
        ∧ (e.age = .fresh → e.silence = 2 * e.interval.seconds →
            exec (.entryStale n) s = .next t)
        ∧ (e.age = .stale → e.silence = 4 * e.interval.seconds →
            exec (.entryLost n) s = .next t))
    ∧ (∀ n e, slot? s.pt.panels n = some e → ∃ e', slot? t.pt.panels n = some e'
        ∧ e' = { e with silence := min 65535 (e.silence + 1), age := e'.age }
        ∧ (e'.silence ≤ 120 → e'.age = .fresh)
        ∧ (120 < e'.silence → e'.silence ≤ 240 → e'.age = .stale)
        ∧ (240 < e'.silence → e'.age = .lost)
        ∧ (slot? s.pt.bays n = none → e.age = .fresh → e.silence = 120 →
            exec (.entryStale n) s = .next t)
        ∧ (slot? s.pt.bays n = none → e.age = .stale → e.silence = 240 →
            exec (.entryLost n) s = .next t))
    ∧ (∀ n, slot? s.pt.bays n = none → slot? t.pt.bays n = none)
    ∧ (∀ n, slot? s.pt.panels n = none → slot? t.pt.panels n = none)

/-! ### Panel commands -/

/-- HOLD_PHASE: a WAITING HOLD on the pending entry joins as the newest in place of a HOLD or ADVANCE on it,
its delay cut below the next entry's minute; where that entry is the base entry already (a HOLD on it was
HOLDING) it holds on, or retires past its delay; a full list loses its oldest record with an event; the
operating phase follows at once; with an invalid time, fewer than two entries, a fixed entry or a delay out
of range it has no effect (R22, R28, R29, R34, R35, R40). That the row is the moment of the frame's
acceptance is the model's choice (log 10); that a command is one change of the list with one evaluation is
read by inference (log 11). -/
def Obligations.HoldPhaseDelaysThePendingEntry : Prop :=
  (∀ (s : State) (c : Configuration) (p : Byte) (a : PanelAddress) (d : Half),
    s.cfg = some c → s.takesCommand p a → s.fmc.mode = .normal →
    ∀ k g, k = pendingEntry c.calendar s.scu.minute s.scu.amendments →
    g = minutesForward (entryMinute c.calendar k)
      (entryMinute c.calendar (entryAfter c.calendar k)) →
    s.scu.valid = false ∨ c.calendar.length < 2 ∨ entryFixed c.calendar k = true
      ∨ d.toNat = 0 ∨ 240 < d.toNat ∨ g ≤ 1 →
    ∃ t, exec (.holdPhase p a d) s = .next t ∧ s.amendsOnly t p a
    ∧ t.scu = s.scu ∧ t.hsu = s.hsu ∧ t.ssl = s.ssl)
  ∧ ∀ (s : State) (c : Configuration) (p : Byte) (a : PanelAddress) (d : Half),
    s.cfg = some c → s.takesCommand p a → s.fmc.mode = .normal → s.scu.valid = true →
    2 ≤ c.calendar.length →
    ∀ k g delay kept added, k = pendingEntry c.calendar s.scu.minute s.scu.amendments →
    g = minutesForward (entryMinute c.calendar k)
      (entryMinute c.calendar (entryAfter c.calendar k)) →
    delay = min d.toNat (g - 1) →
    kept = s.scu.amendments.filter (fun r => match r with
      | .hold _ e _ _ | .advance _ e => e != k
      | .close _ _ | .lightForce _ _ _ => true) →
    added = (if baseEntry c.calendar s.scu.minute = k then
        (if minutesForward (entryMinute c.calendar k) s.scu.minute < delay
          then [.hold p.toNat k delay .holding] else [])
      else [Amendment.hold p.toNat k delay .waiting]) →
    kept.all Amendment.isTimed = true →
    ∃ t, exec (.holdPhase p a d) s = .next t ∧ s.amendsOnly t p a
    ∧ (entryFixed c.calendar k = false → 1 ≤ d.toNat → d.toNat ≤ 240 → 1 < g →
        (kept.length < 8 → t.scu.amendments = kept ++ added ∧ t.ssl = s.ssl)
        ∧ (∀ old rest, kept = old :: rest → 7 ≤ rest.length →
            t.scu.amendments = rest ++ added
            ∧ t.ssl.events.getLast? = some ⟨.amendmentReplaced, old.code, s.scu.minute⟩)
        ∧ s.phaseFollows t c)

/-- ADVANCE_PHASE: an ADVANCE on the pending entry joins as the newest in place of a HOLD or ADVANCE on it,
and its phase is the operating phase at once unless a CLOSE record stands; where that entry is the base
entry already (a HOLD on it was HOLDING) the ADVANCE retires at once and the entry is in force; a full list
loses its oldest record with an event; with an invalid time, fewer than two entries or a fixed entry it has
no effect (R22, R28, R30, R34, R35, R40). That the row is the moment of the frame's acceptance is the
model's choice (log 10); that a command is one change of the list with one evaluation is read by inference
(log 11). -/
def Obligations.AdvancePhaseSchedulesThePendingEntry : Prop :=
  (∀ (s : State) (c : Configuration) (p : Byte) (a : PanelAddress),
    s.cfg = some c → s.takesCommand p a → s.fmc.mode = .normal →
    s.scu.valid = false ∨ c.calendar.length < 2
      ∨ entryFixed c.calendar (pendingEntry c.calendar s.scu.minute s.scu.amendments) = true →
    ∃ t, exec (.advancePhase p a) s = .next t ∧ s.amendsOnly t p a
    ∧ t.scu = s.scu ∧ t.hsu = s.hsu ∧ t.ssl = s.ssl)
  ∧ ∀ (s : State) (c : Configuration) (p : Byte) (a : PanelAddress),
    s.cfg = some c → s.takesCommand p a → s.fmc.mode = .normal → s.scu.valid = true →
    2 ≤ c.calendar.length →
    ∀ k kept added, k = pendingEntry c.calendar s.scu.minute s.scu.amendments →
    kept = s.scu.amendments.filter (fun r => match r with
      | .hold _ e _ _ | .advance _ e => e != k
      | .close _ _ | .lightForce _ _ _ => true) →
    added = (if baseEntry c.calendar s.scu.minute = k then [] else [Amendment.advance p.toNat k]) →
    kept.all Amendment.isTimed = true →
    ∃ t, exec (.advancePhase p a) s = .next t ∧ s.amendsOnly t p a
    ∧ (entryFixed c.calendar k = false →
        (kept.length < 8 → t.scu.amendments = kept ++ added ∧ t.ssl = s.ssl)
        ∧ (∀ old rest, kept = old :: rest → 7 ≤ rest.length →
            t.scu.amendments = rest ++ added
            ∧ t.ssl.events.getLast? = some ⟨.amendmentReplaced, old.code, s.scu.minute⟩)
        ∧ (t.scu.bayClosed = true → t.scu.phase = .closed ∧ t.scu.latch = false)
        ∧ (t.scu.bayClosed = false →
            (entryPhase c.calendar k ≠ .closed →
              t.scu.phase = operating (entryPhase c.calendar k) ∧ t.scu.latch = false)
            ∧ (entryPhase c.calendar k = .closed → t.scu.latch = s.scu.latch
              ∧ t.scu.phase = if s.scu.latch then .preheat else .closed)))

/-- CLOSE_BAYS closes the bay for its minutes, or until cancelled for 0; OPEN_BAYS removes every CLOSE
record, and the operating phase follows at once; the other records stand as they were in their order, and no
event is written while the list holds fewer than 8; a full list loses its oldest record with an event (R28,
R31, R34, R35, R40). That the row is the moment of the frame's acceptance is the model's choice (log 10);
that a command is one change of the list with one evaluation is read by inference (log 11). -/
def Obligations.CloseAndOpenBays : Prop :=
  ∀ (s : State) (c : Configuration) (p : Byte) (a : PanelAddress) (m : Half),
    s.cfg = some c → s.takesCommand p a → s.fmc.mode = .normal →
    (∃ t, exec (.closeBays p a m) s = .next t ∧ s.amendsOnly t p a
      ∧ (m.toNat ≤ 1440 → t.scu.phase = .closed ∧ t.scu.bayClosed = true ∧ t.scu.latch = false)
      ∧ (m.toNat ≤ 1440 → ∀ added : Amendment,
          added = .close p.toNat (if m.toNat = 0 then none else some m.toNat) →
          t.scu.amendments.getLast? = some added
          ∧ (s.scu.amendments.length < 8 → t.ssl = s.ssl
            ∧ t.scu.amendments.filter Amendment.isTimed
              = s.scu.amendments.filter Amendment.isTimed ++ [added]
            ∧ ((∀ r ∈ s.scu.amendments, r.stands c.calendar s.scu.minute) →
              t.scu.amendments = s.scu.amendments ++ [added]))
          ∧ ∀ old rest, s.scu.amendments = old :: rest → 7 ≤ rest.length →
            t.ssl.events.getLast? = some ⟨.amendmentReplaced, old.code, s.scu.minute⟩
            ∧ ((∀ r ∈ rest, r.stands c.calendar s.scu.minute) →
              t.scu.amendments = rest ++ [added]))
      ∧ (1440 < m.toNat → t.scu = s.scu ∧ t.hsu = s.hsu ∧ t.ssl = s.ssl))
    ∧ ∃ t, exec (.openBays p a) s = .next t ∧ s.amendsOnly t p a ∧ t.ssl = s.ssl
      ∧ t.scu.bayClosed = false
      ∧ (s.scu.bayClosed = true → s.phaseFollows t c
        ∧ t.scu.amendments.filter Amendment.isTimed
          = (s.scu.amendments.filter Amendment.isTimed).filter fun r => !r.isClose)
      ∧ ((∀ r ∈ s.scu.amendments, r.stands c.calendar s.scu.minute) →
          t.scu.amendments = s.scu.amendments.filter fun r => !r.isClose)
      ∧ (s.scu.bayClosed = false → t.scu = s.scu ∧ t.hsu = s.hsu)

/-- LIGHT_FORCE adds a record whose level is the force level from then on; CANCEL_AMENDMENTS empties the
list; the operating phase follows at once; the other records stand as they were in their order, and no event
is written while the list holds fewer than 8; a full list loses its oldest record with an event (R28, R32,
R34, R35, R40). That the row is the moment of the frame's acceptance is the model's choice (log 10); that a
command is one change of the list with one evaluation is read by inference (log 11). -/
def Obligations.LightForceAndCancel : Prop :=
  ∀ (s : State) (c : Configuration) (p : Byte) (a : PanelAddress) (m l : Byte),
    s.cfg = some c → s.takesCommand p a → s.fmc.mode = .normal →
    (∃ t, exec (.lightForce p a m l) s = .next t ∧ s.amendsOnly t p a
      ∧ (1 ≤ m.toNat → m.toNat ≤ 240 → l.toNat ≤ 250 → ∀ added : Amendment,
          added = .lightForce p.toNat m.toNat (4 * l.toNat) →
          t.scu.amendments.getLast? = some added
          ∧ forceLevel t.scu.amendments = some (4 * l.toNat) ∧ s.phaseFollows t c
          ∧ (s.scu.amendments.length < 8 → t.ssl = s.ssl
            ∧ t.scu.amendments.filter Amendment.isTimed
              = s.scu.amendments.filter Amendment.isTimed ++ [added]
            ∧ ((∀ r ∈ s.scu.amendments, r.stands c.calendar s.scu.minute) →
              t.scu.amendments = s.scu.amendments ++ [added]))
          ∧ ∀ old rest, s.scu.amendments = old :: rest → 7 ≤ rest.length →
            t.ssl.events.getLast? = some ⟨.amendmentReplaced, old.code, s.scu.minute⟩
            ∧ ((∀ r ∈ rest, r.stands c.calendar s.scu.minute) →
              t.scu.amendments = rest ++ [added]))
      ∧ (m.toNat = 0 ∨ 240 < m.toNat ∨ 250 < l.toNat →
          t.scu = s.scu ∧ t.hsu = s.hsu ∧ t.ssl = s.ssl))
    ∧ ∃ t, exec (.cancelAmendments p a) s = .next t ∧ s.amendsOnly t p a ∧ t.ssl = s.ssl
      ∧ t.scu.amendments = [] ∧ forceLevel t.scu.amendments = none ∧ t.scu.bayClosed = false
      ∧ (s.scu.amendments ≠ [] → s.phaseFollows t c)
      ∧ (s.scu.amendments = [] → t.scu = s.scu ∧ t.hsu = s.hsu)

/-- ALARM_RESET leaves fire mode while the settled input is INACTIVE and changes no output; it is refused
while the input is ACTIVE (R98, R123, R142, R158, R167). With a change of the input to ACTIVE at the same
moment either order ends in fire mode, sending, and with an alarm hold heard or an ALARM frame the later of
the two decides (R168). That the row is the moment of the frame's acceptance, which a hold heard or driven
at that moment does not hinder, is the model's choice (log 10). -/
def Obligations.AlarmResetLeavesFireMode : Prop :=
  (∀ (s : State) (p : Byte) (a : PanelAddress), s.takesCommand p a → s.br.fireInput = false →
    (s.lc.tx ≠ .holding → s.lc.holdHeard = false →
      (∃ t u, exec .alarmHoldHeard s = .next t ∧ t.fmc.inForce = true
        ∧ exec (.alarmReset p a) t = .next u ∧ u.fmc.mode = .normal
        ∧ s.pt.recorded u.pt p a.sequence)
      ∧ ∃ t u, exec (.alarmReset p a) s = .next t ∧ t.fmc.mode = .normal
        ∧ exec .alarmHoldHeard t = .next u ∧ u.fmc.mode = .fire .heard none)
    ∧ (∀ (n : Byte) (b : AlarmBody), n.toNat ≠ s.ssl.own →
      (∃ t u, exec (.alarm n b) s = .next t ∧ t.fmc.inForce = true
        ∧ exec (.alarmReset p a) t = .next u ∧ u.fmc.mode = .normal
        ∧ s.pt.recorded u.pt p a.sequence)
      ∧ ∃ t u, exec (.alarmReset p a) s = .next t ∧ t.fmc.mode = .normal
        ∧ exec (.alarm n b) t = .next u ∧ ∃ o, u.fmc.mode = .fire .heard o)
    ∧ ∀ (x : InputLevels) (now : Nat), s.fiu.firePending = true → x.fire = true →
      (∃ t u, exec (.fiuSampleEvent x now) s = .next t ∧ t.fmc.inForce = true
        ∧ exec (.alarmReset p a) t = .next u ∧ u.fmc = t.fmc ∧ u.fmc.timer = some 30
        ∧ u.lc.tx = .holding ∧ u.lc.alarmWaiting = t.lc.alarmWaiting
        ∧ s.pt.recorded u.pt p a.sequence)
      ∧ ∃ t u, exec (.alarmReset p a) s = .next t ∧ t.fmc.mode = .normal
        ∧ exec (.fiuSampleEvent x now) t = .next u
        ∧ u.fmc.mode = .fire .own (if s.ssl.own = 0 then none else some s.ssl.own)
        ∧ u.fmc.timer = some 30 ∧ u.lc.tx = .holding)
  ∧ ∀ (s : State) (p : Byte) (a : PanelAddress) (q : Cause) (o : Option Nat),
    s.takesCommand p a → s.fmc.mode = .fire q o →
    ∃ t, exec (.alarmReset p a) s = .next t
    ∧ t = { s with fmc := t.fmc, ssl := t.ssl, lc := t.lc, pt := t.pt }
    ∧ s.pt.recorded t.pt p a.sequence ∧ t.outputs = s.outputs
    ∧ (s.br.fireInput = true → t.fmc = s.fmc ∧ t.ssl = s.ssl ∧ s.lc.afterFrame t.lc)
    ∧ (s.br.fireInput = false → t.fmc.mode = .normal ∧ t.fmc.repeatCount = 0
        ∧ t.fmc.timer = none ∧ t.fmc.owed = false ∧ t.statusFlags.getLsbD 0 = false
        ∧ t.lc.alarmWaiting = none ∧ t.lc.counters = s.lc.counters
        ∧ t.ssl.events = (if s.ssl.events.length < 8 then s.ssl.events else s.ssl.events.tail)
          ++ [⟨.fireExit, o.getD 0, s.scu.minute⟩])

/-- A taken frame of an unknown code, and any taken command but ALARM_RESET in fire mode, records its
sequence and does nothing else; a frame that is not taken refreshes the panel's entry and does nothing
else (R39, R40, R75). That the row is the moment of the frame's acceptance is the model's choice (log
10). -/
def Obligations.CommandsWithoutEffect : Prop :=
  (∀ (s : State) (p : Byte) (a : PanelAddress) (code : Byte) (arg : Half), s.takesCommand p a →
    code.toNat = 0 ∨ 8 < code.toNat →
    ∃ t, exec (.unknownCommand p a code arg) s = .next t
    ∧ t = { s with lc := t.lc, pt := t.pt } ∧ s.lc.afterFrame t.lc
    ∧ s.pt.recorded t.pt p a.sequence)
  ∧ (∀ (s : State) (p : Byte) (a : PanelAddress) (arg : Half) (m l code : Byte),
    s.takesCommand p a → s.fmc.inForce = true → code.toNat ≠ 7 →
    ∀ i ∈ panelRows p a arg m l code, i ≠ .alarmReset p a →
    ∃ t, exec i s = .next t ∧ t = { s with lc := t.lc, pt := t.pt } ∧ s.lc.afterFrame t.lc
    ∧ s.pt.recorded t.pt p a.sequence)
  ∧ ∀ (s : State) (p : Byte) (a : PanelAddress) (arg : Half) (m l code : Byte),
    s.hears p.toNat → isPanelNumber p.toNat = true → ¬ s.takesCommand p a →
    ∀ i ∈ panelRows p a arg m l code,
    ∃ t, exec i s = .next t ∧ t = { s with lc := t.lc, pt := t.pt } ∧ s.lc.afterFrame t.lc
    ∧ (s.ssl.startup.takesFrames = true → s.pt.refreshed t.pt p)
    ∧ (s.ssl.startup.takesFrames = false → t.pt = s.pt)

/-! ### The bay line -/

/-- A head character begins a frame in any state of the assembler, ends one in assembly as a timeout, and
sets the clash mark on the own number; other characters outside a frame are ignored (R46). The kind
character: an unknown kind is counted, a frame the filter rejects is skipped uncounted; the length
character: one that does not fit its kind is counted and skipped (R47, R51, R179). The kind codes of Section
11.2 and the lengths of R179. The receive filter by kind and head (R51, R85); the distance of a station in
STRAP_FAULT is read by inference (log 21). That a character brings a moment, at which an outlived notice
leaves the store, is the model's choice (log 9). -/
def Obligations.HeadKindAndLengthCharacters : Prop :=
  (∀ (d : Byte) (k : Kind), Kind.ofCode d = some k ↔ d.toNat = (match k with
    | .status => 1 | .presence => 2 | .travel => 3 | .alarm => 4 | .report => 5
    | .panel => 16 | .time => 17 | .inquiry => 18))
  ∧ (∀ (k : Kind) (n : Nat), k.fits n = true ↔ match k with
    | .status => n = 28
    | .presence | .panel => n = 6
    | .travel => n = 4
    | .alarm | .time => n = 3
    | .report => ∃ events, events ≤ 4 ∧ n = 24 + 4 * events
    | .inquiry => n = 1)
  ∧ (∀ (s : State) (h : Nat) (k : Kind), s.filterAccepts h k = true ↔
    match k with
    | .status | .presence => 1 ≤ h ∧ h ≤ 48
    | .travel => 1 ≤ h ∧ h ≤ 48
        ∧ (h = s.ssl.own + 1 ∨ s.ssl.own = h + 1
          ∨ (h = s.ssl.own + 2 ∧ ∀ e, slot? s.pt.bays (s.ssl.own + 1) = some e → e.age = .lost)
          ∨ (s.ssl.own = h + 2 ∧ ∀ e, slot? s.pt.bays (h + 1) = some e → e.age = .lost))
    | .alarm => True
    | .panel | .time | .inquiry => 56 ≤ h ∧ h ≤ 63
    | .report => False)
  ∧ (∀ (s : State) (c : Configuration) (d : Byte) (now : Nat), s.works c → s.lc.tx = .idle →
    s.lc.awaitRecessive = false →
    (∃ t, exec (.characterReceived d true now) s = .next t ∧ t = { s with lc := t.lc }
      ∧ t.lc.asm = .assemble [d] (d.toNat == s.ssl.own) ∧ t.lc.quiet = 0
      ∧ (∀ l b, s.lc.asm = .assemble l b →
          t.lc.counters.frameTimeout = min 65535 (s.lc.counters.frameTimeout + 1))
      ∧ (s.lc.asm = .hunt ∨ s.lc.asm = .skip →
          t.lc.counters.frameTimeout = s.lc.counters.frameTimeout))
    ∧ (s.lc.asm = .hunt ∨ s.lc.asm = .skip → ∃ t, exec (.characterReceived d false now) s = .next t
      ∧ t = { s with lc := { s.lc.advance now with quiet := 0, holdHeard := false } }))
  ∧ (∀ (s : State) (c : Configuration) (h d : Byte) (clash : Bool) (now : Nat), s.works c →
    s.lc.tx = .idle → s.lc.awaitRecessive = false → s.lc.asm = .assemble [h] clash →
    ∃ t, exec (.characterReceived d false now) s = .next t ∧ t = { s with lc := t.lc }
    ∧ (Kind.ofCode d = none → t.lc.asm = .skip
        ∧ t.lc.counters.unknownKind = min 65535 (s.lc.counters.unknownKind + 1))
    ∧ (∀ k, Kind.ofCode d = some k → t.lc.counters.unknownKind = s.lc.counters.unknownKind
        ∧ (clash = true ∨ s.filterAccepts h.toNat k = true → t.lc.asm = .assemble [h, d] clash)
        ∧ (clash = false → s.filterAccepts h.toNat k = false → t.lc.asm = .skip)))
  ∧ ∀ (s : State) (c : Configuration) (h kc d : Byte) (k : Kind) (clash : Bool) (now : Nat),
    s.works c → s.lc.tx = .idle → s.lc.awaitRecessive = false →
    s.lc.asm = .assemble [h, kc] clash → Kind.ofCode kc = some k →
    ∃ t, exec (.characterReceived d false now) s = .next t ∧ t = { s with lc := t.lc }
    ∧ (k.fits d.toNat = true → t.lc.asm = .assemble [h, kc, d] clash
        ∧ t.lc.counters.checkFail = s.lc.counters.checkFail)
    ∧ (k.fits d.toNat = false → t.lc.asm = .skip
        ∧ t.lc.counters.checkFail = min 65535 (s.lc.counters.checkFail + 1))

/-- The second check character: a frame that fails its check is counted and dropped, one of the own
number that passes is a number clash, with an event when the flag was clear (R48, R50). -/
def Obligations.CheckFailuresAndClashes : Prop :=
  ∀ (s : State) (c : Configuration) (chars : List Byte) (d : Byte) (clash : Bool) (now : Nat),
    s.works c → s.lc.tx = .idle → s.lc.awaitRecessive = false →
    s.lc.asm = .assemble chars clash → 4 ≤ chars.length →
    chars.length = (byteAt chars 2).toNat + 4 →
    ∃ t, exec (.characterReceived d false now) s = .next t
    ∧ (crcOf (chars.take (chars.length - 1)) ≠ byteAt chars (chars.length - 1) ++ d →
        t = { s with lc := t.lc } ∧ t.lc.asm = .hunt ∧ t.lc.yielding = s.lc.yielding
        ∧ t.lc.counters = { s.lc.counters with
            checkFail := min 65535 (s.lc.counters.checkFail + 1)
            noticeStale := t.lc.counters.noticeStale })
    ∧ (crcOf (chars.take (chars.length - 1)) = byteAt chars (chars.length - 1) ++ d →
        clash = true →
        t = { s with lc := t.lc, ssl := t.ssl } ∧ t.lc.asm = .hunt ∧ t.lc.yielding = false
        ∧ t.lc.clash = true ∧ t.lc.clashQuiet = 0 ∧ t.statusFlags.getLsbD 11 = true
        ∧ t.lc.counters = { s.lc.counters with
            clashCount := min 65535 (s.lc.counters.clashCount + 1)
            noticeStale := t.lc.counters.noticeStale }
        ∧ (s.lc.clash = true → t.ssl = s.ssl)
        ∧ (s.lc.clash = false →
            t.ssl.events = (if s.ssl.events.length < 8 then s.ssl.events else s.ssl.events.tail)
              ++ [⟨.numberClash, (byteAt chars 1).toNat, s.scu.minute⟩]))

/-- Every character of a frame received one after another, from the head on, comes to the accepted frame of
its kind, read by the layout of Section 11.3: the steps end where the one step of the frame's row ends, for
STATUS and PRESENCE from a bay station, TRAVEL past the filter, ALARM, and PANEL, TIME and INQUIRY from a
panel; a STATUS is sent in the same layout, bits without a meaning as 0 and ignored on receipt (R40, R43,
R45 to R48, R51, R178, R179). That a row is the moment of the frame's acceptance is the model's choice (log
10), and so is that each character brings a moment, which ages the store (logs 9, 42). -/
def Obligations.StatusCharactersMakeAStatusFrame : Prop :=
  (∀ b : StatusBody, b.bytes
    = [(0 : BitVec 2) ++ b.source ++ (0 : BitVec 1) ++ b.phase,
      (0 : BitVec 4) ++ b.flags.extractLsb' 8 4, b.flags.extractLsb' 0 8,
      b.minute.extractLsb' 8 8, b.minute.extractLsb' 0 8, b.second, b.rank, b.interval,
      b.tBay.extractLsb' 8 8, b.tBay.extractLsb' 0 8, b.tOut.extractLsb' 8 8,
      b.tOut.extractLsb' 0 8, b.request, b.grant, b.stagesOn, b.extract.extractLsb' 8 8,
      b.extract.extractLsb' 0 8, b.supply.extractLsb' 8 8, b.supply.extractLsb' 0 8,
      b.uncovered.extractLsb' 8 8, b.uncovered.extractLsb' 0 8, b.exhaust.extractLsb' 8 8,
      b.exhaust.extractLsb' 0 8, b.unsealed, b.sealedDoors, b.zones,
      b.signature.extractLsb' 8 8, b.signature.extractLsb' 0 8])
  ∧ ∀ (s : State) (n : Byte) (now : Nat), s.hears n.toNat → s.lc.tx.listening = true →
    s.lc.awaitRecessive = false → s.lc.asm = .hunt → s.pending = [] →
    (isBayNumber n.toNat = true →
      (∀ l : List Byte, l.length = 28 →
        s.receives now n .status l (.status n
          { phase := (byteAt l 0).extractLsb' 0 3
            source := (byteAt l 0).extractLsb' 4 2
            flags := (byteAt l 1).extractLsb' 0 4 ++ byteAt l 2
            minute := byteAt l 3 ++ byteAt l 4
            second := byteAt l 5
            rank := byteAt l 6
            interval := byteAt l 7
            tBay := byteAt l 8 ++ byteAt l 9
            tOut := byteAt l 10 ++ byteAt l 11
            request := byteAt l 12
            grant := byteAt l 13
            stagesOn := byteAt l 14
            extract := byteAt l 15 ++ byteAt l 16
            supply := byteAt l 17 ++ byteAt l 18
            uncovered := byteAt l 19 ++ byteAt l 20
            exhaust := byteAt l 21 ++ byteAt l 22
            unsealed := byteAt l 23
            sealedDoors := byteAt l 24
            zones := byteAt l 25
            signature := byteAt l 26 ++ byteAt l 27 }))
      ∧ ∀ diag v₁ v₀ g₁ g₀ interval : Byte,
        s.receives now n .presence [diag, v₁, v₀, g₁, g₀, interval]
          (.presence n ⟨diag.extractLsb' 0 5, v₁ ++ v₀, g₁ ++ g₀, interval⟩))
    ∧ (s.filterAccepts n.toNat .travel = true → ∀ origin direction hops sequence : Byte,
        s.receives now n .travel [origin, direction, hops, sequence]
          (.travel n ⟨origin, direction, hops, sequence⟩ now))
    ∧ (∀ origin alarmKind repeatCount : Byte,
        s.receives now n .alarm [origin, alarmKind, repeatCount]
          (.alarm n ⟨origin, alarmKind, repeatCount⟩))
    ∧ (isPanelNumber n.toNat = true →
      (∀ sequence code first last x₁ x₀ : Byte,
        s.receives now n .panel [sequence, code, first, last, x₁, x₀]
          (let a : PanelAddress := ⟨sequence, first, last⟩
          if code = 1 then .holdPhase n a (x₁ ++ x₀)
          else if code = 2 then .advancePhase n a
          else if code = 3 then .closeBays n a (x₁ ++ x₀)
          else if code = 4 then .openBays n a
          else if code = 5 then .lightForce n a x₁ x₀
          else if code = 6 then .cancelAmendments n a
          else if code = 7 then .alarmReset n a
          else if code = 8 then .restart n a
          else .unknownCommand n a code (x₁ ++ x₀)))
      ∧ (∀ m₁ m₀ second : Byte,
        s.receives now n .time [m₁, m₀, second] (.time n ⟨m₁ ++ m₀, second⟩))
      ∧ ∀ target : Byte, s.receives now n .inquiry [target] (.inquiry n target now))

/-- A false start ends the quiet; twelve character times of quiet end the yield; the own hold ends in a
released line; behind a broken character or a hold heard the receiver watches for nothing and no quiet is
measured before the line returns recessive (R44, R52, R53, R61, R62). The measured quiet is an operand (log
8); that an event which cannot come about changes nothing is the model's choice (log 2), and so is that the
end of the own hold ends the receiver's wait, whatever another station still drives (log 46). -/
def Obligations.QuietYieldAndOwnHold : Prop :=
  (∀ (s : State) (c : Configuration), s.works c → s.lc.tx.listening = true →
    s.lc.awaitRecessive = false →
    exec .falseStart s = .next { s with lc := { s.lc with quiet := 0, holdHeard := false } })
  ∧ (∀ (s : State) (c : Configuration) (q : Nat), s.works c → s.lc.tx.listening = true →
    s.lc.awaitRecessive = false → 132 ≤ q → ∃ t, exec (.yieldEnd q) s = .next t
      ∧ t = { s with lc := { s.lc with yielding := false, quiet := max s.lc.quiet q } })
  ∧ (∀ (s : State) (c : Configuration) (q : Nat), s.works c → s.lc.tx.listening = true →
    q < 132 → s.lc.quiet < 132 → exec (.yieldEnd q) s = .next s)
  ∧ (∀ (s : State) (d : Byte) (marker : Bool) (q now : Nat), s.lc.awaitRecessive = true →
    ∀ i ∈ [Instr.characterReceived d marker now, .falseStart, .brokenCharacter, .frameTimeout q,
      .yieldEnd q, .frameStart q now], exec i s = .next s)
  ∧ ∀ s : State, s.held = none → s.lc.tx = .holding →
    exec .alarmHoldEnd s = .next { s with lc := { s.lc with
      tx := .idle, quiet := 0, holdHeard := false, awaitRecessive := false } }

/-- A broken character discards a frame in assembly, whose count waits for the level's end, and so does the
receiver: CHECK_FAIL below 22 bit times, nothing for an alarm hold; a level of 22 bit times or more not
handed over before is handed over at its end, as if heard before it: fire mode is entered and nothing
counted; more than 2 character times of quiet end a frame as a timeout (R44, R49, R52, R163). The measured
lengths are operands (log 8); that such a level is handed over at its end is the model's choice (log 15). -/
def Obligations.BrokenCharactersAndTimeouts : Prop :=
  (∀ (s : State) (c : Configuration), s.works c → s.lc.tx = .idle → s.lc.awaitRecessive = false →
    ∃ t, exec .brokenCharacter s = .next t
    ∧ t = { s with lc := { s.lc with
        asm := .hunt, quiet := 0, awaitRecessive := true
        brokenFrame := s.lc.brokenFrame
          || (match s.lc.asm with | .assemble _ _ => true | .hunt | .skip => false) } })
  ∧ (∀ (s : State) (c : Configuration) (bits : Nat), s.works c → s.lc.tx = .idle →
    s.lc.holdHeard = false → bits < 22 →
    ∃ t, exec (.dominantLevelEnd bits) s = .next t
    ∧ t = { s with lc := { s.lc with
        quiet := 0, brokenFrame := false, awaitRecessive := false
        counters.checkFail := if s.lc.brokenFrame then min 65535 (s.lc.counters.checkFail + 1)
          else s.lc.counters.checkFail } })
  ∧ (∀ (s : State) (c : Configuration) (bits : Nat), s.works c → s.lc.tx = .idle →
    s.lc.holdHeard = true →
    exec (.dominantLevelEnd bits) s
      = .next { s with lc := { s.lc with
          quiet := 0, brokenFrame := false, holdHeard := false, awaitRecessive := false } })
  ∧ (∀ (s : State) (c : Configuration) (bits : Nat), s.works c → s.lc.tx = .idle →
    s.lc.holdHeard = false → 22 ≤ bits →
    ∃ u t, exec .alarmHoldHeard s = .next u ∧ exec (.dominantLevelEnd bits) s = .next t
    ∧ exec (.dominantLevelEnd bits) u = .next t
    ∧ (s.fmc.inForce = true → t = { s with lc := { s.lc with
        asm := .hunt, quiet := 0, brokenFrame := false, awaitRecessive := false } })
    ∧ (s.fmc.mode = .normal → t.fmc = { s.fmc with mode := .fire .heard none }
        ∧ t.lc = { s.lc with
          asm := .hunt, quiet := 0, brokenFrame := false, awaitRecessive := false, notices := [] }
        ∧ t.ssl.events = (if s.ssl.events.length < 8 then s.ssl.events else s.ssl.events.tail)
          ++ [⟨.fireEnter, 0, s.scu.minute⟩]))
  ∧ ∀ (s : State) (c : Configuration) (l : List Byte) (b : Bool) (q : Nat), s.works c →
    s.lc.tx.listening = true → s.lc.awaitRecessive = false → s.lc.asm = .assemble l b →
    (22 < q → ∃ t, exec (.frameTimeout q) s = .next t
      ∧ t = { s with lc := { s.lc with
          asm := .hunt, quiet := max s.lc.quiet q
          counters.frameTimeout := min 65535 (s.lc.counters.frameTimeout + 1) } })
    ∧ (q ≤ 22 → s.lc.quiet ≤ 22 → exec (.frameTimeout q) s = .next s)

/-- An alarm hold heard enters fire mode with cause HEARD and origin UNKNOWN: notices flushed, an event
written, every output at its fire value; in fire mode it changes the line alone; a STATUS or ALARM frame in
transmission stays in transmission (R52, R97, R122, R141, R157, R163, R164). That a level is handed over
once is held in a mark of the model's (log 15); that the loss of a frame to the hold is an event of its own
is read by inference (log 16). -/
def Obligations.AlarmHoldHeardEntersFireMode : Prop :=
  (∀ (s : State) (c : Configuration) (f : TxFrame), s.works c → s.lc.tx = .sending f →
    s.lc.holdHeard = false → ∃ t, exec .alarmHoldHeard s = .next t
    ∧ (f.isNotice = false → t.lc.tx = .sending f)
    ∧ (f.isNotice = true → s.fmc.mode = .normal → t.lc.tx = .idle)
    ∧ t.lc.statusWaiting = s.lc.statusWaiting ∧ t.lc.counters = s.lc.counters
    ∧ t.fmc.inForce = true)
  ∧ ∀ (s : State) (c : Configuration), s.works c → s.lc.tx = .idle → s.lc.holdHeard = false →
    ∃ t, exec .alarmHoldHeard s = .next t
    ∧ t.lc.asm = .hunt ∧ t.lc.holdHeard = true ∧ t.lc.awaitRecessive = true ∧ t.lc.quiet = 0
    ∧ t.lc.counters = s.lc.counters
    ∧ (s.fmc.inForce = true →
        t = { s with lc := { s.lc with
          asm := .hunt, holdHeard := true, awaitRecessive := true, quiet := 0 } })
    ∧ (s.fmc.mode = .normal →
        t.fmc = { s.fmc with mode := .fire .heard none } ∧ t.lc.notices = []
        ∧ t.lc.alarmWaiting = s.lc.alarmWaiting ∧ t.lc.statusWaiting = s.lc.statusWaiting
        ∧ t.ssl.events = (if s.ssl.events.length < 8 then s.ssl.events else s.ssl.events.tail)
          ++ [⟨.fireEnter, 0, s.scu.minute⟩]
        ∧ (∀ g, t.outputs.lights.get g = 1000) ∧ (∀ k, t.outputs.stages.get k = false)
        ∧ (∀ k, t.outputs.curtains.get k = false) ∧ t.outputs.fan = c.bay.fireSpeed
        ∧ t.outputs.damper = c.bay.fireDamper ∧ t.hru.request = 0 ∧ t.hru.frost = s.hru.frost
        ∧ t.hsu.grant = 0 ∧ t.hsu.rotation = s.hsu.rotation ∧ t.abu.uncovered = 0
        ∧ t.pins = s.pins ∧ t.cfg = s.cfg ∧ t.br = s.br ∧ t.fiu = s.fiu ∧ t.scu = s.scu
        ∧ t.pt = s.pt)

/-- A loss inside the head leaves the frame waiting unchanged; a loss behind it leaves the frame read back
in assembly with the clash mark, and is judged at the level's end: an alarm hold counts nothing, anything
else raises LINE_FAULT and the fault count, and the fourth discards the frame; a level of 22 bit times or
more not handed over before enters fire mode at its end, nothing counted, and a lost notice is flushed with
the others (R52, R57, R63, R64, R163). The characters sent are an operand, and the frame waits in the
transmitter until judged (log 13); which of two ALARM frames waits is read by inference (log 17); that a
level of 22 bit times not handed over before is one at its end is the model's choice (log 15), and so is
that a loss given after its hold was heard leaves the frame in assembly (log 44). -/
def Obligations.LossesOfTheLine : Prop :=
  (∀ (s : State) (f : TxFrame), s.held = none → s.lc.tx = .sending f →
    exec (.arbitrationLoss 0) s
      = .next { s with lc := s.lc.waitsAgain f { s.lc with tx := .idle, quiet := 0 } })
  ∧ (∀ (s : State) (f : TxFrame) (sent : Nat), s.held = none → s.lc.tx = .sending f → 1 ≤ sent →
    exec (.arbitrationLoss sent) s = .next { s with lc := { s.lc with
      tx := .lost (some f), quiet := 0, asm := .assemble ((f.chars s.ssl.own).take sent) true } })
  ∧ (∀ (f : TxFrame) (own : Nat), f.chars own = (match f with
      | .status b _ => frameBytes (toByte own) .status b.bytes
      | .notice n => frameBytes (toByte own) n.kind.kind n.body
      | .alarm a =>
        frameBytes (toByte own) .alarm [a.body.origin, a.body.alarmKind, a.body.repeatCount]))
  ∧ (∀ (s : State) (c : Configuration) (f : TxFrame) (bits : Nat), s.works c →
    s.lc.tx = .lost (some f) → s.lc.holdHeard = false → bits < 22 →
    ∃ t, exec (.dominantLevelEnd bits) s = .next t
    ∧ t = { s with lc := t.lc } ∧ t.lc.tx = .idle ∧ t.lc.asm = s.lc.asm
    ∧ t.lc.counters.lineFault = min 65535 (s.lc.counters.lineFault + 1)
    ∧ (f.retry.faults < 3 → t.lc.sameStore
        (s.lc.waitsAgain (f.withRetry ⟨f.retry.faults + 1, true⟩) s.lc))
    ∧ (3 ≤ f.retry.faults → t.lc.sameStore s.lc))
  ∧ (∀ (s : State) (c : Configuration) (f : TxFrame) (bits : Nat), s.works c →
    s.lc.tx = .lost (some f) → s.lc.holdHeard = false → 22 ≤ bits → s.fmc.mode = .normal →
    ∃ u t, exec .alarmHoldHeard s = .next u ∧ exec (.dominantLevelEnd bits) s = .next t
    ∧ exec (.dominantLevelEnd bits) u = .next t
    ∧ t.fmc = { s.fmc with mode := .fire .heard none } ∧ t.lc.tx = .idle ∧ t.lc.asm = .hunt
    ∧ t.lc.counters = s.lc.counters ∧ t.lc.notices = []
    ∧ (f.isNotice = true → t.lc.sameStore { s.lc with notices := [] })
    ∧ (f.isNotice = false → t.lc.sameStore (s.lc.waitsAgain f { s.lc with notices := [] })))
  ∧ ∀ (s : State) (c : Configuration) (f : TxFrame) (bits : Nat), s.works c →
    s.lc.tx = .lost (some f) → s.lc.holdHeard = true ∨ (22 ≤ bits ∧ s.fmc.inForce = true) →
    ∃ t, exec (.dominantLevelEnd bits) s = .next t ∧ t = { s with lc := t.lc }
    ∧ t.lc.tx = .idle ∧ t.lc.counters = s.lc.counters
    ∧ t.lc.sameStore (s.lc.waitsAgain f s.lc)

/-- The first waiting frame in selection order starts when the quiet reaches its gap, 2, 3 or 4 character
times and 4 more after a fault, and not before; a STATUS carries the snapshot of that moment, its flags bit
by bit those of their blocks; no notice starts past 2 s (R2, R8, R10, R15, R23, R31, R41, R50, R56, R59 to
R62, R65, R118, R121, R161, R172, R178, Section 11.3). The quiet and the moment are operands (logs 8, 9);
that a frame still in assembly is counted as at a new head is read by inference (log 28). -/
def Obligations.FramesStartInSelectionOrder : Prop :=
  (∀ s : State,
    (s.statusFlags.getLsbD 0 = true ↔ s.fmc.mode ≠ .normal)
    ∧ s.statusFlags.getLsbD 1 = s.hru.frost ∧ s.statusFlags.getLsbD 2 = s.hru.short
    ∧ s.statusFlags.getLsbD 3 = s.br.tempSubst ∧ s.statusFlags.getLsbD 4 = s.br.tempBlind
    ∧ (s.statusFlags.getLsbD 5 = true ↔ ∃ o r, .close o r ∈ s.scu.amendments)
    ∧ s.statusFlags.getLsbD 6 = !s.scu.valid ∧ s.statusFlags.getLsbD 7 = s.br.outdoorOwn
    ∧ s.statusFlags.getLsbD 8 = s.scu.mismatch ∧ s.statusFlags.getLsbD 9 = s.br.doorLongOpen
    ∧ s.statusFlags.getLsbD 10 = s.ssl.checkResult.isSome ∧ s.statusFlags.getLsbD 11 = s.lc.clash)
  ∧ (∀ (s t : State) (q now : Nat) (n : Notice), s.lc.tx = .idle →
    exec (.frameStart q now) s = .next t → t.lc.tx = .sending (.notice n) →
    max s.lc.clock now ≤ n.posted + 2000000)
  ∧ ∀ (s : State) (c : Configuration) (q now : Nat), s.works c →
    s.ssl.startup = .run ∨ s.ssl.startup = .join → s.lc.tx = .idle → s.lc.awaitRecessive = false →
    (∀ n ∈ s.lc.notices, max s.lc.clock now ≤ n.posted + 2000000) →
    s.lc.counters.noticeStale ≤ 65535 → s.lc.quiet ≤ q →
    ∀ sent : Lc, sent = { s.lc with
        asm := .hunt, quiet := 0, holdHeard := false, clock := max s.lc.clock now
        counters.frameTimeout := (match s.lc.asm with
          | .assemble _ _ => min 65535 (s.lc.counters.frameTimeout + 1)
          | .hunt | .skip => s.lc.counters.frameTimeout) } →
    (∀ a, s.lc.alarmWaiting = some a →
      (11 * (2 + (if a.retry.extraGap then 4 else 0)) ≤ q →
        exec (.frameStart q now) s
          = .next { s with lc := { sent with alarmWaiting := none, tx := .sending (.alarm a) } })
      ∧ (q < 11 * (2 + (if a.retry.extraGap then 4 else 0)) →
        exec (.frameStart q now) s = .next s))
    ∧ (s.lc.alarmWaiting = none → ∀ n rest, s.lc.notices = n :: rest →
      (11 * (3 + (if n.retry.extraGap then 4 else 0)) ≤ q →
        exec (.frameStart q now) s
          = .next { s with lc := { sent with notices := rest, tx := .sending (.notice n) } })
      ∧ (q < 11 * (3 + (if n.retry.extraGap then 4 else 0)) →
        exec (.frameStart q now) s = .next s))
    ∧ (s.lc.alarmWaiting = none → s.lc.notices = [] →
        s.lc.yielding = true ∨ s.lc.statusWaiting = none →
        exec (.frameStart q now) s = .next s)
    ∧ (s.lc.alarmWaiting = none → s.lc.notices = [] → s.lc.yielding = false →
        ∀ r, s.lc.statusWaiting = some r →
        (q < 11 * (4 + (if r.extraGap then 4 else 0)) → exec (.frameStart q now) s = .next s)
        ∧ (11 * (4 + (if r.extraGap then 4 else 0)) ≤ q →
        ∃ b : StatusBody, exec (.frameStart q now) s = .next { s with lc := { sent with
          tx := .sending (.status b r), statusWaiting := none, presenceMark := false
          lastStatus := some ⟨s.hru.request, s.fmc.inForce, s.hru.frost⟩ } }
        ∧ b.phase.toNat = (match s.scu.phase with
            | .closed => 0 | .preheat => 1 | .work => 2 | .brk => 3 | .changeover => 4)
        ∧ b.source.toNat = (match s.br.tempSource with
            | .own => 0 | .substituted => 1 | .held => 2 | .blind => 3)
        ∧ b.interval.toNat = (match c.site.interval with
            | .s2 => 0 | .s4 => 1 | .s8 => 2 | .s16 => 3)
        ∧ b.flags = s.statusFlags ∧ b.minute = toHalf s.scu.minute
        ∧ b.second = toByte s.scu.second ∧ b.rank = toByte s.scu.rank
        ∧ b.tBay = tempHalf s.br.tBay ∧ b.tOut = tempHalf s.br.tOut
        ∧ b.request = toByte s.hru.request ∧ b.grant = toByte s.hsu.grant
        ∧ b.stagesOn = toByte s.hsu.onList.length ∧ b.extract = toHalf s.abu.extract
        ∧ b.supply = toHalf s.abu.supply ∧ b.uncovered = toHalf s.abu.uncovered
        ∧ (s.br.exhaust = none → b.exhaust = 65535)
        ∧ (∀ e, s.br.exhaust = some e → b.exhaust = toHalf e)
        ∧ b.unsealed = toByte s.br.unsealed ∧ b.sealedDoors = toByte s.br.sealedDoors
        ∧ b.zones = toByte s.br.occupiedZones ∧ b.signature = toHalf c.signature))

/-- A frame drives its characters back to back, each a start bit, the data bits from the least significant
up, the marker and the stop bit (R43); sent to its end it leaves the store; a STATUS begins the yield; a
REPORT takes its records off the event list and clears the overflow mark unless a record was replaced since
(R62, R65, R176). That a level heard during the frame has ended at its last stop bit is read by inference
(log 16). -/
def Obligations.SentFramesLeaveTheStore : Prop :=
  (∀ (f : TxFrame) (own : Nat), (f.levels own).length = 11 * (f.chars own).length
    ∧ ∀ i d, (f.chars own)[i]? = some d → ((f.levels own).drop (11 * i)).take 11
      = [.dominant] ++ (List.range 8).map (fun j => if d.getLsbD j then .recessive else .dominant)
        ++ [if i = 0 then .recessive else .dominant, .recessive])
  ∧ (∀ (s : State) (b : StatusBody) (r : Retry), s.held = none → s.lc.tx = .sending (.status b r) →
    exec .frameSent s = .next { s with lc := { s.lc with
      tx := .idle, quiet := 0, holdHeard := false, awaitRecessive := false, yielding := true } })
  ∧ (∀ (s : State) (a : AlarmFrame), s.held = none → s.lc.tx = .sending (.alarm a) →
    exec .frameSent s
      = .next { s with lc := { s.lc with
          tx := .idle, quiet := 0, holdHeard := false, awaitRecessive := false } })
  ∧ ∀ (s : State) (n : Notice), s.held = none → s.lc.tx = .sending (.notice n) →
    ∃ t, exec .frameSent s = .next t
    ∧ t = { s with ssl := t.ssl, lc := { s.lc with
        tx := .idle, quiet := 0, holdHeard := false, awaitRecessive := false } }
    ∧ (n.kind ≠ .report → t.ssl = s.ssl)
    ∧ (n.kind = .report → t.ssl.events = s.ssl.events.drop s.ssl.report.carried
        ∧ (s.ssl.report.replaced = false → t.ssl.overflow = false)
        ∧ (s.ssl.report.replaced = true → t.ssl.overflow = s.ssl.overflow)
        ∧ t.ssl.startup = s.ssl.startup)

/-- A waiting notice leaves the store at 2 s, each counted by NOTICE_STALE; younger ones and every
ALARM and STATUS frame stay (R56). That the row may come at exactly 2 s is the model's choice (log 9).
-/
def Obligations.NoticesAgeOut : Prop :=
  ∀ (s : State) (now : Nat), s.held = none → s.lc.tx = .idle → s.lc.clock ≤ now →
    ∃ t, exec (.noticeAgeExpiry now) s = .next t ∧ t = { s with lc := t.lc }
    ∧ (∀ n, n ∈ t.lc.notices ↔ n ∈ s.lc.notices ∧ now < n.posted + 2000000)
    ∧ t.lc.counters.noticeStale
        = min 65535 (s.lc.counters.noticeStale
          + s.lc.notices.countP fun n => decide (n.posted + 2000000 ≤ now))
    ∧ t.lc.alarmWaiting = s.lc.alarmWaiting ∧ t.lc.statusWaiting = s.lc.statusWaiting
    ∧ t.lc.tx = .idle ∧ t.lc.asm = s.lc.asm

/-- The LC's second: the clash-quiet count and its end at 600, the status interval and its post, the
prompt post on a changed request, FIRE, FROST or the presence mark (R50, R58, R59, R67). That a row
naming part of a sample event is that whole sample event is the model's choice (log 1), and so is that the
interval's STATUS is posted before the prompt check (log 39); that the presence mark alone counts before any
STATUS head is read by inference (log 22). -/
def Obligations.LineControllerSecond : Prop :=
  ∀ (s : State) (c : Configuration), s.works c → ∃ t, exec .lcSampleEvent s = .next t
    ∧ t = { s with lc := t.lc } ∧ t.lc.notices = s.lc.notices
    ∧ t.lc.alarmWaiting = s.lc.alarmWaiting ∧ t.lc.tx = s.lc.tx ∧ t.lc.asm = s.lc.asm
    ∧ (s.lc.clash = false → t.lc.clash = false ∧ t.lc.clashQuiet = s.lc.clashQuiet)
    ∧ (s.lc.clash = true → t.lc.clashQuiet = s.lc.clashQuiet + 1)
    ∧ (s.lc.clash = true → s.lc.clashQuiet < 599 → t.lc.clash = true)
    ∧ (s.lc.clash = true → s.lc.clashQuiet = 599 → t.lc.clash = false
        ∧ exec .clashQuietExpiry s = .next t)
    ∧ (s.ssl.startup ≠ .run → t.lc.statusWaiting = s.lc.statusWaiting
        ∧ t.lc.intervalCount = s.lc.intervalCount ∧ t.lc.counters = s.lc.counters)
    ∧ (s.ssl.startup = .run → s.lc.intervalCount + 1 < c.site.interval.seconds →
        t.lc.intervalCount = s.lc.intervalCount + 1 ∧ t.lc.counters = s.lc.counters
        ∧ (s.lc.statusPlaceEmpty = false → t.lc.statusWaiting = s.lc.statusWaiting)
        ∧ (s.lc.statusPlaceEmpty = true → s.lc.presenceMark = false →
            (∀ h, s.lc.lastStatus = some h → s.hru.request < h.request + 10
              ∧ h.request < s.hru.request + 10 ∧ h.fire = s.fmc.inForce
              ∧ h.frost = s.hru.frost) → t.lc.statusWaiting = none)
        ∧ (s.lc.statusPlaceEmpty = true → s.lc.presenceMark = true ∨
            (∃ h, s.lc.lastStatus = some h ∧ (h.request + 10 ≤ s.hru.request
              ∨ s.hru.request + 10 ≤ h.request ∨ h.fire ≠ s.fmc.inForce
              ∨ h.frost ≠ s.hru.frost)) → t.lc.statusWaiting = some ⟨0, false⟩))
    ∧ (s.ssl.startup = .run → s.lc.intervalCount + 1 = c.site.interval.seconds →
        t.lc.intervalCount = 0 ∧ exec .statusIntervalExpiry s = .next t
        ∧ (s.lc.statusPlaceEmpty = true → t.lc.statusWaiting = some ⟨0, false⟩
            ∧ t.lc.counters = s.lc.counters)
        ∧ (s.lc.statusPlaceEmpty = false → t.lc.statusWaiting = s.lc.statusWaiting
            ∧ t.lc.counters.statusLate = min 65535 (s.lc.counters.statusLate + 1)))

/-! ### Outputs -/

/-- The LTC's second: targets by fire mode, start-up state, force, phase, occupancy, pre-light and
daylight cap; levels by the ramp rate; pre-light's countdown with the row that ends it (R92 to R96,
R99). That a row naming part of a sample event is that whole sample event is the model's choice (log
1). -/
def Obligations.LightLevelsFollowTheirTargets : Prop :=
  ∀ (s : State) (c : Configuration), s.works c → ∃ t, exec .ltcSampleEvent s = .next t
    ∧ t = { s with ltc := t.ltc } ∧ t.ltc.recent = s.ltc.recent ∧ t.ltc.sequence = s.ltc.sequence
    ∧ (t.ltc.capEngaged = true ↔ ∃ d, s.br.daylight = some d
        ∧ (c.bay.dayThreshold ≤ d ∨ (s.ltc.capEngaged = true ∧ 9 * c.bay.dayThreshold / 10 ≤ d)))
    ∧ (s.fmc.inForce = true → ∀ g, (t.ltc.groups.get g).target = 1000)
    ∧ (s.fmc.inForce = false → s.ssl.startup ≠ .run →
        ∀ g, (t.ltc.groups.get g).target = c.site.startLevel)
    ∧ (s.fmc.inForce = false → s.ssl.startup = .run → ∀ g u,
        (∀ v, forceLevel s.scu.amendments = some v → u = v) →
        (forceLevel s.scu.amendments = none →
          u = max ((c.row s.scu.phase).base.get g)
            (max (if (List.finRange 6).any fun k => (s.br.zones.get k).groups.getLsbD g.val
                  && ((s.br.zones.get k).state == .occupied || (s.br.zones.get k).state == .hold)
                then (c.row s.scu.phase).occ.get g else 0)
              (if (c.bay.groups.get g).aisle && s.ltc.prelight != .idle
                then c.phases.work.base.get g else 0))) →
        (t.ltc.groups.get g).target =
          if (c.bay.groups.get g).capEnabled && t.ltc.capEngaged
          then min u (c.bay.groups.get g).capLevel else u)
    ∧ (∀ g, ((t.ltc.groups.get g).target ≤ (s.ltc.groups.get g).level + (c.bay.groups.get g).rampRate
          ∧ (s.ltc.groups.get g).level ≤ (t.ltc.groups.get g).target + (c.bay.groups.get g).rampRate →
          (t.ltc.groups.get g).level = (t.ltc.groups.get g).target)
        ∧ ((s.ltc.groups.get g).level + (c.bay.groups.get g).rampRate < (t.ltc.groups.get g).target →
          (t.ltc.groups.get g).level = (s.ltc.groups.get g).level + (c.bay.groups.get g).rampRate)
        ∧ ((t.ltc.groups.get g).target + (c.bay.groups.get g).rampRate < (s.ltc.groups.get g).level →
          (t.ltc.groups.get g).level = (s.ltc.groups.get g).level - (c.bay.groups.get g).rampRate))
    ∧ (s.ltc.prelight = .idle → t.ltc.prelight = .idle)
    ∧ (∀ r, s.ltc.prelight = .active r → 1 < r → t.ltc.prelight = .active (r - 1))
    ∧ (s.ltc.prelight = .active 1 → t.ltc.prelight = .idle
        ∧ exec .prelightExpiry s = .next t)

/-- The heat request: 0 in fire mode, the blind request in BLIND, and otherwise the sum of the error,
door and intake terms capped at the capacity, with SHORT; and the FROST flag (R114 to R119, R121,
R122). -/
def Obligations.HeatRequestAndFlags : Prop :=
  ∀ (s : State) (c : Configuration), s.works c → ∃ t, exec .hruSampleEvent s = .next t
    ∧ t = { s with hru := t.hru }
    ∧ (s.fmc.inForce = true → t.hru.request = 0 ∧ t.hru.short = false)
    ∧ (s.fmc.inForce = false → s.br.tempSource = .blind →
        t.hru.request = c.bay.blindRequest ∧ t.hru.short = false)
    ∧ (s.fmc.inForce = false → s.br.tempSource ≠ .blind → ∃ b l v : Nat,
        (c.setpoint s.scu.phase ≤ s.br.tBay → b = 0)
        ∧ (s.br.tBay < c.setpoint s.scu.phase →
            (b : Int) = min (c.bay.capacity : Int)
              ((c.setpoint s.scu.phase - s.br.tBay) * c.bay.capacity / c.bay.band))
        ∧ l = ((List.finRange 8).map fun k =>
            match (s.br.doors.get k).state with
            | .openUnsealed =>
              if (c.row s.scu.phase).curtains then c.bay.doorLoss else 2 * c.bay.doorLoss
            | .openSealed => c.bay.doorLoss / 4
            | .closed | .disabled => 0).sum
        ∧ (v : Int) = (s.abu.supply : Int) * max 0 (c.setpoint s.scu.phase - s.br.tOut) * 12 / 1000
        ∧ t.hru.terms = some ⟨b, l, v⟩ ∧ t.hru.request = min c.bay.capacity (b + l + v)
        ∧ (t.hru.short = true ↔ c.bay.capacity < b + l + v))
    ∧ (s.br.tempSource = .blind → t.hru.frost = s.hru.frost)
    ∧ (s.br.tempSource ≠ .blind →
        (s.br.tBay < c.site.frostLimit → t.hru.frost = true)
        ∧ ((c.site.frostLimit : Int) ≤ s.br.tBay → s.br.tBay ≤ c.site.frostLimit + 9 →
            t.hru.frost = s.hru.frost)
        ∧ ((c.site.frostLimit : Int) + 10 ≤ s.br.tBay → t.hru.frost = false))

/-- The table of the door curtains and their outputs, with the row that ends a run-on (R111, R112,
R113). That a row naming part of a sample event is that whole sample event is the model's choice (log
1). -/
def Obligations.CurtainsFollowTheirDoors : Prop :=
  ∀ (s : State) (c : Configuration) (k : Fin 8), s.works c →
    ∃ t, exec .hruSampleEvent s = .next t
    ∧ (s.fmc.inForce = true ∨ (c.row s.scu.phase).curtains = false →
        t.hru.curtains.get k = .inhibited ∧ t.outputs.curtains.get k = false)
    ∧ (s.fmc.inForce = false → (c.row s.scu.phase).curtains = true →
        ((s.br.doors.get k).state = .openUnsealed →
          t.hru.curtains.get k = .running ∧ t.outputs.curtains.get k = true)
        ∧ ((s.br.doors.get k).state ≠ .openUnsealed →
          (s.hru.curtains.get k = .off ∨ s.hru.curtains.get k = .inhibited →
            t.hru.curtains.get k = .off ∧ t.outputs.curtains.get k = false)
          ∧ (s.hru.curtains.get k = .running → c.bay.runOn = 0 → t.hru.curtains.get k = .off)
          ∧ (s.hru.curtains.get k = .running → c.bay.runOn ≠ 0 →
              t.hru.curtains.get k = .runOn c.bay.runOn ∧ t.outputs.curtains.get k = true)
          ∧ (∀ r, s.hru.curtains.get k = .runOn r → 1 < r →
              t.hru.curtains.get k = .runOn (r - 1) ∧ t.outputs.curtains.get k = true)
          ∧ (s.hru.curtains.get k = .runOn 1 → t.hru.curtains.get k = .off
              ∧ t.outputs.curtains.get k = false ∧ exec (.runOnExpiry k) s = .next t)))

/-- The share of the budget: the four rows of the grant over the requests of the FRESH and STALE peers
that announce one, 0 in fire mode, and 0 outside RUN without FROST; never above the own request or the
budget (R128 to R133). -/
def Obligations.GrantIsTheShareOfTheBudget : Prop :=
  ∀ (s : State) (c : Configuration), s.works c → ∃ t, exec .hsuSampleEvent s = .next t
    ∧ t = { s with hsu := t.hsu } ∧ t.hsu.rotation = s.hsu.rotation
    ∧ t.hsu.grant ≤ s.hru.request ∧ t.hsu.grant ≤ c.site.budget
    ∧ (s.fmc.inForce = true → t.hsu.grant = 0)
    ∧ (s.ssl.startup ≠ .run → s.hru.frost = false → t.hsu.grant = 0)
    ∧ (s.fmc.inForce = false → s.ssl.startup = .run ∨ s.hru.frost = true →
        ∀ peers sf sn, peers = s.pt.bays.filterMap (fun e =>
            match e.2.age, e.2.announced with
            | .fresh, some b | .stale, some b => some (b.request.toNat, b.flags.getLsbD 1)
            | .lost, _ | _, none => none) →
        sf = (((s.hru.request, s.hru.frost) :: peers).map fun q => if q.2 then q.1 else 0).sum →
        sn = (((s.hru.request, s.hru.frost) :: peers).map fun q => if q.2 then 0 else q.1).sum →
        t.hsu.grant =
          if s.hru.request = 0 then 0
          else if sf + sn ≤ c.site.budget then s.hru.request
          else if c.site.budget ≤ sf then
            (if s.hru.frost then s.hru.request * c.site.budget / sf else 0)
          else if s.hru.frost then s.hru.request
          else s.hru.request * (c.site.budget - sf) / sn)

/-- The allowed stage count follows the grant with its hysteresis, stages go off newest first and come on by
the rotation order, the first in it that has expired, and OFF stages count down, with the row that names an
expiry (R134, R136 to R139). That a row naming part of a sample event is that whole sample event is the
model's choice (log 1). -/
def Obligations.StagesFollowTheAllowedCount : Prop :=
  ∀ (s : State) (c : Configuration), s.works c → s.stagesSafe →
    ∃ t, exec .hsuSampleEvent s = .next t
    ∧ (t.hsu.grant * c.bay.stageCount / c.bay.capacity < s.hsu.allowed →
        t.hsu.allowed = t.hsu.grant * c.bay.stageCount / c.bay.capacity)
    ∧ (s.hsu.allowed ≤ t.hsu.grant * c.bay.stageCount / c.bay.capacity →
        t.hsu.allowed = max s.hsu.allowed
          ((t.hsu.grant - c.bay.hysteresis) * c.bay.stageCount / c.bay.capacity))
    ∧ (t.hsu.allowed ≤ s.hsu.onList.length → t.hsu.onList = s.hsu.onList.take t.hsu.allowed)
    ∧ (s.hsu.onList.length ≤ t.hsu.allowed → s.hsu.onList <+: t.hsu.onList
        ∧ t.hsu.onList.length ≤ t.hsu.allowed)
    ∧ (∀ k g, s.hsu.stage? k = some g → g.on = true → k ∉ t.hsu.onList →
        t.hsu.stage? k = some ⟨false, c.bay.minOff, false⟩)
    ∧ (∀ k g, s.hsu.stage? k = some g → g.on = true → k ∈ t.hsu.onList →
        t.hsu.stage? k = some g)
    ∧ (∀ k g, s.hsu.stage? k = some g → g.on = false → k ∈ t.hsu.onList →
        (g.held = true ∧ g.minOff = 0) ∨ (g.held = false ∧ g.minOff ≤ 1))
    ∧ (∀ k g, s.hsu.stage? k = some g → g.on = false → k ∉ t.hsu.onList →
        t.hsu.stage? k = some (if g.held then { g with held := false }
          else { g with minOff := g.minOff - 1 }))
    ∧ (∀ earlier k later, s.hsu.rotation = earlier ++ k :: later → k ∉ earlier →
        k ∈ t.hsu.onList → k ∉ s.hsu.onList → ∀ j ∈ earlier, ∀ g, t.hsu.stage? j = some g →
          g.on = true ∨ 0 < g.minOff ∨ g.held = true)
    ∧ (t.hsu.onList.length < t.hsu.allowed → ∀ k ∈ s.hsu.rotation, ∀ g,
        t.hsu.stage? k = some g → g.on = true ∨ 0 < g.minOff ∨ g.held = true)
    ∧ (∀ k g, s.hsu.stage? k = some g → g.on = false → g.held = false → g.minOff = 1 →
        exec (.minOffExpiry k) s = .next t)

/-- The ABU's second: target speed, the fan up at once and down by 2, extract, need, uncovered extract,
supply target with half the neighbours' uncovered extract, the damper by 5 and the commanded supply;
held before RUN, at the fire values in fire mode (R148 to R156, R158). That the numbers beside the own one
are its neighbours in STRAP_FAULT too is read by inference (log 21). -/
def Obligations.AirBalanceSecond : Prop :=
  ∀ (s : State) (c : Configuration) (ventMin uw ue : Nat), s.works c →
    ventMin = (c.row s.scu.phase).ventMin →
    (∀ b, s.pt.fresh (s.ssl.own - 1) = some b → uw = b.uncovered.toNat) →
    (s.pt.fresh (s.ssl.own - 1) = none → uw = 0) →
    (∀ b, s.pt.fresh (s.ssl.own + 1) = some b → ue = b.uncovered.toNat) →
    (s.pt.fresh (s.ssl.own + 1) = none → ue = 0) →
    ∃ t, exec .abuSampleEvent s = .next t ∧ t = { s with abu := t.abu }
    ∧ t.outputs.fan = t.abu.speed ∧ t.outputs.damper = t.abu.damper
    ∧ t.abu.extract = t.abu.speed * c.bay.extractMax / 100
    ∧ t.abu.need = t.abu.extract - s.br.unsealed * c.bay.doorInflow
    ∧ t.abu.supplyTarget = min c.bay.supplyMax (t.abu.need + (uw + ue) / 2)
    ∧ t.abu.supply = t.abu.damper * c.bay.supplyMax / 100
    ∧ (s.fmc.inForce = true → t.abu.speed = c.bay.fireSpeed ∧ t.abu.damper = c.bay.fireDamper
        ∧ t.abu.uncovered = 0)
    ∧ (s.fmc.inForce = false → t.abu.uncovered = t.abu.need - c.bay.supplyMax)
    ∧ (s.fmc.inForce = false → s.ssl.startup ≠ .run →
        t.abu.speed = s.abu.speed ∧ t.abu.damper = s.abu.damper)
    ∧ (s.fmc.inForce = false → s.ssl.startup = .run →
        (s.br.exhaust = none → t.abu.targetSpeed = 100)
        ∧ (∀ e, s.br.exhaust = some e → c.bay.eiHigh ≤ e → t.abu.targetSpeed = 100)
        ∧ (∀ e, s.br.exhaust = some e → e < c.bay.eiHigh → e ≤ c.bay.eiLow →
            t.abu.targetSpeed = ventMin)
        ∧ (∀ e, s.br.exhaust = some e → e < c.bay.eiHigh → c.bay.eiLow < e →
            t.abu.targetSpeed
              = ventMin + (100 - ventMin) * (e - c.bay.eiLow) / (c.bay.eiHigh - c.bay.eiLow))
        ∧ (s.abu.speed ≤ t.abu.targetSpeed → t.abu.speed = t.abu.targetSpeed)
        ∧ (t.abu.targetSpeed < s.abu.speed →
            t.abu.speed = max t.abu.targetSpeed (s.abu.speed - 2))
        ∧ t.abu.damperTarget = t.abu.supplyTarget * 100 / c.bay.supplyMax
        ∧ (t.abu.damperTarget ≤ s.abu.damper + 5 → s.abu.damper ≤ t.abu.damperTarget + 5 →
            t.abu.damper = t.abu.damperTarget)
        ∧ (s.abu.damper + 5 < t.abu.damperTarget → t.abu.damper = s.abu.damper + 5)
        ∧ (t.abu.damperTarget + 5 < s.abu.damper → t.abu.damper = s.abu.damper - 5))

/-- The repeat timer falls by 1 a second; at 0 a send is made while the input is ACTIVE in fire mode, a
hold and an ALARM frame with the next count, and the timer stops otherwise; the hold cuts off a frame being
sent, which waits again uncounted, and the ALARM frame replaces a waiting one in place or has room made by
discarding notices, oldest first and no more than needed (R53, R57, R161, R165, R166). That a row naming
part of a sample event is that whole sample event is the model's choice (log 1); the posting moment is the
latest one brought (log 9). -/
def Obligations.RepeatTimerMakesSends : Prop :=
  ∀ s : State, s.held = none → ∃ t, exec .fmcSampleEvent s = .next t
    ∧ (s.fmc.timer = none → t = s)
    ∧ (∀ n, s.fmc.timer = some n → 1 < n →
        t = { s with fmc := { s.fmc with timer := some (n - 1) } })
    ∧ (s.fmc.timer = some 1 → exec .repeatTimerExpiry s = .next t)
    ∧ (s.fmc.timer = some 1 → s.br.fireInput = false ∨ s.fmc.inForce = false →
        t = { s with fmc := { s.fmc with timer := none } })
    ∧ (s.fmc.timer = some 1 → s.br.fireInput = true → s.fmc.inForce = true →
        s.ssl.startup = .selftest ∨ s.ssl.startup = .listen ∨ s.ssl.startup = .join
          ∨ s.ssl.startup = .run →
        t = { s with fmc := t.fmc, lc := t.lc }
        ∧ t.fmc = { s.fmc with timer := some 30, repeatCount := min 255 (s.fmc.repeatCount + 1) }
        ∧ t.lc.tx = .holding ∧ t.outputs.lineDominant = true
        ∧ t.lc.alarmWaiting = some ⟨⟨toByte s.ssl.own, 1, toByte s.fmc.repeatCount⟩, s.lc.clock,
            ⟨0, false⟩⟩
        ∧ (s.lc.tx ≠ .holding → t.lc.asm = .hunt)
        ∧ (∀ b r, s.lc.tx = .sending (.status b r) → t.lc.statusWaiting = some r)
        ∧ (s.lc.alarmWaiting.isSome = true → t.lc.counters = s.lc.counters
          ∧ (∀ n, s.lc.tx = .sending (.notice n) → t.lc.notices = n :: s.lc.notices)
          ∧ (s.lc.tx = .idle → t.lc.notices = s.lc.notices))
        ∧ (s.lc.tx = .idle → s.lc.alarmWaiting = none → ∃ gone : List Notice,
          s.lc.notices = gone ++ t.lc.notices
          ∧ t.lc.counters = { s.lc.counters with
              noticeDrop := min 65535 (s.lc.counters.noticeDrop + gone.length) }
          ∧ (t.lc.notices = [] ∨ (noticeBytes t.lc.notices + 8 ≤ 223 ∧ t.lc.notices.length < 7))
          ∧ (∀ before n, gone = before ++ [n] →
              223 < noticeBytes (n :: t.lc.notices) + 8 ∨ 7 ≤ (n :: t.lc.notices).length)))

/-- A received travel notice starts pre-light and is forwarded with one hop less, once for each pair of
origin and sequence; a duplicate, a notice from the wrong side or before RUN does nothing (R102 to R106).
The forwarded notice joins the store as the newest where its 9 bytes and its place are free, and is dropped
and counted otherwise; a body of more than 48 is refused (R54, R55). That the row is the moment of the
frame's acceptance is the model's choice (log 10), and so are the posting moment, the latest one brought,
and the store as a timed command leaves it (logs 9, 42). -/
def Obligations.TravelNoticesAreActedOnOnce : Prop :=
  (∀ l : Lc, l.sharedBytes = noticeBytes l.notices + (if l.alarmWaiting.isSome then 8 else 0)
        + (match l.tx with
          | .sending (.notice n) | .lost (some (.notice n)) => n.body.length + 5
          | .sending (.alarm _) | .lost (some (.alarm _)) => 8
          | .sending (.status _ _) | .lost (some (.status _ _)) | .lost none | .idle | .holding => 0)
      ∧ l.sharedFrames = l.notices.length + (if l.alarmWaiting.isSome then 1 else 0)
        + (match l.tx with
          | .sending (.notice _) | .lost (some (.notice _)) => 1
          | .sending (.alarm _) | .lost (some (.alarm _)) => 1
          | .sending (.status _ _) | .lost (some (.status _ _)) | .lost none | .idle | .holding => 0))
  ∧ (∀ (l : Lc) (k : NoticeKind) (body : List Byte), 48 < body.length → l.postNotice k body = l)
  ∧ ∀ (s : State) (c : Configuration) (n : Byte) (b : TravelBody) (now : Nat), s.cfg = some c →
    s.hears n.toNat → s.filterAccepts n.toNat .travel = true →
    ∃ t, exec (.travel n b now) s = .next t ∧ t = { s with ltc := t.ltc, lc := t.lc }
    ∧ t.ltc.groups = s.ltc.groups ∧ t.ltc.sequence = s.ltc.sequence
    ∧ (s.ssl.startup ≠ .run ∨ s.fmc.inForce = true
          ∨ (b.origin.toNat, b.sequence.toNat) ∈ s.ltc.recent
          ∨ isBayNumber b.origin.toNat = false ∨ b.origin.toNat = s.ssl.own
          ∨ 1 < b.direction.toNat ∨ (b.direction.toNat = 1 ∧ s.ssl.own < n.toNat)
          ∨ (b.direction.toNat = 0 ∧ n.toNat < s.ssl.own) →
        t.ltc = s.ltc ∧ t.lc.notices = (s.lc.advance now).notices)
    ∧ (s.ssl.startup = .run → s.fmc.inForce = false →
        (b.origin.toNat, b.sequence.toNat) ∉ s.ltc.recent → isBayNumber b.origin.toNat = true →
        b.origin.toNat ≠ s.ssl.own →
        (b.direction.toNat = 1 ∧ n.toNat < s.ssl.own)
          ∨ (b.direction.toNat = 0 ∧ s.ssl.own < n.toNat) →
        t.ltc.prelight = .active c.site.prelightHold
        ∧ t.ltc.recent.getLast? = some (b.origin.toNat, b.sequence.toNat)
        ∧ (b.hops.toNat = 0 → t.lc.notices = (s.lc.advance now).notices)
        ∧ ∀ l, l = s.lc.advance now → 0 < b.hops.toNat →
          (l.sharedBytes + 9 ≤ 223 → l.sharedFrames < 7 →
            t.lc.counters = l.counters
            ∧ t.lc.notices = l.notices ++ [⟨.travel,
              [b.origin, b.direction, toByte (min b.hops.toNat 2 - 1), b.sequence],
              max s.lc.clock now, ⟨0, false⟩⟩])
          ∧ (223 < l.sharedBytes + 9 ∨ 7 ≤ l.sharedFrames → t.lc.notices = l.notices
            ∧ t.lc.counters = { l.counters with noticeDrop := min 65535 (l.counters.noticeDrop + 1) }))

/-- An ALARM frame enters fire mode with its origin, or supplies the origin of a fire heard without
one; otherwise it changes the line alone (R163, R164). That the row is the moment of the frame's
acceptance is the model's choice (log 10). -/
def Obligations.AlarmFrameEntersOrNamesTheFire : Prop :=
  ∀ (s : State) (n : Byte) (b : AlarmBody) (o : Option Nat), s.hears n.toNat →
    o = (if 1 ≤ b.origin.toNat ∧ b.origin.toNat ≤ 63 then some b.origin.toNat else none) →
    ∃ t, exec (.alarm n b) s = .next t
    ∧ t.pins = s.pins ∧ t.cfg = s.cfg ∧ t.br = s.br ∧ t.fiu = s.fiu ∧ t.scu = s.scu ∧ t.pt = s.pt
    ∧ (s.fmc.mode = .normal → t.fmc = { s.fmc with mode := .fire .heard o }
        ∧ t.lc.notices = [] ∧ t.lc.counters = s.lc.counters
        ∧ (∀ g, t.outputs.lights.get g = 1000) ∧ (∀ k, t.outputs.stages.get k = false)
        ∧ (∀ k, t.outputs.curtains.get k = false)
        ∧ t.ssl.events = (if s.ssl.events.length < 8 then s.ssl.events else s.ssl.events.tail)
          ++ [⟨.fireEnter, o.getD 0, s.scu.minute⟩])
    ∧ (s.fmc.inForce = true → t = { s with fmc := t.fmc, lc := t.lc } ∧ s.lc.afterFrame t.lc)
    ∧ (s.fmc.mode = .fire .heard none → t.fmc = { s.fmc with mode := .fire .heard o })
    ∧ (∀ m, s.fmc.mode = .fire .heard (some m) → t.fmc = s.fmc)
    ∧ (∀ m, s.fmc.mode = .fire .own m → t.fmc = s.fmc)

/-- An INQUIRY to this station in RUN posts a REPORT with the identity, the counters, the number of records,
the mark and the oldest four records, by the event, sensor and amendment codes of Section 11.3, which joins
the store as the newest where its bytes and its place are free, and is dropped and counted otherwise; with a
REPORT pending, before RUN or to another target it refreshes the panel's entry alone (R54, R55, R75, R175,
R176). That the row is the moment of the frame's acceptance is the model's choice (log 10), and so are the
posting moment, the latest one brought, and the store as a timed command leaves it (logs 9, 42). -/
def Obligations.InquiryIsAnsweredByAReport : Prop :=
  (∀ k : EventKind, k.code = match k with
    | .imageFallback => 1 | .numberClash => 2 | .sensorFault => 3 | .sensorRestored => 4
    | .tempBlind => 5 | .doorLongOpen => 6 | .fireEnter => 7 | .fireExit => 8
    | .calendarMismatch => 9 | .amendmentReplaced => 10)
  ∧ (∀ k : Sensor, k.code = match k with
    | .tempA => 1 | .tempB => 2 | .outdoor => 3 | .exhaust => 4 | .daylight => 5)
  ∧ (∀ a : Amendment, a.code = match a with
    | .hold _ _ _ _ => 1 | .advance _ _ => 2 | .close _ _ => 3 | .lightForce _ _ _ => 4)
  ∧ ∀ (s : State) (c : Configuration) (p target : Byte) (now : Nat), s.cfg = some c →
    s.hears p.toNat → isPanelNumber p.toNat = true →
    ∃ t, exec (.inquiry p target now) s = .next t
    ∧ t = { s with ssl := { s.ssl with report := t.ssl.report }, lc := t.lc, pt := t.pt }
    ∧ (slot? s.pt.panels p.toNat = none → t.pt = s.pt)
    ∧ (s.ssl.startup.takesFrames = true → slot? s.pt.panels p.toNat ≠ none →
        s.pt.refreshed t.pt p)
    ∧ (s.ssl.startup ≠ .run ∨ target.toNat ≠ s.ssl.own
          ∨ (s.lc.advance now).reportPending = true →
        t.ssl = s.ssl ∧ t.lc.notices = (s.lc.advance now).notices)
    ∧ (∀ (l : Lc) (body : List Byte), l = s.lc.advance now → s.ssl.startup = .run →
        target.toNat = s.ssl.own → l.reportPending = false →
        body = [67, 1] ++ halfBytes (toHalf c.version) ++ halfBytes (toHalf c.signature)
          ++ ([l.counters.checkFail, l.counters.frameTimeout, l.counters.unknownKind,
              l.counters.noticeDrop, l.counters.noticeStale, l.counters.statusLate,
              l.counters.lineFault, l.counters.clashCount].flatMap fun k => halfBytes (toHalf k))
          ++ [toByte s.ssl.events.length, if s.ssl.overflow then 1 else 0]
          ++ ((s.ssl.events.take 4).flatMap fun e =>
              [toByte e.kind.code, toByte e.detail] ++ halfBytes (toHalf e.minute)) →
        (l.sharedBytes + (body.length + 5) ≤ 223 → l.sharedFrames < 7 →
          t.lc.notices = l.notices ++ [⟨.report, body, max s.lc.clock now, ⟨0, false⟩⟩]
          ∧ t.lc.counters = l.counters
          ∧ t.ssl.report = ⟨min 4 s.ssl.events.length, false⟩)
        ∧ (223 < l.sharedBytes + (body.length + 5) ∨ 7 ≤ l.sharedFrames →
          t.lc.notices = l.notices ∧ t.ssl = s.ssl
          ∧ t.lc.counters = { l.counters with
              noticeDrop := min 65535 (l.counters.noticeDrop + 1) }))

/-! ### Invariants -/

/-- The reset state is safe in every sense, its outputs in range, no pair of a notice listed twice and the
rotation order whole. -/
def Obligations.ResetStateIsSafe : Prop :=
  State.reset.lc.storeSafe ∧ State.reset.fireSafe ∧ State.reset.startSafe ∧ State.reset.inRange
    ∧ State.reset.peersSafe ∧ State.reset.stagesSafe ∧ State.reset.outputsInRange
    ∧ State.reset.recentSafe ∧ State.reset.hsu.rotates

/-- Every step keeps the transmit store within its 223 shared bytes, 7 frames and one STATUS (R54). -/
def Obligations.EveryStepKeepsTheStoreWithinItsBounds : Prop :=
  ∀ s t : State, s.lc.storeSafe → step s = .next t → t.lc.storeSafe

/-- Every step keeps the outputs at their fire values while fire mode is in force (R97, R122, R133, R141,
R157, R158). -/
def Obligations.EveryStepKeepsTheFireValues : Prop :=
  ∀ s t : State, s.fireSafe → step s = .next t → t.fireSafe

/-- Every step keeps LOAD and STRAP_FAULT silent, frames out of transmission before JOIN and STATUS out
of its place before RUN (R67, R165, R170, R177). -/
def Obligations.EveryStepKeepsTheStartUpRules : Prop :=
  ∀ s t : State, s.startSafe → step s = .next t → t.startSafe

/-- Every step keeps the time, the rank, the counters and the lists within their ranges (R23, R24, R28, R66,
R101, R104, R165, R175); the light levels, the fan speed and the damper in theirs, with those of the adopted
configuration and of the LIGHT_FORCE records (R96, R149, R154, R171); and the recent-notice list without a
pair twice, the own pairs in it those raised last (R101, R104). -/
def Obligations.EveryStepKeepsTheRanges : Prop :=
  (∀ s t : State, s.inRange → step s = .next t → t.inRange)
  ∧ (∀ s t : State, s.outputsInRange → step s = .next t → t.outputsInRange)
  ∧ ∀ s t : State, s.recentSafe → step s = .next t → t.recentSafe

/-- Every step keeps the Peer Table in ascending order, of bay stations and panels only, without the own
number (R51, R69). -/
def Obligations.EveryStepKeepsThePeerTable : Prop :=
  ∀ s t : State, s.peersSafe → step s = .next t → t.peersSafe

/-- Every step keeps the stages on within the allowed count, that within floor(grant × N / G), and the
on-list the list of the ON stages (R134, R135, R136); and the rotation order every stage's number once
(R136, R140). -/
def Obligations.EveryStepKeepsTheStages : Prop :=
  (∀ s t : State, s.stagesSafe → step s = .next t → t.stagesSafe)
  ∧ ∀ s t : State, s.hsu.rotates → step s = .next t → t.hsu.rotates
end

