-- ==== Sys2Proof/Laws/Calendar.lean ====
section
/-! SUPPORT. What an evaluation of the operating phase does with the amendment list, the phase and the latch,
said once for every command that ends in one; and the rotation bump it hands the HSU. -/

namespace Sys2Proof.Machine

/-! ### The amendment list (R29, R30, R34) -/

/-- An evaluation leaves a standing record as it is. -/
theorem Amendment.broughtUp_of_stands {cal : List CalEntry} {t : Nat} {a : Amendment}
    (h : a.stands cal t) : a.broughtUp cal t = some a := by
  cases a with
  | hold o k d st =>
    cases st with
    | waiting => simp [Amendment.broughtUp, h.1, h.1 ▸ h.2]
    | holding => simp [Amendment.broughtUp, h.1, h.2]
  | advance o k => simp [Amendment.broughtUp, show baseEntry cal t = entryBefore cal k from h]
  | close o r => rfl
  | lightForce o r v => rfl

/-- An evaluation leaves a list of standing records as it is. -/
theorem broughtUp_list_of_stands {cal : List CalEntry} {t : Nat} {l : List Amendment}
    (h : ∀ a ∈ l, a.stands cal t) : l.filterMap (Amendment.broughtUp cal t) = l := by
  induction l with
  | nil => rfl
  | cons a l ih =>
    rw [List.filterMap_cons, Amendment.broughtUp_of_stands (h a List.mem_cons_self)]
    simp [ih fun x hx => h x (List.mem_cons_of_mem a hx)]

/-- A record an evaluation keeps is of the kind it was. -/
theorem Amendment.isTimed_of_broughtUp {cal : List CalEntry} {t : Nat} {a b : Amendment}
    (h : a.broughtUp cal t = some b) : b.isTimed = a.isTimed := by
  cases a with
  | hold o k d st =>
    cases st <;> simp only [Amendment.broughtUp] at h <;> (repeat' split at h) <;> cases h <;> rfl
  | advance o k =>
    simp only [Amendment.broughtUp] at h
    split at h <;> cases h
    rfl
  | close o r => cases h; rfl
  | lightForce o r v => cases h; rfl

/-! ### The phase and the latch (R34, R35) -/

/-- An evaluation between minute boundaries takes the phase and the latch from its own list and the latch
before, and sets no latch. -/
theorem Scu.evaluated_running (u : Scu) (c : Configuration) (br : BayRecord) :
    let v := u.evaluated c br false
    v = { u with
      amendments := u.amendments.filterMap (Amendment.broughtUp c.calendar u.minute)
      phase := (operatingPhase v.bayClosed u.valid
        (scheduledPhase c.calendar u.minute v.amendments) u.latch).1
      latch := (operatingPhase v.bayClosed u.valid
        (scheduledPhase c.calendar u.minute v.amendments) u.latch).2 } := by
  simp [Scu.evaluated, Scu.bayClosed]

/-! ### The rotation order (R136, R140) -/

/-- A bump moves a place and loses none. -/
theorem Hsu.bump_rotation_perm (h : Hsu) : h.bump.rotation.Perm h.rotation := by
  unfold Hsu.bump
  split
  · simp_all
  · simp_all [List.perm_append_singleton]

@[simp] theorem Hsu.bump_stages (h : Hsu) : h.bump.stages = h.stages := by
  unfold Hsu.bump
  split <;> rfl

end Sys2Proof.Machine
end

