-- ==== Sys2Proof/Laws/Lanes.lean ====
section
/-! SUPPORT. The small lemmas of rows of like things, saturating counters and tables by number. -/

namespace Sys2Proof

@[simp] theorem Six.get_ofFn {α : Type} (f : Fin 6 → α) (i : Fin 6) : (Six.ofFn f).get i = f i := by
  match i with
  | 0 | 1 | 2 | 3 | 4 | 5 => rfl

@[simp] theorem Eight.get_ofFn {α : Type} (f : Fin 8 → α) (i : Fin 8) :
    (Eight.ofFn f).get i = f i := by
  match i with
  | 0 | 1 | 2 | 3 | 4 | 5 | 6 | 7 => rfl

@[simp] theorem PerSensor.get_ofFn {α : Type} (f : Sensor → α) (k : Sensor) :
    (PerSensor.ofFn f).get k = f k := by
  cases k <;> rfl

theorem satAdd_le (n k : Nat) : satAdd n k ≤ 65535 := Nat.min_le_left _ _

theorem satAdd_of_le {n k : Nat} (h : n + k ≤ 65535) : satAdd n k = n + k := Nat.min_eq_right h

theorem le_satAdd {n : Nat} (k : Nat) (h : n ≤ 65535) : n ≤ satAdd n k := by
  unfold satAdd; omega

variable {α : Type}

/-- A slot just written reads as written. -/
@[simp] theorem slot?_setSlot_same (n : Nat) (v : α) (l : List (Nat × α)) :
    slot? (setSlot n v l) n = some v := by
  induction l with
  | nil => simp [setSlot, slot?]
  | cons e rest ih =>
    obtain ⟨k, w⟩ := e
    by_cases h : n < k
    · simp [setSlot, slot?, h]
    · by_cases h' : n = k
      · simp [setSlot, slot?, h']
      · have h'' : k ≠ n := fun e => h' e.symm
        simp [setSlot, slot?, h, h', h'', ih]

/-- Every other slot reads as before. -/
theorem slot?_setSlot_other {n m : Nat} (v : α) (l : List (Nat × α)) (h : m ≠ n) :
    slot? (setSlot n v l) m = slot? l m := by
  induction l with
  | nil => simp [setSlot, slot?, h.symm]
  | cons e rest ih =>
    obtain ⟨k, w⟩ := e
    by_cases h1 : n < k
    · simp [setSlot, slot?, h1, h.symm]
    · by_cases h2 : n = k
      · subst h2; simp [setSlot, slot?, h.symm]
      · simp [setSlot, slot?, h1, h2, ih]

/-- The entries of a written table are the written one and old ones. -/
theorem mem_setSlot {n : Nat} {v : α} {l : List (Nat × α)} {e : Nat × α}
    (h : e ∈ setSlot n v l) : e = (n, v) ∨ e ∈ l := by
  induction l with
  | nil => simp_all [setSlot]
  | cons d rest ih =>
    obtain ⟨k, w⟩ := d
    simp only [setSlot] at h
    split at h
    · simpa using h
    · split at h
      · simp only [List.mem_cons] at h ⊢
        tauto
      · simp only [List.mem_cons] at h ⊢
        rcases h with h | h
        · exact .inr (.inl h)
        · rcases ih h with h | h <;> tauto

/-- A write keeps a table in strictly ascending order of number (R69). -/
theorem setSlot_pairwise (n : Nat) (v : α) {l : List (Nat × α)}
    (h : (l.map Prod.fst).Pairwise (· < ·)) : ((setSlot n v l).map Prod.fst).Pairwise (· < ·) := by
  induction l with
  | nil => simp [setSlot]
  | cons d rest ih =>
    obtain ⟨k, w⟩ := d
    simp only [List.map_cons, List.pairwise_cons] at h
    simp only [setSlot]
    split
    · rename_i hlt
      simp only [List.map_cons, List.pairwise_cons]
      refine ⟨?_, h⟩
      intro a ha
      rcases List.mem_cons.1 ha with rfl | ha
      · exact hlt
      · exact hlt.trans (h.1 a ha)
    · rename_i hge
      split
      · rename_i heq
        subst heq
        simpa using h
      · rename_i hne
        simp only [List.map_cons, List.pairwise_cons]
        refine ⟨?_, ih h.2⟩
        intro a ha
        obtain ⟨e, he, rfl⟩ := List.mem_map.1 ha
        rcases mem_setSlot he with rfl | he
        · show k < n
          omega
        · exact h.1 _ (List.mem_map_of_mem he)

end Sys2Proof
end

