-- ==== Sys2Proof/Laws/State.lean ====
section
/-! SUPPORT. One lemma for each field that an operation on the whole station leaves alone or sets, true by
unfolding it once, so that later proofs do not unfold record updates. -/

namespace Sys2Proof.Machine

variable (s : State)

/-! ### State.record -/

@[simp] theorem State.record_held (k : EventKind) (d : Nat) : (s.record k d).held = s.held := rfl
@[simp] theorem State.record_pins (k : EventKind) (d : Nat) : (s.record k d).pins = s.pins := rfl
@[simp] theorem State.record_cfg (k : EventKind) (d : Nat) : (s.record k d).cfg = s.cfg := rfl
@[simp] theorem State.record_br (k : EventKind) (d : Nat) : (s.record k d).br = s.br := rfl
@[simp] theorem State.record_fiu (k : EventKind) (d : Nat) : (s.record k d).fiu = s.fiu := rfl
@[simp] theorem State.record_scu (k : EventKind) (d : Nat) : (s.record k d).scu = s.scu := rfl
@[simp] theorem State.record_lc (k : EventKind) (d : Nat) : (s.record k d).lc = s.lc := rfl
@[simp] theorem State.record_pt (k : EventKind) (d : Nat) : (s.record k d).pt = s.pt := rfl
@[simp] theorem State.record_ltc (k : EventKind) (d : Nat) : (s.record k d).ltc = s.ltc := rfl
@[simp] theorem State.record_hru (k : EventKind) (d : Nat) : (s.record k d).hru = s.hru := rfl
@[simp] theorem State.record_hsu (k : EventKind) (d : Nat) : (s.record k d).hsu = s.hsu := rfl
@[simp] theorem State.record_abu (k : EventKind) (d : Nat) : (s.record k d).abu = s.abu := rfl
@[simp] theorem State.record_fmc (k : EventKind) (d : Nat) : (s.record k d).fmc = s.fmc := rfl
@[simp] theorem State.record_pending (k : EventKind) (d : Nat) :
    (s.record k d).pending = s.pending := rfl
@[simp] theorem State.record_ssl (k : EventKind) (d : Nat) :
    (s.record k d).ssl = s.ssl.writeEvent ⟨k, d, s.scu.minute⟩ := rfl

/-! ### State.atMoment -/

@[simp] theorem State.atMoment_held (now : Nat) : (s.atMoment now).held = s.held := rfl
@[simp] theorem State.atMoment_pins (now : Nat) : (s.atMoment now).pins = s.pins := rfl
@[simp] theorem State.atMoment_ssl (now : Nat) : (s.atMoment now).ssl = s.ssl := rfl
@[simp] theorem State.atMoment_cfg (now : Nat) : (s.atMoment now).cfg = s.cfg := rfl
@[simp] theorem State.atMoment_br (now : Nat) : (s.atMoment now).br = s.br := rfl
@[simp] theorem State.atMoment_fiu (now : Nat) : (s.atMoment now).fiu = s.fiu := rfl
@[simp] theorem State.atMoment_scu (now : Nat) : (s.atMoment now).scu = s.scu := rfl
@[simp] theorem State.atMoment_pt (now : Nat) : (s.atMoment now).pt = s.pt := rfl
@[simp] theorem State.atMoment_ltc (now : Nat) : (s.atMoment now).ltc = s.ltc := rfl
@[simp] theorem State.atMoment_hru (now : Nat) : (s.atMoment now).hru = s.hru := rfl
@[simp] theorem State.atMoment_hsu (now : Nat) : (s.atMoment now).hsu = s.hsu := rfl
@[simp] theorem State.atMoment_abu (now : Nat) : (s.atMoment now).abu = s.abu := rfl
@[simp] theorem State.atMoment_fmc (now : Nat) : (s.atMoment now).fmc = s.fmc := rfl
@[simp] theorem State.atMoment_pending (now : Nat) : (s.atMoment now).pending = s.pending := rfl
@[simp] theorem State.atMoment_lc (now : Nat) : (s.atMoment now).lc = s.lc.advance now := rfl

/-! ### State.withScu -/

@[simp] theorem State.withScu_held (u : Scu) : (s.withScu u).held = s.held := rfl
@[simp] theorem State.withScu_pins (u : Scu) : (s.withScu u).pins = s.pins := rfl
@[simp] theorem State.withScu_ssl (u : Scu) : (s.withScu u).ssl = s.ssl := rfl
@[simp] theorem State.withScu_cfg (u : Scu) : (s.withScu u).cfg = s.cfg := rfl
@[simp] theorem State.withScu_br (u : Scu) : (s.withScu u).br = s.br := rfl
@[simp] theorem State.withScu_fiu (u : Scu) : (s.withScu u).fiu = s.fiu := rfl
@[simp] theorem State.withScu_lc (u : Scu) : (s.withScu u).lc = s.lc := rfl
@[simp] theorem State.withScu_pt (u : Scu) : (s.withScu u).pt = s.pt := rfl
@[simp] theorem State.withScu_ltc (u : Scu) : (s.withScu u).ltc = s.ltc := rfl
@[simp] theorem State.withScu_hru (u : Scu) : (s.withScu u).hru = s.hru := rfl
@[simp] theorem State.withScu_abu (u : Scu) : (s.withScu u).abu = s.abu := rfl
@[simp] theorem State.withScu_fmc (u : Scu) : (s.withScu u).fmc = s.fmc := rfl
@[simp] theorem State.withScu_pending (u : Scu) : (s.withScu u).pending = s.pending := rfl
@[simp] theorem State.withScu_scu (u : Scu) : (s.withScu u).scu = u := rfl

/-! ### State.evaluate -/

@[simp] theorem State.evaluate_held (b : Bool) : (s.evaluate b).held = s.held := rfl
@[simp] theorem State.evaluate_pins (b : Bool) : (s.evaluate b).pins = s.pins := rfl
@[simp] theorem State.evaluate_ssl (b : Bool) : (s.evaluate b).ssl = s.ssl := rfl
@[simp] theorem State.evaluate_cfg (b : Bool) : (s.evaluate b).cfg = s.cfg := rfl
@[simp] theorem State.evaluate_br (b : Bool) : (s.evaluate b).br = s.br := rfl
@[simp] theorem State.evaluate_fiu (b : Bool) : (s.evaluate b).fiu = s.fiu := rfl
@[simp] theorem State.evaluate_lc (b : Bool) : (s.evaluate b).lc = s.lc := rfl
@[simp] theorem State.evaluate_pt (b : Bool) : (s.evaluate b).pt = s.pt := rfl
@[simp] theorem State.evaluate_ltc (b : Bool) : (s.evaluate b).ltc = s.ltc := rfl
@[simp] theorem State.evaluate_hru (b : Bool) : (s.evaluate b).hru = s.hru := rfl
@[simp] theorem State.evaluate_abu (b : Bool) : (s.evaluate b).abu = s.abu := rfl
@[simp] theorem State.evaluate_fmc (b : Bool) : (s.evaluate b).fmc = s.fmc := rfl
@[simp] theorem State.evaluate_pending (b : Bool) : (s.evaluate b).pending = s.pending := rfl

/-! ### State.noteNotice -/

@[simp] theorem State.noteNotice_held (a b : Nat) : (s.noteNotice a b).held = s.held := rfl
@[simp] theorem State.noteNotice_pins (a b : Nat) : (s.noteNotice a b).pins = s.pins := rfl
@[simp] theorem State.noteNotice_ssl (a b : Nat) : (s.noteNotice a b).ssl = s.ssl := rfl
@[simp] theorem State.noteNotice_cfg (a b : Nat) : (s.noteNotice a b).cfg = s.cfg := rfl
@[simp] theorem State.noteNotice_br (a b : Nat) : (s.noteNotice a b).br = s.br := rfl
@[simp] theorem State.noteNotice_fiu (a b : Nat) : (s.noteNotice a b).fiu = s.fiu := rfl
@[simp] theorem State.noteNotice_scu (a b : Nat) : (s.noteNotice a b).scu = s.scu := rfl
@[simp] theorem State.noteNotice_lc (a b : Nat) : (s.noteNotice a b).lc = s.lc := rfl
@[simp] theorem State.noteNotice_pt (a b : Nat) : (s.noteNotice a b).pt = s.pt := rfl
@[simp] theorem State.noteNotice_hru (a b : Nat) : (s.noteNotice a b).hru = s.hru := rfl
@[simp] theorem State.noteNotice_hsu (a b : Nat) : (s.noteNotice a b).hsu = s.hsu := rfl
@[simp] theorem State.noteNotice_abu (a b : Nat) : (s.noteNotice a b).abu = s.abu := rfl
@[simp] theorem State.noteNotice_fmc (a b : Nat) : (s.noteNotice a b).fmc = s.fmc := rfl
@[simp] theorem State.noteNotice_pending (a b : Nat) : (s.noteNotice a b).pending = s.pending := rfl
@[simp] theorem State.noteNotice_ltc (a b : Nat) :
    (s.noteNotice a b).ltc = { s.ltc with recent := recentAdd (a, b) s.ltc.recent } := rfl

/-! ### State.startPrelight -/

@[simp] theorem State.startPrelight_held (c : Configuration) :
    (s.startPrelight c).held = s.held := rfl
@[simp] theorem State.startPrelight_pins (c : Configuration) :
    (s.startPrelight c).pins = s.pins := rfl
@[simp] theorem State.startPrelight_ssl (c : Configuration) : (s.startPrelight c).ssl = s.ssl := rfl
@[simp] theorem State.startPrelight_cfg (c : Configuration) : (s.startPrelight c).cfg = s.cfg := rfl
@[simp] theorem State.startPrelight_br (c : Configuration) : (s.startPrelight c).br = s.br := rfl
@[simp] theorem State.startPrelight_fiu (c : Configuration) : (s.startPrelight c).fiu = s.fiu := rfl
@[simp] theorem State.startPrelight_scu (c : Configuration) : (s.startPrelight c).scu = s.scu := rfl
@[simp] theorem State.startPrelight_lc (c : Configuration) : (s.startPrelight c).lc = s.lc := rfl
@[simp] theorem State.startPrelight_pt (c : Configuration) : (s.startPrelight c).pt = s.pt := rfl
@[simp] theorem State.startPrelight_hru (c : Configuration) : (s.startPrelight c).hru = s.hru := rfl
@[simp] theorem State.startPrelight_hsu (c : Configuration) : (s.startPrelight c).hsu = s.hsu := rfl
@[simp] theorem State.startPrelight_abu (c : Configuration) : (s.startPrelight c).abu = s.abu := rfl
@[simp] theorem State.startPrelight_fmc (c : Configuration) : (s.startPrelight c).fmc = s.fmc := rfl
@[simp] theorem State.startPrelight_pending (c : Configuration) :
    (s.startPrelight c).pending = s.pending := rfl
@[simp] theorem State.startPrelight_ltc (c : Configuration) :
    (s.startPrelight c).ltc = { s.ltc with prelight := .active c.site.prelightHold } := rfl

/-! ### State.postTravel -/

@[simp] theorem State.postTravel_held (b : TravelBody) : (s.postTravel b).held = s.held := rfl
@[simp] theorem State.postTravel_pins (b : TravelBody) : (s.postTravel b).pins = s.pins := rfl
@[simp] theorem State.postTravel_ssl (b : TravelBody) : (s.postTravel b).ssl = s.ssl := rfl
@[simp] theorem State.postTravel_cfg (b : TravelBody) : (s.postTravel b).cfg = s.cfg := rfl
@[simp] theorem State.postTravel_br (b : TravelBody) : (s.postTravel b).br = s.br := rfl
@[simp] theorem State.postTravel_fiu (b : TravelBody) : (s.postTravel b).fiu = s.fiu := rfl
@[simp] theorem State.postTravel_scu (b : TravelBody) : (s.postTravel b).scu = s.scu := rfl
@[simp] theorem State.postTravel_pt (b : TravelBody) : (s.postTravel b).pt = s.pt := rfl
@[simp] theorem State.postTravel_ltc (b : TravelBody) : (s.postTravel b).ltc = s.ltc := rfl
@[simp] theorem State.postTravel_hru (b : TravelBody) : (s.postTravel b).hru = s.hru := rfl
@[simp] theorem State.postTravel_hsu (b : TravelBody) : (s.postTravel b).hsu = s.hsu := rfl
@[simp] theorem State.postTravel_abu (b : TravelBody) : (s.postTravel b).abu = s.abu := rfl
@[simp] theorem State.postTravel_fmc (b : TravelBody) : (s.postTravel b).fmc = s.fmc := rfl
@[simp] theorem State.postTravel_pending (b : TravelBody) :
    (s.postTravel b).pending = s.pending := rfl
@[simp] theorem State.postTravel_lc (b : TravelBody) :
    (s.postTravel b).lc = s.lc.postNotice .travel b.bytes := rfl

/-! ### State.raiseNotice -/

@[simp] theorem State.raiseNotice_held (c : Configuration) (e : Edge) :
    (s.raiseNotice c e).held = s.held := rfl
@[simp] theorem State.raiseNotice_pins (c : Configuration) (e : Edge) :
    (s.raiseNotice c e).pins = s.pins := rfl
@[simp] theorem State.raiseNotice_ssl (c : Configuration) (e : Edge) :
    (s.raiseNotice c e).ssl = s.ssl := rfl
@[simp] theorem State.raiseNotice_cfg (c : Configuration) (e : Edge) :
    (s.raiseNotice c e).cfg = s.cfg := rfl
@[simp] theorem State.raiseNotice_br (c : Configuration) (e : Edge) :
    (s.raiseNotice c e).br = s.br := rfl
@[simp] theorem State.raiseNotice_fiu (c : Configuration) (e : Edge) :
    (s.raiseNotice c e).fiu = s.fiu := rfl
@[simp] theorem State.raiseNotice_scu (c : Configuration) (e : Edge) :
    (s.raiseNotice c e).scu = s.scu := rfl
@[simp] theorem State.raiseNotice_pt (c : Configuration) (e : Edge) :
    (s.raiseNotice c e).pt = s.pt := rfl
@[simp] theorem State.raiseNotice_hru (c : Configuration) (e : Edge) :
    (s.raiseNotice c e).hru = s.hru := rfl
@[simp] theorem State.raiseNotice_hsu (c : Configuration) (e : Edge) :
    (s.raiseNotice c e).hsu = s.hsu := rfl
@[simp] theorem State.raiseNotice_abu (c : Configuration) (e : Edge) :
    (s.raiseNotice c e).abu = s.abu := rfl
@[simp] theorem State.raiseNotice_fmc (c : Configuration) (e : Edge) :
    (s.raiseNotice c e).fmc = s.fmc := rfl
@[simp] theorem State.raiseNotice_pending (c : Configuration) (e : Edge) :
    (s.raiseNotice c e).pending = s.pending := rfl

/-! ### State.makeSend -/

@[simp] theorem State.makeSend_held : s.makeSend.held = s.held := rfl
@[simp] theorem State.makeSend_pins : s.makeSend.pins = s.pins := rfl
@[simp] theorem State.makeSend_ssl : s.makeSend.ssl = s.ssl := rfl
@[simp] theorem State.makeSend_cfg : s.makeSend.cfg = s.cfg := rfl
@[simp] theorem State.makeSend_br : s.makeSend.br = s.br := rfl
@[simp] theorem State.makeSend_fiu : s.makeSend.fiu = s.fiu := rfl
@[simp] theorem State.makeSend_scu : s.makeSend.scu = s.scu := rfl
@[simp] theorem State.makeSend_pt : s.makeSend.pt = s.pt := rfl
@[simp] theorem State.makeSend_ltc : s.makeSend.ltc = s.ltc := rfl
@[simp] theorem State.makeSend_hru : s.makeSend.hru = s.hru := rfl
@[simp] theorem State.makeSend_hsu : s.makeSend.hsu = s.hsu := rfl
@[simp] theorem State.makeSend_abu : s.makeSend.abu = s.abu := rfl
@[simp] theorem State.makeSend_pending : s.makeSend.pending = s.pending := rfl
@[simp] theorem State.makeSend_lc :
    s.makeSend.lc = s.lc.orderHold.postAlarm ⟨toByte s.ssl.own, 1, toByte s.fmc.repeatCount⟩ := rfl
@[simp] theorem State.makeSend_fmc :
    s.makeSend.fmc =
      { s.fmc with repeatCount := min 255 (s.fmc.repeatCount + 1), timer := some 30 } := rfl

/-! ### State.handFireEntry -/

@[simp] theorem State.handFireEntry_held : s.handFireEntry.held = s.held := rfl
@[simp] theorem State.handFireEntry_pins : s.handFireEntry.pins = s.pins := rfl
@[simp] theorem State.handFireEntry_ssl : s.handFireEntry.ssl = s.ssl := rfl
@[simp] theorem State.handFireEntry_cfg : s.handFireEntry.cfg = s.cfg := rfl
@[simp] theorem State.handFireEntry_br : s.handFireEntry.br = s.br := rfl
@[simp] theorem State.handFireEntry_fiu : s.handFireEntry.fiu = s.fiu := rfl
@[simp] theorem State.handFireEntry_scu : s.handFireEntry.scu = s.scu := rfl
@[simp] theorem State.handFireEntry_lc : s.handFireEntry.lc = s.lc := rfl
@[simp] theorem State.handFireEntry_pt : s.handFireEntry.pt = s.pt := rfl
@[simp] theorem State.handFireEntry_fmc : s.handFireEntry.fmc = s.fmc := rfl
@[simp] theorem State.handFireEntry_pending : s.handFireEntry.pending = s.pending := rfl
@[simp] theorem State.handFireEntry_ltc : s.handFireEntry.ltc = s.ltc.fireEnter := rfl
@[simp] theorem State.handFireEntry_hru : s.handFireEntry.hru = s.hru.fireEnter := rfl
@[simp] theorem State.handFireEntry_hsu :
    s.handFireEntry.hsu = s.hsu.allOff s.bayOrFallback.minOff := rfl
@[simp] theorem State.handFireEntry_abu :
    s.handFireEntry.abu = s.abu.fireEnter s.bayOrFallback := rfl

/-! ### State.enterFire -/

@[simp] theorem State.enterFire_held (c : Cause) (o : Option Nat) :
    (s.enterFire c o).held = s.held := rfl
@[simp] theorem State.enterFire_pins (c : Cause) (o : Option Nat) :
    (s.enterFire c o).pins = s.pins := rfl
@[simp] theorem State.enterFire_cfg (c : Cause) (o : Option Nat) :
    (s.enterFire c o).cfg = s.cfg := rfl
@[simp] theorem State.enterFire_br (c : Cause) (o : Option Nat) : (s.enterFire c o).br = s.br := rfl
@[simp] theorem State.enterFire_fiu (c : Cause) (o : Option Nat) :
    (s.enterFire c o).fiu = s.fiu := rfl
@[simp] theorem State.enterFire_scu (c : Cause) (o : Option Nat) :
    (s.enterFire c o).scu = s.scu := rfl
@[simp] theorem State.enterFire_pt (c : Cause) (o : Option Nat) : (s.enterFire c o).pt = s.pt := rfl
@[simp] theorem State.enterFire_pending (c : Cause) (o : Option Nat) :
    (s.enterFire c o).pending = s.pending := rfl
@[simp] theorem State.enterFire_ltc (c : Cause) (o : Option Nat) :
    (s.enterFire c o).ltc = s.ltc.fireEnter := rfl
@[simp] theorem State.enterFire_hru (c : Cause) (o : Option Nat) :
    (s.enterFire c o).hru = s.hru.fireEnter := rfl
@[simp] theorem State.enterFire_hsu (c : Cause) (o : Option Nat) :
    (s.enterFire c o).hsu = s.hsu.allOff s.bayOrFallback.minOff := rfl
@[simp] theorem State.enterFire_abu (c : Cause) (o : Option Nat) :
    (s.enterFire c o).abu = s.abu.fireEnter s.bayOrFallback := rfl
@[simp] theorem State.enterFire_lc (c : Cause) (o : Option Nat) :
    (s.enterFire c o).lc = s.lc.flush := rfl
@[simp] theorem State.enterFire_fmc (c : Cause) (o : Option Nat) :
    (s.enterFire c o).fmc = { s.fmc with mode := .fire c o } := rfl
@[simp] theorem State.enterFire_ssl (c : Cause) (o : Option Nat) :
    (s.enterFire c o).ssl = s.ssl.writeEvent ⟨.fireEnter, o.getD 0, s.scu.minute⟩ := rfl

/-! ### State.exitFire -/

@[simp] theorem State.exitFire_held (o : Option Nat) : (s.exitFire o).held = s.held := rfl
@[simp] theorem State.exitFire_pins (o : Option Nat) : (s.exitFire o).pins = s.pins := rfl
@[simp] theorem State.exitFire_cfg (o : Option Nat) : (s.exitFire o).cfg = s.cfg := rfl
@[simp] theorem State.exitFire_br (o : Option Nat) : (s.exitFire o).br = s.br := rfl
@[simp] theorem State.exitFire_fiu (o : Option Nat) : (s.exitFire o).fiu = s.fiu := rfl
@[simp] theorem State.exitFire_scu (o : Option Nat) : (s.exitFire o).scu = s.scu := rfl
@[simp] theorem State.exitFire_pt (o : Option Nat) : (s.exitFire o).pt = s.pt := rfl
@[simp] theorem State.exitFire_ltc (o : Option Nat) : (s.exitFire o).ltc = s.ltc := rfl
@[simp] theorem State.exitFire_hru (o : Option Nat) : (s.exitFire o).hru = s.hru := rfl
@[simp] theorem State.exitFire_hsu (o : Option Nat) : (s.exitFire o).hsu = s.hsu := rfl
@[simp] theorem State.exitFire_abu (o : Option Nat) : (s.exitFire o).abu = s.abu := rfl
@[simp] theorem State.exitFire_pending (o : Option Nat) : (s.exitFire o).pending = s.pending := rfl
@[simp] theorem State.exitFire_fmc (o : Option Nat) : (s.exitFire o).fmc = Fmc.reset := rfl
@[simp] theorem State.exitFire_lc (o : Option Nat) : (s.exitFire o).lc = s.lc.removeAlarm := rfl
@[simp] theorem State.exitFire_ssl (o : Option Nat) :
    (s.exitFire o).ssl = s.ssl.writeEvent ⟨.fireExit, o.getD 0, s.scu.minute⟩ := rfl

/-! ### State.atField -/

@[simp] theorem State.atField_held (x : InputLevels) (now : Nat) :
    (s.atField x now).held = s.held := rfl
@[simp] theorem State.atField_ssl (x : InputLevels) (now : Nat) :
    (s.atField x now).ssl = s.ssl := rfl
@[simp] theorem State.atField_cfg (x : InputLevels) (now : Nat) :
    (s.atField x now).cfg = s.cfg := rfl
@[simp] theorem State.atField_br (x : InputLevels) (now : Nat) : (s.atField x now).br = s.br := rfl
@[simp] theorem State.atField_fiu (x : InputLevels) (now : Nat) :
    (s.atField x now).fiu = s.fiu := rfl
@[simp] theorem State.atField_scu (x : InputLevels) (now : Nat) :
    (s.atField x now).scu = s.scu := rfl
@[simp] theorem State.atField_pt (x : InputLevels) (now : Nat) : (s.atField x now).pt = s.pt := rfl
@[simp] theorem State.atField_ltc (x : InputLevels) (now : Nat) :
    (s.atField x now).ltc = s.ltc := rfl
@[simp] theorem State.atField_hru (x : InputLevels) (now : Nat) :
    (s.atField x now).hru = s.hru := rfl
@[simp] theorem State.atField_hsu (x : InputLevels) (now : Nat) :
    (s.atField x now).hsu = s.hsu := rfl
@[simp] theorem State.atField_abu (x : InputLevels) (now : Nat) :
    (s.atField x now).abu = s.abu := rfl
@[simp] theorem State.atField_fmc (x : InputLevels) (now : Nat) :
    (s.atField x now).fmc = s.fmc := rfl
@[simp] theorem State.atField_pending (x : InputLevels) (now : Nat) :
    (s.atField x now).pending = s.pending := rfl
@[simp] theorem State.atField_pins (x : InputLevels) (now : Nat) :
    (s.atField x now).pins = x := rfl
@[simp] theorem State.atField_lc (x : InputLevels) (now : Nat) :
    (s.atField x now).lc = s.lc.advance now := rfl

/-! ### State.fiuAir -/

@[simp] theorem State.fiuAir_held (c : Configuration) (p : PerSensor SensorSample) :
    (s.fiuAir c p).held = s.held := rfl
@[simp] theorem State.fiuAir_pins (c : Configuration) (p : PerSensor SensorSample) :
    (s.fiuAir c p).pins = s.pins := rfl
@[simp] theorem State.fiuAir_ssl (c : Configuration) (p : PerSensor SensorSample) :
    (s.fiuAir c p).ssl = s.ssl := rfl
@[simp] theorem State.fiuAir_cfg (c : Configuration) (p : PerSensor SensorSample) :
    (s.fiuAir c p).cfg = s.cfg := rfl
@[simp] theorem State.fiuAir_fiu (c : Configuration) (p : PerSensor SensorSample) :
    (s.fiuAir c p).fiu = s.fiu := rfl
@[simp] theorem State.fiuAir_scu (c : Configuration) (p : PerSensor SensorSample) :
    (s.fiuAir c p).scu = s.scu := rfl
@[simp] theorem State.fiuAir_lc (c : Configuration) (p : PerSensor SensorSample) :
    (s.fiuAir c p).lc = s.lc := rfl
@[simp] theorem State.fiuAir_pt (c : Configuration) (p : PerSensor SensorSample) :
    (s.fiuAir c p).pt = s.pt := rfl
@[simp] theorem State.fiuAir_ltc (c : Configuration) (p : PerSensor SensorSample) :
    (s.fiuAir c p).ltc = s.ltc := rfl
@[simp] theorem State.fiuAir_hru (c : Configuration) (p : PerSensor SensorSample) :
    (s.fiuAir c p).hru = s.hru := rfl
@[simp] theorem State.fiuAir_hsu (c : Configuration) (p : PerSensor SensorSample) :
    (s.fiuAir c p).hsu = s.hsu := rfl
@[simp] theorem State.fiuAir_abu (c : Configuration) (p : PerSensor SensorSample) :
    (s.fiuAir c p).abu = s.abu := rfl
@[simp] theorem State.fiuAir_fmc (c : Configuration) (p : PerSensor SensorSample) :
    (s.fiuAir c p).fmc = s.fmc := rfl
@[simp] theorem State.fiuAir_pending (c : Configuration) (p : PerSensor SensorSample) :
    (s.fiuAir c p).pending = s.pending := rfl

/-! ### State.heldReset -/

@[simp] theorem State.heldReset_pins (k : ResetKind) : (s.heldReset k).pins = s.pins := rfl
@[simp] theorem State.heldReset_pending (k : ResetKind) : (s.heldReset k).pending = s.pending := rfl
@[simp] theorem State.heldReset_held (k : ResetKind) : (s.heldReset k).held = some k := rfl
@[simp] theorem State.heldReset_cfg (k : ResetKind) : (s.heldReset k).cfg = none := rfl
@[simp] theorem State.heldReset_pt (k : ResetKind) : (s.heldReset k).pt = ⟨[], []⟩ := rfl
@[simp] theorem State.heldReset_br (k : ResetKind) : (s.heldReset k).br = BayRecord.reset := rfl
@[simp] theorem State.heldReset_fiu (k : ResetKind) : (s.heldReset k).fiu = Fiu.reset := rfl
@[simp] theorem State.heldReset_scu (k : ResetKind) : (s.heldReset k).scu = Scu.reset := rfl
@[simp] theorem State.heldReset_ltc (k : ResetKind) : (s.heldReset k).ltc = Ltc.reset := rfl
@[simp] theorem State.heldReset_hru (k : ResetKind) : (s.heldReset k).hru = Hru.reset := rfl
@[simp] theorem State.heldReset_hsu (k : ResetKind) : (s.heldReset k).hsu = Hsu.reset := rfl
@[simp] theorem State.heldReset_abu (k : ResetKind) : (s.heldReset k).abu = Abu.reset := rfl
@[simp] theorem State.heldReset_fmc (k : ResetKind) : (s.heldReset k).fmc = Fmc.reset := rfl
@[simp] theorem State.heldReset_ssl (k : ResetKind) : (s.heldReset k).ssl = Ssl.reset 0 := rfl
@[simp] theorem State.heldReset_lc (k : ResetKind) :
    (s.heldReset k).lc = { Lc.reset with clock := s.lc.clock } := rfl

/-! ### State.beginLoad -/

@[simp] theorem State.beginLoad_cfg (b : BitVec 6) : (s.beginLoad b).cfg = s.cfg := rfl
@[simp] theorem State.beginLoad_br (b : BitVec 6) : (s.beginLoad b).br = s.br := rfl
@[simp] theorem State.beginLoad_fiu (b : BitVec 6) : (s.beginLoad b).fiu = s.fiu := rfl
@[simp] theorem State.beginLoad_scu (b : BitVec 6) : (s.beginLoad b).scu = s.scu := rfl
@[simp] theorem State.beginLoad_lc (b : BitVec 6) : (s.beginLoad b).lc = s.lc := rfl
@[simp] theorem State.beginLoad_pt (b : BitVec 6) : (s.beginLoad b).pt = s.pt := rfl
@[simp] theorem State.beginLoad_ltc (b : BitVec 6) : (s.beginLoad b).ltc = s.ltc := rfl
@[simp] theorem State.beginLoad_hru (b : BitVec 6) : (s.beginLoad b).hru = s.hru := rfl
@[simp] theorem State.beginLoad_hsu (b : BitVec 6) : (s.beginLoad b).hsu = s.hsu := rfl
@[simp] theorem State.beginLoad_abu (b : BitVec 6) : (s.beginLoad b).abu = s.abu := rfl
@[simp] theorem State.beginLoad_fmc (b : BitVec 6) : (s.beginLoad b).fmc = s.fmc := rfl
@[simp] theorem State.beginLoad_pending (b : BitVec 6) : (s.beginLoad b).pending = s.pending := rfl
@[simp] theorem State.beginLoad_held (b : BitVec 6) : (s.beginLoad b).held = none := rfl
@[simp] theorem State.beginLoad_ssl (b : BitVec 6) :
    (s.beginLoad b).ssl = { s.ssl with own := b.toNat } := rfl

/-! ### State.restart -/

@[simp] theorem State.restart_held : s.restart.held = s.held := rfl
@[simp] theorem State.restart_pins : s.restart.pins = s.pins := rfl
@[simp] theorem State.restart_pending : s.restart.pending = s.pending := rfl
@[simp] theorem State.restart_cfg : s.restart.cfg = none := rfl
@[simp] theorem State.restart_pt : s.restart.pt = ⟨[], []⟩ := rfl
@[simp] theorem State.restart_hru : s.restart.hru = Hru.reset := rfl
@[simp] theorem State.restart_fmc : s.restart.fmc = Fmc.reset := rfl
@[simp] theorem State.restart_ltc :
    s.restart.ltc = { Ltc.reset with sequence := s.ltc.sequence } := rfl
@[simp] theorem State.restart_lc :
    s.restart.lc = { Lc.reset with clock := s.lc.clock, counters := s.lc.counters } := rfl
@[simp] theorem State.restart_hsu : s.restart.hsu = s.hsu.allOff s.bayOrFallback.minOff := rfl
@[simp] theorem State.restart_ssl : s.restart.ssl = s.ssl.restart s.pins.straps.toNat := rfl

/-! ### State.adoptBlocks -/

@[simp] theorem State.adoptBlocks_held (c : Configuration) : (s.adoptBlocks c).held = s.held := rfl
@[simp] theorem State.adoptBlocks_pins (c : Configuration) : (s.adoptBlocks c).pins = s.pins := rfl
@[simp] theorem State.adoptBlocks_ssl (c : Configuration) : (s.adoptBlocks c).ssl = s.ssl := rfl
@[simp] theorem State.adoptBlocks_fiu (c : Configuration) : (s.adoptBlocks c).fiu = s.fiu := rfl
@[simp] theorem State.adoptBlocks_scu (c : Configuration) : (s.adoptBlocks c).scu = s.scu := rfl
@[simp] theorem State.adoptBlocks_lc (c : Configuration) : (s.adoptBlocks c).lc = s.lc := rfl
@[simp] theorem State.adoptBlocks_pt (c : Configuration) : (s.adoptBlocks c).pt = s.pt := rfl
@[simp] theorem State.adoptBlocks_hru (c : Configuration) : (s.adoptBlocks c).hru = s.hru := rfl
@[simp] theorem State.adoptBlocks_fmc (c : Configuration) : (s.adoptBlocks c).fmc = s.fmc := rfl
@[simp] theorem State.adoptBlocks_pending (c : Configuration) :
    (s.adoptBlocks c).pending = s.pending := rfl
@[simp] theorem State.adoptBlocks_cfg (c : Configuration) : (s.adoptBlocks c).cfg = some c := rfl
@[simp] theorem State.adoptBlocks_br (c : Configuration) :
    (s.adoptBlocks c).br = s.br.adopt c.bay := rfl
@[simp] theorem State.adoptBlocks_ltc (c : Configuration) :
    (s.adoptBlocks c).ltc = s.ltc.adopt c.site.startLevel s.fmc.inForce := rfl
@[simp] theorem State.adoptBlocks_hsu (c : Configuration) :
    (s.adoptBlocks c).hsu = s.hsu.adopt c.bay := rfl
@[simp] theorem State.adoptBlocks_abu (c : Configuration) :
    (s.adoptBlocks c).abu = s.abu.adopt c.bay s.fmc.inForce := rfl

/-! ### State.enterRun -/

@[simp] theorem State.enterRun_held : s.enterRun.held = s.held := rfl
@[simp] theorem State.enterRun_pins : s.enterRun.pins = s.pins := rfl
@[simp] theorem State.enterRun_cfg : s.enterRun.cfg = s.cfg := rfl
@[simp] theorem State.enterRun_br : s.enterRun.br = s.br := rfl
@[simp] theorem State.enterRun_fiu : s.enterRun.fiu = s.fiu := rfl
@[simp] theorem State.enterRun_scu : s.enterRun.scu = s.scu := rfl
@[simp] theorem State.enterRun_pt : s.enterRun.pt = s.pt := rfl
@[simp] theorem State.enterRun_ltc : s.enterRun.ltc = s.ltc := rfl
@[simp] theorem State.enterRun_hru : s.enterRun.hru = s.hru := rfl
@[simp] theorem State.enterRun_hsu : s.enterRun.hsu = s.hsu := rfl
@[simp] theorem State.enterRun_abu : s.enterRun.abu = s.abu := rfl
@[simp] theorem State.enterRun_fmc : s.enterRun.fmc = s.fmc := rfl
@[simp] theorem State.enterRun_pending : s.enterRun.pending = s.pending := rfl
@[simp] theorem State.enterRun_ssl :
    s.enterRun.ssl = { s.ssl with startup := .run, ticks := 0 } := rfl
@[simp] theorem State.enterRun_lc :
    s.enterRun.lc = { s.lc.postStatus with intervalCount := 0 } := rfl

/-! ### State.timeStep -/

@[simp] theorem State.timeStep_held (m n : Nat) : (s.timeStep m n).held = s.held := rfl
@[simp] theorem State.timeStep_pins (m n : Nat) : (s.timeStep m n).pins = s.pins := rfl
@[simp] theorem State.timeStep_ssl (m n : Nat) : (s.timeStep m n).ssl = s.ssl := rfl
@[simp] theorem State.timeStep_cfg (m n : Nat) : (s.timeStep m n).cfg = s.cfg := rfl
@[simp] theorem State.timeStep_br (m n : Nat) : (s.timeStep m n).br = s.br := rfl
@[simp] theorem State.timeStep_fiu (m n : Nat) : (s.timeStep m n).fiu = s.fiu := rfl
@[simp] theorem State.timeStep_lc (m n : Nat) : (s.timeStep m n).lc = s.lc := rfl
@[simp] theorem State.timeStep_pt (m n : Nat) : (s.timeStep m n).pt = s.pt := rfl
@[simp] theorem State.timeStep_ltc (m n : Nat) : (s.timeStep m n).ltc = s.ltc := rfl
@[simp] theorem State.timeStep_hru (m n : Nat) : (s.timeStep m n).hru = s.hru := rfl
@[simp] theorem State.timeStep_abu (m n : Nat) : (s.timeStep m n).abu = s.abu := rfl
@[simp] theorem State.timeStep_fmc (m n : Nat) : (s.timeStep m n).fmc = s.fmc := rfl
@[simp] theorem State.timeStep_pending (m n : Nat) : (s.timeStep m n).pending = s.pending := rfl

end Sys2Proof.Machine
end

