-- ==== Sys2Proof/Laws/Ops.lean ====
section
/-! SUPPORT. One lemma for each shared operation that says once what it can do: outcomes, the event list,
the transmit store, alarm holds, ages of notices and the Peer Table. -/

namespace Sys2Proof.Machine

/-! ### Outcomes -/

theorem whenReleased_free {s : State} (f : State → State) (h : s.held = none) :
    whenReleased s f = .next (f s) := by
  simp [whenReleased, State.released, h]

theorem whenReleased_held {s : State} {k : ResetKind} (f : State → State) (h : s.held = some k) :
    whenReleased s f = .next s := by
  simp [whenReleased, State.released, h]

theorem whenDue_due {b : Bool} {s : State} (f : State → State) (h : s.held = none) (hb : b = true) :
    whenDue b s f = .next (f s) := by
  simp [whenDue, State.released, h, hb]

theorem whenDue_notDue {s : State} (f : State → State) : whenDue false s f = .next s := by
  simp [whenDue]

/-- No command stops the part: each has a meaning that answers a next state. -/
theorem exec_next (c : Instr) (s : State) : ∃ t, exec c s = .next t := by
  cases c <;> exact ⟨_, rfl⟩

/-! ### The event list (R175) -/

/-- A record written is the last; what goes is the oldest of a full list. -/
theorem Ssl.writeEvent_events (l : Ssl) (e : Event) :
    (l.writeEvent e).events = (if l.events.length < 8 then l.events else l.events.tail) ++ [e] := by
  unfold Ssl.writeEvent
  split <;> rfl

theorem Ssl.writeEvent_length {l : Ssl} (e : Event) (h : l.events.length ≤ 8) :
    (l.writeEvent e).events.length ≤ 8 := by
  rw [Ssl.writeEvent_events]
  split
  · simp only [List.length_append, List.length_singleton]
    omega
  · simp only [List.length_append, List.length_tail, List.length_singleton]
    omega

@[simp] theorem Ssl.writeEvent_startup (l : Ssl) (e : Event) :
    (l.writeEvent e).startup = l.startup := by
  unfold Ssl.writeEvent; split <;> rfl

@[simp] theorem Ssl.writeEvent_own (l : Ssl) (e : Event) : (l.writeEvent e).own = l.own := by
  unfold Ssl.writeEvent; split <;> rfl

@[simp] theorem Ssl.writeEvent_ticks (l : Ssl) (e : Event) : (l.writeEvent e).ticks = l.ticks := by
  unfold Ssl.writeEvent; split <;> rfl

@[simp] theorem Ssl.writeEvent_checkResult (l : Ssl) (e : Event) :
    (l.writeEvent e).checkResult = l.checkResult := by
  unfold Ssl.writeEvent; split <;> rfl

@[simp] theorem Ssl.writeEvent_diag (l : Ssl) (e : Event) : (l.writeEvent e).diag = l.diag := by
  unfold Ssl.writeEvent; split <;> rfl

/-! ### The transmit store (R54 to R58) -/

/-- A post is refused and changes nothing, is dropped and counted, or is stored as the newest (R55). -/
theorem Lc.postNotice_cases (l : Lc) (k : NoticeKind) (b : List Byte) :
    (48 < b.length ∧ l.postNotice k b = l)
    ∨ (b.length ≤ 48 ∧ (223 < l.sharedBytes + (b.length + 5) ∨ 7 ≤ l.sharedFrames)
        ∧ l.postNotice k b = { l with counters.noticeDrop := satAdd l.counters.noticeDrop 1 })
    ∨ (b.length ≤ 48 ∧ l.sharedBytes + (b.length + 5) ≤ 223 ∧ l.sharedFrames < 7
        ∧ l.postNotice k b = { l with notices := l.notices ++ [⟨k, b, l.clock, Retry.fresh⟩] }) := by
  unfold Lc.postNotice Lc.answer
  by_cases h : 48 < b.length
  · exact .inl ⟨h, by simp [h]⟩
  · by_cases h' : 223 < l.sharedBytes + (b.length + 5) ∨ 7 ≤ l.sharedFrames
    · exact .inr (.inl ⟨by omega, h', by simp [h, h']⟩)
    · exact .inr (.inr ⟨by omega, by omega, by omega, by simp [h, h']⟩)

@[simp] theorem Lc.postNotice_tx (l : Lc) (k : NoticeKind) (b : List Byte) :
    (l.postNotice k b).tx = l.tx := by
  unfold Lc.postNotice; split <;> rfl

@[simp] theorem Lc.postNotice_asm (l : Lc) (k : NoticeKind) (b : List Byte) :
    (l.postNotice k b).asm = l.asm := by
  unfold Lc.postNotice; split <;> rfl

@[simp] theorem Lc.postNotice_statusWaiting (l : Lc) (k : NoticeKind) (b : List Byte) :
    (l.postNotice k b).statusWaiting = l.statusWaiting := by
  unfold Lc.postNotice; split <;> rfl

@[simp] theorem Lc.postNotice_alarmWaiting (l : Lc) (k : NoticeKind) (b : List Byte) :
    (l.postNotice k b).alarmWaiting = l.alarmWaiting := by
  unfold Lc.postNotice; split <;> rfl

/-- A STATUS post fills the empty place, or is counted late (R58). -/
theorem Lc.postStatus_cases (l : Lc) :
    (l.statusPlaceEmpty = true ∧ l.postStatus = { l with statusWaiting := some Retry.fresh })
    ∨ (l.statusPlaceEmpty = false
        ∧ l.postStatus = { l with counters.statusLate := satAdd l.counters.statusLate 1 }) := by
  unfold Lc.postStatus
  cases h : l.statusPlaceEmpty
  · exact .inr ⟨rfl, rfl⟩
  · exact .inl ⟨rfl, rfl⟩

@[simp] theorem Lc.postStatus_tx (l : Lc) : l.postStatus.tx = l.tx := by
  unfold Lc.postStatus; split <;> rfl

@[simp] theorem Lc.postStatus_notices (l : Lc) : l.postStatus.notices = l.notices := by
  unfold Lc.postStatus; split <;> rfl

@[simp] theorem Lc.postStatus_asm (l : Lc) : l.postStatus.asm = l.asm := by
  unfold Lc.postStatus; split <;> rfl

@[simp] theorem Lc.postStatus_alarmWaiting (l : Lc) : l.postStatus.alarmWaiting = l.alarmWaiting := by
  unfold Lc.postStatus; split <;> rfl

/-- Discarding the oldest notices ends with room for an ALARM frame, or with none left (R57). -/
theorem makeRoom_fits (bytes frames : Nat) (l : List Notice) :
    makeRoom bytes frames l = []
    ∨ (bytes + ((makeRoom bytes frames l).map Notice.size).sum + alarmSize ≤ 223
        ∧ frames + (makeRoom bytes frames l).length < 7) := by
  induction l with
  | nil => exact .inl rfl
  | cons n rest ih =>
    unfold makeRoom
    split
    · rename_i h; exact .inr h
    · exact ih

/-- What is kept is the newest part of the list. -/
theorem makeRoom_suffix (bytes frames : Nat) (l : List Notice) : makeRoom bytes frames l <:+ l := by
  induction l with
  | nil => exact List.suffix_refl _
  | cons n rest ih =>
    unfold makeRoom
    split
    · exact List.suffix_refl _
    · exact ih.trans (List.suffix_cons n rest)

/-- An ALARM post is never refused: the new frame waits, fresh (R57). -/
theorem Lc.postAlarm_alarmWaiting (l : Lc) (a : AlarmBody) :
    (l.postAlarm a).alarmWaiting = some ⟨a, l.clock, Retry.fresh⟩ := by
  unfold Lc.postAlarm; dsimp only; split <;> rfl

theorem Lc.postAlarm_tx (l : Lc) (a : AlarmBody) :
    (l.postAlarm a).tx = l.tx.withoutLostAlarm := by
  unfold Lc.postAlarm; dsimp only; split <;> rfl

@[simp] theorem Lc.postAlarm_statusWaiting (l : Lc) (a : AlarmBody) :
    (l.postAlarm a).statusWaiting = l.statusWaiting := by
  unfold Lc.postAlarm; dsimp only; split <;> rfl

@[simp] theorem Lc.postAlarm_asm (l : Lc) (a : AlarmBody) : (l.postAlarm a).asm = l.asm := by
  unfold Lc.postAlarm; dsimp only; split <;> rfl

/-- The notices kept beside a new ALARM frame are the newest of those that waited (R57). -/
theorem Lc.postAlarm_notices_suffix (l : Lc) (a : AlarmBody) :
    (l.postAlarm a).notices <:+ l.notices := by
  unfold Lc.postAlarm
  dsimp only
  split
  · exact List.suffix_refl _
  · exact makeRoom_suffix _ _ _

@[simp] theorem Lc.flush_notices (l : Lc) : l.flush.notices = [] := rfl
@[simp] theorem Lc.flush_alarmWaiting (l : Lc) : l.flush.alarmWaiting = l.alarmWaiting := rfl
@[simp] theorem Lc.flush_statusWaiting (l : Lc) : l.flush.statusWaiting = l.statusWaiting := rfl
@[simp] theorem Lc.flush_counters (l : Lc) : l.flush.counters = l.counters := rfl
@[simp] theorem Lc.flush_asm (l : Lc) : l.flush.asm = l.asm := rfl

/-- After a flush no notice is in transmission or awaiting judgement (R57). -/
theorem Lc.flush_noNotice (l : Lc) (n : Notice) : l.flush.tx.frame ≠ some (.notice n) := by
  rcases htx : l.tx with _ | f | f | _
  · simp [Lc.flush, htx, Tx.withoutNotice, Tx.frame]
  · cases f <;> simp [Lc.flush, htx, Tx.withoutNotice, Tx.frame]
  · rcases f with _ | g
    · simp [Lc.flush, htx, Tx.withoutNotice, Tx.frame]
    · cases g <;> simp [Lc.flush, htx, Tx.withoutNotice, Tx.frame]
  · simp [Lc.flush, htx, Tx.withoutNotice, Tx.frame]

/-- After the order the transmitter drives a hold (R53). -/
@[simp] theorem Lc.orderHold_tx (l : Lc) : l.orderHold.tx = .holding := by
  unfold Lc.orderHold
  split
  · assumption
  · rfl

/-- A requeued frame waits again where it came from; nothing else of the LC changes (R53, R63). -/
theorem Lc.requeue_cases (l : Lc) (f : TxFrame) :
    (∃ b r, f = .status b r ∧ l.requeue f = { l with statusWaiting := some r })
    ∨ (∃ n, f = .notice n ∧ l.requeue f = { l with notices := n :: l.notices })
    ∨ (∃ a, f = .alarm a ∧ l.requeue f = { l with alarmWaiting := some (l.alarmWaiting.getD a) }) := by
  cases f with
  | status b r => exact .inl ⟨b, r, rfl, rfl⟩
  | notice n => exact .inr (.inl ⟨n, rfl, rfl⟩)
  | alarm a => exact .inr (.inr ⟨a, rfl, rfl⟩)

@[simp] theorem Lc.requeue_tx (l : Lc) (f : TxFrame) : (l.requeue f).tx = l.tx := by
  cases f <;> rfl

@[simp] theorem Lc.requeue_counters (l : Lc) (f : TxFrame) :
    (l.requeue f).counters = l.counters := by
  cases f <;> rfl

@[simp] theorem Lc.requeue_asm (l : Lc) (f : TxFrame) : (l.requeue f).asm = l.asm := by
  cases f <;> rfl

/-! ### The age of notices (R56) -/

/-- A notice waits on exactly while it is younger than the life it is judged by. -/
theorem Lc.mem_expire {l : Lc} {life : Nat} {n : Notice} :
    n ∈ (l.expire life).notices ↔ n ∈ l.notices ∧ l.clock < n.posted + life := by
  simp [Lc.expire, Lc.outlived]

@[simp] theorem Lc.expire_clock (l : Lc) (life : Nat) : (l.expire life).clock = l.clock := rfl
@[simp] theorem Lc.expire_asm (l : Lc) (life : Nat) : (l.expire life).asm = l.asm := rfl
@[simp] theorem Lc.expire_statusWaiting (l : Lc) (life : Nat) :
    (l.expire life).statusWaiting = l.statusWaiting := rfl
@[simp] theorem Lc.expire_alarmWaiting (l : Lc) (life : Nat) :
    (l.expire life).alarmWaiting = l.alarmWaiting := rfl
@[simp] theorem Lc.advance_clock (l : Lc) (now : Nat) : (l.advance now).clock = max l.clock now := rfl
@[simp] theorem Lc.advance_asm (l : Lc) (now : Nat) : (l.advance now).asm = l.asm := rfl

/-- With no notice in the store a moment only moves the clock (R56). -/
theorem Lc.advance_empty {l : Lc} (now : Nat) (h : l.notices = []) (ht : l.tx.frame = none)
    (hc : l.counters.noticeStale ≤ 65535) : l.advance now = { l with clock := max l.clock now } := by
  have hk : ∀ m : Lc, m.tx = l.tx → m.txWithoutOutlived (noticeLife + 1) = m.tx := by
    intro m hm
    unfold Lc.txWithoutOutlived
    rw [hm]
    cases htx : l.tx with
    | lost f => cases f <;> simp_all [Tx.frame]
    | idle | sending f | holding => rfl
  have h0 : satAdd l.counters.noticeStale 0 = l.counters.noticeStale := satAdd_of_le (by omega)
  simp [Lc.advance, Lc.expire, h, hk, h0]

/-! ### The Peer Table (R69 to R75) -/

/-- An accepted STATUS leaves a FRESH entry with the announced state, its join record kept (R73). -/
theorem Peers.takeStatus_slot (p : Peers) (n : Nat) (b : StatusBody) :
    slot? (p.takeStatus n b).bays n = some (statusEntry (slot? p.bays n) b) := by
  simp [Peers.takeStatus]

/-- An accepted PRESENCE leaves a FRESH entry without announced state (R74). -/
theorem Peers.takePresence_slot (p : Peers) (n : Nat) (b : PresenceBody) :
    slot? (p.takePresence n b).bays n = some (presenceEntry b) := by
  simp [Peers.takePresence]

theorem Peers.takeStatus_other {n m : Nat} (p : Peers) (b : StatusBody) (h : m ≠ n) :
    slot? (p.takeStatus n b).bays m = slot? p.bays m :=
  slot?_setSlot_other _ _ h

theorem Peers.takePresence_other {n m : Nat} (p : Peers) (b : PresenceBody) (h : m ≠ n) :
    slot? (p.takePresence n b).bays m = slot? p.bays m :=
  slot?_setSlot_other _ _ h

/-- An accepted PANEL or TIME frame leaves a FRESH entry, its last applied sequence kept (R75). -/
theorem Peers.takePanel_slot (p : Peers) (n : Nat) :
    slot? (p.takePanel n).panels n = some (panelEntry (slot? p.panels n)) := by
  simp [Peers.takePanel]

/-- Mapping over entries keeps the numbers of a table. -/
theorem slot?_map {α β : Type} (f : α → β) (l : List (Nat × α)) (n : Nat) :
    slot? (l.map fun e => (e.1, f e.2)) n = (slot? l n).map f := by
  induction l with
  | nil => rfl
  | cons e rest ih =>
    obtain ⟨k, v⟩ := e
    by_cases h : k = n
    · simp [slot?, h]
    · simp [slot?, h, ih]

/-- The table one second on, slot by slot (R78). -/
theorem Peers.older_bay (p : Peers) (n : Nat) :
    slot? p.older.bays n = (slot? p.bays n).map BayEntry.older :=
  slot?_map BayEntry.older p.bays n

/-- The table one second on, slot by slot (R79). -/
theorem Peers.older_panel (p : Peers) (n : Nat) :
    slot? p.older.panels n = (slot? p.panels n).map PanelEntry.older :=
  slot?_map PanelEntry.older p.panels n

end Sys2Proof.Machine
end

