-- ==== Sys2Proof/Laws/Frames.lean ====
section
/-! SUPPORT. The frame of each operation on the whole station that decides between cases: which blocks it
can touch. Every lemma reads: the operation's result is the station with those blocks replaced. -/

namespace Sys2Proof.Machine

variable (s : State)

/-! ### Fire mode (Chapter 9) -/

theorem State.enterFire_frame (q : Cause) (o : Option Nat) :
    s.enterFire q o = { s with
      ssl := (s.enterFire q o).ssl, lc := s.lc.flush, ltc := s.ltc.fireEnter, hru := s.hru.fireEnter
      hsu := s.hsu.allOff s.bayOrFallback.minOff, abu := s.abu.fireEnter s.bayOrFallback
      fmc := { s.fmc with mode := .fire q o } } := rfl

theorem State.makeSend_frame :
    s.makeSend = { s with lc := s.makeSend.lc, fmc := s.makeSend.fmc } := rfl

theorem State.send_frame : s.send = { s with lc := s.send.lc, fmc := s.send.fmc } := by
  unfold State.send
  split <;> rfl

theorem State.fireInputChanged_frame (a : Bool) :
    s.fireInputChanged a = { s with
      ssl := (s.fireInputChanged a).ssl, lc := (s.fireInputChanged a).lc
      ltc := (s.fireInputChanged a).ltc, hru := (s.fireInputChanged a).hru
      hsu := (s.fireInputChanged a).hsu, abu := (s.fireInputChanged a).abu
      fmc := (s.fireInputChanged a).fmc } := by
  unfold State.fireInputChanged
  split
  · rw [State.send_frame]
    rfl
  · rfl
  · rw [State.send_frame]
  · rfl
  · rw [State.send_frame]
  · rfl

theorem State.holdHeard_frame :
    s.holdHeard = { s with
      ssl := s.holdHeard.ssl, lc := s.holdHeard.lc, ltc := s.holdHeard.ltc, hru := s.holdHeard.hru
      hsu := s.holdHeard.hsu, abu := s.holdHeard.abu, fmc := s.holdHeard.fmc } := by
  unfold State.holdHeard
  split <;> rfl

theorem State.alarmFrame_frame (b : AlarmBody) :
    s.alarmFrame b = { s with
      ssl := (s.alarmFrame b).ssl, lc := (s.alarmFrame b).lc, ltc := (s.alarmFrame b).ltc
      hru := (s.alarmFrame b).hru, hsu := (s.alarmFrame b).hsu, abu := (s.alarmFrame b).abu
      fmc := (s.alarmFrame b).fmc } := by
  unfold State.alarmFrame
  split
  · rfl
  · split <;> rfl
  · rfl
  · rfl

theorem State.alarmResetAtFmc_frame :
    s.alarmResetAtFmc = { s with
      ssl := s.alarmResetAtFmc.ssl, lc := s.alarmResetAtFmc.lc, fmc := s.alarmResetAtFmc.fmc } := by
  unfold State.alarmResetAtFmc
  split
  · rfl
  · split <;> rfl

theorem State.fmcSample_frame :
    s.fmcSample = { s with lc := s.fmcSample.lc, fmc := s.fmcSample.fmc } := by
  unfold State.fmcSample
  split
  · rfl
  · split
    · unfold State.timerExpired
      dsimp only
      split
      · rw [State.send_frame]
      · rfl
    · rfl

theorem State.settleOwed_frame :
    s.settleOwed = { s with lc := s.settleOwed.lc, fmc := s.settleOwed.fmc } := by
  unfold State.settleOwed
  dsimp only
  split <;> rfl

/-! ### The calendar and time (Chapter 2) -/

theorem State.evaluate_frame (b : Bool) :
    s.evaluate b = { s with scu := (s.evaluate b).scu, hsu := (s.evaluate b).hsu } := by
  unfold State.evaluate
  split <;> rfl

theorem State.timeStep_frame (m n : Nat) :
    s.timeStep m n = { s with scu := (s.timeStep m n).scu, hsu := (s.timeStep m n).hsu } := by
  unfold State.timeStep
  rw [State.evaluate_frame]

theorem State.adoptTime_frame (f r m n : Nat) :
    s.adoptTime f r m n = { s with scu := (s.adoptTime f r m n).scu, hsu := (s.adoptTime f r m n).hsu } := by
  unfold State.adoptTime
  split
  · rfl
  · rw [State.timeStep_frame]

theorem State.judgeTime_frame (f r m n : Nat) :
    s.judgeTime f r m n = { s with scu := (s.judgeTime f r m n).scu, hsu := (s.judgeTime f r m n).hsu } := by
  unfold State.judgeTime
  repeat' split
  all_goals first | rw [State.adoptTime_frame] | rfl

theorem State.addAmendment_frame (a : Amendment) :
    s.addAmendment a = { s with
      ssl := (s.addAmendment a).ssl, scu := (s.addAmendment a).scu, hsu := (s.addAmendment a).hsu } := by
  unfold State.addAmendment
  dsimp only
  rw [State.evaluate_frame]
  generalize State.evaluate _ false = e
  cases a <;> (dsimp only; split <;> rfl)

/-! ### Panel commands (R39, R40) -/

theorem State.holdPhase_frame (p d : Nat) :
    s.holdPhase p d = { s with
      ssl := (s.holdPhase p d).ssl, scu := (s.holdPhase p d).scu, hsu := (s.holdPhase p d).hsu } := by
  unfold State.holdPhase
  dsimp only
  split
  · rw [State.addAmendment_frame]
  · rfl

theorem State.advancePhase_frame (p : Nat) :
    s.advancePhase p = { s with
      ssl := (s.advancePhase p).ssl, scu := (s.advancePhase p).scu, hsu := (s.advancePhase p).hsu } := by
  unfold State.advancePhase
  split
  · rw [State.addAmendment_frame]
  · rfl

theorem State.closeBays_frame (p m : Nat) :
    s.closeBays p m = { s with
      ssl := (s.closeBays p m).ssl, scu := (s.closeBays p m).scu, hsu := (s.closeBays p m).hsu } := by
  unfold State.closeBays
  split
  · rfl
  · rw [State.addAmendment_frame]

theorem State.lightForce_frame (p m c : Nat) :
    s.lightForce p m c = { s with
      ssl := (s.lightForce p m c).ssl, scu := (s.lightForce p m c).scu
      hsu := (s.lightForce p m c).hsu } := by
  unfold State.lightForce
  split
  · rw [State.addAmendment_frame]
  · rfl

/-- A panel command leaves the held reset, the terminals and the queue alone, a RESTART among them. -/
theorem State.command_kept (p : Nat) (b : PanelBody) :
    (s.command p b).held = s.held ∧ (s.command p b).pins = s.pins
      ∧ (s.command p b).pending = s.pending := by
  unfold State.command
  split
  · rw [State.holdPhase_frame]; exact ⟨rfl, rfl, rfl⟩
  split
  · rw [State.advancePhase_frame]; exact ⟨rfl, rfl, rfl⟩
  split
  · rw [State.closeBays_frame]; exact ⟨rfl, rfl, rfl⟩
  split
  · unfold State.openBays
    split <;> exact ⟨rfl, rfl, rfl⟩
  split
  · rw [State.lightForce_frame]; exact ⟨rfl, rfl, rfl⟩
  split
  · unfold State.cancelAmendments
    split <;> exact ⟨rfl, rfl, rfl⟩
  split
  · rw [State.alarmResetAtFmc_frame]; exact ⟨rfl, rfl, rfl⟩
  split
  · unfold State.restartCommand
    split <;> exact ⟨rfl, rfl, rfl⟩
  · exact ⟨rfl, rfl, rfl⟩

/-! ### The Peer Table and the line (Chapters 3 and 4) -/

theorem State.peersTake_frame (f : Peers → Peers) :
    s.peersTake f = { s with pt := (s.peersTake f).pt } := by
  unfold State.peersTake
  split <;> rfl

theorem State.promptCheck_frame : s.promptCheck = { s with lc := s.promptCheck.lc } := by
  unfold State.promptCheck
  split <;> rfl

theorem State.lcSample_frame : s.lcSample = { s with lc := s.lcSample.lc } := by
  unfold State.lcSample
  split
  · rfl
  · dsimp only
    split
    · rw [State.promptCheck_frame]
    · rfl

theorem State.lose_frame (n : Nat) : s.lose n = { s with lc := (s.lose n).lc } := by
  unfold State.lose
  split
  · split <;> rfl
  all_goals rfl

theorem State.frameStart_frame (q n : Nat) :
    s.frameStart q n = { s with lc := (s.frameStart q n).lc } := by
  unfold State.frameStart
  split
  · dsimp only
    split
    · unfold State.startFrame
      dsimp only
      split <;> rfl
    all_goals rfl
  · rfl

theorem State.frameSent_frame :
    s.frameSent = { s with lc := s.frameSent.lc, ssl := s.frameSent.ssl } := by
  unfold State.frameSent
  split
  · dsimp only
    split <;> rfl
  all_goals rfl

/-! ### Travel notices and reports (Chapters 5 and 10) -/

theorem State.edgeArrival_frame (c : Configuration) (e : Edge) :
    s.edgeArrival c e = { s with ltc := (s.edgeArrival c e).ltc, lc := (s.edgeArrival c e).lc } := by
  unfold State.edgeArrival
  split <;> rfl

theorem State.travelNotice_frame (c : Configuration) (n : Nat) (b : TravelBody) :
    s.travelNotice c n b
      = { s with ltc := (s.travelNotice c n b).ltc, lc := (s.travelNotice c n b).lc } := by
  unfold State.travelNotice
  dsimp only
  split
  · split <;> rfl
  · rfl

theorem State.inquiry_frame (n : Nat) :
    s.inquiry n = { s with lc := (s.inquiry n).lc, ssl := (s.inquiry n).ssl } := by
  unfold State.inquiry
  split
  · split
    · unfold State.postReport
      dsimp only
      split <;> rfl
    · rfl
  · rfl

/-! ### The field inputs (Chapter 1) -/

theorem State.recordSensor_frame (p : PerSensor SensorSample) (k : Sensor) :
    s.recordSensor p k = { s with ssl := (s.recordSensor p k).ssl } := by
  unfold State.recordSensor
  split <;> rfl

theorem State.recordSensors_frame (p : PerSensor SensorSample) :
    s.recordSensors p = { s with ssl := (s.recordSensors p).ssl } := by
  unfold State.recordSensors
  simp only [List.foldl]
  rw [State.recordSensor_frame, State.recordSensor_frame, State.recordSensor_frame,
    State.recordSensor_frame, State.recordSensor_frame]

theorem State.selftestSample_frame : s.selftestSample = { s with ssl := s.selftestSample.ssl } := by
  unfold State.selftestSample
  split
  · dsimp only
    split <;> rfl
  all_goals rfl

/-! ### The output blocks' seconds (Chapters 5 to 8) -/

theorem State.ltcSample_frame : s.ltcSample = { s with ltc := s.ltcSample.ltc } := by
  unfold State.ltcSample
  split <;> rfl

theorem State.hruSample_frame : s.hruSample = { s with hru := s.hruSample.hru } := by
  unfold State.hruSample
  split <;> rfl

theorem State.hsuSample_frame : s.hsuSample = { s with hsu := s.hsuSample.hsu } := by
  unfold State.hsuSample
  split <;> rfl

theorem State.abuSample_frame : s.abuSample = { s with abu := s.abuSample.abu } := by
  unfold State.abuSample
  split <;> rfl

/-! ### Staging (R135, R138, R139) -/

/-- Switching the newest off shortens the on-list by its last (R138). -/
theorem Hsu.offMany_onList (m n : Nat) (h : Hsu) :
    (h.offMany m n).onList = h.onList.take (h.onList.length - n) := by
  induction n generalizing h with
  | zero => simp [Hsu.offMany]
  | succ n ih =>
    unfold Hsu.offMany
    rw [ih]
    unfold Hsu.offNewest
    split
    · rename_i hn
      simp [List.getLast?_eq_none_iff.mp hn]
    · rw [List.length_dropLast, List.dropLast_eq_take, List.take_take]
      congr 1
      omega

@[simp] theorem Hsu.onNext_grant (h : Hsu) : h.onNext.grant = h.grant := by
  unfold Hsu.onNext
  split <;> rfl

@[simp] theorem Hsu.onNext_allowed (h : Hsu) : h.onNext.allowed = h.allowed := by
  unfold Hsu.onNext
  split <;> rfl

@[simp] theorem Hsu.onNext_rotation (h : Hsu) : h.onNext.rotation = h.rotation := by
  unfold Hsu.onNext
  split <;> rfl

/-- One look adds at most one stage to the end of the on-list (R139). -/
theorem Hsu.onNext_onList (h : Hsu) :
    h.onNext.onList = h.onList ∨ ∃ k, h.firstExpired = some k ∧ h.onNext.onList = h.onList ++ [k] := by
  unfold Hsu.onNext
  split
  · exact .inl rfl
  · rename_i k hk
    exact .inr ⟨k, hk, rfl⟩

end Sys2Proof.Machine
end

