-- ==== Sys2Proof/Laws/Line.lean ====
section
/-! SUPPORT. The lemmas of the Line Controller's own operations: the levels of a frame, the head of a frame
sent and a hold heard, the wait for a recessive line, the frame that starts, the moment one is accepted. -/

namespace Sys2Proof

@[simp] theorem charLevels_length (d : Byte) (m : Bool) : (charLevels d m).length = 11 := by
  simp [charLevels]

@[simp] theorem markedChars_length (l : List Byte) : (markedChars l).length = l.length := by
  cases l <;> simp [markedChars]

/-- The data bytes of the marked characters are the frame's, in order. -/
@[simp] theorem markedChars_data (l : List Byte) : (markedChars l).map Prod.fst = l := by
  cases l with
  | nil => rfl
  | cons a rest => simp [markedChars, Function.comp_def]

/-- Eleven levels a character (R43). -/
theorem frameLevels_length (l : List Byte) : (frameLevels l).length = 11 * l.length := by
  simp [frameLevels, List.length_flatMap, Nat.mul_comm]

end Sys2Proof

namespace Sys2Proof.Machine

/-! ### The head of a frame sent (R65) -/

@[simp] theorem Lc.headSent_asm (l : Lc) : l.headSent.asm = .hunt := rfl

@[simp] theorem Lc.headSent_quiet (l : Lc) : l.headSent.quiet = 0 := rfl

/-- What the head of an own frame does to the LC, the transmitter and the waiting frames aside. -/
theorem Lc.headSent_eq (l : Lc) :
    l.headSent = { l with
      asm := .hunt, quiet := 0, holdHeard := false, awaitRecessive := false
      counters.frameTimeout := if l.asm.inFrame then satAdd l.counters.frameTimeout 1
        else l.counters.frameTimeout } := by
  unfold Lc.headSent Lc.active Lc.countTimeout
  cases l.asm.inFrame <;> rfl

@[simp] theorem Lc.headSent_tx (l : Lc) : l.headSent.tx = l.tx := by rw [Lc.headSent_eq]

@[simp] theorem Lc.headSent_notices (l : Lc) : l.headSent.notices = l.notices := by
  rw [Lc.headSent_eq]

@[simp] theorem Lc.headSent_alarmWaiting (l : Lc) : l.headSent.alarmWaiting = l.alarmWaiting := by
  rw [Lc.headSent_eq]

@[simp] theorem Lc.headSent_statusWaiting (l : Lc) : l.headSent.statusWaiting = l.statusWaiting := by
  rw [Lc.headSent_eq]

/-- The frame that starts at a quiet is the first in selection order, its gap reached (R61). -/
theorem Lc.starting_eq_some {l : Lc} {quiet : Nat} {q : Choice} :
    l.starting quiet = some q ↔ l.choice = some q ∧ q.gap ≤ max l.quiet quiet := by
  simp [Lc.starting, Lc.measured, Option.filter_eq_some_iff]

/-! ### A hold heard and a broken character (R44, R52) -/

@[simp] theorem Lc.hearHold_tx (l : Lc) : l.hearHold.tx = l.tx := rfl

@[simp] theorem Lc.hearHold_awaitRecessive (l : Lc) : l.hearHold.awaitRecessive = true := rfl

@[simp] theorem Lc.hearHold_counters (l : Lc) : l.hearHold.counters = l.counters := rfl

@[simp] theorem Lc.broken_awaitRecessive (l : Lc) : l.broken.awaitRecessive = true := rfl

@[simp] theorem Lc.broken_counters (l : Lc) : l.broken.counters = l.counters := rfl

@[simp] theorem Lc.levelEnds_awaitRecessive (l : Lc) (hold : Bool) :
    (l.levelEnds hold).awaitRecessive = false := rfl

/-- Nothing is watched for while the receiver waits for the line (R44, R52). -/
theorem State.watching_of_awaitRecessive {s : State} (h : s.lc.awaitRecessive = true) :
    s.watching = false := by
  simp [State.watching, h]

/-! ### The moment a frame can be accepted (R44, R67, R168) -/

theorem Tx.isSending_eq_false {t : Tx} : t.isSending = false ↔ ∀ f, t ≠ .sending f := by
  cases t <;> simp [Tx.isSending]

@[simp] theorem Tx.isSending_of_listening {t : Tx} (h : t.listening = true) : t.isSending = false := by
  cases t <;> simp_all [Tx.isSending, Tx.listening]

/-- When a frame's acceptance can fall at this moment. -/
theorem State.mayAccept_eq_true {s : State} :
    s.mayAccept = true ↔ s.held = none ∧ s.cfg.isSome = true ∧ (∀ f, s.lc.tx ≠ .sending f)
      ∧ (s.lc.awaitRecessive = true → s.lc.holdHeard = true) := by
  rw [← Tx.isSending_eq_false]
  cases h : s.lc.awaitRecessive <;>
    simp [State.mayAccept, State.released, h, and_assoc]

/-- A station that hears `n` accepts its frames that pass the filter. -/
theorem State.canAccept_of_hears {s : State} {n : Nat} {k : Kind} (h : s.hears n)
    (hf : s.filterAccepts n k = true) : s.canAccept n k = true := by
  obtain ⟨hr, hc, ht, ha, hn⟩ := h
  simp [State.canAccept, State.mayAccept_eq_true.2 ⟨hr, hc, ht, ha⟩, hn, hf]

theorem State.accept_of_canAccept {s : State} {n : Nat} {f : Frame} (h : s.canAccept n f.kind = true) :
    s.accept n f = { s with lc := s.lc.framePassed }.handOn n f := if_pos h

theorem State.accept_of_not {s : State} {n : Nat} {f : Frame} (h : s.canAccept n f.kind = false) :
    s.accept n f = s := if_neg (by simp [h])

theorem Lc.afterFrame_framePassed (l : Lc) : l.afterFrame l.framePassed := rfl

@[simp] theorem Lc.framePassed_tx (l : Lc) : l.framePassed.tx = l.tx := rfl

@[simp] theorem Lc.framePassed_notices (l : Lc) : l.framePassed.notices = l.notices := rfl

@[simp] theorem Lc.framePassed_counters (l : Lc) : l.framePassed.counters = l.counters := rfl

@[simp] theorem Lc.framePassed_awaitRecessive (l : Lc) :
    l.framePassed.awaitRecessive = l.awaitRecessive := rfl

end Sys2Proof.Machine
end

