-- ==== Sys2Proof/Tests/Slice0.lean ====
section
/-! SUPPORT. Small tests: ill-formed commands refused by WellFormed, the manual's worked examples, and
for each obligation with hypotheses the named states and operands that meet them, at the boundaries of
its clauses. Expected values come from the manual's tables and examples or are worked by hand. -/

namespace Sys2Proof.Machine.Tests

set_option Elab.async false

/-! ### Helpers -/

/-- The state a command leads to. -/
def after (i : Instr) (s : State) : State :=
  match exec i s with
  | .next t => t
  | .fault _ | .refused _ => s

/-- Station 7 in RUN with the fallback image, its time valid. -/
def station : State :=
  { State.reset with
    held := none
    ssl := { Ssl.reset 7 with startup := .run }
    cfg := some fallback
    scu := { Scu.reset with valid := true }
    hsu := { Hsu.reset with stages := [⟨false, 0, false⟩], rotation := [1] } }

/-- The same station in another start-up state. -/
def stationIn (u : Startup) : State := { station with ssl := { station.ssl with startup := u } }

/-- The same station in fire mode, the outputs at their fire values. -/
def burning (q : Cause) (o : Option Nat) : State := station.enterFire q o

/-- Input terminals with every sensor in range, every contact at rest, the straps at 7. -/
def calm : InputLevels := ⟨⟨150, 150, -100, 300, 500⟩, 0, 0, 0, false, 7⟩

/-- The addressed range of station 7 alone. -/
def toSeven : PanelAddress := ⟨1, 7, 7⟩

/-- A STATUS body with the fields the tests vary. -/
def statusOf (source : BitVec 2) (flags : BitVec 12) (rank interval : Byte) (tBay tOut : Half)
    (request : Byte) (uncovered : Half) : StatusBody :=
  { phase := 2, source, flags, minute := 600, second := 30, rank, interval, tBay, tOut, request,
    grant := 0, stagesOn := 0, extract := 0, supply := 0, uncovered, exhaust := 100, unsealed := 0,
    sealedDoors := 0, zones := 0, signature := 12224 }

/-- A bay entry of an age with an announced state. -/
def peer (n : Nat) (age : Age) (b : StatusBody) : Nat × BayEntry := (n, ⟨age, 0, .s4, some b, none⟩)

/-- The station with a Peer Table of these bay entries. -/
def among (l : List (Nat × BayEntry)) : State := { station with pt := ⟨l, []⟩ }

theorem station_works : station.works fallback := ⟨rfl, rfl⟩

theorem stationIn_works (u : Startup) : (stationIn u).works fallback := ⟨rfl, rfl⟩

/-- A station that sends nothing and waits for nothing hears every other station. -/
theorem hears_of_idle {s : State} {n : Nat} (hr : s.held = none) (hc : s.cfg.isSome = true)
    (ht : s.lc.tx = .idle) (ha : s.lc.awaitRecessive = false) (hn : n ≠ s.ssl.own) : s.hears n :=
  ⟨hr, hc, fun f h => by simp [ht] at h, fun h => by simp [ha] at h, hn⟩

theorem station_hears (n : Nat) (h : n ≠ 7) : station.hears n := hears_of_idle rfl rfl rfl rfl h

theorem station_takes : station.takesCommand 56 toSeven :=
  ⟨station_hears _ (by decide), by decide, rfl, by decide, by decide, by decide⟩

/-! ### WellFormed refuses -/

theorem test_wellFormed_refuses_senders :
    [(Instr.status 49 (statusOf 0 0 1 1 0 0 0 0)), .presence 0 ⟨0, 0, 0, 0⟩, .travel 56 ⟨1, 0, 1, 0⟩ 0,
      .time 48 ⟨0, 0⟩, .inquiry 55 7 0].map Instr.wellFormed = [false, false, false, false, false] := by
  decide

theorem test_wellFormed_refuses_panels :
    (panelRows 55 toSeven 0 1 1 9).all (fun i => !i.wellFormed) = true := by decide

theorem test_wellFormed_refuses_a_known_code : (Instr.unknownCommand 56 toSeven 8 0).wellFormed = false := by
  decide

theorem test_wellFormed_refuses_numbers :
    [Instr.holdRetire 0, .holdRetire 25, .minOffExpiry 0, .minOffExpiry 9, .entryStale 49, .entryLost 55,
      .arbitrationLoss 53].all (fun i => !i.wellFormed) = true := by decide

theorem test_wellFormed_refuses_a_long_image :
    (Instr.imageAdopt (.bytes (List.replicate 4097 0))).wellFormed = false := by decide +kernel

/-! ### The step, the resets and the image -/

/-- Witness of StepRunsTheFrontCommand: a queue of two, and an empty one. -/
theorem witness_step_runs_the_front :
    ({ station with pending := [.falseStart, .powerReset] } : State).pending = .falseStart :: [.powerReset]
    ∧ station.pending = []
    ∧ step { station with pending := [.falseStart, .powerReset] }
        = .next { station with pending := [.powerReset] } := ⟨rfl, rfl, rfl⟩

/-- Witness of HeldResetsSetResetValues: the reset state is held; its release reads the straps. -/
theorem witness_held_reset :
    State.reset.held ≠ none ∧ (after (.resetRelease 7) State.reset).ssl.own = 7
    ∧ (after .terminalReset station).held = some .terminal := by decide +kernel

/-- Witness of RestartKeepsWhatSurvives: a RESTART in RUN outside fire mode with a stage on and a last
good value at 600 s, at 601 s, and absent. -/
theorem witness_restart :
    station.takesCommand 56 toSeven ∧ station.fmc.mode = .normal
    ∧ (let warm (age : Nat) : State :=
        { station with
          fiu := { station.fiu with lastGood := some 150, lastGoodAge := age }
          hsu := { station.hsu with stages := [⟨true, 0, false⟩], onList := [1] } }
      (after (.restart 56 toSeven) (warm 600)).br.tempSource = .held
        ∧ (after (.restart 56 toSeven) (warm 601)).br.tempSource = .blind
        ∧ (after (.restart 56 toSeven) (warm 600)).hsu.stages = [⟨false, 180, true⟩]
        ∧ (after (.restart 56 toSeven) station).br.tempSource = .blind) :=
  ⟨station_takes, rfl, by decide +kernel⟩

/-- An image for station 7 with a calendar section, door 8 unfitted and the outdoor sensor fitted, by the
layout of Section 11.4, with `adjust` in the sum field. -/
def imageWith (adjust : Half) (calendar : List Byte) : List Byte :=
  [0x5D, 0x43] ++ halfBytes (toHalf (213 + calendar.length)) ++ [0, 9] ++ halfBytes adjust
    ++ [0, 250, 0xFE, 0xD4, 2, 88, 0, 0, 1, 1, 1, 0, 60, 0, 50, 1, 244]
    ++ calendar
    ++ (List.replicate 4 (PhaseRow.bytes fallbackRow)).flatten
    ++ [1, 7, 0x7F, 1, 50, 20, 10, 20, 20, 1, 0, 0, 180, 0, 100, 0, 100, 10, 0, 200, 2, 88, 100, 100, 39,
      16]
    ++ (List.replicate 6 [0, 50, 3, 232, 0]).flatten
    ++ [0, 1, 0, 2, 0, 4, 0, 8, 0, 16, 0, 32]

/-- That image with its sum field chosen so that its words add to 0 (Section 11.4). -/
def imageOf (calendar : List Byte) : List Byte :=
  imageWith (BitVec.ofNat 16 (65536 - wordSum (imageWith 0 calendar) % 65536)) calendar

/-- The image with one entry, WORK and fixed, at a minute. -/
def image (minute : Half) : List Byte := imageOf ([1] ++ halfBytes minute ++ [0x82])

theorem judged_ok {j : Except Nat Configuration} (h : failureCode j = none) :
    j = .ok (adoptedConfig j) := by
  cases j with
  | error n => simp [failureCode] at h
  | ok c => rfl

/-- Station 7 in LOAD. -/
def loading : State := after (.resetRelease 7) State.reset

/-- Witness of StoredImageIsAdopted: the image passes for station 7; door 8 unfitted, the outdoor sensor
fitted, N records set up; an owed send made; a first evaluation that changes the phase. -/
theorem witness_stored_image :
    loading.held = none ∧ loading.ssl.startup = .load ∧ isBayNumber loading.ssl.own = true
    ∧ (∃ c, judgeImage 7 (.bytes (image 360)) = .ok c
        ∧ c.calendar = [⟨360, .work, true⟩] ∧ c.bay.outdoorFitted = true ∧ c.version = 9)
    ∧ (let t := after (.imageAdopt (.bytes (image 360))) loading
      t.ssl.startup = .selftest ∧ t.br.doors.d8.state = .disabled ∧ t.br.doors.d7.state = .closed
        ∧ t.br.validity.outdoor = .unsampled ∧ t.hsu.stages = [⟨false, 180, false⟩]
        ∧ t.hsu.rotation = [1])
    ∧ (let owing (f : Bool) : State := { loading with
        fmc := ⟨.fire .own (some 7), none, 0, true⟩, br := { loading.br with fireInput := f } }
      (after (.imageAdopt (.bytes (image 360))) (owing true)).fmc
          = ⟨.fire .own (some 7), some 30, 1, false⟩
        ∧ (after (.imageAdopt (.bytes (image 360))) (owing true)).lc.tx = .holding
        ∧ (after (.imageAdopt (.bytes (image 360))) (owing false)).lc = loading.lc)
    ∧ (after (.imageAdopt (.bytes (image 360))) { loading with
        scu := { loading.scu with phase := .closed }
        hsu := { loading.hsu with stages := [⟨false, 0, false⟩], rotation := [4, 9] } }).hsu.rotation
      = [9, 4] := by
  exact ⟨rfl, rfl, rfl, ⟨_, judged_ok (by decide +kernel), by decide +kernel⟩, by decide +kernel⟩

/-- Witness of FailedImageAdoptsFallback: each of the seven codes, and a strap number of 50. -/
theorem witness_failed_image :
    failureCode (judgeImage 7 .noAnswer) = some 1
    ∧ failureCode (judgeImage 7 (.bytes ((image 360).take 216))) = some 1
    ∧ failureCode (judgeImage 7 (.bytes ((image 360).take 7))) = some 1
    ∧ failureCode (judgeImage 7 (.bytes (imageOf ([2] ++ halfBytes 360 ++ [0x82] ++ halfBytes 360 ++ [0]))))
        = some 6
    ∧ failureCode (judgeImage 7 (.bytes (imageOf ([2] ++ halfBytes 360 ++ [0x82] ++ halfBytes 361 ++ [0]))))
        = none
    ∧ failureCode (judgeImage 7 (.bytes (0 :: (image 360).tail))) = some 2
    ∧ failureCode (judgeImage 7 (.bytes ((image 360).set 2 0x10))) = some 3
    ∧ failureCode (judgeImage 7 (.bytes ((image 360).set 20 1))) = some 4
    ∧ failureCode (judgeImage 50 (.bytes (image 360))) = some 5
    ∧ failureCode (judgeImage 7 (.bytes (image 10080))) = some 7
    ∧ isBayNumber 50 = false
    ∧ (after (.imageAdopt (.bytes (image 360)))
        (after (.resetRelease 50) State.reset)).ssl.startup = .strapFault := by decide +kernel

/-- Witness of SelftestEndsAtTheThirdSample, at the second and third sample; sensor A is out of range. -/
theorem witness_selftest :
    (stationIn .selftest).works fallback ∧ (stationIn .selftest).ssl.startup = .selftest
    ∧ (let at_ (n : Nat) : State :=
        { stationIn .selftest with ssl := { (stationIn .selftest).ssl with ticks := n } }
      let cold : InputLevels := { calm with reading := { calm.reading with tempA := -401 } }
      (after (.fiuSampleEvent cold 0) (at_ 1)).ssl.startup = .selftest
        ∧ (after (.selftestEnd cold 0) (at_ 1)) = at_ 1
        ∧ (after (.fiuSampleEvent cold 0) (at_ 2)).ssl.startup = .listen
        ∧ (after (.selftestEnd cold 0) (at_ 2)).ssl.diag = ⟨true, false, false, false, false⟩) :=
  ⟨stationIn_works _, rfl, by decide +kernel⟩

/-- Witness of ListenThenJoinThenRun, at ticks 18 and 19 of LISTEN and ticks 0 and 1 of JOIN. -/
theorem witness_listen_join :
    (stationIn .listen).works fallback ∧ (stationIn .join).works fallback
    ∧ (let at_ (u : Startup) (n : Nat) : State :=
        { stationIn u with ssl := { (stationIn u).ssl with ticks := n } }
      (after (.sslSampleEvent 0) (at_ .listen 18)).ssl.ticks = 19
        ∧ (after (.listenEnd 0) (at_ .listen 19)).ssl.startup = .join
        ∧ (after (.listenEnd 0) (at_ .listen 19)).lc.notices.map Notice.body = [[0, 0, 0, 0x2F, 0xC0, 1]]
        ∧ after (.sslSampleEvent 0) (at_ .join 0) = at_ .join 1
        ∧ after (.joinEnd 0) (at_ .join 0) = at_ .join 0
        ∧ after (.sslSampleEvent 0) (at_ .run 5) = at_ .run 5
        ∧ (after (.joinEnd 0) (at_ .join 1)).ssl.startup = .run
        ∧ (after (.joinEnd 0) (at_ .join 1)).lc.statusWaiting = some ⟨0, false⟩) :=
  ⟨stationIn_works _, stationIn_works _, by decide +kernel⟩

/-- The PRESENCE of LISTEN's end behind waiting frames: with an ALARM frame and a notice, at 210 and 219
shared bytes, at 7 frames, and beside an outlived notice that awaits the judgement of its loss. -/
theorem witness_presence_joins_the_store :
    (let ended (now : Nat) (x : Tx) (a : Option AlarmFrame) (l : List Notice) : Lc :=
      (after (.listenEnd now) { stationIn .listen with
        ssl := { (stationIn .listen).ssl with ticks := 19 }
        lc := { station.lc with tx := x, alarmWaiting := a, notices := l } }).lc
    let travel (n : Nat) : Notice := ⟨.travel, [7, 1, 0, 0], n, ⟨0, false⟩⟩
    let large : Notice := ⟨.report, List.replicate 37 0, 0, ⟨0, false⟩⟩
    let alarm : AlarmFrame := ⟨⟨7, 1, 0⟩, 0, ⟨0, false⟩⟩
    (ended 5 .idle (some alarm) [travel 3]).notices.map Notice.kind = [.travel, .presence]
      ∧ (ended 5 .idle (some alarm) [travel 3]).alarmWaiting = some alarm
      ∧ (ended 5 .idle none (List.replicate 5 large)).notices.map Notice.posted = [0, 0, 0, 0, 0, 5]
      ∧ (ended 5 .idle none (travel 0 :: List.replicate 5 large)).counters.noticeDrop = 1
      ∧ (ended 5 .idle none (List.replicate 7 (travel 0))).counters.noticeDrop = 1
      ∧ (ended 5 .idle none (List.replicate 6 (travel 0))).counters.noticeDrop = 0
      ∧ (ended 2000001 (.lost (some (.notice (travel 0)))) none []).counters.noticeStale = 1
      ∧ (ended 2000001 (.lost (some (.notice (travel 0)))) none []).tx = .lost none) := by decide +kernel

/-! ### Field inputs -/

/-- The FIU sample of a station whose sensor A has a validity and a restore count. -/
def sampleA (v : Validity) (restore : Nat) (a : Int) : State :=
  after (.fiuSampleEvent { calm with reading := { calm.reading with tempA := a } } 0)
    { station with
      br := { station.br with validity := { station.br.validity with tempA := v } }
      fiu := { station.fiu with restore := { station.fiu.restore with tempA := restore } } }

/-- Witness of SensorValidityTable: every cell of R3's table, at the ends of the range. -/
theorem witness_sensor_table :
    station.works fallback
    ∧ ((sampleA .notFitted 0 (-400)).br.validity.tempA = .notFitted
      ∧ (sampleA .unsampled 0 (-400)).br.validity.tempA = .valid
      ∧ (sampleA .valid 0 600).br.validity.tempA = .valid
      ∧ (sampleA .valid 0 601).br.validity.tempA = .fault
      ∧ (sampleA .unsampled 0 (-401)).br.validity.tempA = .fault
      ∧ (sampleA .fault 1 600).br.validity.tempA = .fault
      ∧ (sampleA .fault 1 600).fiu.restore.tempA = 2
      ∧ (sampleA .fault 2 600).br.validity.tempA = .valid
      ∧ (sampleA .fault 2 601).fiu.restore.tempA = 0) := ⟨station_works, by decide +kernel⟩

/-- The station under an image without a long-open limit. -/
def limitless : State :=
  { station with cfg := some { fallback with site := { fallback.site with longOpenLimit := 0 } } }

/-- SENSOR_FAULT and SENSOR_RESTORED with the sensor's code, at a sample with the limit 0. -/
theorem test_sensor_events :
    (let cold : InputLevels := { calm with reading := { calm.reading with tempB := 601 } }
    let faulty : State := { limitless with
      br := { station.br with validity := { station.br.validity with tempB := .fault } }
      fiu := { station.fiu with restore := { station.fiu.restore with tempB := 2 } } }
    (⟨.sensorFault, 2, 0⟩ : Event) ∈ (after (.fiuSampleEvent cold 0) limitless).ssl.events
      ∧ (⟨.sensorRestored, 2, 0⟩ : Event)
        ∈ (after (.sensorRestored .tempB calm 0) faulty).ssl.events) := by decide +kernel

/-- The ranges of Section 1.2 at their ends. -/
theorem test_reading_ranges :
    [-401, -400, 600, 601].map (readingFits .outdoor) = [false, true, true, false]
    ∧ [-1, 0, 1000, 1001].map (readingFits .exhaust) = [false, true, true, false]
    ∧ [-1, 0, 20000, 20001].map (readingFits .daylight) = [false, true, true, false] := by decide

/-- The events of one sample in the order of R4 under the fallback image's limit of 600, on an empty list and
on a full one; no door becomes long-open at it. -/
theorem witness_sensor_event_order :
    (let cold : InputLevels := ⟨⟨700, 700, -100, 1001, 500⟩, 0, 0, 0, false, 7⟩
    let full : State := { station with
      ssl := { station.ssl with events := List.replicate 8 ⟨.numberClash, 3, 0⟩ }
      br := { station.br with
        tempSource := .own, validity := { station.br.validity with outdoor := .fault } }
      fiu := { station.fiu with restore := { station.fiu.restore with outdoor := 2 } } }
    station.works fallback ∧ fallback.site.longOpenLimit = 600 ∧ cold.fire = station.br.fireInput
      ∧ (after (.fiuSampleEvent cold 0) station).ssl.events
        = [⟨.sensorFault, 1, 0⟩, ⟨.sensorFault, 2, 0⟩, ⟨.sensorFault, 4, 0⟩, ⟨.tempBlind, 0, 0⟩]
      ∧ station.makesNoDoorLate (after (.fiuSampleEvent cold 0) station)
      ∧ (after (.fiuSampleEvent cold 0) full).ssl.events
        = List.replicate 3 ⟨.numberClash, 3, 0⟩ ++ [⟨.sensorFault, 1, 0⟩, ⟨.sensorFault, 2, 0⟩,
          ⟨.sensorRestored, 3, 0⟩, ⟨.sensorFault, 4, 0⟩, ⟨.tempBlind, 0, 0⟩]) := by
  refine ⟨station_works, rfl, rfl, by decide +kernel, ?_, by decide +kernel⟩
  unfold State.makesNoDoorLate
  decide +kernel

/-- The FIU sample with the two bay sensors at these readings, in the state before. -/
def sampleAB (a b : Int) (s : State) : State :=
  after (.fiuSampleEvent { calm with reading := { calm.reading with tempA := a, tempB := b } } 0) s

/-- Witness of BayTemperatureChain: each step of R5, with R5's own figure, and the ages 599, 600. -/
theorem witness_bay_temperature :
    station.works fallback
    ∧ (let aged (n : Nat) : State :=
        { station with fiu := { station.fiu with lastGood := some 120, lastGoodAge := n } }
      let own (t : Half) := statusOf 0 0 15 1 t 0 0 0
      (sampleAB (-15) (-20) station).br.tBay = -18
        ∧ (sampleAB (-15) 700 station).br.tBay = -15 ∧ (sampleAB 700 (-20) station).br.tBay = -20
        ∧ (sampleAB 700 700 (among [peer 6 .fresh (own 100), peer 8 .fresh (own 111)])).br.tBay = 105
        ∧ (sampleAB 700 700 (among [peer 6 .fresh (own 100)])).br.tempSource = .substituted
        ∧ (sampleAB 700 700 (among [peer 6 .stale (own 100)])).br.tempSource = .blind
        ∧ (sampleAB 700 700 (aged 599)).br.tempSource = .held
        ∧ (sampleAB 700 700 (aged 600)).br.tempSource = .blind) := ⟨station_works, by decide +kernel⟩

/-- TEMP_BLIND names the sample that goes blind, and is none where the sample does not: the premises of its
completion in BayTemperatureChain, met without a last good value. -/
theorem test_temp_blind :
    (let cold : InputLevels := { calm with reading := { calm.reading with tempA := 700, tempB := 700 } }
    let own : State := { station with br := { station.br with tempSource := .own } }
    (∀ k ∈ [Sensor.tempA, .tempB], readingFits k (cold.reading.get k) = false)
      ∧ own.pt.substitute? 6 = none ∧ own.pt.substitute? 8 = none ∧ own.fiu.lastGood = none
      ∧ own.br.tempSource ≠ .blind
      ∧ (after (.tempBlind cold 0) own).ssl.events.getLast? = some ⟨.tempBlind, 0, 0⟩
      ∧ after (.tempBlind cold 0) own = after (.fiuSampleEvent cold 0) own
      ∧ (⟨.tempBlind, 0, 0⟩ : Event) ∈ (after (.tempBlind cold 0) { limitless with br := own.br }).ssl.events
      ∧ after (.tempBlind calm 0) own = own) := by decide +kernel

/-- Witness of OutdoorExhaustAndDaylightReadings, with R10's own example: station 20, between 18, 21 and
22. -/
theorem witness_outdoor :
    (let twenty : State :=
      { among [peer 18 .fresh (statusOf 0 128 15 1 0 (-50) 0 0), peer 21 .fresh (statusOf 0 0 15 1 0 7 0 0),
          peer 22 .fresh (statusOf 0 128 15 1 0 (-70) 0 0)] with
        ssl := { station.ssl with own := 20 }
        br := { station.br with validity := { station.br.validity with outdoor := .notFitted } } }
    twenty.held = none ∧ twenty.cfg = some fallback ∧ (twenty.pt.bays.map Prod.fst).Pairwise (· < ·)
      ∧ (after (.fiuSampleEvent calm 0) twenty).br.tOut = -50
      ∧ (after (.fiuSampleEvent calm 0) { twenty with pt := ⟨[], []⟩ }).br.tOut = -300
      ∧ (after (.fiuSampleEvent calm 0) station).br.outdoorOwn = true
      ∧ (after (.fiuSampleEvent calm 0) station).br.exhaust = some 300) := by decide +kernel

/-- The station with door 1's contacts settled so. -/
def doorAt (d t : Contact) (r : Door) : State :=
  { station with
    fiu := { station.fiu with
      doorContacts := { station.fiu.doorContacts with d1 := d }
      trailerContacts := { station.fiu.trailerContacts with d1 := t } }
    br := { station.br with doors := { station.br.doors with d1 := r } } }

/-- Witness of DoorContactsAndStates: the four cells of R12's table and a door unfitted. -/
theorem witness_doors :
    station.works fallback
    ∧ (let closed : Door := ⟨.closed, 0, false⟩
      let open1 : InputLevels := { calm with doorOpen := 1 }
      (after (.fiuSampleEvent open1 0) (doorAt ⟨false, false⟩ ⟨false, false⟩ closed)).fiu.doorContacts.d1
          = ⟨false, true⟩
        ∧ (after (.fiuSampleEvent open1 0) (doorAt ⟨false, true⟩ ⟨false, false⟩ closed)).br.doors.d1.state
          = .openUnsealed
        ∧ (after (.fiuSampleEvent open1 0) (doorAt ⟨false, true⟩ ⟨true, false⟩ closed)).br.sealedDoors = 1
        ∧ (after (.fiuSampleEvent calm 0) (doorAt ⟨false, true⟩ ⟨true, false⟩ closed)).fiu.doorContacts.d1
          = ⟨false, false⟩
        ∧ (after (.fiuSampleEvent { open1 with trailer := 1 } 0)
            (doorAt ⟨false, true⟩ ⟨true, false⟩ closed)).br.doors.d1.state = .openSealed) :=
  ⟨station_works, by decide +kernel⟩

/-- Witness of OpenSecondsAndLongOpen: door 1 open at 599, 600 and 65535 seconds of a limit of 600. -/
theorem witness_open_seconds :
    station.works fallback
    ∧ (let open1 : InputLevels := { calm with doorOpen := 1 }
      let stood (n : Nat) (m : Bool) := doorAt ⟨true, false⟩ ⟨false, false⟩ ⟨.openUnsealed, n, m⟩
      (after (.fiuSampleEvent open1 0) (stood 599 false)).br.doors.d1 = ⟨.openUnsealed, 600, false⟩
        ∧ (after (.doorLongOpen 0 open1 0) (stood 599 false)) = stood 599 false
        ∧ (after (.doorLongOpen 0 open1 0) (stood 600 false)).br.doors.d1 = ⟨.openUnsealed, 601, true⟩
        ∧ (after (.doorLongOpen 0 open1 0) (stood 600 false)).ssl.events.getLast?
          = some ⟨.doorLongOpen, 1, 0⟩
        ∧ (after (.fiuSampleEvent open1 0) (stood 65535 true)).br.doors.d1.openSeconds = 65535
        ∧ (after (.fiuSampleEvent calm 0)
            (doorAt ⟨false, false⟩ ⟨false, false⟩ ⟨.openUnsealed, 9, true⟩)).br.doors.d1
          = ⟨.closed, 0, false⟩) := ⟨station_works, by decide +kernel⟩

/-- The FIU sample of zone 1 in a state with a remaining hold. -/
def zoneSample (z : ZoneState) (n : Nat) (x : InputLevels) : Zone :=
  (after (.fiuSampleEvent x 0)
    { station with br := { station.br with
      zones := { station.br.zones with g1 := ⟨z, n, .noEdge, 1⟩ } } }).br.zones.g1

/-- Witness of OccupancyZones: every cell of R17's table, the hold at 2 and at 1. -/
theorem witness_zones :
    station.works fallback
    ∧ (let seen : InputLevels := { calm with occupied := 1 }
      zoneSample .vacant 0 seen = ⟨.occupied, 0, .noEdge, 1⟩
        ∧ zoneSample .vacant 0 calm = ⟨.vacant, 0, .noEdge, 1⟩
        ∧ zoneSample .occupied 0 seen = ⟨.occupied, 0, .noEdge, 1⟩
        ∧ zoneSample .occupied 0 calm = ⟨.hold, 300, .noEdge, 1⟩
        ∧ zoneSample .hold 9 seen = ⟨.occupied, 0, .noEdge, 1⟩
        ∧ zoneSample .hold 2 calm = ⟨.hold, 1, .noEdge, 1⟩
        ∧ zoneSample .hold 1 calm = ⟨.vacant, 0, .noEdge, 1⟩) := ⟨station_works, by decide +kernel⟩

/-- Witness of FireInputSettlesAndEnters: an equal sample, a first and a second differing one, in RUN and
in LOAD. -/
theorem witness_fire_input :
    (let alight : InputLevels := { calm with fire := true }
    let marked (s : State) : State := { s with fiu := { s.fiu with firePending := true } }
    station.held = none ∧ loading.held = none ∧ 1 ≤ station.ssl.own ∧ 1 ≤ loading.ssl.own
      ∧ (after (.fiuSampleEvent alight 0) station).fmc.mode = .normal
      ∧ (after (.fiuSampleEvent alight 0) station).fiu.firePending = true
      ∧ (after (.fiuSampleEvent alight 0) (marked station)).fmc
          = ⟨.fire .own (some 7), some 30, 1, false⟩
      ∧ (after (.fiuSampleEvent alight 0) (marked loading)).fmc = ⟨.fire .own (some 7), none, 0, true⟩
      ∧ (after (.fiuSampleEvent calm 0) (marked station)).fiu.firePending = false) := by
  decide +kernel

/-- The rows of FireInputSettlesAndEnters in fire mode and outside RUN: HEARD to OWN, OWN released, OWN
active again, and the sends of SELFTEST, LISTEN, JOIN and STRAP_FAULT. -/
theorem witness_fire_rows :
    (let settled (s : State) (f : Bool) : State :=
      { s with fiu := { s.fiu with firePending := true }, br := { s.br with fireInput := !f } }
    let sampled (s : State) (f : Bool) : State :=
      after (.fiuSampleEvent { calm with fire := f } 5) (settled s f)
    (sampled (burning .heard (some 30)) true).fmc = ⟨.fire .own (some 7), some 30, 1, false⟩
      ∧ (sampled (burning .heard (some 30)) true).lc.tx = .holding
      ∧ (sampled (burning .heard (some 30)) false).fmc = (burning .heard (some 30)).fmc
      ∧ (sampled { burning .own (some 7) with fmc := ⟨.fire .own (some 7), some 9, 4, false⟩ } false).fmc
          = ⟨.fire .own (some 7), none, 4, false⟩
      ∧ (sampled { burning .own (some 7) with fmc := ⟨.fire .own (some 7), none, 255, false⟩ } true).fmc
          = ⟨.fire .own (some 7), some 30, 255, false⟩
      ∧ [Startup.selftest, .listen, .join].map (fun u =>
          (sampled (stationIn u) true).lc.alarmWaiting) = List.replicate 3 (some ⟨⟨7, 1, 0⟩, 5, ⟨0, false⟩⟩)
      ∧ (sampled (stationIn .strapFault) true).fmc = ⟨.fire .own (some 7), none, 0, false⟩
      ∧ (sampled (stationIn .strapFault) true).lc.alarmWaiting = none) := by decide +kernel

/-- Witness of EdgeArrivalRaisesNotice: an arrival at an east edge, in RUN and in JOIN, with a full store, and
two arrivals of one sample. -/
theorem witness_edge_arrival :
    (let edged (s : State) : State := { s with br := { s.br with
        zones := { s.br.zones with g2 := ⟨.vacant, 0, .east, 2⟩ } } }
    let seen : InputLevels := { calm with occupied := 2 }
    (edged station).held = none ∧ (edged station).cfg = some fallback
      ∧ ((edged station).br.zones.get 1).edge ≠ .noEdge ∧ seen.occupied.getLsbD 1 = true
      ∧ (∀ j : Fin 6, j ≠ 1 → seen.occupied.getLsbD j.val = false) ∧ seen.fire = station.br.fireInput
      ∧ (after (.fiuSampleEvent seen 5) (edged station)).lc.notices
          = [⟨.travel, [7, 1, 0, 0], 5, ⟨0, false⟩⟩]
      ∧ (after (.fiuSampleEvent seen 5) (edged station)).ltc.prelight = .active 60
      ∧ (after (.fiuSampleEvent seen 5) (edged (stationIn .join))).lc.notices = []
      ∧ (let full : State := edged { station with lc := { station.lc with
          notices := List.replicate 7 ⟨.travel, [7, 1, 0, 0], 0, ⟨0, false⟩⟩ } }
        (after (.fiuSampleEvent seen 5) full).lc.counters.noticeDrop = 1)
      ∧ (let two : State := { edged station with br := { (edged station).br with
          zones := { (edged station).br.zones with g5 := ⟨.vacant, 0, .west, 16⟩ } } }
        let t := after (.fiuSampleEvent { calm with occupied := 18 } 5) two
        t.lc.notices.map Notice.body = [[7, 1, 0, 0], [7, 0, 0, 1]] ∧ t.ltc.sequence = 2)) := by
  decide +kernel

/-! ### Calendar and time -/

/-- A calendar of Monday: WORK at 360, CLOSED at 1080, WORK (fixed) at 1800. -/
def days : List CalEntry := [⟨360, .work, false⟩, ⟨1080, .closed, false⟩, ⟨1800, .work, true⟩]

/-- The image of the calendar tests: 10 minutes of lead a degree, at most 60, WORK at 16.0 degrees. -/
def calendared : Configuration :=
  { fallback with
    site := { fallback.site with leadPerDegree := 10, leadMax := 60 }
    calendar := days
    phases := { fallback.phases with work := { fallbackRow with setpoint := 160 } } }

/-- The station on that calendar at a minute and second, with an amendment list. -/
def at_ (m n : Nat) (l : List Amendment) : State :=
  { station with
    cfg := some calendared
    scu := { station.scu with minute := m, second := n, amendments := l } }

theorem at_works (m n : Nat) (l : List Amendment) : (at_ m n l).works calendared := ⟨rfl, rfl⟩

/-- Witness of TimeOfWeekAdvances: seconds 58 and 59, the end of the week, elapsed 58 and 59, a source
LOST and one FRESH. -/
theorem witness_time_of_week :
    station.held = none
    ∧ (after .scuSampleEvent (at_ 9 58 [])).scu.second = 59
    ∧ (after .minuteBoundary (at_ 10079 59 [])).scu.minute = 0
    ∧ after .minuteBoundary (at_ 9 58 []) = at_ 9 58 []
    ∧ (let ticking (n : Nat) : State := { station with scu := { station.scu with elapsed := n } }
      (after .scuSampleEvent (ticking 58)).scu.elapsed = 59
        ∧ (after .elapsedMinuteTick (ticking 59)).scu.elapsed = 0)
    ∧ (let from_ (a : Age) : State :=
        { among [peer 6 a (statusOf 0 0 3 1 0 0 0 0)] with
          scu := { station.scu with rank := 4, source := some 6 } }
      (after .scuSampleEvent (from_ .lost)).scu.rank = 15
        ∧ (after .scuSampleEvent (from_ .stale)).scu.source = some 6) := by decide +kernel

/-- Witness of TimedAmendmentsCountDown: remaining 1 and 2 at a tick and between ticks. -/
theorem witness_countdown :
    (let listed (n : Nat) : State :=
      { station with scu := { station.scu with
          elapsed := n
          amendments := [.close 56 (some 1), .close 57 none, .lightForce 56 2 800] } }
    (listed 59).held = none
      ∧ (after .amendmentExpiry (listed 59)).scu.amendments
          = [.close 57 none, .lightForce 56 1 800]
      ∧ (after .scuSampleEvent (listed 58)).scu.amendments = (listed 58).scu.amendments) := by
  decide +kernel

/-- Witness of HoldRetiresAtItsDelay: a HOLD of 30 minutes on entry 1, one minute before its delayed
minute, at it, before its scheduled minute, and on another entry's span. -/
theorem witness_hold_retires :
    (at_ 389 59 [.hold 56 1 30 .holding]).works calendared
    ∧ (after .scuSampleEvent (at_ 388 59 [.hold 56 1 30 .waiting])).scu.amendments
        = [.hold 56 1 30 .holding]
    ∧ (baseEntry days 390 = 1 ∧ 30 ≤ minutesForward (entryMinute days 1) 390)
    ∧ (after (.holdRetire 1) (at_ 389 59 [.hold 56 1 30 .holding])).scu.amendments = []
    ∧ after (.holdRetire 1) (at_ 388 59 [.hold 56 1 30 .holding]) = at_ 388 59 [.hold 56 1 30 .holding]
    ∧ (after .scuSampleEvent (at_ 100 0 [.hold 56 1 30 .waiting])).scu.amendments
        = [.hold 56 1 30 .waiting]
    ∧ (after .scuSampleEvent (at_ 1100 0 [.hold 56 1 30 .waiting])).scu.amendments = [] :=
  ⟨at_works _ _ _, by decide +kernel⟩

/-- Witness of OperatingPhaseFollowsTheCalendar: the base entry at, before and after an entry's minute;
CLOSE, an invalid time, PREHEAT and a changed phase's bump; a HOLDING HOLD, at entry 1 and 2, and an
ADVANCE; PREHEAT's row and setpoint. -/
theorem witness_phase :
    days ≠ [] ∧ (days.map CalEntry.minute).Pairwise (· < ·)
    ∧ baseEntry days 360 = 1 ∧ baseEntry days 359 = 3 ∧ baseEntry days 1799 = 2
    ∧ (at_ 0 0 []).works calendared
    ∧ (after .scuSampleEvent (at_ 1100 0 [])).scu.phase = .closed
    ∧ (after .scuSampleEvent (at_ 400 0 [.close 56 none])).scu.phase = .closed
    ∧ (after .scuSampleEvent { at_ 1100 0 [] with
        scu := { (at_ 1100 0 []).scu with valid := false } }).scu.phase = .work
    ∧ (after .scuSampleEvent { at_ 1100 0 [] with
        scu := { (at_ 1100 0 []).scu with latch := true } }).scu.phase = .preheat
    ∧ (after .scuSampleEvent { at_ 1100 0 [] with
        hsu := { station.hsu with rotation := [3, 1, 2] } }).hsu.rotation = [1, 2, 3]
    ∧ (scheduledPhase days 370 [.hold 56 1 30 .holding] = .work
      ∧ pendingEntry days 370 [.hold 56 1 30 .holding] = 1
      ∧ scheduledPhase days 1080 [.hold 56 2 30 .holding] = .work
      ∧ scheduledPhase days 1080 [.advance 57 3] = .work ∧ scheduledPhase days 1080 [] = .closed
      ∧ pendingEntry days 2000 [] = 1)
    ∧ (calendared.setpoint .preheat = 160 ∧ calendared.row .preheat = fallbackRow) := by
  refine ⟨by decide, by decide, by decide, by decide, by decide, at_works _ _ _, ?_⟩
  decide +kernel

/-- Witness of PreheatLatchIsSetAtTheLead: 4.0 degrees short, a lead of 40 minutes before entry 3 at
1800, at 41 and at 40 minutes; the target over the CLOSED entry and round the calendar; a set latch in CLOSED,
under a CLOSE record, in WORK and in an invalid time. -/
theorem witness_preheat :
    (let cold (m : Nat) : State :=
      { at_ m 59 [] with br := { station.br with tBay := 120, tempSource := .own } }
    (cold 1758).scu.latch = false ∧ (cold 1758).held = none ∧ (cold 1758).cfg = some calendared
      ∧ preheatLead calendared (cold 1758).br = 40
      ∧ preheatLead calendared station.br = 60
      ∧ (after .minuteBoundary (cold 1758)).scu.latch = false
      ∧ (after .minuteBoundary (cold 1759)).scu.phase = .preheat
      ∧ [1, 2, 3].map (preheatTarget days) = [some 1, some 3, some 3]
      ∧ preheatTarget [⟨360, .brk, false⟩, ⟨720, .changeover, false⟩, ⟨1080, .closed, false⟩] 3 = some 2
      ∧ preheatTarget [⟨360, .brk, false⟩, ⟨1080, .closed, false⟩] 2 = none
      ∧ (let latched (m : Nat) (v : Bool) (l : List Amendment) : Bool :=
          (after .scuSampleEvent { at_ m 0 l with
            scu := { (at_ m 0 l).scu with latch := true, valid := v } }).scu.latch
        latched 1100 true [] = true ∧ latched 1100 true [.close 56 none] = false
          ∧ latched 400 true [] = false ∧ latched 400 false [] = true)) := by decide +kernel

/-- Witness of CalendarMismatchNamesTheLowest: two FRESH stations differ, a STALE one is not compared. -/
theorem witness_mismatch :
    (let odd : StatusBody := { statusOf 0 0 15 1 0 0 0 0 with signature := 1 }
    let s := among [peer 3 .stale odd, peer 4 .fresh odd, peer 9 .fresh odd]
    s.held = none ∧ s.cfg = some fallback ∧ (s.pt.bays.map Prod.fst).Pairwise (· < ·)
      ∧ (after .scuSampleEvent s).ssl.events = [⟨.calendarMismatch, 4, 0⟩]
      ∧ (after .scuSampleEvent (among [peer 3 .stale odd])).scu.mismatch = false) := by decide +kernel

/-! ### Frames that carry time and state -/

/-- The station at minute 600 second 30 with a rank and a source. -/
def ranked (r : Nat) (o : Option Nat) (valid : Bool) : State :=
  { station with scu := { station.scu with minute := 600, second := 30, rank := r, source := o, valid := valid } }

/-- Witness of TimeFrameIsJudgedByRank: ranks 1 and 2, the source itself, 2 and 3 seconds away, a second
of 60, and a time not yet valid. -/
theorem witness_time_frame :
    station.hears (56 : Byte).toNat ∧ isPanelNumber (56 : Byte).toNat = true ∧ station.ssl.startup = .run
    ∧ (after (.time 56 ⟨700, 0⟩) (ranked 1 none true)).scu = (ranked 1 none true).scu
    ∧ (after (.time 56 ⟨600, 32⟩) (ranked 2 none true)).scu = (ranked 1 (some 56) true).scu
    ∧ (after (.time 56 ⟨600, 33⟩) (ranked 1 (some 56) true)).scu.second = 33
    ∧ (after (.time 56 ⟨600, 60⟩) (ranked 2 none true)).scu = (ranked 2 none true).scu
    ∧ (after (.time 56 ⟨10079, 59⟩) (ranked 15 none false)).scu.minute = 10079 :=
  ⟨station_hears _ (by decide), by decide, rfl, by decide +kernel⟩

/-- A time step's clauses: a forward step over entry 1 into and past a HOLD's window, over an ADVANCE, a
backward step, and the latch set by the step. -/
theorem witness_time_step :
    (let stepped (l : List Amendment) (m : Half) : List Amendment :=
      (after (.time 56 ⟨m, 0⟩) (at_ 300 0 l)).scu.amendments
    stepped [.hold 56 1 30 .waiting] 389 = [.hold 56 1 30 .holding]
      ∧ stepped [.hold 56 1 30 .waiting] 390 = []
      ∧ stepped [.hold 56 1 30 .waiting] 290 = [.hold 56 1 30 .waiting]
      ∧ stepped [.advance 56 1] 359 = [.advance 56 1] ∧ stepped [.advance 56 1] 360 = []
      ∧ stepped [.lightForce 56 9 800] 400 = [.lightForce 56 9 800]
      ∧ (after (.time 56 ⟨1740, 0⟩) (at_ 300 0 [])).scu.phase = .preheat
      ∧ (after (.time 56 ⟨1739, 0⟩) (at_ 300 0 [])).scu.phase = .closed) := by decide +kernel

/-- TIME and STATUS frames in SELFTEST: the table and the SCU take nothing. -/
theorem witness_selftest_takes_nothing :
    (stationIn .selftest).hears (56 : Byte).toNat ∧ (stationIn .selftest).hears (6 : Byte).toNat
    ∧ (let s : State := { stationIn .selftest with lc := { station.lc with yielding := true } }
      after (.time 56 ⟨700, 0⟩) s = stationIn .selftest
        ∧ after (.status 6 (statusOf 0 0 1 1 0 0 0 0)) s = stationIn .selftest) :=
  ⟨hears_of_idle rfl rfl rfl rfl (by decide), hears_of_idle rfl rfl rfl rfl (by decide), by decide +kernel⟩

/-- An interval code of 4 is stored as 3. -/
theorem test_announced_interval :
    (slot? (after (.status 6 (statusOf 0 0 1 4 0 0 0 0)) station).pt.bays 6).bind BayEntry.announced
      = some (statusOf 0 0 1 3 0 0 0 0) := by decide +kernel

/-- Witness of StatusFrameRefreshesItsSender: rank 13 and 14 from the source, rank r+1 at and below the
own one; 2 and 3 seconds away, a time not yet valid, a second of 60 and a minute of 10080. -/
theorem witness_status :
    station.hears (6 : Byte).toNat ∧ isBayNumber (6 : Byte).toNat = true ∧ station.ssl.startup = .run
    ∧ (let body (r : Byte) := statusOf 0 0 r 4 0 0 0 0
      (after (.status 6 (body 13)) (ranked 5 (some 6) true)).scu.rank = 14
        ∧ (after (.status 6 (body 14)) (ranked 5 (some 6) true)).scu.rank = 15
        ∧ (after (.status 6 (body 4)) (ranked 5 none true)).scu.rank = 5
        ∧ (after (.status 6 (body 3)) (ranked 5 none true)).scu.source = some 6
        ∧ slot? (after (.status 6 (body 3)) station).pt.bays 6
          = some ⟨.fresh, 0, .s16, some (statusOf 0 0 3 3 0 0 0 0), none⟩)
    ∧ (let heard (r : Byte) (m : Half) (n : Byte) (s : State) : Scu :=
        (after (.status 6 { statusOf 0 0 r 4 0 0 0 0 with minute := m, second := n }) s).scu
      heard 3 600 32 (ranked 5 none true) = (ranked 4 (some 6) true).scu
        ∧ (heard 3 600 33 (ranked 5 none true)).second = 33
        ∧ (heard 3 10079 59 (ranked 15 none false)).minute = 10079
        ∧ (heard 3 600 30 (ranked 15 none false)).valid = true
        ∧ heard 13 600 60 (ranked 5 (some 6) true) = (ranked 5 (some 6) true).scu
        ∧ heard 3 10080 0 (ranked 5 none true) = (ranked 5 none true).scu
        ∧ (heard 14 600 60 (ranked 5 (some 6) true)).source = none) :=
  ⟨station_hears _ (by decide), by decide, rfl, by decide +kernel⟩

/-- Witness of PresenceResetsItsSendersEntry: in RUN over a STATUS entry, and in SELFTEST. -/
theorem witness_presence :
    (let s := among [peer 6 .lost (statusOf 0 0 1 1 0 0 0 0)]
    s.held = none ∧ s.cfg.isSome = true ∧ s.lc.tx.listening = true ∧ s.lc.awaitRecessive = false
      ∧ (6 : Byte).toNat ≠ s.ssl.own
      ∧ isBayNumber (6 : Byte).toNat = true
      ∧ (after (.presence 6 ⟨1, 3, 0, 2⟩) s).pt.bays = [(6, ⟨.fresh, 0, .s8, none, some ⟨1, 3⟩⟩)]
      ∧ (after (.presence 6 ⟨1, 3, 0, 2⟩) s).lc.presenceMark = true
      ∧ (after (.presence 6 ⟨1, 3, 0, 2⟩) (stationIn .selftest)).pt.bays = []
      ∧ (after (.presence 6 ⟨1, 3, 0, 2⟩) (after .alarmHoldHeard s)).lc.holdHeard = true
      ∧ (after (.presence 6 ⟨1, 3, 0, 2⟩) (after .brokenCharacter s)).lc.presenceMark = false) := by
  decide +kernel

/-- Witness of EntriesAgeByTheirSilence: an interval of 4 s at silence 7, 8, 16, and a panel at 119, 120,
240 (R78's second table, R79). -/
theorem witness_ageing :
    station.works fallback
    ∧ (let bay (a : Age) (n : Nat) : State := { station with pt := ⟨[(6, ⟨a, n, .s4, none, none⟩)], []⟩ }
      let panel (a : Age) (n : Nat) : State := { station with pt := ⟨[], [(56, ⟨a, n, none⟩)]⟩ }
      (after .ptSampleEvent (bay .fresh 7)).pt.age? 6 = some .fresh
        ∧ (after (.entryStale 6) (bay .fresh 8)).pt.age? 6 = some .stale
        ∧ (after (.entryLost 6) (bay .stale 16)).pt.age? 6 = some .lost
        ∧ (after .ptSampleEvent (panel .fresh 119)).pt.age? 56 = some .fresh
        ∧ (after (.entryStale 56) (panel .fresh 120)).pt.age? 56 = some .stale
        ∧ (after (.entryLost 56) (panel .stale 240)).pt.age? 56 = some .lost) :=
  ⟨station_works, by decide +kernel⟩

/-! ### Panel commands -/

theorem at_takes (m n : Nat) (l : List Amendment) : (at_ m n l).takesCommand 56 toSeven :=
  ⟨hears_of_idle rfl rfl rfl rfl (by decide : (56 : Nat) ≠ 7), by decide, rfl, Nat.le_refl 7, Nat.le_refl 7,
    (by decide : (none : Option Byte) ≠ some 1)⟩

/-- Eight LIGHT_FORCE records. -/
def eightForces : List Amendment := List.replicate 8 (.lightForce 57 9 800)

/-- HOLD_PHASE and ADVANCE_PHASE over a record on the pending entry 2, on a full list, on seven records beside
one on entry 2, and 10 minutes into a HOLDING HOLD on entry 1. -/
theorem witness_amend_replaces :
    (let hold (d : Half) (s : State) : State := after (.holdPhase 56 toSeven d) s
    let advance (s : State) : State := after (.advancePhase 56 toSeven) s
    let holding := at_ 370 0 [.hold 57 1 30 .holding]
    (hold 9 (at_ 400 0 [.advance 57 2])).scu.amendments = [.hold 56 2 9 .waiting]
      ∧ (advance (at_ 400 0 [.hold 57 2 5 .waiting])).scu.amendments = [.advance 56 2]
      ∧ (hold 9 (at_ 400 0 eightForces)).scu.amendments = eightForces.tail ++ [.hold 56 2 9 .waiting]
      ∧ (hold 9 (at_ 400 0 eightForces)).ssl.events = [⟨.amendmentReplaced, 4, 400⟩]
      ∧ (advance (at_ 400 0 eightForces)).ssl.events = [⟨.amendmentReplaced, 4, 400⟩]
      ∧ (hold 9 (at_ 400 0 (.hold 57 2 5 .waiting :: eightForces.tail))).ssl.events = []
      ∧ (hold 60 holding).scu.amendments = [.hold 56 1 60 .holding]
      ∧ (hold 10 holding).scu.amendments = [] ∧ (hold 11 holding).scu.amendments = [.hold 56 1 11 .holding]
      ∧ (advance holding).scu.amendments = [] ∧ (advance holding).scu.phase = .work) := by decide +kernel

/-- Witness of HoldPhaseDelaysThePendingEntry: delays 1, 240, 241 and 0 on entry 2, one cut below the next
entry, and the fixed entry 3. -/
theorem witness_hold_phase :
    (at_ 400 0 []).takesCommand 56 toSeven ∧ (at_ 400 0 []).cfg = some calendared
    ∧ (at_ 400 0 []).fmc.mode = .normal ∧ 2 ≤ days.length
    ∧ ([Amendment.lightForce 56 1 800].all Amendment.isTimed) = true
    ∧ (after (.holdPhase 56 toSeven 1) (at_ 400 0 [])).scu.amendments = [.hold 56 2 1 .waiting]
    ∧ (after (.holdPhase 56 toSeven 240) (at_ 400 0 [.lightForce 56 1 800])).scu.amendments
        = [.lightForce 56 1 800, .hold 56 2 240 .waiting]
    ∧ (after (.holdPhase 56 toSeven 241) (at_ 400 0 [])).scu.amendments = []
    ∧ (after (.holdPhase 56 toSeven 0) (at_ 400 0 [])).scu.amendments = []
    ∧ (after (.holdPhase 56 toSeven 9) (at_ 1100 0 [])).scu.amendments = []
    ∧ (after (.holdPhase 56 toSeven 240) { at_ 400 0 [] with
        cfg := some { calendared with calendar := [⟨360, .work, false⟩, ⟨1080, .closed, false⟩,
          ⟨1100, .work, false⟩] } }).scu.amendments = [.hold 56 2 19 .waiting] := by
  refine ⟨at_takes _ _ _, rfl, rfl, by decide, by decide, ?_⟩
  decide +kernel

/-- Witness of AdvancePhaseSchedulesThePendingEntry: entry 2 (CLOSED), entry 1 (WORK) under a CLOSE, the
fixed entry 3. -/
theorem witness_advance_phase :
    (at_ 100 0 []).takesCommand 56 toSeven ∧ (at_ 100 0 []).cfg = some calendared
    ∧ (after (.advancePhase 56 toSeven) (at_ 100 0 [])).scu.amendments = [.advance 56 1]
    ∧ (after (.advancePhase 56 toSeven) (at_ 100 0 [])).scu.phase = .work
    ∧ (after (.advancePhase 56 toSeven) (at_ 400 0 [])).scu.phase = .closed
    ∧ (after (.advancePhase 56 toSeven) (at_ 100 0 [.close 56 none])).scu.phase = .closed
    ∧ (after (.advancePhase 56 toSeven) (at_ 1100 0 [])).scu.amendments = [] := by
  refine ⟨at_takes _ _ _, rfl, ?_⟩
  decide +kernel

/-- Witness of CloseAndOpenBays: minutes 0, 1440 and 1441, a list of eight, and OPEN_BAYS. -/
theorem witness_close_open :
    (at_ 400 0 []).takesCommand 56 toSeven
    ∧ (after (.closeBays 56 toSeven 0) (at_ 400 0 [])).scu.amendments = [.close 56 none]
    ∧ (after (.closeBays 56 toSeven 1440) (at_ 400 0 [])).scu.amendments = [.close 56 (some 1440)]
    ∧ (after (.closeBays 56 toSeven 1441) (at_ 400 0 [])).scu.amendments = []
    ∧ (after (.closeBays 56 toSeven 5)
        (at_ 400 0 (List.replicate 8 (.lightForce 57 9 800)))).ssl.events.getLast?
        = some ⟨.amendmentReplaced, 4, 400⟩
    ∧ (after (.openBays 56 toSeven) (at_ 400 0 [.close 56 none, .lightForce 56 1 800])).scu.amendments
        = [.lightForce 56 1 800] := by
  refine ⟨at_takes _ _ _, ?_⟩
  decide +kernel

/-- Witness of LightForceAndCancel: 1 and 240 minutes, level codes 250 and 251, and CANCEL_AMENDMENTS. -/
theorem witness_light_force :
    station.takesCommand 56 toSeven ∧ station.fmc.mode = .normal
    ∧ (after (.lightForce 56 toSeven 1 250) station).scu.amendments = [.lightForce 56 1 1000]
    ∧ forceLevel (after (.lightForce 56 toSeven 240 0) station).scu.amendments = some 0
    ∧ (after (.lightForce 56 toSeven 1 251) station).scu.amendments = []
    ∧ (after (.lightForce 56 toSeven 0 250) station).scu.amendments = []
    ∧ (after (.cancelAmendments 56 toSeven) (at_ 400 0 [.close 56 none])).scu.amendments = [] :=
  ⟨station_takes, rfl, by decide +kernel⟩

/-- HOLD_PHASE and ADVANCE_PHASE refused: an invalid time, a calendar of one entry and of none. -/
theorem witness_amend_refused :
    (let refused (s : State) : Bool :=
      (after (.holdPhase 56 toSeven 9) s).scu == s.scu && (after (.advancePhase 56 toSeven) s).scu == s.scu
        && (after (.holdPhase 56 toSeven 9) s).pt.panels == [(56, ⟨.fresh, 0, some 1⟩)]
    let s := at_ 400 0 []
    let unset : State := { s with scu := { s.scu with valid := false } }
    s.takesCommand 56 toSeven ∧ unset.scu.valid = false ∧ refused unset = true
      ∧ refused s = false
      ∧ refused { s with cfg := some { calendared with calendar := days.take 1 } } = true
      ∧ refused { s with cfg := some { calendared with calendar := [] } } = true) :=
  ⟨at_takes _ _ _, rfl, by decide +kernel⟩

/-- A record of every kind that stands at minute 400, where entry 1 is the base entry. -/
def standing : List Amendment :=
  [.hold 57 2 30 .waiting, .hold 57 1 41 .holding, .advance 57 2, .lightForce 57 9 800]

theorem standing_stands : ∀ r ∈ standing, r.stands days 400 := by
  simp only [standing, List.forall_mem_cons, Amendment.stands]
  exact ⟨by decide, by decide, by decide, trivial, fun _ h => nomatch h⟩

/-- CLOSE_BAYS and LIGHT_FORCE beside standing records, to a list of 8 without an event and to one of 9 with
it; OPEN_BAYS and CANCEL_AMENDMENTS with the phase that follows. -/
theorem witness_amend_stands :
    (∀ r ∈ standing, r.stands calendared.calendar (at_ 400 0 standing).scu.minute)
    ∧ (let close (s : State) : State := after (.closeBays 56 toSeven 5) s
      let force (s : State) : State := after (.lightForce 56 toSeven 3 250) s
      let opened (s : State) : State := after (.openBays 56 { toSeven with sequence := 2 }) s
      let cancelled (s : State) : State := after (.cancelAmendments 56 { toSeven with sequence := 2 }) s
      let seven := standing ++ eightForces.take 3
      (close (at_ 400 0 seven)).scu.amendments = seven ++ [.close 56 (some 5)]
        ∧ (close (at_ 400 0 seven)).ssl.events = []
        ∧ (close (at_ 400 0 (.advance 57 2 :: seven))).ssl.events = [⟨.amendmentReplaced, 2, 400⟩]
        ∧ (force (at_ 400 0 (.advance 57 2 :: seven))).scu.amendments
          = seven ++ [.lightForce 56 3 1000]
        ∧ (force (at_ 400 0 standing)).scu.amendments = standing ++ [.lightForce 56 3 1000]
        ∧ (opened (at_ 400 0 (.close 57 none :: standing))).scu.amendments = standing
        ∧ (opened (close (at_ 1100 0 []))).scu.phase = .closed
        ∧ (opened (close (at_ 400 0 []))).scu.phase = .work
        ∧ (cancelled (close (at_ 400 0 []))).scu.phase = .work
        ∧ (cancelled (after (.advancePhase 56 toSeven) (at_ 400 0 []))).scu.phase = .work
        ∧ cancelled (at_ 1100 0 []) = { at_ 1100 0 [] with
          pt := ⟨[], [(56, ⟨.fresh, 0, some 2⟩)]⟩ }) := ⟨standing_stands, by decide +kernel⟩

/-- Witness of AlarmResetLeavesFireMode: the input INACTIVE and ACTIVE. -/
theorem witness_alarm_reset :
    (let b := burning .heard (some 30)
    b.held = none ∧ b.ssl.startup = .run ∧ b.fmc.mode = .fire .heard (some 30)
      ∧ (after (.alarmReset 56 toSeven) b).fmc.mode = .normal
      ∧ (after (.alarmReset 56 toSeven) b).ssl.events.getLast? = some ⟨.fireExit, 30, 0⟩
      ∧ (after (.alarmReset 56 toSeven) { b with br := { b.br with fireInput := true } }).fmc = b.fmc) := by
  decide +kernel

theorem burning_takes : (burning .heard none).takesCommand 56 toSeven :=
  ⟨hears_of_idle rfl rfl rfl rfl (by decide), by decide, rfl, by decide, by decide, by decide⟩

/-- An ALARM_RESET and a hold heard, an ALARM frame or the input settling ACTIVE at one moment, in either
order (R168). -/
theorem witness_alarm_reset_at_once :
    station.takesCommand 56 toSeven ∧ station.br.fireInput = false
    ∧ (let reset (s : State) : State := after (.alarmReset 56 toSeven) s
      let b := burning .heard (some 30)
      let alarm : Instr := .alarm 30 ⟨30, 1, 0⟩
      let lit : Instr := .fiuSampleEvent { calm with fire := true } 5
      let pressed : State := { b with fiu := { b.fiu with firePending := true } }
      (reset (after .alarmHoldHeard station)).fmc.mode = .normal
        ∧ (reset (after .alarmHoldHeard b)).fmc.mode = .normal
        ∧ (after .alarmHoldHeard (reset b)).fmc.mode = .fire .heard none
        ∧ (reset (after alarm station)).fmc.mode = .normal
        ∧ (after alarm (reset b)).fmc.mode = .fire .heard (some 30)
        ∧ (reset (after lit pressed)).fmc = ⟨.fire .own (some 7), some 30, 1, false⟩
        ∧ (reset (after lit pressed)).pt.panels = [(56, ⟨.fresh, 0, some 1⟩)]
        ∧ (after lit (reset pressed)).fmc = ⟨.fire .own (some 7), some 30, 1, false⟩
        ∧ (after lit (reset pressed)).lc.tx = .holding) := ⟨station_takes, rfl, by decide +kernel⟩

/-- Witness of CommandsWithoutEffect: code 9 and 0, a close in fire mode, a frame for another station and
a repeated sequence. -/
theorem witness_without_effect :
    station.takesCommand 56 toSeven ∧ (burning .heard none).takesCommand 56 toSeven
    ∧ ¬ station.takesCommand 56 ⟨1, 8, 9⟩
    ∧ (after (.unknownCommand 56 toSeven 9 0) station).pt.panels = [(56, ⟨.fresh, 0, some 1⟩)]
    ∧ (after (.closeBays 56 toSeven 5) (burning .heard none)).scu.amendments = []
    ∧ (after (.closeBays 56 ⟨1, 8, 9⟩ 5) station).pt.panels = [(56, ⟨.fresh, 0, none⟩)]
    ∧ (after (.openBays 56 toSeven) (after (.closeBays 56 toSeven 5) station)).scu.bayClosed = true := by
  refine ⟨station_takes, burning_takes, ?_, by decide +kernel⟩
  unfold State.takesCommand
  rintro ⟨_, _, _, h, _⟩
  revert h
  decide

/-! ### The bay line -/

/-- The station with a frame in assembly, or waiting for one. -/
def assembling (a : Assembler) : State := { station with lc := { station.lc with asm := a } }

/-- The station with a transmitter. -/
def sendingOf (x : Tx) : State := { station with lc := { station.lc with tx := x } }

/-- A TRAVEL notice posted at a moment, with a fault count. -/
def noticeAt (posted faults : Nat) : Notice := ⟨.travel, [7, 1, 0, 0], posted, ⟨faults, 0 < faults⟩⟩

/-- The check value of "123456789" under the polynomial and start value of R45, as published for it. -/
theorem test_check_value : crcOf [0x31, 0x32, 0x33, 0x34, 0x35, 0x36, 0x37, 0x38, 0x39] = 0x29B1 := by
  decide +kernel

/-- The filter for TRAVEL at station 7: neighbours, two places off over an empty, LOST and FRESH slot, three
places off. -/
theorem test_filter :
    (let b := statusOf 0 0 1 1 0 0 0 0
    [station.filterAccepts 6 .travel, station.filterAccepts 8 .travel, station.filterAccepts 9 .travel,
      (among [peer 8 .lost b]).filterAccepts 9 .travel, (among [peer 8 .fresh b]).filterAccepts 9 .travel,
      (among [peer 6 .stale b]).filterAccepts 5 .travel, station.filterAccepts 10 .travel,
      station.filterAccepts 56 .report, station.filterAccepts 0 .alarm, station.filterAccepts 48 .status,
      station.filterAccepts 49 .status]
      = [true, true, true, true, false, false, false, false, true, true, false]) := by decide +kernel

/-- A head of A1H: a start bit, 1 0 0 0 0 1 0 1 from the least significant bit up, the marker 1, the stop
bit; behind it a character of 0, which is dominant for ten bit times (R43). -/
theorem test_levels :
    (let d := LineLevel.dominant
    let r := LineLevel.recessive
    frameLevels [0xA1, 0]
      = [d, r, d, d, d, d, r, d, r, r, r] ++ [d, d, d, d, d, d, d, d, d, d, r]) := by decide

/-- The kind codes of Section 11.2 and their neighbours; the lengths of R179, and one or four off. -/
theorem test_kinds :
    [0, 1, 5, 6, 15, 16, 18, 19].map Kind.ofCode
      = [none, some .status, some .report, none, none, some .panel, some .inquiry, none]
    ∧ [24, 40, 44, 20, 26].map Kind.report.fits = [true, true, false, false, false]
    ∧ [3, 4].map Kind.time.fits = [true, false] := by decide

/-- Witness of HeadKindAndLengthCharacters: a head in HUNT and in ASSEMBLE, the own number; kinds known,
unknown and filtered; a fitting and an unfitting length. -/
theorem witness_head_kind_length :
    station.works fallback ∧ station.lc.tx = .idle ∧ station.lc.awaitRecessive = false
    ∧ (after (.characterReceived 6 true 0) station).lc.asm = .assemble [6] false
    ∧ (after (.characterReceived 7 true 0) (assembling (.assemble [6] false))).lc.asm = .assemble [7] true
    ∧ (after (.characterReceived 7 true 0)
        (assembling (.assemble [6] false))).lc.counters.frameTimeout = 1
    ∧ (after (.characterReceived 6 false 0) (assembling .skip)).lc.asm = .skip
    ∧ (after (.characterReceived 0 false 0) (assembling (.assemble [6] false))).lc.counters.unknownKind = 1
    ∧ (after (.characterReceived Kind.status.code false 0) (assembling (.assemble [6] false))).lc.asm
        = .assemble [6, Kind.status.code] false
    ∧ (after (.characterReceived Kind.status.code false 0) (assembling (.assemble [56] false))).lc.asm
        = .skip
    ∧ (after (.characterReceived 28 false 0)
        (assembling (.assemble [6, Kind.status.code] false))).lc.asm
        = .assemble [6, Kind.status.code, 28] false
    ∧ (after (.characterReceived 27 false 0)
        (assembling (.assemble [6, Kind.status.code] false))).lc.counters.checkFail = 1 :=
  ⟨station_works, rfl, rfl, by decide +kernel⟩

/-- Witness of CheckFailuresAndClashes: an INQUIRY of a panel with a wrong check, and frames of the own
number with a good one, the flag clear and set. -/
theorem witness_check :
    (let f : List Byte := frameBytes 7 .inquiry [7]
    let s : State := assembling (.assemble (f.take 5) true)
    s.held = none ∧ s.cfg = some fallback ∧ s.lc.tx = .idle ∧ s.lc.awaitRecessive = false
      ∧ 4 ≤ (f.take 5).length
      ∧ (f.take 5).length = (byteAt (f.take 5) 2).toNat + 4
      ∧ (after (.characterReceived (byteAt f 5 + 1) false 0) s).lc.counters.checkFail = 1
      ∧ (after (.characterReceived (byteAt f 5) false 0) s).lc.clash = true
      ∧ (after (.characterReceived (byteAt f 5) false 0) s).ssl.events
          = [⟨.numberClash, Kind.inquiry.code.toNat, 0⟩]
      ∧ (after (.characterReceived (byteAt f 5) false 0)
          { s with lc := { s.lc with clash := true } }).ssl.events = []) := by decide +kernel

/-- The station once the characters of a frame have come one after another. -/
def received (n : Byte) (k : Kind) (body : List Byte) (s : State) : State :=
  match Host.Core.run Sys2Proof.core (body.length + 5)
      { s with pending := characters 0 (frameBytes n k body) } with
  | .next t => t
  | .fault _ | .refused _ => s

/-- Witness of StatusCharactersMakeAStatusFrame: a frame of each kind, its bytes written out from Section
11.3. -/
theorem witness_status_characters :
    station.hears (6 : Byte).toNat ∧ station.lc.tx.listening = true ∧ station.lc.awaitRecessive = false
    ∧ isBayNumber (6 : Byte).toNat = true ∧ isPanelNumber (56 : Byte).toNat = true
    ∧ station.filterAccepts (6 : Byte).toNat .travel = true ∧ station.lc.asm = .hunt
    ∧ station.pending = []
    ∧ (received 6 .presence [0xFF, 2, 3, 4, 5, 2] station).pt.bays = [(6, ⟨.fresh, 0, .s8, none, some ⟨31, 0x203⟩⟩)]
    ∧ (received 6 .travel [5, 1, 2, 200] station).lc.notices.map Notice.body = [[5, 1, 1, 200]]
    ∧ (received 6 .alarm [30, 1, 9] station).fmc.mode = .fire .heard (some 30)
    ∧ (received 56 .panel [1, 5, 7, 7, 3, 20] station).scu.amendments = [.lightForce 56 3 80]
    ∧ (received 56 .panel [1, 3, 7, 7, 1, 4] station).scu.amendments = [.close 56 (some 260)]
    ∧ (received 56 .panel [1, 3, 8, 9, 1, 4] station).scu.amendments = []
    ∧ (received 56 .time [2, 0x59, 33] (ranked 2 none true)).scu.minute = 601
    ∧ (received 56 .inquiry [7] station).lc.notices.map Notice.kind = [.report]
    ∧ (received 6 .status ([0xFF, 0xF0, 1, 2, 0x58, 30, 14, 1, 0xFF, 0xCE, 0, 5, 250, 1, 2, 0, 3]
        ++ [0, 4, 0, 5, 1, 0, 6, 7, 8, 9, 10]) station).pt.fresh 6
      = some {
          phase := 7, source := 3, flags := 1, minute := 600, second := 30, rank := 14, interval := 1
          tBay := 65486, tOut := 5, request := 250, grant := 1, stagesOn := 2, extract := 3, supply := 4
          uncovered := 5, exhaust := 256, unsealed := 6, sealedDoors := 7, zones := 8
          signature := 2314 } :=
  ⟨station_hears _ (by decide), by decide +kernel⟩

/-- Witness of QuietYieldAndOwnHold: 131 and 132 bit times of quiet, a false start, the wait behind a
broken character, the end of the own hold, a level of another station past it. -/
theorem witness_quiet :
    station.works fallback ∧ station.lc.tx.listening = true ∧ (sendingOf .holding).lc.tx = .holding
    ∧ (let yielding : State := { station with lc := { station.lc with yielding := true, quiet := 9 } }
      (after (.yieldEnd 132) yielding).lc.yielding = false ∧ after (.yieldEnd 131) yielding = yielding
        ∧ (after .falseStart yielding).lc.quiet = 0)
    ∧ (let waiting := after .brokenCharacter station
      waiting.lc.awaitRecessive = true ∧ after (.characterReceived 6 true 0) waiting = waiting
        ∧ after .falseStart waiting = waiting ∧ after (.yieldEnd 132) waiting = waiting
        ∧ (after (.characterReceived 6 true 0) (after (.dominantLevelEnd 12) waiting)).lc.asm
          = .assemble [6] false)
    ∧ (after .alarmHoldEnd (sendingOf .holding)).lc.tx = .idle
    ∧ (let heard : State := { station with lc := { station.lc with
        tx := .holding, holdHeard := true, awaitRecessive := true } }
      (after .alarmHoldEnd heard).lc = station.lc
        ∧ (after .alarmHoldHeard (after .alarmHoldEnd heard)).fmc.mode = .fire .heard none) :=
  ⟨station_works, by decide +kernel⟩

/-- Witness of BrokenCharactersAndTimeouts: levels of 21 bit times, a hold's end, quiets of 22 and 23. -/
theorem witness_broken :
    station.works fallback ∧ station.lc.tx = .idle
    ∧ (let s := assembling (.assemble [6, 2] false)
      let b := after .brokenCharacter s
      b.lc.brokenFrame = true ∧ (after (.dominantLevelEnd 21) b).lc.counters.checkFail = 1
        ∧ (after (.dominantLevelEnd 30) (after .alarmHoldHeard b)).lc.counters.checkFail = 0
        ∧ (after (.frameTimeout 23) s).lc.counters.frameTimeout = 1 ∧ after (.frameTimeout 22) s = s) :=
  ⟨station_works, rfl, by decide +kernel⟩

/-- Levels of 21 and of 22 bit times not handed over before, at their end outside fire mode: behind a broken
character, and as the loss of a notice and of a STATUS. -/
theorem witness_level_ends :
    (let broken := after .brokenCharacter (assembling (.assemble [6, 2] false))
    let status : TxFrame := .status (statusOf 0 0 1 1 0 0 0 0) ⟨2, true⟩
    let level (n : Nat) (s : State) : State := after (.dominantLevelEnd n) s
    broken.works fallback ∧ broken.lc.tx = .idle ∧ broken.lc.holdHeard = false ∧ broken.fmc.mode = .normal
      ∧ (level 22 broken).fmc.mode = .fire .heard none ∧ (level 22 broken).lc.counters = Counters.reset
      ∧ level 22 broken = level 22 (after .alarmHoldHeard broken)
      ∧ (level 21 broken).fmc.mode = .normal ∧ (level 21 broken).lc.counters.checkFail = 1
      ∧ (level 22 (sendingOf (.lost (some (.notice (noticeAt 0 0)))))).fmc.mode = .fire .heard none
      ∧ (level 22 (sendingOf (.lost (some (.notice (noticeAt 0 0)))))).lc.notices = []
      ∧ (level 22 (sendingOf (.lost (some status)))).lc.statusWaiting = some ⟨2, true⟩
      ∧ (level 22 (sendingOf (.lost (some status)))).lc.counters.lineFault = 0) :=
  ⟨⟨rfl, rfl⟩, by decide +kernel⟩

/-- Witness of AlarmHoldHeardEntersFireMode: in NORMAL and in fire mode, and while a STATUS and a notice are
in transmission. -/
theorem witness_hold_heard :
    station.works fallback ∧ station.lc.holdHeard = false ∧ (burning .own (some 7)).fmc.inForce = true
    ∧ (after .alarmHoldHeard station).fmc.mode = .fire .heard none
    ∧ (after .alarmHoldHeard station).outputs.lights = six 1000
    ∧ (after .alarmHoldHeard (burning .own (some 7))).fmc.mode = .fire .own (some 7)
    ∧ (let f : TxFrame := .status (statusOf 0 0 1 1 0 0 0 0) ⟨0, false⟩
      (sendingOf (.sending f)).lc.holdHeard = false
        ∧ (after .alarmHoldHeard (sendingOf (.sending f))).lc.tx = .sending f
        ∧ (after .frameSent (after .alarmHoldHeard (sendingOf (.sending f)))).lc.tx = .idle)
    ∧ (after .alarmHoldHeard (sendingOf (.sending (.notice (noticeAt 0 0))))).lc.tx = .idle :=
  ⟨station_works, by decide +kernel⟩

/-- Witness of LossesOfTheLine: losses at 0 and 1 characters, the first and the fourth fault, a hold, each
kind of frame. -/
theorem witness_losses :
    (sendingOf (.sending (.notice (noticeAt 0 0)))).held = none
    ∧ (sendingOf (.lost (some (.notice (noticeAt 0 3))))).works fallback
    ∧ (after (.arbitrationLoss 0) (sendingOf (.sending (.notice (noticeAt 0 0))))).lc.notices
        = [noticeAt 0 0]
    ∧ (after (.arbitrationLoss 1) (sendingOf (.sending (.notice (noticeAt 0 0))))).lc.asm
        = .assemble [7] true
    ∧ (after (.dominantLevelEnd 21) (sendingOf (.lost (some (.notice (noticeAt 0 2)))))).lc.notices
        = [noticeAt 0 3]
    ∧ (after (.dominantLevelEnd 21) (sendingOf (.lost (some (.notice (noticeAt 0 3)))))).lc.notices = []
    ∧ (let held : State := sendingOf (.lost (some (.notice (noticeAt 0 0))))
      (after (.dominantLevelEnd 22) { held with lc := { held.lc with holdHeard := true } }).lc.notices
        = [noticeAt 0 0])
    ∧ (after (.arbitrationLoss 0)
        (sendingOf (.sending (.status (statusOf 0 0 1 1 0 0 0 0) ⟨2, true⟩)))).lc.statusWaiting
        = some ⟨2, true⟩
    ∧ (after (.dominantLevelEnd 21)
        (sendingOf (.lost (some (.status (statusOf 0 0 1 1 0 0 0 0) ⟨2, true⟩))))).lc.statusWaiting
        = some ⟨3, true⟩
    ∧ (let a : AlarmFrame := ⟨⟨7, 1, 0⟩, 0, ⟨0, false⟩⟩
      (after (.arbitrationLoss 0) (sendingOf (.sending (.alarm a)))).lc.alarmWaiting = some a
        ∧ (after (.dominantLevelEnd 21) (sendingOf (.lost (some (.alarm a))))).lc.alarmWaiting
          = some { a with retry := ⟨1, true⟩ }
        ∧ (after (.dominantLevelEnd 21) (sendingOf (.lost (some (.alarm a))))).lc.counters.lineFault = 1) :=
  ⟨rfl, ⟨rfl, rfl⟩, by decide +kernel⟩

/-- Witness of FramesStartInSelectionOrder: gaps of 22, 33, 44 and, with the extra gap, 77 bit times, one
less of each; a frame in assembly at an ALARM frame's head; a notice at 2 s and past it. -/
theorem witness_frame_start :
    station.works fallback ∧ station.ssl.startup = .run ∧ station.lc.tx = .idle
    ∧ station.lc.counters.noticeStale ≤ 65535
    ∧ (let waiting (a : Option AlarmFrame) (l : List Notice) (r : Option Retry) (y : Bool) : State :=
        { station with lc := { station.lc with
            alarmWaiting := a, notices := l, statusWaiting := r, yielding := y, clock := 2000000 } }
      let a : AlarmFrame := ⟨⟨7, 1, 0⟩, 0, ⟨0, false⟩⟩
      (after (.frameStart 22 2000000) (waiting (some a) [noticeAt 0 0] none false)).lc.tx
          = .sending (.alarm a)
        ∧ (after (.frameStart 33 2000000) (waiting none [noticeAt 0 0] none false)).lc.tx
          = .sending (.notice (noticeAt 0 0))
        ∧ (after (.frameStart 32 2000000) (waiting none [noticeAt 0 0] none false)).lc.tx = .idle
        ∧ (after (.frameStart 76 2000000) (waiting none [noticeAt 0 1] none false)).lc.tx = .idle
        ∧ (after (.frameStart 77 2000000) (waiting none [noticeAt 0 1] none false)).lc.notices = []
        ∧ (after (.frameStart 99 2000000) (waiting none [] (some ⟨0, false⟩) true)).lc.tx = .idle
        ∧ (after (.frameStart 44 2000000) (waiting none [] (some ⟨0, false⟩) false)).lc.lastStatus
          = some ⟨0, false, false⟩
        ∧ (after (.frameStart 43 2000000) (waiting none [] (some ⟨0, false⟩) false))
          = waiting none [] (some ⟨0, false⟩) false
        ∧ (after (.frameStart 21 2000000) (waiting (some a) [] none false)).lc.tx = .idle
        ∧ (let s := waiting (some a) [] none false
          let t := after (.frameStart 22 2000000) { s with lc := { s.lc with asm := .assemble [6] false } }
          t.lc.asm = .hunt ∧ t.lc.counters.frameTimeout = 1)
        ∧ (after (.frameStart 33 2000001) (waiting none [noticeAt 0 0] none false)).lc.tx = .idle) :=
  ⟨station_works, rfl, rfl, by decide +kernel⟩

/-- The flags of Section 11.3, each set alone. -/
theorem test_status_flags :
    (let br := station.br
    let hru := station.hru
    let calm : State := { station with br := { br with tempBlind := false } }
    [{ calm with fmc := { calm.fmc with mode := .fire .heard none } },
      { calm with hru := { hru with frost := true } }, { calm with hru := { hru with short := true } },
      { calm with br := { calm.br with tempSubst := true } }, station,
      { calm with scu := { calm.scu with amendments := [.close 56 none] } },
      { calm with scu := { calm.scu with valid := false } },
      { calm with br := { calm.br with outdoorOwn := true } },
      { calm with scu := { calm.scu with mismatch := true } },
      { calm with br := { calm.br with doorLongOpen := true } },
      { calm with ssl := { calm.ssl with checkResult := some 3 } },
      { calm with lc := { calm.lc with clash := true } }].map State.statusFlags
      = (List.range 12).map fun k => BitVec.ofNat 12 (2 ^ k)) := by decide +kernel

/-- The event kinds, sensors and amendments of Section 11.3 in the order of their codes. -/
theorem test_event_codes :
    [EventKind.imageFallback, .numberClash, .sensorFault, .sensorRestored, .tempBlind, .doorLongOpen,
      .fireEnter, .fireExit, .calendarMismatch, .amendmentReplaced].map EventKind.code
      = [1, 2, 3, 4, 5, 6, 7, 8, 9, 10]
    ∧ [Sensor.tempA, .tempB, .outdoor, .exhaust, .daylight].map Sensor.code = [1, 2, 3, 4, 5]
    ∧ [Amendment.hold 56 1 5 .waiting, .advance 56 1, .close 56 none, .lightForce 56 1 0].map Amendment.code
      = [1, 2, 3, 4] := by decide

/-- Witness of SentFramesLeaveTheStore: a STATUS, an ALARM, a TRAVEL and a REPORT of one record. -/
theorem witness_frame_sent :
    (let report : Notice := ⟨.report, [], 0, ⟨0, false⟩⟩
    let told (b : Bool) : State := { sendingOf (.sending (.notice report)) with
      ssl := { station.ssl with
        events := [⟨.tempBlind, 0, 0⟩, ⟨.fireEnter, 0, 1⟩], overflow := true, report := ⟨1, b⟩ } }
    (told true).held = none
      ∧ (after .frameSent (told false)).ssl.events = [⟨.fireEnter, 0, 1⟩]
      ∧ (after .frameSent (told false)).ssl.overflow = false
      ∧ (after .frameSent (told true)).ssl.overflow = true
      ∧ (after .frameSent (sendingOf (.sending (.alarm ⟨⟨7, 1, 0⟩, 0, ⟨0, false⟩⟩)))).lc.tx = .idle
      ∧ (after .frameSent (sendingOf (.sending (.notice (noticeAt 0 0))))).ssl = station.ssl
      ∧ (after .frameSent (sendingOf
          (.sending (.status (statusOf 0 0 1 1 0 0 0 0) ⟨0, false⟩)))).lc.yielding = true) := by
  decide +kernel

/-- Witness of NoticesAgeOut: ages of 1999999 and 2000000 microseconds. -/
theorem witness_notice_age :
    (let s : State := { station with lc := { station.lc with notices := [noticeAt 0 0, noticeAt 1 0] } }
    s.held = none ∧ s.lc.tx = .idle ∧ s.lc.clock ≤ 2000000
      ∧ (after (.noticeAgeExpiry 2000000) s).lc.notices = [noticeAt 1 0]
      ∧ (after (.noticeAgeExpiry 2000000) s).lc.counters.noticeStale = 1) := by decide +kernel

/-- Witness of LineControllerSecond: clash quiet 598 and 599, interval counts 2 and 3 of 4, a request
moved by 9 and by 10. -/
theorem witness_lc_second :
    station.works fallback
    ∧ (let s (q n r : Nat) (p : Bool) : State := { station with
        lc := { station.lc with
          clash := true, clashQuiet := q, intervalCount := n, presenceMark := p
          lastStatus := some ⟨20, false, false⟩ }
        hru := { station.hru with request := r } }
      (after .lcSampleEvent (s 598 2 20 false)).lc.clash = true
        ∧ (after .clashQuietExpiry (s 599 2 20 false)).lc.clash = false
        ∧ (after .lcSampleEvent (s 0 2 29 false)).lc.statusWaiting = none
        ∧ (after .lcSampleEvent (s 0 2 30 false)).lc.statusWaiting = some ⟨0, false⟩
        ∧ (after .lcSampleEvent (s 0 2 20 true)).lc.statusWaiting = some ⟨0, false⟩
        ∧ (after .statusIntervalExpiry (s 0 3 20 false)).lc.statusWaiting = some ⟨0, false⟩
        ∧ (after .statusIntervalExpiry { s 0 3 20 false with
            lc := { (s 0 3 20 false).lc with statusWaiting := some ⟨1, true⟩ } }).lc.counters.statusLate
          = 1
        ∧ (after .lcSampleEvent (stationIn .listen)).lc.intervalCount = 0) :=
  ⟨station_works, by decide +kernel⟩

/-! ### Outputs: the manual's worked examples -/

/-- Witness of LightLevelsFollowTheirTargets: the cap at 10000 and 8999, in fire mode, before RUN, under a
force; the ramp of R96 at 16 steps from 1000 to 200 of 50, seen at its last; pre-light at 2 and 1. -/
theorem witness_lights :
    station.works fallback
    ∧ (let lit (v : Nat) (l : List Amendment) (d : Nat) (e : Bool) (p : Prelight) : State :=
        { station with
          ltc := { station.ltc with groups := six ⟨v, v⟩, capEngaged := e, prelight := p }
          br := { station.br with daylight := some d }
          scu := { station.scu with amendments := l } }
      (after .ltcSampleEvent (lit 250 [.lightForce 56 9 200] 0 false .idle)).ltc.groups.g1 = ⟨200, 200⟩
        ∧ (after .ltcSampleEvent (lit 251 [.lightForce 56 9 200] 0 false .idle)).ltc.groups.g1 = ⟨201, 200⟩
        ∧ (after .ltcSampleEvent (lit 500 [] 10000 false (.active 2))).ltc.capEngaged = true
        ∧ (after .ltcSampleEvent (lit 500 [] 9000 true (.active 2))).ltc.capEngaged = true
        ∧ (after .ltcSampleEvent (lit 500 [] 8999 true (.active 2))).ltc.capEngaged = false
        ∧ (after .ltcSampleEvent (lit 500 [] 0 false (.active 2))).ltc.prelight = .active 1
        ∧ (after .prelightExpiry (lit 500 [] 0 false (.active 1))).ltc.prelight = .idle
        ∧ (after .ltcSampleEvent (burning .own none)).ltc.groups.g6 = ⟨1000, 1000⟩
        ∧ (after .ltcSampleEvent (stationIn .join)).ltc.groups.g1.target = 500) :=
  ⟨station_works, by decide +kernel⟩

/-- The image of the example of Section 6.7. -/
def example67 : Configuration :=
  { fallback with
    bay := { fallbackBay with capacity := 160, band := 20, doorLoss := 12, blindRequest := 40 }
    phases := { fallback.phases with
      work := { fallbackRow with setpoint := 160 }
      closed := { fallbackRow with curtains := false } } }

/-- The station of Section 6.7 with its bay and outdoor temperatures, supply, source and phase. -/
def bay67 (t o : Int) (q : Nat) (c : TempSource) (p : Phase) : State :=
  { station with
    cfg := some example67
    scu := { station.scu with phase := p }
    br := { station.br with
      tBay := t, tOut := o, tempSource := c
      doors := ⟨⟨.openUnsealed, 0, false⟩, ⟨.openUnsealed, 0, false⟩, ⟨.closed, 0, false⟩,
        ⟨.closed, 0, false⟩, ⟨.openSealed, 0, false⟩, ⟨.closed, 0, false⟩, ⟨.closed, 0, false⟩,
        ⟨.closed, 0, false⟩⟩ }
    abu := { station.abu with supply := q } }

/-- Witness of HeatRequestAndFlags: the eight rows of Section 6.7's second table, and FROST at 49, 59 and
60. -/
theorem witness_heat :
    (bay67 148 (-150) 8 .own .work).works example67
    ∧ (let r (s : State) : Nat × Bool := let t := after .hruSampleEvent s; (t.hru.request, t.hru.short)
      r (bay67 148 (-150) 8 .own .work) = (152, false)
        ∧ r (bay67 148 (-150) 8 .own .preheat) = (160, true)
        ∧ r (bay67 100 (-150) 8 .own .work) = (160, true)
        ∧ r (bay67 165 (-150) 8 .own .work) = (56, false)
        ∧ r (bay67 148 200 8 .own .work) = (123, false)
        ∧ r (bay67 148 (-150) 40 .own .work) = (160, true)
        ∧ r (bay67 148 (-150) 8 .blind .work) = (40, false)
        ∧ r ((bay67 148 (-150) 8 .own .work).enterFire .heard none) = (0, false)
        ∧ (after .hruSampleEvent (bay67 49 0 0 .own .work)).hru.frost = true
        ∧ (after .hruSampleEvent (bay67 59 0 0 .own .work)).hru.frost = false
        ∧ (after .hruSampleEvent { bay67 59 0 0 .own .work with
            hru := { Hru.reset with frost := true } }).hru.frost = true
        ∧ (after .hruSampleEvent { bay67 60 0 0 .own .work with
            hru := { Hru.reset with frost := true } }).hru.frost = false) :=
  ⟨⟨rfl, rfl⟩, by decide +kernel⟩

/-- Witness of CurtainsFollowTheirDoors: curtain 1 on an unsealed door, curtain 3 on a closed one at every
state, PREHEAT with curtains disabled. -/
theorem witness_curtains :
    (bay67 148 0 8 .own .work).works example67
    ∧ (let s (k : Curtain) (p : Phase) : State := { bay67 148 0 8 .own p with
        hru := { Hru.reset with curtains := { Hru.reset.curtains with d3 := k } } }
      (after .hruSampleEvent (s .off .work)).hru.curtains.d1 = .running
        ∧ (after .hruSampleEvent (s .off .work)).hru.curtains.d3 = .off
        ∧ (after .hruSampleEvent (s .inhibited .work)).hru.curtains.d3 = .off
        ∧ (after .hruSampleEvent (s .running .work)).hru.curtains.d3 = .runOn 20
        ∧ (after .hruSampleEvent (s (.runOn 2) .work)).hru.curtains.d3 = .runOn 1
        ∧ (after (.runOnExpiry 2) (s (.runOn 1) .work)).hru.curtains.d3 = .off
        ∧ (after .hruSampleEvent (s .running .preheat)).hru.curtains = eight .inhibited) :=
  ⟨⟨rfl, rfl⟩, by decide +kernel⟩

/-- Station 7 of Section 7.9: G = 160, N = 4, H = 5, M = 180, C = 400, R = 152, its peers 6, 8, 9, 10 and
11. -/
def bay79 (request : Nat) (frost : Bool) (h : Hsu) : State :=
  let asks (r : Byte) (f : BitVec 12) : StatusBody := statusOf 0 f 15 1 0 0 r 0
  { among [peer 6 .fresh (asks 80 0), peer 8 .fresh (asks 150 2), peer 9 .fresh (asks 200 0),
      peer 10 .stale (asks 60 0), peer 11 .lost (asks 100 0)] with
    cfg := some { fallback with
      site := { fallback.site with budget := 400 }
      bay := { fallbackBay with capacity := 160, stageCount := 4, hysteresis := 5 } }
    hru := { Hru.reset with request := request, frost := frost }
    hsu := h }

/-- The stages of Section 7.9 before u0. -/
def stages79 : Hsu :=
  { Hsu.reset with
    stages := [⟨false, 0, false⟩, ⟨false, 0, false⟩, ⟨false, 0, false⟩, ⟨false, 40, false⟩]
    rotation := [3, 4, 1, 2] }

/-- Witness of GrantIsTheShareOfTheBudget: station 7's grant of 77; a request of 0, a frosty one, JOIN
without FROST and fire mode. -/
theorem witness_grant :
    (bay79 152 false stages79).held = none ∧ (bay79 152 false stages79).cfg.isSome = true
    ∧ (after .hsuSampleEvent (bay79 152 false stages79)).hsu.grant = 77
    ∧ (after .hsuSampleEvent (bay79 0 false stages79)).hsu.grant = 0
    ∧ (after .hsuSampleEvent (bay79 150 true stages79)).hsu.grant = 150
    ∧ (after .hsuSampleEvent (bay79 251 true stages79)).hsu.grant = 251 * 400 / 401
    ∧ (after .hsuSampleEvent { bay79 152 false stages79 with
        ssl := (stationIn .join).ssl }).hsu.grant = 0
    ∧ (after .hsuSampleEvent ((bay79 152 false stages79).enterFire .own none)).hsu.grant = 0 := by
  decide +kernel

theorem bay79_safe : (bay79 152 false stages79).stagesSafe := by
  refine ⟨⟨List.nodup_nil, fun k => ?_⟩, Nat.zero_le _, ?_, ?_, ?_⟩
  · have h : ∀ j, (stages79.stage? j).any Stage.on = false := by
      intro j
      match j with
      | 0 | 1 | 2 | 3 | 4 => rfl
      | j + 5 => rfl
    show k ∈ [] ↔ (stages79.stage? k).any Stage.on = true
    simp [h k]
  · rintro c ⟨⟩
    exact ⟨rfl, Nat.zero_le _⟩
  · rintro ⟨⟩
  · rintro ⟨⟩

/-- Witness of StagesFollowTheAllowedCount: u0 of Section 7.9, where stage 3 comes on and stage 4 counts
down; stage 3 with 1 and 2 seconds left, where it and where stage 1 is the first expired; the grants of 84,
85 and 79 of R134. -/
theorem witness_stages :
    (bay79 152 false stages79).stagesSafe
    ∧ (after .hsuSampleEvent (bay79 152 false stages79)).hsu.onList = [3]
    ∧ (after .hsuSampleEvent (bay79 152 false stages79)).hsu.stages.getLast? = some ⟨false, 39, false⟩
    ∧ (let bay : BayBlock := { fallbackBay with capacity := 160, stageCount := 4, hysteresis := 5 }
      allowedNext bay 1 84 = 1 ∧ allowedNext bay 1 85 = 2 ∧ allowedNext bay 2 79 = 1)
    ∧ (let third (n : Nat) : Hsu := { stages79 with stages := [⟨false, 0, false⟩, ⟨false, 0, false⟩,
        ⟨false, n, false⟩, ⟨false, 40, false⟩] }
      (after .hsuSampleEvent (bay79 152 false (third 1))).hsu.onList = [3]
        ∧ (after .hsuSampleEvent (bay79 152 false (third 2))).hsu.onList = [1])
    ∧ (let last : Hsu := { stages79 with stages := [⟨false, 0, false⟩, ⟨false, 0, false⟩,
        ⟨false, 0, false⟩, ⟨false, 1, false⟩] }
      (after (.minOffExpiry 4) (bay79 152 false last)).hsu.stages.getLast? = some ⟨false, 0, false⟩) :=
  ⟨bay79_safe, by decide +kernel⟩

/-- Station 14 of Section 8.9 with the exhaust index, the unsealed doors, station 15's uncovered extract,
the speed and the damper before the sample event. -/
def bay89 (e : Option Nat) (d : Nat) (u : Half) (s p : Nat) : State :=
  { among [peer 13 .fresh (statusOf 0 0 15 1 0 0 0 0), peer 15 .fresh (statusOf 0 0 15 1 0 0 0 u)] with
    ssl := { station.ssl with own := 14 }
    cfg := some { fallback with
      phases := { fallback.phases with work := { fallbackRow with ventMin := 30 } }
      bay := { fallbackBay with
        extractMax := 80, supplyMax := 60, doorInflow := 10, eiLow := 200, eiHigh := 700 } }
    br := { station.br with exhaust := e, unsealed := d }
    abu := { Abu.reset with speed := s, damper := p } }

/-- Witness of AirBalanceSecond: rows v1, v3, v17 and v51 of Section 8.9, fire mode, and the
values held before RUN. -/
theorem witness_air :
    (bay89 (some 450) 2 12 65 53).held = none ∧ (bay89 (some 450) 2 12 65 53).cfg.isSome = true
    ∧ (let row (s : State) : List Nat :=
        let a := (after .abuSampleEvent s).abu
        [a.targetSpeed, a.speed, a.extract, a.need, a.uncovered, a.supplyTarget, a.damperTarget, a.damper,
          a.supply]
      row (bay89 (some 450) 2 12 65 53) = [65, 65, 52, 32, 0, 38, 63, 58, 34]
        ∧ row (bay89 none 0 12 65 63) = [100, 100, 80, 80, 20, 60, 100, 68, 40]
        ∧ row (bay89 (some 150) 0 12 100 100) = [30, 98, 78, 78, 18, 60, 100, 100, 60]
        ∧ row (bay89 (some 150) 0 12 32 51) = [30, 30, 24, 24, 0, 30, 50, 50, 30]
        ∧ (after .abuSampleEvent ((bay89 none 0 12 65 63).enterFire .own none)).abu.uncovered = 0
        ∧ (let s : State := { bay89 none 0 12 65 53 with ssl := { (stationIn .join).ssl with own := 14 } }
          (after .abuSampleEvent s).abu.speed = 65 ∧ (after .abuSampleEvent s).abu.damper = 53
            ∧ (after .abuSampleEvent s).abu.supplyTarget = 58)) := by
  decide +kernel

/-- Witness of RepeatTimerMakesSends: the timer STOPPED, at 2, and at 1 with the input INACTIVE and
ACTIVE; a STATUS and a notice cut off; 210 shared bytes in use, 219, and 7 frames. -/
theorem witness_repeat_timer :
    (let s (n : Option Nat) (f : Bool) : State :=
      let b := burning .own (some 7)
      { b with fmc := { b.fmc with timer := n, repeatCount := 255 }, br := { b.br with fireInput := f } }
    (s (some 1) true).held = none ∧ (s (some 1) true).fmc.inForce = true
      ∧ (s (some 1) true).ssl.startup = .run
      ∧ (after .fmcSampleEvent (s none true)) = s none true
      ∧ (after .fmcSampleEvent (s (some 2) true)).fmc.timer = some 1
      ∧ (after .repeatTimerExpiry (s (some 1) false)).fmc.timer = none
      ∧ (after .repeatTimerExpiry (s (some 1) true)).fmc
          = ⟨.fire .own (some 7), some 30, 255, false⟩
      ∧ (after .repeatTimerExpiry (s (some 1) true)).outputs.lineDominant = true
      ∧ (let cut (x : Tx) (l : List Notice) (a : Option AlarmFrame) : State :=
          { s (some 1) true with lc := { station.lc with tx := x, notices := l, alarmWaiting := a } }
        let large (n : Nat) : Notice := ⟨.report, List.replicate 37 0, n, ⟨0, false⟩⟩
        let f : TxFrame := .status (statusOf 0 0 1 1 0 0 0 0) ⟨2, true⟩
        (after .fmcSampleEvent (cut (.sending f) [] none)).lc.statusWaiting = some ⟨2, true⟩
          ∧ (after .fmcSampleEvent (cut (.sending (.notice (noticeAt 1 0))) [noticeAt 2 0]
              (some ⟨⟨7, 1, 9⟩, 4, ⟨3, true⟩⟩))).lc.notices = [noticeAt 1 0, noticeAt 2 0]
          ∧ (after .fmcSampleEvent (cut .idle (List.map large [1, 2, 3, 4, 5]) none)).lc.notices
              = [large 1, large 2, large 3, large 4, large 5]
          ∧ (after .fmcSampleEvent (cut .idle (noticeAt 0 0 :: List.map large [1, 2, 3, 4, 5])
              none)).lc.notices = [large 1, large 2, large 3, large 4, large 5]
          ∧ (after .fmcSampleEvent (cut .idle (List.replicate 7 (noticeAt 1 0))
              none)).lc.counters.noticeDrop = 1)) := by decide +kernel

/-- Witness of TravelNoticesAreActedOnOnce: a notice of station 5 going east from station 6 with 2, 1 and
0 hops, the same pair again, the wrong side, and in JOIN; a store of 6 and of 7 frames. -/
theorem witness_travel :
    (let hears (b : TravelBody) (s : State) := (after (.travel 6 b 9) s).lc.notices.map Notice.body
    let known : State := { station with ltc := { station.ltc with recent := [(5, 200)] } }
    station.cfg = some fallback ∧ station.held = none ∧ station.lc.tx.listening = true
      ∧ station.lc.awaitRecessive = false
      ∧ (6 : Byte).toNat ≠ station.ssl.own ∧ station.filterAccepts (6 : Byte).toNat .travel = true
      ∧ hears ⟨5, 1, 9, 200⟩ station = [[5, 1, 1, 200]] ∧ hears ⟨5, 1, 1, 200⟩ station = [[5, 1, 0, 200]]
      ∧ hears ⟨5, 1, 0, 200⟩ station = []
      ∧ (after (.travel 6 ⟨5, 1, 0, 200⟩ 9) station).ltc.prelight = .active 60
      ∧ (after (.travel 6 ⟨5, 1, 2, 200⟩ 9) known).ltc = known.ltc
      ∧ (after (.travel 6 ⟨5, 0, 2, 200⟩ 9) station).ltc = station.ltc
      ∧ (after (.travel 6 ⟨5, 1, 2, 200⟩ 9) (stationIn .join)).ltc = station.ltc
      ∧ (let filled (l : List Notice) : State := { station with lc := { station.lc with notices := l } }
        (after (.travel 6 ⟨5, 1, 2, 200⟩ 9) (filled (List.replicate 6 (noticeAt 0 0)))).lc.notices.length = 7
          ∧ (after (.travel 6 ⟨5, 1, 2, 200⟩ 9)
              (filled (List.replicate 7 (noticeAt 0 0)))).lc.counters.noticeDrop = 1
          ∧ station.lc.postNotice .report (List.replicate 49 0) = station.lc)) := by decide +kernel

/-- Witness of AlarmFrameEntersOrNamesTheFire: origins 0, 1, 63 and 64, in NORMAL, in a fire heard without
and with an origin, in an own fire. -/
theorem witness_alarm_frame :
    station.hears (30 : Byte).toNat ∧ (burning .heard none).fmc.inForce = true
    ∧ (let m (o : Byte) (s : State) := (after (.alarm 30 ⟨o, 1, 0⟩) s).fmc.mode
      m 0 station = .fire .heard none ∧ m 1 station = .fire .heard (some 1)
        ∧ m 63 station = .fire .heard (some 63) ∧ m 64 station = .fire .heard none
        ∧ m 30 (burning .heard none) = .fire .heard (some 30)
        ∧ m 30 (burning .heard (some 9)) = .fire .heard (some 9)
        ∧ m 30 (burning .own (some 7)) = .fire .own (some 7)) :=
  ⟨station_hears _ (by decide), by decide +kernel⟩

/-- Witness of InquiryIsAnsweredByAReport: to this station with an entry for the panel, to another, and
in JOIN; behind a waiting notice, with seven, and with a REPORT waiting. -/
theorem witness_inquiry :
    (let s : State := { station with
      pt := ⟨[], [(56, ⟨.stale, 130, some 4⟩)]⟩
      ssl := { station.ssl with events := List.replicate 5 ⟨.fireEnter, 30, 258⟩ } }
    s.cfg = some fallback ∧ s.held = none ∧ s.lc.tx.listening = true ∧ s.lc.awaitRecessive = false
      ∧ (56 : Byte).toNat ≠ s.ssl.own
      ∧ isPanelNumber (56 : Byte).toNat = true
      ∧ (after (.inquiry 56 7 0) s).lc.notices.map Notice.body
          = [[67, 1, 0, 0, 0x2F, 0xC0] ++ List.replicate 16 0 ++ [5, 0]
            ++ (List.replicate 4 [7, 30, 1, 2]).flatten]
      ∧ (after (.inquiry 56 7 0) s).ssl.report = ⟨4, false⟩
      ∧ (after (.inquiry 56 7 0) s).pt.panels = [(56, ⟨.fresh, 0, some 4⟩)]
      ∧ (after (.inquiry 56 8 0) s).lc.notices = []
      ∧ (after (.inquiry 56 7 0) (stationIn .join)).lc.notices = []
      ∧ (after (.inquiry 56 7 0) station).pt.panels = []
      ∧ (let behind (l : List Notice) : State :=
          after (.inquiry 56 7 0) { station with lc := { station.lc with notices := l } }
        (behind [noticeAt 0 0]).lc.notices.map Notice.kind = [.travel, .report]
          ∧ (behind (List.replicate 7 (noticeAt 0 0))).lc.counters.noticeDrop = 1
          ∧ (behind [⟨.report, [], 0, ⟨0, false⟩⟩]).lc.notices = [⟨.report, [], 0, ⟨0, false⟩⟩])) := by
  decide +kernel

/-! ### Invariants -/

/-- Station 7 burning, with peers and a frame in assembly, and a command waiting. -/
def busy : State :=
  { burning .own (some 7) with
    pt := ⟨[peer 6 .fresh (statusOf 0 0 1 1 0 0 0 0)], [(56, ⟨.fresh, 0, none⟩)]⟩
    lc := { station.lc with asm := .assemble [6, Kind.status.code] false }
    pending := [.fmcSampleEvent] }

/-- Witness of the store, fire, start-up, range and peer invariants over a step, in a state in which each says
something. -/
theorem witness_every_step :
    busy.lc.storeSafe ∧ busy.fireSafe ∧ busy.startSafe ∧ busy.inRange ∧ busy.peersSafe
    ∧ busy.fmc.inForce = true ∧ ∃ t, step busy = .next t := by
  refine ⟨?_, ?_, ?_, ?_, ?_, rfl, ⟨_, rfl⟩⟩
  · unfold Lc.storeSafe
    decide +kernel
  · unfold State.fireSafe
    decide +kernel
  · unfold State.startSafe
    decide +kernel
  · unfold State.inRange Counters.inRange
    decide +kernel
  · refine ⟨?_, ?_, ?_, fun h => Bool.noConfusion h⟩
    · unfold tableSafe
      decide +kernel
    · unfold tableSafe
      decide +kernel
    · exact ⟨by decide, fun _ => ⟨by decide, fun _ => by decide⟩⟩

/-- The stages' invariant over a step. -/
theorem witness_every_step_stages :
    (bay79 152 false stages79).stagesSafe
    ∧ ∃ t, step { bay79 152 false stages79 with pending := [.hsuSampleEvent] } = .next t :=
  ⟨bay79_safe, ⟨_, rfl⟩⟩

/-- The station with travel notices behind it, an own one the newest, under a LIGHT_FORCE, about to hear of a
further one. -/
def travelled : State :=
  { at_ 400 0 [.lightForce 56 9 1000] with
    ltc := { station.ltc with recent := [(5, 200), (7, 255), (7, 0)], sequence := 1 }
    pending := [.travel 6 ⟨5, 1, 2, 201⟩ 9] }

/-- The ranges of the outputs and the recent-notice list over a step. -/
theorem witness_every_step_outputs :
    travelled.outputsInRange ∧ travelled.recentSafe
    ∧ ∃ t, step travelled = .next t ∧ t.ltc.recent = [(5, 200), (7, 255), (7, 0), (5, 201)] := by
  refine ⟨⟨by decide, by decide, by decide, ?_, ?_⟩, ?_, ⟨_, rfl, by decide +kernel⟩⟩
  · intro o r v h
    obtain ⟨_, _, rfl⟩ : o = 56 ∧ r = 9 ∧ v = 1000 := by simpa [travelled, at_] using h
    decide
  · rintro c ⟨⟩
    simp only [Configuration.inRange, SiteBlock.inRange, PhaseRow.inRange, BayBlock.inRange, isTemperature]
    repeat' apply And.intro
    all_goals decide +kernel
  · unfold State.recentSafe
    decide +kernel

/-- The rotation order over a step that bumps it. -/
theorem witness_every_step_rotation :
    stages79.rotates
    ∧ ∃ t, step { bay79 152 false stages79 with pending := [.closeBays 56 toSeven 0] } = .next t
      ∧ t.hsu.rotation = [4, 1, 2, 3] := by
  refine ⟨?_, ⟨_, rfl, by decide +kernel⟩⟩
  unfold Hsu.rotates
  decide

end Sys2Proof.Machine.Tests
end

