-- ==== Sys2Proof/Proofs/Heat.lean ====
section
/-! PROOFS. The HRU's sample event: its three terms, the request with SHORT, and FROST (Chapter 6). -/

namespace Sys2Proof

theorem Eight.toList_ofFn {α : Type} (f : Fin 8 → α) :
    (Eight.ofFn f).toList = (List.finRange 8).map f := rfl

end Sys2Proof

namespace Sys2Proof.Machine

/-! ### The terms of the request (R115 to R117) -/

theorem errorTerm_of_le {capacity band : Nat} {setpoint tBay : Int} (h : setpoint ≤ tBay) :
    errorTerm capacity band setpoint tBay = 0 := if_pos (by omega)

theorem cast_errorTerm_of_lt {capacity band : Nat} {setpoint tBay : Int} (h : tBay < setpoint) :
    (errorTerm capacity band setpoint tBay : Int) =
      min (capacity : Int) ((setpoint - tBay) * capacity / band) := by
  have hquot : 0 ≤ (setpoint - tBay) * (capacity : Int) / band :=
    Int.ediv_nonneg (Int.mul_nonneg (by omega) (Int.natCast_nonneg _)) (Int.natCast_nonneg _)
  have hpos : ¬ setpoint - tBay ≤ 0 := by omega
  simp [errorTerm, hpos, Int.toNat_of_nonneg hquot]

theorem cast_intakeTerm (supply : Nat) (setpoint tOut : Int) :
    (intakeTerm supply setpoint tOut : Int) =
      (supply : Int) * max 0 (setpoint - tOut) * 12 / 1000 := by
  simp [intakeTerm, Int.toNat_of_nonneg (Int.le_max_left 0 (setpoint - tOut))]

/-- Outside fire mode a new curtain record at an unsealed door runs exactly when the phase enables
curtains (R112), which is what R116 asks of it. -/
theorem State.nextCurtains_output_of_unsealed {s : State} {c : Configuration} {k : Fin 8}
    (hfire : s.fmc.inForce = false) (hdoor : (s.br.doors.get k).state = .openUnsealed) :
    ((s.nextCurtains c).get k).output = (c.row s.scu.phase).curtains := by
  cases hrow : (c.row s.scu.phase).curtains <;>
    simp [State.nextCurtains, Curtain.next, DoorState.isUnsealed, Curtain.output, hfire, hdoor, hrow]

/-- The door term at a sample event outside fire mode, by the doors' states and the phase's row alone
(R116). -/
theorem State.doorTerm_nextCurtains {s : State} (c : Configuration) (ld : Nat)
    (hfire : s.fmc.inForce = false) :
    doorTerm ld s.br.doors (s.nextCurtains c) =
      ((List.finRange 8).map fun k =>
        match (s.br.doors.get k).state with
        | .openUnsealed => if (c.row s.scu.phase).curtains then ld else 2 * ld
        | .openSealed => ld / 4
        | .closed | .disabled => 0).sum := by
  rw [doorTerm, Eight.toList_ofFn]
  refine congrArg List.sum (List.map_congr_left fun k _ => ?_)
  cases hdoor : (s.br.doors.get k).state with
  | openUnsealed => simp only [doorLossOf, State.nextCurtains_output_of_unsealed hfire hdoor]
  | openSealed | closed | disabled => rfl

/-! ### The request and SHORT (R118, R119, R122) -/

theorem State.heatRequest_fire {s : State} (c : Configuration) (l : Eight Curtain)
    (hfire : s.fmc.inForce = true) : s.heatRequest c l = (0, false, none) := if_pos hfire

theorem State.heatRequest_blind {s : State} (c : Configuration) (l : Eight Curtain)
    (hfire : s.fmc.inForce = false) (hblind : s.br.tempSource = .blind) :
    s.heatRequest c l = (c.bay.blindRequest, false, none) := by
  simp [State.heatRequest, hfire, hblind]

theorem State.heatRequest_sighted {s : State} (c : Configuration) (l : Eight Curtain)
    (hfire : s.fmc.inForce = false) (hsighted : s.br.tempSource ≠ .blind) :
    s.heatRequest c l =
      (min c.bay.capacity (s.heatTerms c l).sum, decide (c.bay.capacity < (s.heatTerms c l).sum),
        some (s.heatTerms c l)) := by
  cases hsource : s.br.tempSource with
  | blind => exact absurd hsource hsighted
  | own | substituted | held => simp [State.heatRequest, hfire, hsource]

/-! ### FROST (R121) -/

theorem frostNext_blind (limit : Nat) (tBay : Int) (frost : Bool) :
    frostNext limit .blind tBay frost = frost := rfl

theorem frostNext_sighted {source : TempSource} (limit : Nat) (tBay : Int) (frost : Bool)
    (hsighted : source ≠ .blind) :
    frostNext limit source tBay frost =
      if tBay < limit then true else if (limit : Int) + 10 ≤ tBay then false else frost := by
  cases source with
  | blind => exact absurd rfl hsighted
  | own | substituted | held => rfl

/-! ### The sample event (R109) -/

theorem exec_hruSampleEvent_of_works {s : State} {c : Configuration} (h : s.works c) :
    exec .hruSampleEvent s = .next s.hruSample := whenReleased_free State.hruSample h.1

theorem State.hruSample_hru_of_works {s : State} {c : Configuration} (h : s.works c) :
    s.hruSample.hru =
      { curtains := s.nextCurtains c
        request := (s.heatRequest c (s.nextCurtains c)).1
        short := (s.heatRequest c (s.nextCurtains c)).2.1
        terms := (s.heatRequest c (s.nextCurtains c)).2.2
        frost := frostNext c.site.frostLimit s.br.tempSource s.br.tBay s.hru.frost } := by
  simp [State.hruSample, h.2]

/-- Settles O45. The next HRU is the one `State.hruSample_hru_of_works` writes down; each clause is then
the rule of its case for the request or for FROST. -/
theorem heatRequestAndFlags : Obligations.HeatRequestAndFlags := by
  intro s c hworks
  refine ⟨s.hruSample, exec_hruSampleEvent_of_works hworks, State.hruSample_frame s, ?_⟩
  rw [State.hruSample_hru_of_works hworks]
  refine ⟨fun hfire => ?fire, fun hfire hblind => ?blind, fun hfire hsighted => ?sighted,
    fun hblind => ?frostBlind, fun hsighted => ?frostSighted⟩
  case fire => simp [State.heatRequest_fire c _ hfire]
  case blind => simp [State.heatRequest_blind c _ hfire hblind]
  case sighted =>
    rw [State.heatRequest_sighted c _ hfire hsighted]
    exact ⟨_, _, _, errorTerm_of_le, cast_errorTerm_of_lt, State.doorTerm_nextCurtains c _ hfire,
      cast_intakeTerm _ _ _, rfl, rfl, decide_eq_true_iff⟩
  case frostBlind => rw [hblind, frostNext_blind]
  case frostSighted =>
    rw [frostNext_sighted _ _ _ hsighted]
    refine ⟨fun hlow => if_pos hlow, fun hlimit hbelow => ?_, fun hhigh => ?_⟩
    · rw [if_neg (by omega), if_neg (by omega)]
    · rw [if_neg (by omega), if_pos hhigh]

end Sys2Proof.Machine
end

