-- ==== Sys2Proof/Proofs/Share.lean ====
section
/-! PROOFS. The HSU's share of the shed's budget: what its sample event leaves of the stages, the gathered
requests and their sums, and the grant (Chapter 7). -/

namespace Sys2Proof.Machine

/-! ### The grant and the rotation order through the stages (R126) -/

@[simp] theorem Hsu.offNewest_grant (m : Nat) (h : Hsu) : (h.offNewest m).grant = h.grant := by
  unfold Hsu.offNewest
  split <;> rfl

@[simp] theorem Hsu.offNewest_rotation (m : Nat) (h : Hsu) :
    (h.offNewest m).rotation = h.rotation := by
  unfold Hsu.offNewest
  split <;> rfl

@[simp] theorem Hsu.offMany_grant (m n : Nat) (h : Hsu) : (h.offMany m n).grant = h.grant := by
  induction n generalizing h with
  | zero => rfl
  | succ n ih => exact (ih _).trans (Hsu.offNewest_grant m h)

@[simp] theorem Hsu.offMany_rotation (m n : Nat) (h : Hsu) :
    (h.offMany m n).rotation = h.rotation := by
  induction n generalizing h with
  | zero => rfl
  | succ n ih => exact (ih _).trans (Hsu.offNewest_rotation m h)

@[simp] theorem Hsu.onMany_grant (n : Nat) (h : Hsu) : (h.onMany n).grant = h.grant := by
  induction n generalizing h with
  | zero => rfl
  | succ n ih => exact (ih _).trans (Hsu.onNext_grant h)

@[simp] theorem Hsu.onMany_rotation (n : Nat) (h : Hsu) : (h.onMany n).rotation = h.rotation := by
  induction n generalizing h with
  | zero => rfl
  | succ n ih => exact (ih _).trans (Hsu.onNext_rotation h)

@[simp] theorem Hsu.staged_grant (h : Hsu) (bay : BayBlock) (g : Nat) :
    (h.staged bay g).grant = g := by
  simp [Hsu.staged]

@[simp] theorem Hsu.staged_rotation (h : Hsu) (bay : BayBlock) (g : Nat) :
    (h.staged bay g).rotation = h.rotation := by
  simp [Hsu.staged]

theorem exec_hsuSampleEvent_of_works {s : State} {c : Configuration} (h : s.works c) :
    exec .hsuSampleEvent s = .next s.hsuSample := whenReleased_free State.hsuSample h.1

theorem State.hsuSample_hsu_of_works {s : State} {c : Configuration} (h : s.works c) :
    s.hsuSample.hsu = s.hsu.staged c.bay (s.grantOf c) := by
  simp [State.hsuSample, h.2]

/-! ### The sums S_f and S_n (R129) -/

theorem claimSum_cons (frost : Bool) (q : Nat × Bool) (l : List (Nat × Bool)) :
    claimSum frost (q :: l) = (if q.2 == frost then q.1 else 0) + claimSum frost l := by
  unfold claimSum
  cases hq : q.2 == frost <;> simp [hq]

theorem claimSum_eq_sum_map (frost : Bool) (l : List (Nat × Bool)) :
    claimSum frost l = (l.map fun q => if q.2 == frost then q.1 else 0).sum := by
  induction l with
  | nil => rfl
  | cons q l ih => rw [claimSum_cons, ih, List.map_cons, List.sum_cons]

theorem claimSum_true (l : List (Nat × Bool)) :
    claimSum true l = (l.map fun q => if q.2 then q.1 else 0).sum := by
  simp [claimSum_eq_sum_map]

theorem claimSum_false (l : List (Nat × Bool)) :
    claimSum false l = (l.map fun q => if q.2 then 0 else q.1).sum := by
  rw [claimSum_eq_sum_map]
  refine congrArg List.sum (List.map_congr_left fun q _ => ?_)
  cases q.2 <;> rfl

/-- The own request is part of the sum its FROST flag chooses, which is what keeps the share within the
request and the budget. -/
theorem le_claimSum_own (request : Nat) (frost : Bool) (l : List (Nat × Bool)) :
    request ≤ claimSum frost ((request, frost) :: l) := by
  simp [claimSum_cons]

/-! ### The four rows of the share (R130) -/

/-- The quotient of R130: of an amount `a` shared among claims of `total`, a claim of `r` gets neither more
than it asks nor more than there is. -/
theorem proportion_le {r a total : Nat} (hr : r ≤ total) (ha : a ≤ total) :
    r * a / total ≤ r ∧ r * a / total ≤ a :=
  ⟨Nat.div_le_of_le_mul ((Nat.mul_le_mul_left r ha).trans_eq (Nat.mul_comm _ _)),
    Nat.div_le_of_le_mul (Nat.mul_le_mul_right a hr)⟩

section Bounds

variable {request sf sn budget : Nat}

theorem shareOf_true_le (hown : request ≤ sf) :
    shareOf request true sf sn budget ≤ request ∧ shareOf request true sf sn budget ≤ budget := by
  unfold shareOf
  split
  case isTrue => omega
  case isFalse =>
    split
    case isTrue hfits => omega
    case isFalse hover =>
      split
      case isTrue hfrosty =>
        -- the frosty requests share the budget: R × C / S_f with R ≤ S_f and C ≤ S_f
        exact proportion_le hown hfrosty
      case isFalse hrest =>
        rw [if_pos rfl]
        omega

theorem shareOf_false_le (hown : request ≤ sn) :
    shareOf request false sf sn budget ≤ request ∧ shareOf request false sf sn budget ≤ budget := by
  unfold shareOf
  split
  case isTrue => omega
  case isFalse =>
    split
    case isTrue hfits => omega
    case isFalse hover =>
      split
      case isTrue => exact ⟨Nat.zero_le _, Nat.zero_le _⟩
      case isFalse hrest =>
        -- the others share what FROST leaves: R × (C - S_f) / S_n with R ≤ S_n and C - S_f ≤ S_n
        have hleft : budget - sf ≤ sn := by omega
        obtain ⟨hrequest, hbudget⟩ := proportion_le hown hleft
        exact ⟨hrequest, hbudget.trans (Nat.sub_le _ _)⟩

end Bounds

/-- The share stays within the own request and the budget, when the own request is among the claims. -/
theorem shareOf_own_le (request budget : Nat) (frost : Bool) (l : List (Nat × Bool)) :
    shareOf request frost (claimSum true ((request, frost) :: l))
        (claimSum false ((request, frost) :: l)) budget ≤ request
    ∧ shareOf request frost (claimSum true ((request, frost) :: l))
        (claimSum false ((request, frost) :: l)) budget ≤ budget := by
  have hown := le_claimSum_own request frost l
  cases frost with
  | true => exact shareOf_true_le hown
  | false => exact shareOf_false_le hown

/-! ### The grant (R130, R132, R133) -/

theorem Startup.isRun_iff (u : Startup) : u.isRun = true ↔ u = .run := by
  cases u <;> simp [Startup.isRun]

theorem State.grantOf_fire {s : State} (c : Configuration) (hfire : s.fmc.inForce = true) :
    s.grantOf c = 0 := if_pos hfire

theorem State.grantOf_idle {s : State} (c : Configuration) (hrun : s.ssl.startup ≠ .run)
    (hfrost : s.hru.frost = false) : s.grantOf c = 0 := by
  have hidle : s.ssl.startup.isRun = false :=
    Bool.eq_false_iff.mpr (mt (Startup.isRun_iff _).mp hrun)
  simp [State.grantOf, hidle, hfrost]

theorem State.grantOf_share {s : State} (c : Configuration) (hfire : s.fmc.inForce = false)
    (hshare : s.ssl.startup = .run ∨ s.hru.frost = true) :
    s.grantOf c = shareOf s.hru.request s.hru.frost
      (claimSum true ((s.hru.request, s.hru.frost) :: s.pt.claims))
      (claimSum false ((s.hru.request, s.hru.frost) :: s.pt.claims)) c.site.budget := by
  have hopen : ¬ (!s.ssl.startup.isRun && !s.hru.frost) = true := by
    simpa [← Startup.isRun_iff, or_iff_not_imp_left] using hshare
  simp only [State.grantOf, hfire, hopen, if_false, Bool.false_eq_true]

/-- Fire mode and the idle start-up grant 0; every other grant is the share. -/
theorem State.grantOf_le (s : State) (c : Configuration) :
    s.grantOf c ≤ s.hru.request ∧ s.grantOf c ≤ c.site.budget := by
  unfold State.grantOf
  dsimp only
  split
  case isTrue hfire => exact ⟨Nat.zero_le _, Nat.zero_le _⟩
  case isFalse hfire =>
    split
    case isTrue hidle => exact ⟨Nat.zero_le _, Nat.zero_le _⟩
    case isFalse hshare => exact shareOf_own_le _ _ _ _

/-- Settles O47. The sample event stores `State.grantOf` and leaves the rotation order; outside the two
cases of R132 and R133 the grant is `shareOf`, whose rows are the statement's, over the own claim and the
peers' (`Peers.claims`). -/
theorem grantIsTheShareOfTheBudget : Obligations.GrantIsTheShareOfTheBudget := by
  intro s c hworks
  refine ⟨s.hsuSample, exec_hsuSampleEvent_of_works hworks, State.hsuSample_frame s, ?_⟩
  rw [State.hsuSample_hsu_of_works hworks, Hsu.staged_grant, Hsu.staged_rotation]
  obtain ⟨hrequest, hbudget⟩ := s.grantOf_le c
  refine ⟨rfl, hrequest, hbudget, State.grantOf_fire c, State.grantOf_idle c, ?_⟩
  intro hfire hshare peers sf sn hpeers hsf hsn
  have hclaims : peers = s.pt.claims := hpeers.trans <| List.filterMap_congr fun e _ => by
    cases hage : e.2.age with
    | fresh | stale => cases hsaid : e.2.announced <;> simp [BayEntry.claimState, hage, hsaid,
        StatusBody.frost]
    | lost => simp [BayEntry.claimState, hage]
  rw [State.grantOf_share c hfire hshare, claimSum_true, claimSum_false, ← hclaims, ← hsf, ← hsn]
  rfl

end Sys2Proof.Machine
end

