-- ==== Sys2Proof/Proofs/Moves.lean ====
section
/-! PROOFS. What a command can do, said once: a held reset, its release, or a chain of moves, each of them one
block's own change with what the model checked before it. An invariant then needs one case for each move. -/

namespace Sys2Proof.Machine

/-! ### The moves of each block -/

/-- The ranges of the SCU's own fields (R23, R24, R28). -/
def Scu.inRange (u : Scu) : Prop :=
  u.minute ≤ 10079 ∧ u.second ≤ 59 ∧ u.elapsed ≤ 59 ∧ u.rank ≤ 15 ∧ u.amendments.length ≤ 8

/-- The levels of the LIGHT_FORCE records lie in the range of a light level (R40). -/
def Scu.forcesInRange (u : Scu) : Prop := ∀ o r v, .lightForce o r v ∈ u.amendments → v ≤ 1000

/-- The transmit store and the transmitter of `l` are those of `l'`. -/
def Lc.keepsStore (l l' : Lc) : Prop :=
  l'.tx = l.tx ∧ l'.statusWaiting = l.statusWaiting ∧ l'.notices = l.notices
    ∧ l'.alarmWaiting = l.alarmWaiting

/-- The changes of the transmit store and the transmitter (R53 to R65). -/
inductive StoreMove (s : State) : Lc → Prop
  | expire (life : Nat) : StoreMove s (s.lc.expire life)
  | postNotice (k : NoticeKind) (b : List Byte) (h : s.ssl.startup.isSilent = false) :
      StoreMove s (s.lc.postNotice k b)
  | postStatus (h : s.ssl.startup.isRun = true) : StoreMove s s.lc.postStatus
  | postAlarm (a : AlarmBody) (h : s.ssl.startup.isSilent = false) : StoreMove s (s.lc.postAlarm a)
  | flush : StoreMove s s.lc.flush
  | removeAlarm : StoreMove s s.lc.removeAlarm
  | hold (h : s.ssl.startup.isSilent = false) : StoreMove s { s.lc with tx := .holding }
  | idle : StoreMove s { s.lc with tx := .idle }
  | lost (f : TxFrame) (h : s.lc.tx.frame = some f) : StoreMove s { s.lc with tx := .lost (some f) }
  | requeue (f : TxFrame) (r : Retry) (h : s.lc.tx.frame = some f) :
      StoreMove s ({ s.lc with tx := .idle }.requeue (f.withRetry r))
  | takeAlarm (a : AlarmFrame) (h : s.ssl.startup.sendsFrames = true) (ht : s.lc.tx = .idle)
      (hw : s.lc.alarmWaiting = some a) :
      StoreMove s { s.lc with alarmWaiting := none, tx := .sending (.alarm a) }
  | takeNotice (n : Notice) (rest : List Notice) (h : s.ssl.startup.sendsFrames = true)
      (ht : s.lc.tx = .idle) (hw : s.lc.notices = n :: rest) :
      StoreMove s { s.lc with notices := rest, tx := .sending (.notice n) }
  | takeStatus (b : StatusBody) (r : Retry) (h : s.ssl.startup.sendsFrames = true)
      (ht : s.lc.tx = .idle) (hw : s.lc.statusWaiting = some r) :
      StoreMove s { s.lc with statusWaiting := none, tx := .sending (.status b r) }

/-- The changes of the Peer Table, each by a sender its filter let through (R51, R72 to R79). -/
inductive TableMove (own : Nat) (p : Peers) : Peers → Prop
  | status (n : Nat) (b : StatusBody) (hn : n ≠ own) (hb : isBayNumber n = true) :
      TableMove own p (p.takeStatus n b)
  | presence (n : Nat) (b : PresenceBody) (hn : n ≠ own) (hb : isBayNumber n = true) :
      TableMove own p (p.takePresence n b)
  | panel (n : Nat) (hn : n ≠ own) (hb : isPanelNumber n = true) : TableMove own p (p.takePanel n)
  | inquiry (n : Nat) (hn : n ≠ own) (hb : isPanelNumber n = true) : TableMove own p (p.takeInquiry n)
  | sequence (n : Nat) (q : Byte) (hn : n ≠ own) (hb : isPanelNumber n = true) :
      TableMove own p (p.applySequence n q)
  | older : TableMove own p p.older

/-- The start-up states that follow one another without a reset or an adoption (R170). -/
def Startup.leadsTo : Startup → Startup → Bool
  | .selftest, .listen | .listen, .join | .join, .run => true
  | _, _ => false

/-- The end of LOAD up to the first evaluation: SSL, event and blocks, an owed send no longer owed. -/
def State.adopted (s : State) (c : Configuration) (code : Option Nat) : State :=
  let t := ({ s with ssl := s.ssl.adopt code }.recordFallback code).adoptBlocks c
  { t with fmc := { t.fmc with owed := false } }

/-- One move of a station that is not held in reset. -/
inductive Move (s : State) : State → Prop
  | field (p : InputLevels) (b : BayRecord) (f : Fiu)
      (h : s.fiu.lastGoodAge ≤ 65535 → f.lastGoodAge ≤ 65535) :
      Move s { s with pins := p, br := b, fiu := f }
  | scu (u : Scu) (h : s.scu.inRange → u.inRange) (hf : s.scu.forcesInRange → u.forcesInRange) :
      Move s { s with scu := u }
  | bump : Move s { s with hsu := s.hsu.bump }
  | ssl (l : Ssl) (hown : l.own = s.ssl.own) (he : s.ssl.events.length ≤ 8 → l.events.length ≤ 8)
      (hs : l.startup = s.ssl.startup ∨ s.ssl.startup.leadsTo l.startup = true) :
      Move s { s with ssl := l }
  | line (l : Lc) (hs : s.lc.keepsStore l) (hc : s.lc.counters.inRange → l.counters.inRange)
      (ha : s.lc.asm.safe s.ssl.own → l.asm.safe s.ssl.own) : Move s { s with lc := l }
  | store (l : Lc) (h : StoreMove s l) : Move s { s with lc := l }
  | table (p : Peers) (h : s.lc.asm.safe s.ssl.own → TableMove s.ssl.own s.pt p) :
      Move s { s with pt := p }
  | lights : Move s s.ltcSample
  | heat : Move s s.hruSample
  | stages : Move s s.hsuSample
  | air : Move s s.abuSample
  | prelight (c : Configuration) (h : s.fmc.inForce = false) : Move s (s.startPrelight c)
  | raise : Move s { s.noteNotice s.ssl.own s.ltc.sequence with
      ltc := { s.ltc with
        recent := recentAdd (s.ssl.own, s.ltc.sequence) s.ltc.recent
        sequence := (s.ltc.sequence + 1) % 256 } }
  | note (o q : Nat) (ho : o ≠ s.ssl.own) (h : (o, q) ∉ s.ltc.recent) : Move s (s.noteNotice o q)
  | enterFire (q : Cause) (o : Option Nat) : Move s (s.enterFire q o)
  | nameFire (q : Cause) (o : Option Nat) (h : s.fmc.inForce = true) :
      Move s { s with fmc := { s.fmc with mode := .fire q o } }
  | fireAir (h : s.fmc.inForce = true) : Move s { s with abu := s.abu.fireEnter s.bayOrFallback }
  | timer (f : Fmc) (hm : f.mode = s.fmc.mode)
      (hc : s.fmc.repeatCount ≤ 255 → f.repeatCount ≤ 255)
      (ho : f.owed = true → s.fmc.owed = true ∨ s.ssl.startup = .load)
      (ht : f.timer ≠ none → s.fmc.timer ≠ none ∨ s.ssl.startup.isSilent = false) :
      Move s { s with fmc := f }
  | exitFire : Move s { s with fmc := Fmc.reset }
  | restart : Move s s.restart
  | adopt (c : Configuration) (code : Option Nat) (hl : s.ssl.startup = .load) (hc : c.inRange) :
      Move s (s.adopted c code)

/-- A chain of moves. -/
abbrev Moves : State → State → Prop := Relation.ReflTransGen Move

theorem Move.moves {s t : State} (h : Move s t) : Moves s t := .single h

theorem Moves.trans {s t u : State} (h : Moves s t) (h' : Moves t u) : Moves s u :=
  Relation.ReflTransGen.trans h h'

/-- A chain followed by one more move. -/
theorem Moves.then {s t u : State} (h : Moves s t) (m : Move t u) : Moves s u := h.tail m

section Kept

variable {s t : State}

theorem State.ltcSample_held : s.ltcSample.held = s.held := by rw [State.ltcSample_frame]
theorem State.hruSample_held : s.hruSample.held = s.held := by rw [State.hruSample_frame]
theorem State.hsuSample_held : s.hsuSample.held = s.held := by rw [State.hsuSample_frame]
theorem State.abuSample_held : s.abuSample.held = s.held := by rw [State.abuSample_frame]
theorem State.ltcSample_pending : s.ltcSample.pending = s.pending := by rw [State.ltcSample_frame]
theorem State.hruSample_pending : s.hruSample.pending = s.pending := by rw [State.hruSample_frame]
theorem State.hsuSample_pending : s.hsuSample.pending = s.pending := by rw [State.hsuSample_frame]
theorem State.abuSample_pending : s.abuSample.pending = s.pending := by rw [State.abuSample_frame]

theorem State.recordFallback_frame (code : Option Nat) :
    s.recordFallback code = { s with ssl := (s.recordFallback code).ssl } := by
  cases code <;> rfl

theorem State.adopted_frame (c : Configuration) (code : Option Nat) :
    s.adopted c code = { s with
      ssl := ({ s with ssl := s.ssl.adopt code }.recordFallback code).ssl, cfg := some c
      br := s.br.adopt c.bay, ltc := s.ltc.adopt c.site.startLevel s.fmc.inForce
      hsu := s.hsu.adopt c.bay, abu := s.abu.adopt c.bay s.fmc.inForce
      fmc := { s.fmc with owed := false } } := by
  unfold State.adopted
  rw [State.recordFallback_frame]
  rfl

/-- No move takes or releases a reset, and none touches the queue. -/
theorem Move.held_pending (h : Move s t) : t.held = s.held ∧ t.pending = s.pending := by
  cases h with
  | lights => exact ⟨State.ltcSample_held, State.ltcSample_pending⟩
  | heat => exact ⟨State.hruSample_held, State.hruSample_pending⟩
  | stages => exact ⟨State.hsuSample_held, State.hsuSample_pending⟩
  | air => exact ⟨State.abuSample_held, State.abuSample_pending⟩
  | adopt c code hl hc => rw [State.adopted_frame]; exact ⟨rfl, rfl⟩
  | field | scu | bump | ssl | line | store | table | prelight | raise | note | enterFire
  | nameFire | fireAir | timer | exitFire | restart => exact ⟨rfl, rfl⟩

theorem Moves.held_pending (h : Moves s t) : t.held = s.held ∧ t.pending = s.pending := by
  induction h with
  | refl => exact ⟨rfl, rfl⟩
  | tail _ hm ih => exact ⟨hm.held_pending.1.trans ih.1, hm.held_pending.2.trans ih.2⟩

end Kept

/-! ### Chains of the SCU and the SSL -/

section Chains

variable (s : State)

theorem State.record_moves (k : EventKind) (d : Nat) : Moves s (s.record k d) :=
  (Move.ssl _ (Ssl.writeEvent_own _ _) (Ssl.writeEvent_length _)
    (.inl (Ssl.writeEvent_startup _ _))).moves

theorem Amendment.broughtUp_lightForce {cal : List CalEntry} {m : Nat} {a : Amendment} {o r v : Nat}
    (h : a.broughtUp cal m = some (.lightForce o r v)) : a = .lightForce o r v := by
  cases a with
  | hold o k d st => cases st <;> simp only [Amendment.broughtUp] at h <;> (repeat' split at h) <;> cases h
  | advance o k =>
    simp only [Amendment.broughtUp] at h
    split at h <;> cases h
  | close o r => cases h
  | lightForce o r v => cases h; rfl

theorem Scu.evaluated_inRange {u : Scu} (c : Configuration) (br : BayRecord) (b : Bool)
    (h : u.inRange) : (u.evaluated c br b).inRange := by
  obtain ⟨hm, hs, he, hr, hl⟩ := h
  exact ⟨hm, hs, he, hr, (List.length_filterMap_le _ _).trans hl⟩

theorem Scu.evaluated_forcesInRange {u : Scu} (c : Configuration) (br : BayRecord) (b : Bool)
    (h : u.forcesInRange) : (u.evaluated c br b).forcesInRange := by
  intro o r v hmem
  obtain ⟨a, ha, hup⟩ := List.mem_filterMap.1 hmem
  exact h o r v (Amendment.broughtUp_lightForce hup ▸ ha)

theorem State.setScu_moves (u : Scu) (h : s.scu.inRange → u.inRange)
    (hf : s.scu.forcesInRange → u.forcesInRange) : Moves s { s with scu := u } :=
  (Move.scu u h hf).moves

/-- A new SCU within its ranges, with the bump a change of phase hands the HSU. -/
theorem State.withScu_moves (u : Scu) (h : s.scu.inRange → u.inRange)
    (hf : s.scu.forcesInRange → u.forcesInRange) : Moves s (s.withScu u) := by
  unfold State.withScu
  split
  · exact (Move.scu u h hf).moves
  · exact Moves.then (Move.bump (s := s)).moves (Move.scu u h hf)

theorem State.evaluate_moves (b : Bool) : Moves s (s.evaluate b) := by
  unfold State.evaluate
  split
  · exact s.withScu_moves _ id id
  · exact s.withScu_moves _ (Scu.evaluated_inRange _ _ _) (Scu.evaluated_forcesInRange _ _ _)

theorem State.timeStep_moves {m n : Nat} (h : timeInRange m n = true) : Moves s (s.timeStep m n) := by
  obtain ⟨hm, hn⟩ : m ≤ 10079 ∧ n ≤ 59 := by simpa [timeInRange] using h
  refine (s.setScu_moves _ ?range ?forces).trans (State.evaluate_moves _ true)
  case range =>
    rintro ⟨-, -, he, hr, hl⟩
    refine ⟨hm, hn, he, hr, ?_⟩
    dsimp only
    split
    · exact (List.length_filter_le _ _).trans hl
    · exact hl
  case forces =>
    intro hforces o r v hmem
    dsimp only at hmem
    split at hmem
    · exact hforces o r v (List.mem_of_mem_filter hmem)
    · exact hforces o r v hmem

theorem State.adoptTime_moves {n r m sec : Nat} (hr : s.scu.rank ≤ 15 → r + 1 ≤ 15)
    (ht : timeInRange m sec = true) : Moves s (s.adoptTime n r m sec) := by
  have hsource : Move s { s with scu := { s.scu with rank := r + 1, source := some n } } :=
    Move.scu _ (fun ⟨hm, hs, he, hrank, hl⟩ => ⟨hm, hs, he, hr hrank, hl⟩) id
  unfold State.adoptTime
  dsimp only
  split
  · exact hsource.moves
  · exact hsource.moves.trans (State.timeStep_moves _ ht)

theorem State.judgeTime_moves (n r m sec : Nat) : Moves s (s.judgeTime n r m sec) := by
  unfold State.judgeTime
  split
  · exact .refl
  split
  · split
    · exact s.setScu_moves _ (fun ⟨hm, hs, he, _, hl⟩ => ⟨hm, hs, he, le_rfl, hl⟩) id
    · split
      · exact s.adoptTime_moves (fun _ => by omega) ‹_›
      · exact .refl
  · split
    · rename_i h
      exact s.adoptTime_moves (fun _ => by omega) h.2
    · exact .refl

theorem Amendment.tick_lightForce {a : Amendment} {o r v : Nat}
    (h : a.tick = some (.lightForce o r v)) : ∃ q, a = .lightForce o q v := by
  cases a with
  | hold | advance => cases h
  | close o q =>
    cases q with
    | none => cases h
    | some q => simp only [Amendment.tick] at h; split at h <;> cases h
  | lightForce o q w =>
    simp only [Amendment.tick] at h
    split at h
    · cases h
    · cases h; exact ⟨_, rfl⟩

theorem Scu.oneSecond_inRange {u : Scu} (h : u.inRange) : u.oneSecond.inRange := by
  obtain ⟨hm, hs, he, hr, hl⟩ := h
  refine ⟨?_, ?_, ?_, hr, hl⟩ <;> dsimp only [Scu.oneSecond] <;> (repeat' split) <;> omega

theorem State.scuSecond_inRange (h : s.scu.inRange) : s.scuSecond.inRange := by
  have hsec : ∀ u : Scu, u = (if s.sourceIsLost then s.scu.oneSecond.loseSource else s.scu.oneSecond) →
      u.inRange := by
    rintro u rfl
    obtain ⟨hm, hs, he, hr, hl⟩ := Scu.oneSecond_inRange h
    split
    · exact ⟨hm, hs, he, le_rfl, hl⟩
    · exact ⟨hm, hs, he, hr, hl⟩
  unfold State.scuSecond
  dsimp only
  split
  · obtain ⟨hm, hs, he, hr, hl⟩ := hsec _ rfl
    exact ⟨hm, hs, he, hr, (List.length_filterMap_le _ _).trans hl⟩
  · exact hsec _ rfl

theorem State.scuSecond_amendments :
    s.scuSecond.amendments = if s.scu.elapsed = 59 then s.scu.amendments.filterMap Amendment.tick
      else s.scu.amendments := by
  unfold State.scuSecond
  dsimp only
  cases s.sourceIsLost <;> split <;> rfl

theorem State.scuSecond_forcesInRange (h : s.scu.forcesInRange) : s.scuSecond.forcesInRange := by
  intro o r v hmem
  rw [State.scuSecond_amendments] at hmem
  split at hmem
  · obtain ⟨a, ha, htick⟩ := List.mem_filterMap.1 hmem
    obtain ⟨q, rfl⟩ := Amendment.tick_lightForce htick
    exact h o q v ha
  · exact h o r v hmem

theorem State.compareSignatures_moves : Moves s s.compareSignatures := by
  unfold State.compareSignatures
  split
  · exact .refl
  · split
    · exact s.setScu_moves _ id id
    · dsimp only
      split
      · exact s.setScu_moves _ id id
      · exact (Move.scu { s.scu with mismatch := true } id id).moves.trans (State.record_moves _ _ _)

theorem State.scuSample_moves : Moves s s.scuSample :=
  ((s.setScu_moves _ s.scuSecond_inRange s.scuSecond_forcesInRange).trans
    (State.compareSignatures_moves _)).trans (State.evaluate_moves _ _)

/-! ### Panel commands of the calendar -/

theorem State.changeAmendments_moves {l : List Amendment} (h : s.scu.amendments.length ≤ 8 → l.length ≤ 8)
    (hf : s.scu.forcesInRange → ∀ o r v, .lightForce o r v ∈ l → v ≤ 1000) :
    Moves s { s with scu := { s.scu with amendments := l } } :=
  s.setScu_moves _ (fun ⟨hm, hs, he, hr, hl⟩ => ⟨hm, hs, he, hr, h hl⟩) hf

/-- The records a new one joins: all but those on its entry (R28). -/
def Amendment.others (a : Amendment) (l : List Amendment) : List Amendment :=
  match a with
  | .hold _ k _ _ | .advance _ k => l.filter fun x => !x.concerns k
  | .close _ _ | .lightForce _ _ _ => l

theorem Amendment.others_sublist (a : Amendment) (l : List Amendment) : (a.others l).Sublist l := by
  cases a with
  | hold | advance => exact List.filter_sublist
  | close | lightForce => exact List.Sublist.refl _

theorem State.addAmendment_eq (a : Amendment) :
    s.addAmendment a =
      (if (a.others s.scu.amendments).length < 8 then
        { s with scu := { s.scu with amendments := a.others s.scu.amendments ++ [a] } }
      else { s with scu := { s.scu with
          amendments := (a.others s.scu.amendments).tail ++ [a] } }.record .amendmentReplaced
        (((a.others s.scu.amendments).head?.map Amendment.code).getD 0)).evaluate false := by
  cases a <;> rfl

theorem State.addAmendment_moves (a : Amendment) (ha : ∀ o r v, a = .lightForce o r v → v ≤ 1000) :
    Moves s (s.addAmendment a) := by
  have hsub := a.others_sublist s.scu.amendments
  have hjoin : ∀ l : List Amendment, l.Sublist s.scu.amendments → s.scu.forcesInRange →
      ∀ o r v, .lightForce o r v ∈ l ++ [a] → v ≤ 1000 := by
    intro l hl hf o r v hmem
    rcases List.mem_append.1 hmem with h | h
    · exact hf o r v (hl.subset h)
    · exact ha o r v (List.mem_singleton.1 h).symm
  rw [State.addAmendment_eq]
  refine Moves.trans ?_ (State.evaluate_moves _ false)
  split
  · exact s.changeAmendments_moves (fun _ => by simp only [List.length_append, List.length_singleton]; omega)
      (hjoin _ hsub)
  · refine Moves.trans (s.changeAmendments_moves (fun h => ?_) (hjoin _ ?_)) (State.record_moves _ _ _)
    · have := hsub.length_le
      simp only [List.length_append, List.length_tail, List.length_singleton]
      omega
    · exact (List.tail_sublist _).trans hsub

theorem State.alarmResetAtFmc_moves : Moves s s.alarmResetAtFmc := by
  unfold State.alarmResetAtFmc
  split
  · exact .refl
  · split
    · exact .refl
    · refine ((s.record_moves .fireExit _).then (Move.store _ StoreMove.removeAlarm)).then
        (Move.exitFire)

theorem State.command_moves (p : Nat) (b : PanelBody) : Moves s (s.command p b) := by
  have hadd : ∀ a : Amendment, a.code ≠ 4 → Moves s (s.addAmendment a) := fun a ha =>
    s.addAmendment_moves a (by rintro o r v rfl; exact absurd rfl ha)
  unfold State.command
  split
  · unfold State.holdPhase
    dsimp only
    split
    · exact hadd _ (by simp [Amendment.code])
    · exact .refl
  split
  · unfold State.advancePhase
    split
    · exact hadd _ (by simp [Amendment.code])
    · exact .refl
  split
  · unfold State.closeBays
    split
    · exact .refl
    · exact hadd _ (by simp [Amendment.code])
  split
  · unfold State.openBays
    split
    · exact (s.changeAmendments_moves (fun h => (List.length_filter_le _ _).trans h)
        (fun hf o r v hm => hf o r v (List.mem_of_mem_filter hm))).trans (State.evaluate_moves _ _)
    · exact .refl
  split
  · unfold State.lightForce
    split
    · exact s.addAmendment_moves _ (by rintro o r v ⟨⟩; omega)
    · exact .refl
  split
  · unfold State.cancelAmendments
    split
    · exact .refl
    · exact (s.changeAmendments_moves (fun _ => Nat.zero_le _) (fun _ _ _ _ hm => by cases hm)).trans
        (State.evaluate_moves _ _)
  split
  · exact s.alarmResetAtFmc_moves
  split
  · unfold State.restartCommand
    split
    · exact Move.restart.moves
    · exact .refl
  · exact .refl

end Chains

end Sys2Proof.Machine
end

