-- ==== Sys2Proof/Proofs/Chains.lean ====
section
/-! PROOFS. Each operation of the line, of fire mode, of the field inputs and of the start-up as a chain of
moves. -/

namespace Sys2Proof.Machine

variable (s : State)

/-! ### Changes of the LC that leave the store alone -/

/-- A change of the LC's marks and counters alone. -/
theorem State.setLine_moves (l : Lc) (hs : s.lc.keepsStore l)
    (hc : s.lc.counters.inRange → l.counters.inRange) (ha : l.asm = s.lc.asm ∨ l.asm = .hunt) :
    Moves s { s with lc := l } := by
  refine (Move.line l hs hc fun h => ?_).moves
  rcases ha with ha | ha <;> rw [ha]
  · exact h
  · exact trivial

theorem State.setMarks_moves (l : Lc) (hs : s.lc.keepsStore l) (hc : l.counters = s.lc.counters)
    (ha : l.asm = s.lc.asm ∨ l.asm = .hunt) : Moves s { s with lc := l } :=
  s.setLine_moves l hs (fun h => hc ▸ h) ha

theorem State.setStore_moves {l : Lc} (h : StoreMove s l) : Moves s { s with lc := l } :=
  (Move.store l h).moves

theorem State.line_moves (l : Lc) (hs : s.lc.keepsStore l)
    (hc : s.lc.counters.inRange → l.counters.inRange)
    (ha : s.lc.asm.safe s.ssl.own → l.asm.safe s.ssl.own) : Moves s { s with lc := l } :=
  (Move.line l hs hc ha).moves

theorem State.setField_moves (p : InputLevels) (b : BayRecord) (f : Fiu)
    (h : s.fiu.lastGoodAge ≤ 65535 → f.lastGoodAge ≤ 65535) :
    Moves s { s with pins := p, br := b, fiu := f } := (Move.field p b f h).moves

/-- A change of the SSL that keeps its start-up state and writes no event. -/
theorem State.setSsl_moves (l : Ssl) (hown : l.own = s.ssl.own) (he : l.events = s.ssl.events)
    (hs : l.startup = s.ssl.startup) : Moves s { s with ssl := l } :=
  (Move.ssl l hown (fun h => he ▸ h) (.inl hs)).moves

theorem Counters.inRange_countTimeout {l : Lc} (h : l.counters.inRange) :
    l.countTimeout.counters.inRange := by
  obtain ⟨h1, -, h3⟩ := h
  exact ⟨h1, satAdd_le _ _, h3⟩

theorem Counters.inRange_countCheckFail {l : Lc} (h : l.counters.inRange) :
    l.countCheckFail.counters.inRange := ⟨satAdd_le _ _, h.2⟩

theorem Counters.inRange_countUnknown {l : Lc} (h : l.counters.inRange) :
    l.countUnknown.counters.inRange := by
  obtain ⟨h1, h2, -, h4⟩ := h
  exact ⟨h1, h2, satAdd_le _ _, h4⟩

theorem Counters.inRange_countLineFault {l : Lc} (h : l.counters.inRange) :
    l.countLineFault.counters.inRange := by
  obtain ⟨h1, h2, h3, h4, h5, h6, -, h8⟩ := h
  exact ⟨h1, h2, h3, h4, h5, h6, satAdd_le _ _, h8⟩

theorem Counters.inRange_countClash {l : Lc} (h : l.counters.inRange) :
    l.countClash.counters.inRange := by
  obtain ⟨h1, h2, h3, h4, h5, h6, h7, -⟩ := h
  exact ⟨h1, h2, h3, h4, h5, h6, h7, satAdd_le _ _⟩

/-- The store at a moment: the clock, then what has outlived it (R56). -/
theorem State.atMoment_moves (now : Nat) : Moves s (s.atMoment now) :=
  (s.setMarks_moves { s.lc with clock := max s.lc.clock now } ⟨rfl, rfl, rfl, rfl⟩ rfl (.inl rfl)).then
    (Move.store _ (StoreMove.expire (noticeLife + 1)))

theorem State.active_moves : Moves s { s with lc := s.lc.active } :=
  s.setMarks_moves _ ⟨rfl, rfl, rfl, rfl⟩ rfl (.inl rfl)

/-! ### Fire mode (Chapter 9) -/

theorem TxFrame.withRetry_retry (f : TxFrame) : f.withRetry f.retry = f := by cases f <;> rfl

theorem State.orderHold_moves (h : s.ssl.startup.isSilent = false) :
    Moves s { s with lc := s.lc.orderHold } := by
  unfold Lc.orderHold
  split
  · exact .refl
  · have hheld : ∀ t : State, t.ssl = s.ssl →
        Moves t { t with lc := { t.lc with tx := .holding, asm := .hunt, brokenFrame := false } } :=
      fun t ht => (Move.store { t.lc with tx := .holding } (.hold (ht ▸ h))).moves.trans
        (State.setMarks_moves _ _ ⟨rfl, rfl, rfl, rfl⟩ rfl (.inr rfl))
    unfold Lc.requeueTx
    split
    · rename_i f hf
      refine Moves.trans (Move.store _ (.requeue f f.retry hf)).moves ?_
      rw [TxFrame.withRetry_retry]
      cases f <;> exact hheld _ rfl
    · exact hheld s rfl

theorem State.makeSend_moves (h : s.ssl.startup.isSilent = false) : Moves s s.makeSend :=
  ((s.orderHold_moves h).then
    (Move.store _ (StoreMove.postAlarm ⟨toByte s.ssl.own, 1, toByte s.fmc.repeatCount⟩ h))).then
    (Move.timer { s.fmc with repeatCount := min 255 (s.fmc.repeatCount + 1), timer := some 30 } rfl
      (fun _ => Nat.min_le_left _ _) .inl (fun _ => .inr h))

theorem State.send_moves : Moves s s.send := by
  unfold State.send
  split
  · rename_i h
    exact (Move.timer { s.fmc with owed := true } rfl id (fun _ => .inr h) .inl).moves
  · rename_i h; exact s.makeSend_moves (by rw [h]; rfl)
  · rename_i h; exact s.makeSend_moves (by rw [h]; rfl)
  · rename_i h; exact s.makeSend_moves (by rw [h]; rfl)
  · rename_i h; exact s.makeSend_moves (by rw [h]; rfl)
  · exact (Move.timer { s.fmc with owed := false, timer := none } rfl id nofun (absurd rfl)).moves

theorem Fmc.inForce_of_mode {f : Fmc} {q : Cause} {o : Option Nat} (h : f.mode = .fire q o) :
    f.inForce = true := by
  simp [Fmc.inForce, h]

theorem State.fireInputChanged_moves (a : Bool) : Moves s (s.fireInputChanged a) := by
  unfold State.fireInputChanged
  split
  · exact (Move.enterFire .own _).moves.trans (State.send_moves _)
  · exact .refl
  · rename_i hm
    have hname := Move.nameFire (s := s) .own (ownOrigin s.ssl.own) (Fmc.inForce_of_mode hm)
    exact (hname.moves.then (Move.fireAir rfl)).trans (State.send_moves _)
  · exact .refl
  · exact s.send_moves
  · exact (Move.timer { s.fmc with timer := none, owed := false } rfl id nofun (absurd rfl)).moves

theorem State.holdHeard_moves : Moves s s.holdHeard := by
  unfold State.holdHeard
  split
  · exact (Move.enterFire .heard none).moves
  · exact .refl

theorem State.alarmFrame_moves (b : AlarmBody) : Moves s (s.alarmFrame b) := by
  unfold State.alarmFrame
  split
  · exact (Move.enterFire .heard _).moves
  · rename_i hm
    split
    · exact (Move.nameFire .heard _ (Fmc.inForce_of_mode hm)).moves
    · exact .refl
  · exact .refl
  · exact .refl

theorem State.fmcSample_moves : Moves s s.fmcSample := by
  unfold State.fmcSample
  split
  · exact .refl
  · rename_i n hn
    have htimer : s.fmc.timer ≠ none := by simp [hn]
    split
    · unfold State.timerExpired
      have hstop : Move s { s with fmc := { s.fmc with timer := none } } :=
        Move.timer _ rfl id .inl (absurd rfl)
      dsimp only
      split
      · exact hstop.moves.trans (State.send_moves _)
      · exact hstop.moves
    · exact (Move.timer { s.fmc with timer := some (n - 1) } rfl id .inl fun _ => .inl htimer).moves

/-! ### The field inputs (Chapter 1) -/

theorem foldl_moves {α : Type} (f : State → α → State) (h : ∀ t a, Moves t (f t a)) (l : List α) :
    Moves s (l.foldl f s) := by
  induction l generalizing s with
  | nil => exact .refl
  | cons a l ih => exact (h s a).trans (ih _)

theorem selectTemp_age_le (m : Option (Int × TempSource)) (g : Option Int) (age : Nat) (t : Int) :
    (selectTemp m g age t).2.2.2 ≤ 65535 := by
  unfold selectTemp
  split
  · exact Nat.zero_le _
  · dsimp only
    split
    · split <;> exact satAdd_le _ _
    · exact satAdd_le _ _

theorem Startup.isSilent_of_isRun {u : Startup} (h : u.isRun = true) : u.isSilent = false := by
  cases u <;> simp_all [Startup.isRun, Startup.isSilent]

theorem State.edgeArrival_moves (c : Configuration) (e : Edge) : Moves s (s.edgeArrival c e) := by
  unfold State.edgeArrival
  split
  · rename_i h
    obtain ⟨hrun, hfire⟩ : s.ssl.startup.isRun = true ∧ s.fmc.inForce = false := by simpa using h
    exact ((Move.prelight c hfire).moves.then Move.raise).then
      (Move.store _ (.postNotice _ _ (Startup.isSilent_of_isRun hrun)))
  · exact .refl

theorem State.recordSensor_moves (p : PerSensor SensorSample) (k : Sensor) :
    Moves s (s.recordSensor p k) := by
  unfold State.recordSensor
  split
  · exact s.record_moves _ _
  · exact .refl

theorem State.fiuTemp_moves (p : PerSensor SensorSample) : Moves s (s.fiuTemp p) := by
  unfold State.fiuTemp
  dsimp only
  refine Moves.trans ?_ (Move.field _ _ _ fun _ => selectTemp_age_le _ _ _ _).moves
  split
  · exact s.record_moves _ _
  · exact .refl

theorem State.recordDoors_moves (before after : Eight Door) : Moves s (s.recordDoors before after) := by
  refine foldl_moves s _ (fun t k => ?_) _
  split
  · exact t.record_moves _ _
  · exact .refl

theorem State.fiuDoors_moves (c : Configuration) : Moves s (s.fiuDoors c) := by
  unfold State.fiuDoors
  dsimp only
  have hrecord := s.recordDoors_moves s.br.doors
    (nextDoors c s.br.doors (sampleContacts c.bay.doorsFitted s.pins.doorOpen s.fiu.doorContacts)
      (sampleContacts c.bay.doorsFitted s.pins.trailer s.fiu.trailerContacts))
  exact hrecord.trans (State.setField_moves _ _ _ _ id)

theorem State.fiuZones_moves (c : Configuration) : Moves s (s.fiuZones c) := by
  unfold State.fiuZones State.handArrivals
  dsimp only
  refine Moves.trans (Move.field s.pins _ s.fiu id).moves (foldl_moves _ _ (fun t k => ?_) _)
  split
  · exact t.edgeArrival_moves c _
  · exact .refl

theorem State.fiuSensors_moves (p : PerSensor SensorSample) : Moves s (s.fiuSensors p) :=
  (foldl_moves s _ (fun t k => t.recordSensor_moves p k) _).then (Move.field _ _ _ id)

theorem State.fiuInputs_moves : Moves s s.fiuInputs := by
  unfold State.fiuInputs
  split
  · exact .refl
  · dsimp only
    refine Moves.trans ?_ (State.fiuZones_moves _ _)
    refine Moves.trans ?_ (State.fiuDoors_moves _ _)
    exact ((s.fiuSensors_moves _).trans (State.fiuTemp_moves _ _)).trans
      (State.setField_moves _ _ _ _ id)

theorem State.fiuFire_moves : Moves s s.fiuFire := by
  have hfield : ∀ b p, Move s { s with br := { s.br with fireInput := b }, fiu := { s.fiu with firePending := p } } :=
    fun b p => Move.field s.pins _ _ id
  unfold State.fiuFire
  dsimp only
  split
  · exact (hfield _ _).moves
  · exact (hfield _ _).moves.trans (State.fireInputChanged_moves _ _)

theorem State.selftestSample_moves : Moves s s.selftestSample := by
  unfold State.selftestSample
  split
  · rename_i h
    dsimp only
    split
    · exact (Move.ssl { s.ssl with startup := .listen, ticks := 0, diag := _ } rfl id
        (.inr (by rw [h]; rfl))).moves
    · exact (Move.ssl { s.ssl with ticks := s.ssl.ticks + 1, diag := _ } rfl id (.inl rfl)).moves
  all_goals exact .refl

theorem State.fiuSample_moves (x : InputLevels) (now : Nat) : Moves s (s.atField x now).fiuSample :=
  ((((Move.field x s.br s.fiu id).moves.trans (State.atMoment_moves _ now)).trans
    (State.fiuInputs_moves _)).trans (State.fiuFire_moves _)).trans (State.selftestSample_moves _)

/-! ### LISTEN and JOIN, the LC's second (R50, R58, R59, R170, R174) -/

theorem State.enterJoin_moves (h : s.ssl.startup = .listen) : Moves s s.enterJoin := by
  have hjoin : Move s { s with ssl := { s.ssl with startup := .join, ticks := 0 } } :=
    Move.ssl _ rfl id (.inr (by rw [h]; rfl))
  unfold State.enterJoin
  dsimp only
  split
  · exact hjoin.moves.then (Move.store _ (.postNotice _ _ rfl))
  · exact hjoin.moves

theorem State.enterRun_moves (h : s.ssl.startup = .join) : Moves s s.enterRun :=
  ((Move.ssl { s.ssl with startup := .run, ticks := 0 } rfl id (.inr (by rw [h]; rfl))).moves.then
    (Move.store _ (.postStatus rfl))).trans
    (State.setMarks_moves _ { s.lc.postStatus with intervalCount := 0 } ⟨rfl, rfl, rfl, rfl⟩ rfl (.inl rfl))

theorem State.sslSample_moves : Moves s s.sslSample := by
  have htick : Moves s { s with ssl := { s.ssl with ticks := s.ssl.ticks + 1 } } :=
    s.setSsl_moves _ rfl rfl rfl
  unfold State.sslSample
  split
  · split
    · exact s.enterJoin_moves ‹_›
    · exact htick
  · split
    · exact s.enterRun_moves ‹_›
    · exact htick
  all_goals exact .refl

theorem State.promptCheck_moves (h : s.ssl.startup.isRun = true) : Moves s s.promptCheck := by
  unfold State.promptCheck
  split
  · exact (Move.store _ (.postStatus h)).moves
  · exact .refl

theorem State.intervalSecond_moves (h : s.ssl.startup.isRun = true) (n : Nat) :
    Moves s { s with lc := s.lc.intervalSecond n } := by
  have hcount : ∀ k, Moves s { s with lc := { s.lc with intervalCount := k } } := fun k =>
    s.setMarks_moves _ ⟨rfl, rfl, rfl, rfl⟩ rfl (.inl rfl)
  unfold Lc.intervalSecond
  split
  · exact (hcount 0).then (Move.store _ (.postStatus h))
  · exact hcount _

theorem State.clashSecond_moves : Moves s { s with lc := s.lc.clashSecond } := by
  unfold Lc.clashSecond
  split
  · exact s.setMarks_moves _ ⟨rfl, rfl, rfl, rfl⟩ rfl (.inl rfl)
  · exact .refl

theorem State.lcSample_moves : Moves s s.lcSample := by
  unfold State.lcSample
  split
  · exact .refl
  · dsimp only
    split
    · rename_i h
      exact (s.clashSecond_moves.trans
        (State.intervalSecond_moves { s with lc := s.lc.clashSecond } h _)).trans
        (State.promptCheck_moves _ h)
    · exact s.clashSecond_moves

theorem State.ptSample_moves : Moves s s.ptSample := by
  unfold State.ptSample
  split
  · exact .refl
  · exact (Move.table _ fun _ => .older).moves

/-! ### Levels, losses and frames of the line (R49 to R65) -/

theorem State.hearHold_moves : Moves s s.hearHold :=
  (s.setMarks_moves s.lc.hearHold ⟨rfl, rfl, rfl, rfl⟩ rfl (.inr rfl)).trans (State.holdHeard_moves _)

theorem State.countLineFault_moves : Moves s { s with lc := s.lc.countLineFault } :=
  s.setLine_moves _ ⟨rfl, rfl, rfl, rfl⟩ Counters.inRange_countLineFault (.inl rfl)

theorem State.judgeLoss_moves (hold : Bool) : Moves s { s with lc := s.lc.judgeLoss hold } := by
  have hidle : ∀ t : State, Moves t { t with lc := { t.lc with tx := .idle } } := fun t =>
    (Move.store _ .idle).moves
  have hagain : ∀ (t : State) (f : TxFrame) (r : Retry), t.lc.tx = .lost (some f) →
      Moves t { t with lc := { t.lc with tx := .idle }.requeue (f.withRetry r) } := fun t f r h =>
    (Move.store _ (.requeue f r (by rw [h]; rfl))).moves
  unfold Lc.judgeLoss
  split
  · rename_i f htx
    dsimp only
    split
    · split
      · rename_i g
        have := hagain s g g.retry htx
        rwa [TxFrame.withRetry_retry] at this
      · exact hidle s
    · split
      · rename_i g
        refine s.countLineFault_moves.trans ?_
        unfold Lc.faulted
        split
        · exact hagain { s with lc := s.lc.countLineFault } g _ htx
        · exact hidle { s with lc := s.lc.countLineFault }
      · exact s.countLineFault_moves.trans (hidle _)
  all_goals exact .refl

theorem State.levelEnds_moves (hold : Bool) : Moves s { s with lc := s.lc.levelEnds hold } := by
  refine (s.judgeLoss_moves hold).trans ?_
  unfold Lc.levelEnds Lc.judgeBroken
  split
  · exact State.setLine_moves _ _ ⟨rfl, rfl, rfl, rfl⟩ Counters.inRange_countCheckFail (.inl rfl)
  · exact State.setMarks_moves _ _ ⟨rfl, rfl, rfl, rfl⟩ rfl (.inl rfl)

theorem State.dominantLevelEnd_moves (bits : Nat) : Moves s (s.dominantLevelEnd bits) := by
  unfold State.dominantLevelEnd
  dsimp only
  refine Moves.trans ?_ (State.levelEnds_moves _ _)
  split
  · exact s.hearHold_moves
  · exact .refl

theorem TxFrame.chars_ne_nil (f : TxFrame) (own : Nat) : f.chars own ≠ [] := by
  cases f <;> simp [TxFrame.chars, frameBytes]

theorem State.lose_moves (sent : Nat) : Moves s (s.lose sent) := by
  unfold State.lose
  split
  · rename_i f htx
    split
    · refine (s.setMarks_moves { s.lc with quiet := 0 } ⟨rfl, rfl, rfl, rfl⟩ rfl (.inl rfl)).trans ?_
      have := (Move.store (s := { s with lc := { s.lc with quiet := 0 } }) _
        (.requeue f f.retry (by show s.lc.tx.frame = _; rw [htx]; rfl))).moves
      rwa [TxFrame.withRetry_retry] at this
    · rename_i hsent
      refine Moves.then (Move.store _ (.lost f (by rw [htx]; rfl))).moves
        (Move.line (s.lc.bodyLoss s.ssl.own f sent) ⟨rfl, rfl, rfl, rfl⟩ id fun _ => ⟨?_, nofun⟩)
      simpa [hsent] using f.chars_ne_nil s.ssl.own
  all_goals exact .refl

theorem Lc.headSent_counters_inRange {l : Lc} (h : l.counters.inRange) :
    l.headSent.counters.inRange := by
  unfold Lc.headSent
  dsimp only
  split
  · exact Counters.inRange_countTimeout h
  · exact h

theorem State.headSent_moves : Moves s { s with lc := s.lc.headSent } :=
  s.setLine_moves _ ⟨Lc.headSent_tx _, Lc.headSent_statusWaiting _, Lc.headSent_notices _,
    Lc.headSent_alarmWaiting _⟩ Lc.headSent_counters_inRange (.inr rfl)

/-- What each choice is among the waiting frames (R61). -/
theorem Lc.choice_eq_some {l : Lc} {q : Choice} (h : l.choice = some q) :
    match q with
    | .alarm a => l.alarmWaiting = some a
    | .notice n rest => l.alarmWaiting = none ∧ l.notices = n :: rest
    | .status r => l.alarmWaiting = none ∧ l.notices = [] ∧ l.statusWaiting = some r
        ∧ l.yielding = false := by
  unfold Lc.choice at h
  split at h
  · cases h; assumption
  · cases h; exact ⟨‹_›, ‹_›⟩
  · split at h
    · cases h
    · cases h; exact ⟨‹_›, ‹_›, ‹_›, by simp_all⟩
  · cases h

theorem State.startFrame_moves (c : Configuration) (q : Choice) (hs : s.ssl.startup.sendsFrames = true)
    (ht : s.lc.tx = .idle) (hq : s.lc.choice = some q) : Moves s (s.startFrame c q) := by
  have hidle : s.lc.headSent.tx = .idle := by rw [Lc.headSent_tx, ht]
  have hwait := Lc.choice_eq_some hq
  refine s.headSent_moves.trans ?_
  have htake := @State.setStore_moves { s with lc := s.lc.headSent }
  cases q with
  | alarm a => exact htake (.takeAlarm a hs hidle (by simpa using hwait))
  | notice n rest => exact htake (.takeNotice n rest hs hidle (by simpa using hwait.2))
  | status r =>
    exact (htake (.takeStatus (s.snapshot c) r hs hidle (by simpa using hwait.2.2.1))).trans
      (State.setMarks_moves _ _ ⟨rfl, rfl, rfl, rfl⟩ rfl (.inl rfl))

theorem Lc.advance_tx_of_idle {l : Lc} (now : Nat) (h : l.tx = .idle) : (l.advance now).tx = .idle := by
  simp [Lc.advance, Lc.expire, Lc.txWithoutOutlived, h]

theorem State.frameStart_moves (quiet now : Nat) : Moves s (s.frameStart quiet now) := by
  unfold State.frameStart
  split
  · rename_i hmay
    simp only [State.maySend, Bool.and_eq_true, beq_iff_eq] at hmay
    dsimp only
    split
    · rename_i q c hq hc
      exact (s.atMoment_moves now).trans (State.startFrame_moves _ c q hmay.1.1.2
        (Lc.advance_tx_of_idle now hmay.1.2) (Lc.starting_eq_some.1 hq).1)
    all_goals exact .refl
  · exact .refl

theorem State.frameSent_moves : Moves s s.frameSent := by
  have hdone : Moves s { s with lc := { s.lc.active with tx := .idle } } :=
    s.active_moves.then (Move.store _ .idle)
  unfold State.frameSent
  split
  · dsimp only
    split
    · exact hdone.trans (State.setMarks_moves _ _ ⟨rfl, rfl, rfl, rfl⟩ rfl (.inl rfl))
    · refine hdone.then (Move.ssl _ ?_ ?_ (.inl ?_)) <;> split <;> try rfl
      · exact fun h => List.length_drop.trans_le ((Nat.sub_le _ _).trans h)
      · exact id
    · exact hdone
  all_goals exact .refl

theorem State.holdEnd_moves : Moves s { s with lc := s.lc.holdEnd } := by
  unfold Lc.holdEnd
  split
  · exact s.active_moves.then (Move.store _ .idle)
  all_goals exact .refl

theorem State.yieldEnd_moves (q : Nat) : Moves s { s with lc := s.lc.yieldEnd q } := by
  unfold Lc.yieldEnd
  dsimp only
  split
  · exact s.setMarks_moves _ ⟨rfl, rfl, rfl, rfl⟩ rfl (.inl rfl)
  · exact .refl

/-! ### Accepted frames (R48) -/

theorem State.travelNotice_moves (c : Configuration) (n : Nat) (b : TravelBody) :
    Moves s (s.travelNotice c n b) := by
  unfold State.travelNotice
  dsimp only
  split
  · rename_i h
    simp only [State.weighsNotice, Bool.and_eq_true, bne_iff_ne, Bool.not_eq_true',
      decide_eq_true_eq, List.contains_eq_mem, decide_eq_false_iff_not] at h
    obtain ⟨⟨⟨⟨⟨⟨hrun, hfire⟩, -⟩, hother⟩, -⟩, -⟩, hnew⟩ := h
    have hact : Moves s ((s.noteNotice b.origin.toNat b.sequence.toNat).startPrelight c) :=
      (Move.note _ _ hother hnew).moves.then (Move.prelight c hfire)
    split
    · exact hact.then (Move.store _ (.postNotice _ _ (Startup.isSilent_of_isRun hrun)))
    · exact hact
  · exact .refl

theorem State.inquiry_moves (n : Nat) : Moves s (s.inquiry n) := by
  unfold State.inquiry
  split
  · split
    · rename_i c _ h
      have hrun : s.ssl.startup.isRun = true := by
        simp only [Bool.and_eq_true] at h; exact h.1.1
      have hpost := Move.store _ (StoreMove.postNotice (s := s) .report (s.reportBody c)
        (Startup.isSilent_of_isRun hrun))
      unfold State.postReport
      dsimp only
      split
      · exact hpost.moves.then (Move.ssl { s.ssl with report := _ } rfl id (.inl rfl))
      all_goals exact hpost.moves
    · exact .refl
  · exact .refl

theorem State.peersTake_moves (f : Peers → Peers)
    (h : s.lc.asm.safe s.ssl.own → TableMove s.ssl.own s.pt (f s.pt)) : Moves s (s.peersTake f) := by
  unfold State.peersTake
  split
  · exact (Move.table _ h).moves
  · exact .refl

theorem State.framePassed_moves : Moves s { s with lc := s.lc.framePassed } :=
  s.setMarks_moves _ ⟨rfl, rfl, rfl, rfl⟩ rfl (.inr rfl)

theorem State.obey_moves (p : Nat) (b : PanelBody) : Moves s (s.obey p b) := by
  unfold State.obey
  split
  · exact .refl
  · exact s.command_moves p b

/-- The table's part of a frame handed on does not look at the LC. -/
theorem State.peersTake_line (l : Lc) (f : Peers → Peers) :
    { s with lc := l }.peersTake f = { s.peersTake f with lc := l } := by
  unfold State.peersTake
  dsimp only
  split <;> rfl

theorem State.peersTake_lc (f : Peers → Peers) : (s.peersTake f).lc = s.lc := by
  rw [State.peersTake_frame]

theorem State.peersTake_ssl (f : Peers → Peers) : (s.peersTake f).ssl = s.ssl := by
  rw [State.peersTake_frame]

/-- The table takes the frame, then the frame on the line is over. -/
theorem State.takeThenPass_moves (f : Peers → Peers)
    (h : s.lc.asm.safe s.ssl.own → TableMove s.ssl.own s.pt (f s.pt)) :
    Moves s { s.peersTake f with lc := s.lc.framePassed } := by
  have := State.framePassed_moves (s.peersTake f)
  rw [State.peersTake_lc] at this
  exact (s.peersTake_moves f h).trans this

theorem State.handOn_status (n : Nat) (b : StatusBody) :
    s.handOn n (.status b) = (s.peersTake fun p => p.takeStatus n b).judgeTime n b.rank.toNat
      b.minute.toNat b.second.toNat := rfl

theorem State.handOn_presence (n : Nat) (b : PresenceBody) :
    s.handOn n (.presence b) =
      { s.peersTake fun p => p.takePresence n b with
        lc := { (s.peersTake fun p => p.takePresence n b).lc with presenceMark := true } } := rfl

theorem State.handOn_panel (n : Nat) (b : PanelBody) :
    s.handOn n (.panel b) = (s.peersTake fun p => p.takePanel n).panelFrame n b := rfl

theorem State.handOn_time (n : Nat) (b : TimeBody) :
    s.handOn n (.time b) =
      (s.peersTake fun p => p.takePanel n).judgeTime n 0 b.minute.toNat b.second.toNat := rfl

theorem State.handOn_inquiry (n : Nat) (target : Byte) :
    s.handOn n (.inquiry target) = (s.peersTake fun p => p.takeInquiry n).inquiry target.toNat := rfl

/-- A PANEL frame at the SCU of a station whose frame on the line is over (R39). -/
theorem State.panelFrame_moves (n : Nat) (b : PanelBody)
    (h : s.lc.asm.safe s.ssl.own → n ≠ s.ssl.own ∧ isPanelNumber n = true) :
    Moves s ({ s with lc := s.lc.framePassed }.panelFrame n b) := by
  unfold State.panelFrame
  split
  · have hseq : Moves s { s with pt := s.pt.applySequence n b.addr.sequence } :=
      (Move.table _ fun ha => .sequence n _ (h ha).1 (h ha).2).moves
    exact (hseq.trans (State.framePassed_moves _)).trans (State.obey_moves _ n b)
  · exact s.framePassed_moves

/-- A frame that has passed its check, taken by the blocks, from a sender that the filter let through. -/
theorem State.handOn_moves (n : Nat) (f : Frame)
    (h : s.lc.asm.safe s.ssl.own → n ≠ s.ssl.own ∧ senderFits n f.kind = true) :
    Moves s ({ s with lc := s.lc.framePassed }.handOn n f) := by
  cases f with
  | status b =>
    rw [State.handOn_status, State.peersTake_line]
    have htake := s.takeThenPass_moves (fun p => p.takeStatus n b) fun ha => .status n b (h ha).1 (h ha).2
    exact htake.trans (State.judgeTime_moves _ _ _ _ _)
  | presence b =>
    rw [State.handOn_presence, State.peersTake_line]
    have htake := s.takeThenPass_moves (fun p => p.takePresence n b) fun ha =>
      .presence n b (h ha).1 (h ha).2
    exact htake.trans (State.setMarks_moves _ _ ⟨rfl, rfl, rfl, rfl⟩ rfl (.inl rfl))
  | travel b =>
    refine s.framePassed_moves.trans ?_
    unfold State.handOn State.travelFrame
    dsimp only
    split
    · exact State.travelNotice_moves _ _ _ _
    · exact .refl
  | alarm b => exact s.framePassed_moves.trans (State.alarmFrame_moves _ b)
  | panel b =>
    rw [State.handOn_panel, State.peersTake_line]
    have htake := s.peersTake_moves (fun p => p.takePanel n) fun ha => .panel n (h ha).1 (h ha).2
    have hpanel := (s.peersTake fun p => p.takePanel n).panelFrame_moves n b
      (by rw [State.peersTake_lc, State.peersTake_ssl]; exact h)
    rw [State.peersTake_lc] at hpanel
    exact htake.trans hpanel
  | time b =>
    rw [State.handOn_time, State.peersTake_line]
    have htake := s.takeThenPass_moves (fun p => p.takePanel n) fun ha => .panel n (h ha).1 (h ha).2
    exact htake.trans (State.judgeTime_moves _ _ _ _ _)
  | inquiry target =>
    rw [State.handOn_inquiry, State.peersTake_line]
    have htake := s.takeThenPass_moves (fun p => p.takeInquiry n) fun ha =>
      .inquiry n (h ha).1 (h ha).2
    exact htake.trans (State.inquiry_moves _ _)

theorem State.senderFits_of_filterAccepts {n : Nat} {k : Kind} (h : s.filterAccepts n k = true) :
    senderFits n k = true := by
  cases k with
  | travel => exact (Bool.and_eq_true _ _ ▸ h).1
  | status | presence | alarm | report | panel | time | inquiry => exact h

theorem State.accept_moves (n : Nat) (f : Frame) : Moves s (s.accept n f) := by
  unfold State.accept
  split
  · rename_i h
    simp only [State.canAccept, Bool.and_eq_true, bne_iff_ne] at h
    exact s.handOn_moves n f fun _ => ⟨h.1.2, s.senderFits_of_filterAccepts h.2⟩
  · exact .refl

/-! ### Characters (R46 to R48) -/

theorem byteAt_append_left {l m : List Byte} {i : Nat} (h : i < l.length) :
    byteAt (l ++ m) i = byteAt l i := by
  simp [byteAt, List.getD_eq_getElem?_getD, List.getElem?_append_left h]

theorem Frame.kind_of_ofBytes {k : Kind} {l : List Byte} {f : Frame} (h : Frame.ofBytes k l = some f) :
    f.kind = k := by
  cases k <;> cases h <;> rfl

theorem State.head_moves (data : Byte) : Moves s { s with lc := s.lc.head s.ssl.own data } := by
  refine s.line_moves _ ?_ (fun h => ?_) fun _ => ⟨List.cons_ne_nil _ _, fun hc => ?_⟩
  · unfold Lc.head
    dsimp only
    split <;> exact ⟨rfl, rfl, rfl, rfl⟩
  · unfold Lc.head
    dsimp only
    split
    · exact Counters.inRange_countTimeout h
    · exact h
  · exact ⟨by simpa [byteAt] using hc, fun h => absurd h (by simp)⟩

theorem State.numberClash_moves (kind : Byte) : Moves s (s.numberClash kind) := by
  have hmark : ∀ t : State, Moves t { t with lc := { t.lc.countClash with clash := true, clashQuiet := 0 } } :=
    fun t => t.setLine_moves _ ⟨rfl, rfl, rfl, rfl⟩ Counters.inRange_countClash (.inl rfl)
  unfold State.numberClash
  dsimp only
  split
  · exact hmark s
  · exact (s.record_moves _ _).trans (hmark _)

section InAssembly

variable {s} {chars : List Byte} {clash : Bool} {data : Byte}

theorem State.kindCharacter_moves (hasm : s.lc.asm = .assemble chars clash)
    (hlen : (chars ++ [data]).length = 2) : Moves s (s.kindCharacter (chars ++ [data]) clash) := by
  have hone : chars.length = 1 := by simpa using hlen
  have hskip : ∀ t : State, Moves t { t with lc := { t.lc with asm := .skip } } := fun t =>
    t.line_moves _ ⟨rfl, rfl, rfl, rfl⟩ id fun _ => trivial
  unfold State.kindCharacter
  split
  · exact s.line_moves _ ⟨rfl, rfl, rfl, rfl⟩ Counters.inRange_countUnknown fun _ => trivial
  · rename_i k hk
    split
    · rename_i hpass
      refine s.line_moves _ ⟨rfl, rfl, rfl, rfl⟩ id fun ha => ?_
      rw [hasm] at ha
      refine ⟨by simp, fun hc => ?_⟩
      have hhead := (ha.2 hc).1
      rw [hc, Bool.false_or] at hpass
      rw [byteAt_append_left (by omega)] at hpass ⊢
      exact ⟨hhead, fun _ => by rw [hk]; exact s.senderFits_of_filterAccepts hpass⟩
    · exact hskip s

/-- Behind the kind character the assembler's safety does not depend on what follows. -/
theorem Assembler.safe_append {own : Nat} (hlen : 2 ≤ chars.length)
    (h : (Assembler.assemble chars clash).safe own) : (Assembler.assemble (chars ++ [data]) clash).safe own := by
  refine ⟨by simp, fun hc => ?_⟩
  obtain ⟨hhead, hkind⟩ := h.2 hc
  rw [byteAt_append_left (by omega), byteAt_append_left (by omega)]
  exact ⟨hhead, fun _ => hkind hlen⟩

theorem State.assemble_moves (hasm : s.lc.asm = .assemble chars clash) (hlen : 2 ≤ chars.length) :
    Moves s { s with lc := { s.lc with asm := .assemble (chars ++ [data]) clash } } :=
  s.line_moves _ ⟨rfl, rfl, rfl, rfl⟩ id fun ha => Assembler.safe_append hlen (hasm ▸ ha)

theorem State.lengthCharacter_moves (hasm : s.lc.asm = .assemble chars clash)
    (hlen : 2 ≤ chars.length) : Moves s (s.lengthCharacter (chars ++ [data]) clash) := by
  unfold State.lengthCharacter
  split
  · exact State.assemble_moves hasm hlen
  · exact s.line_moves _ ⟨rfl, rfl, rfl, rfl⟩ Counters.inRange_countCheckFail fun _ => trivial

theorem State.frameComplete_moves (hasm : s.lc.asm = .assemble chars clash) (hlen : 2 ≤ chars.length) :
    Moves s (s.frameComplete (chars ++ [data]) clash) := by
  unfold State.frameComplete
  split
  · dsimp only
    split
    · exact s.framePassed_moves.trans (State.numberClash_moves _ _)
    · rename_i hclash
      unfold State.handOver
      split
      · rename_i f hf
        refine s.handOn_moves _ f fun ha => ?_
        rw [hasm] at ha
        obtain ⟨hhead, hkind⟩ := (Assembler.safe_append (data := data) hlen ha).2 (by simpa using hclash)
        obtain ⟨k, hk, hbytes⟩ := Option.bind_eq_some_iff.1 hf
        have hfits := hkind (by simp; omega)
        rw [hk] at hfits
        exact ⟨hhead, Frame.kind_of_ofBytes hbytes ▸ hfits⟩
      · exact s.framePassed_moves
  · exact s.setLine_moves _ ⟨rfl, rfl, rfl, rfl⟩ Counters.inRange_countCheckFail (.inr rfl)

theorem State.nextCharacter_moves (hasm : s.lc.asm = .assemble chars clash) :
    Moves s (s.nextCharacter (chars ++ [data]) clash) := by
  by_cases hchars : chars = []
  · -- an assembler without a head, which no step reaches, goes on assembling
    subst hchars
    have hone : s.nextCharacter ([] ++ [data]) clash
        = { s with lc := { s.lc with asm := .assemble [data] clash } } := by
      simp [State.nextCharacter]
    rw [hone]
    refine s.line_moves _ ⟨rfl, rfl, rfl, rfl⟩ id fun ha => ?_
    rw [hasm] at ha
    exact absurd rfl ha.1
  · have hpos : 1 ≤ chars.length := List.length_pos_iff.2 hchars
    unfold State.nextCharacter
    split
    · exact State.kindCharacter_moves hasm ‹_›
    · rename_i h2
      have hlen : 2 ≤ chars.length := by simp at h2; omega
      split
      · exact State.lengthCharacter_moves hasm hlen
      split
      · exact State.frameComplete_moves hasm hlen
      · exact State.assemble_moves hasm hlen

end InAssembly

theorem State.characterReceived_moves (data : Byte) (marker : Bool) :
    Moves s (s.characterReceived data marker) := by
  refine s.active_moves.trans ?_
  unfold State.characterReceived State.assembleCharacter
  split
  · exact State.head_moves _ data
  · split
    · exact .refl
    · exact .refl
    · exact State.nextCharacter_moves ‹_›

end Sys2Proof.Machine
end

