-- ==== Sys2Proof/Proofs/Image.lean ====
section
/-! PROOFS. The configuration image: each section is read exactly when it stands in the image by the layout of
Section 11.4, and the seven tests of R171 pass exactly the images a configuration stands in. -/

namespace Sys2Proof

/-! ### Rows of six -/

theorem Six.all_toList {α : Type} (x : Six α) (p : α → Bool) :
    x.toList.all p = true ↔ ∀ g, p (x.get g) = true := by
  simp only [Six.toList, List.all_cons, List.all_nil, Bool.and_true, Bool.and_eq_true]
  constructor
  · rintro ⟨h1, h2, h3, h4, h5, h6⟩ g
    match g with
    | 0 => exact h1
    | 1 => exact h2
    | 2 => exact h3
    | 3 => exact h4
    | 4 => exact h5
    | 5 => exact h6
  · exact fun h => ⟨h 0, h 1, h 2, h 3, h 4, h 5⟩

theorem Six.ext_get {α : Type} {x y : Six α} (h : ∀ g, x.get g = y.get g) : x = y := by
  cases x
  cases y
  have h0 := h 0
  have h1 := h 1
  have h2 := h 2
  have h3 := h 3
  have h4 := h 4
  have h5 := h 5
  simp only [Six.get] at h0 h1 h2 h3 h4 h5
  subst h0 h1 h2 h3 h4 h5
  rfl

theorem isBayNumber_iff {n : Nat} : isBayNumber n = true ↔ 1 ≤ n ∧ n ≤ 48 := by simp [isBayNumber]

theorem isPanelNumber_iff {n : Nat} : isPanelNumber n = true ↔ 56 ≤ n ∧ n ≤ 63 := by
  simp [isPanelNumber]

end Sys2Proof

namespace Sys2Proof.Machine

/-! ### The codes of the image -/

theorem tempInRange_iff {t : Int} : tempInRange t = true ↔ -400 ≤ t ∧ t ≤ 600 := by simp [tempInRange]

theorem BitRate.ofCode_eq_some {n : Nat} {r : BitRate} : BitRate.ofCode n = some r ↔
    n = (match r with | .r19200 => 0 | .r38400 => 1 | .r57600 => 2 | .r115200 => 3) := by
  unfold BitRate.ofCode
  split <;> cases r <;> simp_all

theorem Interval.ofCode_eq_some {n : Nat} {v : Interval} : Interval.ofCode n = some v ↔
    n = (match v with | .s2 => 0 | .s4 => 1 | .s8 => 2 | .s16 => 3) := by
  unfold Interval.ofCode
  split <;> cases v <;> simp_all

theorem CalPhase.ofCode_eq_some {n : Nat} {p : CalPhase} : CalPhase.ofCode n = some p ↔
    n = (match p with | .closed => 0 | .work => 2 | .brk => 3 | .changeover => 4) := by
  unfold CalPhase.ofCode
  split <;> cases p <;> simp_all

theorem Edge.ofCode_eq_some {n : Nat} {e : Edge} : Edge.ofCode n = some e ↔
    n = (match e with | .noEdge => 0 | .west => 1 | .east => 2) := by
  unfold Edge.ofCode
  split <;> cases e <;> simp_all

/-! ### The sections one by one (Section 11.4) -/

theorem readSite_eq_some {l : List Byte} {b : SiteBlock} : readSite l = some b ↔ b.standsIn l := by
  unfold readSite SiteBlock.standsIn
  constructor
  · intro h
    split at h
    · rename_i rate interval hrate hinterval
      dsimp only at h
      split at h
      · rename_i hrange
        cases h
        obtain ⟨h1, h2, ht, h3, h4, h5, h6, h7, h8, h9, h10, h11⟩ := hrange
        obtain ⟨hlow, hhigh⟩ := tempInRange_iff.1 ht
        exact ⟨rfl, h1, h2, rfl, hlow, hhigh, rfl, h3, rfl, h4, rfl, h5, BitRate.ofCode_eq_some.1 hrate,
          Interval.ofCode_eq_some.1 hinterval, rfl, h6, h7, rfl, h8, h9, rfl, h10, rfl, h11⟩
      · cases h
    · cases h
  · rintro ⟨e1, h1, h2, e2, hlow, hhigh, e3, h3, e4, h4, e5, h5, e6, e7, e8, h6, h7, e9, h8, h9, e10,
      h10, e11, h11⟩
    have hrate : BitRate.ofCode (u8At l 16) = some b.bitRate := BitRate.ofCode_eq_some.2 e6
    have hinterval : Interval.ofCode (u8At l 17) = some b.interval := Interval.ofCode_eq_some.2 e7
    rw [hrate, hinterval]
    obtain ⟨f1, f2, f3, f4, f5, f6, f7, f8, f9, f10, f11⟩ := b
    simp only at e1 e2 e3 e4 e5 e8 e9 e10 e11
    subst e1 e2 e3 e4 e5 e8 e9 e10 e11
    exact if_pos ⟨h1, h2, tempInRange_iff.2 ⟨hlow, hhigh⟩, h3, h4, h5, h6, h7, h8, h9, h10, h11⟩

theorem toNat_extractLsb'_three (b : Byte) : (b.extractLsb' 0 3).toNat = b.toNat % 8 := by
  simp [BitVec.extractLsb'_toNat]

theorem readEntry_eq_some {l : List Byte} {i : Nat} {e : CalEntry} :
    readEntry l i = some e ↔ e.standsAt l i := by
  unfold readEntry CalEntry.standsAt
  dsimp only
  constructor
  · intro h
    split at h
    · rename_i p hp
      split at h
      · cases h
        rw [toNat_extractLsb'_three] at hp
        exact ⟨rfl, ‹_›, CalPhase.ofCode_eq_some.1 hp, rfl⟩
      · cases h
    · cases h
  · rintro ⟨e1, h1, e2, e3⟩
    have hphase : CalPhase.ofCode ((byteAt l (i + 2)).extractLsb' 0 3).toNat = some e.phase := by
      rw [toNat_extractLsb'_three]
      exact CalPhase.ofCode_eq_some.2 e2
    rw [hphase]
    obtain ⟨m, p, f⟩ := e
    simp only at e1 e3
    subst e1 e3
    exact if_pos h1

theorem readPhaseRow_eq_some {l : List Byte} {i : Nat} {r : PhaseRow} :
    readPhaseRow l i = some r ↔ r.standsAt l i := by
  have hlevel : ∀ k (g : Fin 6), (readLevels l k).get g = (halfAt l (k + 2 * g.val)).toNat := by
    intro k g
    rw [readLevels, Six.get_ofFn]
    rfl
  unfold readPhaseRow PhaseRow.standsAt
  dsimp only
  constructor
  · intro h
    split at h
    · rename_i hrange
      cases h
      obtain ⟨ht, h1, h2, h3, h4, hbase, hocc⟩ := hrange
      obtain ⟨hlow, hhigh⟩ := tempInRange_iff.1 ht
      rw [Six.all_toList] at hbase hocc
      refine ⟨rfl, hlow, hhigh, rfl, h1, rfl, h2, h3, ?_, fun g => ⟨hlevel _ g, by simpa using hbase g,
        hlevel _ g, by simpa using hocc g⟩⟩
      have hcode : (byteAt l (i + 5)).toNat ≤ 1 := h4
      simp only [u8At, beq_iff_eq]
      split <;> omega
    · cases h
  · rintro ⟨e1, hlow, hhigh, e2, h1, e3, h2, h3, e4, hlevels⟩
    have hcode : u8At l (i + 5) = if r.curtains then 1 else 0 := e4
    have hbase : readLevels l (i + 6) = r.base := Six.ext_get fun g => by
      rw [hlevel, (hlevels g).1]
    have hocc : readLevels l (i + 18) = r.occ := Six.ext_get fun g => by
      rw [hlevel, (hlevels g).2.2.1]
    have hcurtains : (u8At l (i + 5) == 1) = r.curtains := by
      rw [hcode]
      cases r.curtains <;> rfl
    rw [hbase, hocc, hcurtains, if_pos]
    · obtain ⟨f1, f2, f3, f4, f5, f6⟩ := r
      simp only at e1 e2 e3
      subst e1 e2 e3
      rfl
    · rw [Six.all_toList, Six.all_toList]
      refine ⟨tempInRange_iff.2 ⟨hlow.trans_eq e1, e1.ge.trans hhigh⟩, e2.ge.trans h1, h2.trans_eq e3,
        e3.ge.trans h3, ?_,
        fun g => by simpa using (hlevels g).2.1, fun g => by simpa using (hlevels g).2.2.2⟩
      rw [hcode]
      split <;> omega

/-- A light group's fields by their places behind the bay block's beginning. -/
theorem readGroup_at (l : List Byte) (i g : Nat) :
    readGroup l (i + 25 + 5 * g) =
      ⟨(halfAt l (i + 25 + 5 * g)).toNat, (halfAt l (i + 27 + 5 * g)).toNat,
        (byteAt l (i + 29 + 5 * g)).getLsbD 0, (byteAt l (i + 29 + 5 * g)).getLsbD 1⟩ := by
  have h2 : i + 25 + 5 * g + 2 = i + 27 + 5 * g := by omega
  have h4 : i + 25 + 5 * g + 4 = i + 29 + 5 * g := by omega
  rw [readGroup, h2, h4]
  rfl

/-- The bay block's ranges as the layout of Section 11.4 gives them, on the fields read. -/
theorem readBay_eq_some {l : List Byte} {i : Nat} {b : BayBlock} :
    readBay l i = some b ↔ b.standsAt l i := by
  unfold readBay BayBlock.standsAt
  dsimp only
  constructor
  · intro h
    split at h
    · rename_i hrange
      cases h
      obtain ⟨hn, h2, h3, h4, h5, h6, h7, h8, h9, h10, h11, h12, h13, h14, h15, h16, h17, h18, h19, h20,
        h21, h22, hgroups, hedges⟩ := hrange
      rw [Six.all_toList] at hgroups hedges
      refine ⟨hn, rfl, ?_, rfl, h3, h4, rfl, h5, h6, rfl, h7, rfl, h8, rfl, h9, rfl, h10, h11, rfl, h12, rfl,
        h13, rfl, h14, rfl, h15, h16, rfl, h17, rfl, rfl, h19, h18, rfl, h20, rfl, h21, rfl, h22,
        fun g => ?_, fun z => ?_⟩
      · have hcode : (byteAt l (i + 2)).toNat ≤ 1 := h2
        simp only [u8At, beq_iff_eq]
        split <;> omega
      · have hg := hgroups g
        simp only [Bool.and_eq_true, decide_eq_true_eq, Six.get_ofFn, readGroup_at] at hg
        rw [Six.get_ofFn, readGroup_at]
        exact ⟨rfl, hg.1.1, hg.1.2, rfl, hg.2, rfl, rfl⟩
      · have := hedges z
        rw [Six.get_ofFn] at this ⊢
        obtain ⟨e, he⟩ := Option.isSome_iff_exists.1 this
        simp only [Six.get_ofFn, he, Option.getD_some]
        exact ⟨Edge.ofCode_eq_some.1 he, trivial⟩
    · cases h
  · rintro ⟨hn, e1, e2, e3, h3, h4, e5, h5, h6, e7, h7, e8, h8, e9, h9, e10, h10, h11, e12, h12, e13, h13,
      e14, h14, e15, h15, h16, e17, h17, e18, e19, h19, h18, e20, h20, e21, h21, e22, h22, hgroups, hzones⟩
    have hcode : u8At l (i + 2) = if b.outdoorFitted then 1 else 0 := e2
    have hfitted : (u8At l (i + 2) == 1) = b.outdoorFitted := by
      rw [hcode]
      cases b.outdoorFitted <;> rfl
    have hedge : ∀ z : Fin 6, Edge.ofCode (u8At l (i + 55 + 2 * z.val)) = some (b.zones.get z).edge :=
      fun z => Edge.ofCode_eq_some.2 (hzones z).1
    have hgroupsEq : (Six.ofFn fun g : Fin 6 => readGroup l (i + 25 + 5 * g.val)) = b.groups := by
      refine Six.ext_get fun g => ?_
      obtain ⟨g1, -, -, g2, -, g3, g4⟩ := hgroups g
      rw [Six.get_ofFn, readGroup_at, ← g1, ← g2, ← g3, ← g4]
    have hzonesEq : (Six.ofFn fun z : Fin 6 => (⟨((Six.ofFn fun z : Fin 6 =>
        Edge.ofCode (u8At l (i + 55 + 2 * z.val))).get z).getD .noEdge,
        (byteAt l (i + 56 + 2 * z.val)).extractLsb' 0 6⟩ : ZoneConfig)) = b.zones := by
      refine Six.ext_get fun z => ?_
      rw [Six.get_ofFn, Six.get_ofFn, hedge, ← (hzones z).2]
      rfl
    rw [hgroupsEq, hzonesEq, hfitted, if_pos]
    · obtain ⟨f1, f2, f3, f4, f5, f6, f7, f8, f9, f10, f11, f12, f13, f14, f15, f16, f17, f18, f19, f20⟩ := b
      simp only at e1 e3 e5 e7 e8 e9 e10 e12 e13 e14 e15 e17 e18 e19 e20 e21 e22
      subst e1 e3 e5 e7 e8 e9 e10 e12 e13 e14 e15 e17 e18 e19 e20 e21 e22
      rfl
    · rw [Six.all_toList, Six.all_toList]
      simp only [u8At, u16At, ← e3, ← e5, ← e7, ← e8, ← e9, ← e10, ← e12, ← e13, ← e14, ← e15, ← e17, ← e18,
        ← e19, ← e20, ← e21, ← e22]
      refine ⟨hn, ?_, h3, h4, h5, h6, h7, h8, h9, h10, h11, h12, h13, h14, h15, h16, h17, h18, h19, h20, h21,
        h22, fun g => ?_, fun z => ?_⟩
      · rw [e2]
        split <;> omega
      · obtain ⟨-, g1, g2, -, g3, -⟩ := hgroups g
        simp [g1, g2, g3]
      · rw [Six.get_ofFn]
        exact Option.isSome_iff_exists.2 ⟨_, hedge z⟩

theorem readPhases_eq_some {l : List Byte} {t : PhaseTable} :
    readPhases l = some t ↔ t.closed.standsAt l (phasesAt l) ∧ t.work.standsAt l (phasesAt l + 30)
      ∧ t.brk.standsAt l (phasesAt l + 60) ∧ t.changeover.standsAt l (phasesAt l + 90) := by
  simp only [← readPhaseRow_eq_some]
  unfold readPhases
  dsimp only
  constructor
  · intro h
    split at h
    · cases h
      exact ⟨‹_›, ‹_›, ‹_›, ‹_›⟩
    · cases h
  · rintro ⟨h1, h2, h3, h4⟩
    rw [h1, h2, h3, h4]

/-! ### Lists of sections -/

theorem allRead_eq_some {α : Type} {l : List (Option α)} {as : List α} :
    allRead l = some as ↔ l = as.map some := by
  induction l generalizing as with
  | nil => cases as <;> simp [allRead]
  | cons o l ih =>
    cases o with
    | none => cases as <;> simp [allRead]
    | some a =>
      unfold allRead
      cases hl : allRead l with
      | none =>
        cases as with
        | nil => simp
        | cons b bs =>
          have : ¬ l = bs.map some := fun h => by simp [ih.2 h] at hl
          simp [this]
      | some bs =>
        rw [ih] at hl
        subst hl
        cases as with
        | nil => simp
        | cons c cs =>
          simp [List.map_inj_right fun _ _ h => Option.some.inj h]

/-- What is read one after another of `n` places is the list of what is read of each. -/
theorem allRead_range_eq_some {α : Type} {f : Nat → Option α} {n : Nat} {as : List α} :
    allRead ((List.range n).map f) = some as ↔
      as.length = n ∧ ∀ (k : Nat) (a : α), as[k]? = some a → f k = some a := by
  rw [allRead_eq_some]
  constructor
  · intro h
    have hlen : as.length = n := by simpa using (congrArg List.length h).symm
    refine ⟨hlen, fun k a ha => ?_⟩
    have hk : k < n := hlen ▸ (List.getElem?_eq_some_iff.1 ha).1
    have := congrArg (·[k]?) h
    simpa [hk, ha] using this
  · rintro ⟨hlen, h⟩
    refine List.ext_getElem (by simp [hlen]) fun k h1 h2 => ?_
    have hk : k < as.length := by simpa using h2
    simpa using h k as[k] (List.getElem?_eq_getElem hk)

theorem allRead_range_isSome {α : Type} {f : Nat → Option α} {n : Nat} :
    (∃ as, allRead ((List.range n).map f) = some as) ↔ ∀ j, j < n → ∃ a, f j = some a := by
  constructor
  · rintro ⟨as, h⟩ j hj
    obtain ⟨hlen, hf⟩ := allRead_range_eq_some.1 h
    exact ⟨as[j], hf j _ (List.getElem?_eq_getElem (by omega))⟩
  · intro h
    choose g hg using h
    refine ⟨(List.range n).attach.map fun j => g j.1 (List.mem_range.1 j.2),
      allRead_range_eq_some.2 ⟨by simp, fun k a ha => ?_⟩⟩
    rw [List.getElem?_map] at ha
    obtain ⟨⟨j, hj⟩, hget, rfl⟩ := Option.map_eq_some_iff.1 ha
    obtain ⟨hk, hget⟩ := List.getElem?_eq_some_iff.1 hget
    have hjk : j = k := by simpa using (congrArg Subtype.val hget).symm
    subst hjk
    exact hg _ _

theorem readCalendar_eq_some {l : List Byte} {cal : List CalEntry} :
    readCalendar l = some cal ↔ entryCount l ≤ 24 ∧ cal.length = entryCount l
      ∧ ∀ (k : Nat) (e : CalEntry), cal[k]? = some e → e.standsAt l (26 + 3 * k) := by
  simp only [readCalendar, Option.ite_none_right_eq_some, allRead_range_eq_some, readEntry_eq_some,
    entryAt]

theorem readBays_isSome {l : List Byte} :
    (∃ bs, readBays l = some bs) ↔
      blockCount l ≤ 48 ∧ ∀ j, j < blockCount l → ∃ b : BayBlock, b.standsAt l (blockAt l j) := by
  simp only [readBays, Option.ite_none_right_eq_some, exists_and_left, allRead_range_isSome,
    readBay_eq_some]

theorem readSections_eq_some {l : List Byte} {i : Nat} {c : Configuration} :
    readSections l i = some c ↔ sectionsEnd l ≤ l.length ∧ c.site.standsIn l
      ∧ readCalendar l = some c.calendar ∧ readPhases l = some c.phases ∧ (∃ bs, readBays l = some bs)
      ∧ c.bay.standsAt l i ∧ c.version = u16At l 4
      ∧ c.signature = byteSum ((l.take (baysAt l)).drop calendarAt) % 65536 := by
  simp only [← readSite_eq_some, ← readBay_eq_some]
  unfold readSections
  constructor
  · intro h
    split at h
    · split at h
      · cases h
        exact ⟨‹_›, ‹_›, ‹_›, ‹_›, ⟨_, ‹_›⟩, ‹_›, rfl, rfl⟩
      · cases h
    · cases h
  · rintro ⟨hend, hsite, hcal, hphases, ⟨bs, hbays⟩, hbay, hversion, hsignature⟩
    rw [if_pos hend, hsite, hcal, hphases, hbays, hbay]
    obtain ⟨f1, f2, f3, f4, f5, f6⟩ := c
    simp only at hversion hsignature
    subst hversion hsignature
    rfl

/-! ### The own block and the order of the calendar (tests 5 and 6 of R171) -/

theorem blockAt_eq (l : List Byte) (j : Nat) :
    blockAt l j = 147 + 3 * (byteAt l 25).toNat + 67 * j := by
  show 26 + 3 * (byteAt l 25).toNat + 120 + 1 + 67 * j = _
  omega

theorem blockCount_eq (l : List Byte) :
    blockCount l = (byteAt l (146 + 3 * (byteAt l 25).toNat)).toNat := by
  have h : baysAt l = 146 + 3 * (byteAt l 25).toNat := by
    show 26 + 3 * (byteAt l 25).toNat + 120 = _
    omega
  rw [blockCount, h]
  rfl

/-- A block that test 5 accepts, by its number in the table. -/
theorem blockMatches_iff {l : List Byte} {own j : Nat} :
    blockMatches l own j ↔ j < blockCount l
      ∧ (decide (blockAt l j + 67 ≤ l.length) && isBayNumber (u8At l (blockAt l j))
        && u8At l (blockAt l j) == own) = true := by
  simp only [blockMatches, ← blockAt_eq, ← blockCount_eq, Bool.and_eq_true, decide_eq_true_eq, beq_iff_eq]
  constructor
  · rintro ⟨hj, hend, hown, hnum⟩
    have hnum' : u8At l (blockAt l j) = own := hnum
    exact ⟨hj, ⟨hend, hnum'.symm ▸ hown⟩, hnum'⟩
  · rintro ⟨hj, ⟨hend, hown⟩, hnum⟩
    exact ⟨hj, hend, hnum ▸ hown, hnum⟩

/-- Test 5 takes the first block that matches. -/
theorem ownBlock_eq_some {l : List Byte} {own i : Nat} :
    ownBlock l own = some i ↔
      ∃ j, blockMatches l own j ∧ i = blockAt l j ∧ ∀ j', j' < j → ¬ blockMatches l own j' := by
  rw [ownBlock, List.find?_eq_some_iff_getElem]
  constructor
  · rintro ⟨hp, j, hj, rfl, hfirst⟩
    simp only [List.length_map, List.length_range] at hj
    simp only [List.getElem_map, List.getElem_range] at hp hfirst ⊢
    refine ⟨j, blockMatches_iff.2 ⟨hj, hp⟩, rfl, fun j' hj' h => ?_⟩
    have := hfirst j' hj'
    rw [(blockMatches_iff.1 h).2] at this
    cases this
  · rintro ⟨j, hmatch, rfl, hfirst⟩
    obtain ⟨hj, hp⟩ := blockMatches_iff.1 hmatch
    refine ⟨hp, j, by simpa using hj, by simp, fun j' hj' => ?_⟩
    simp only [List.getElem_map, List.getElem_range]
    rw [Bool.not_eq_true']
    exact Bool.eq_false_iff.2 fun h => hfirst j' hj' (blockMatches_iff.2 ⟨by omega, h⟩)

theorem ownBlock_eq_none {l : List Byte} {own : Nat} :
    ownBlock l own = none ↔ ∀ j, ¬ blockMatches l own j := by
  simp only [ownBlock, List.find?_eq_none, List.mem_map, List.mem_range, blockMatches_iff]
  constructor
  · exact fun h j hj => h _ ⟨j, hj.1, rfl⟩ hj.2
  · rintro h _ ⟨j, hj, rfl⟩ hp
    exact h j ⟨hj, hp⟩

theorem ascending_iff_isChain (l : List Nat) : ascending l = true ↔ l.IsChain (· < ·) := by
  induction l using ascending.induct with
  | case1 a b rest ih => simp [ascending, ih]
  | case2 l h =>
    match l, h with
    | [], _ => simp [ascending]
    | [a], _ => simp [ascending]
    | a :: b :: rest, h => exact absurd rfl (h a b rest)

theorem ascending_iff_pairwise (l : List Nat) : ascending l = true ↔ l.Pairwise (· < ·) := by
  rw [ascending_iff_isChain, List.isChain_iff_pairwise]

theorem range_filter_lt (n q : Nat) :
    (List.range n).filter (fun i => decide (i < q)) = List.range (min n q) := by
  induction n with
  | zero => simp
  | succ n ih =>
    rw [List.range_succ, List.filter_append, ih]
    by_cases h : n < q
    · rw [List.filter_singleton, decide_eq_true h, show min (n + 1) q = min n q + 1 by omega,
        List.range_succ, show min n q = n by omega]
      rfl
    · rw [List.filter_singleton, decide_eq_false h, show min (n + 1) q = min n q by omega]
      exact List.append_nil _

/-- The entries wholly within an image are the first ones. -/
theorem minutesWithin_eq (l : List Byte) :
    minutesWithin l = (List.range (min (entryCount l) ((l.length - 26) / 3))).map
      fun i => u16At l (26 + 3 * i) := by
  rw [minutesWithin, ← range_filter_lt]
  have : (fun i => decide (entryAt i + 3 ≤ l.length)) = fun i => decide (i < (l.length - 26) / 3) := by
    funext i
    refine decide_eq_decide.2 ?_
    rw [entryAt]
    omega
  rw [this]
  rfl

/-- Test 6 fails where two neighbouring entries within the image do not ascend. -/
theorem ascending_minutesWithin_iff {l : List Byte} :
    ascending (minutesWithin l) = true ↔ ∀ k, ¬ entryFalls l k := by
  rw [ascending_iff_isChain, List.isChain_iff_getElem, minutesWithin_eq]
  simp only [List.length_map, List.length_range, List.getElem_map, List.getElem_range, entryFalls]
  have hnext : ∀ k, 26 + 3 * (k + 1) = 29 + 3 * k := by intro k; omega
  simp only [hnext]
  constructor
  · rintro h k ⟨hk, hend, hfalls⟩
    have hlt := h k (by simp only [entryCount, u8At, calendarAt]; omega)
    exact absurd hfalls (Nat.not_le_of_lt hlt)
  · intro h k hk
    refine Nat.lt_of_not_le fun hfalls => h k ⟨?_, ?_, hfalls⟩
    · simp only [entryCount, u8At, calendarAt] at hk
      omega
    · omega

/-- With every section within the image, the minutes judged are the whole calendar's. -/
theorem minutesWithin_of_whole {l : List Byte} {cal : List CalEntry} (hend : sectionsEnd l ≤ l.length)
    (hcal : readCalendar l = some cal) : minutesWithin l = cal.map CalEntry.minute := by
  obtain ⟨-, hlen, hstands⟩ := readCalendar_eq_some.1 hcal
  have hmin : min (entryCount l) ((l.length - 26) / 3) = entryCount l := by
    rw [sectionsEnd, blockAt_eq] at hend
    simp only [entryCount, u8At, calendarAt]
    omega
  rw [minutesWithin_eq, hmin]
  refine List.ext_getElem (by simp [hlen]) fun k h1 h2 => ?_
  have hk : k < cal.length := by simpa using h2
  simp only [List.getElem_map, List.getElem_range]
  exact (hstands k _ (List.getElem?_eq_getElem hk)).1.symm

/-! ### The seven tests (R171) -/

/-- With the header's tests passed, the judgement is that of tests 4 to 7. -/
theorem judgeImage_of_headerPasses {l : List Byte} (own : Nat) (h : headerPasses l) :
    judgeImage own (.bytes l) =
      if wordSum (l.take (halfAt l 2).toNat) % 65536 ≠ 0 then .error 4
      else match ownBlock (l.take (halfAt l 2).toNat) own with
        | none => .error 5
        | some i =>
          if ascending (minutesWithin (l.take (halfAt l 2).toNat)) then
            match readSections (l.take (halfAt l 2).toNat) i with
            | some c => .ok c
            | none => .error 7
          else .error 6 := by
  obtain ⟨h1, h2, h3, h4⟩ := h
  have hsignature : u16At l 0 = 0x5D43 := by rw [u16At, h2]; rfl
  have htotal : u16At l 2 = (halfAt l 2).toNat := rfl
  unfold judgeImage
  dsimp only
  rw [if_neg (by omega), if_neg (by simp [hsignature]), if_neg (by omega), if_neg (by omega)]
  rfl

theorem headerPasses_of_judged {own : Nat} {l : List Byte} {c : Configuration}
    (h : judgeImage own (.bytes l) = .ok c) : headerPasses l := by
  unfold judgeImage at h
  dsimp only at h
  split at h
  · cases h
  split at h
  · cases h
  split at h
  · cases h
  split at h
  · cases h
  · rename_i h1 h2 h3 h4
    refine ⟨by omega, ?_, Nat.le_of_not_lt h3, Nat.le_of_not_lt h4⟩
    exact BitVec.eq_of_toNat_eq (by simpa [u16At] using h2)

/-- The whole image read from the own block, and the calendar in order: a configuration stands in it. -/
theorem standsIn_iff {l : List Byte} {own : Nat} {c : Configuration} :
    c.standsIn l own ↔ ∃ i, ownBlock l own = some i ∧ ascending (minutesWithin l) = true
      ∧ readSections l i = some c := by
  have hblock : ∀ j, 26 + 3 * (byteAt l 25).toNat + 121 + 67 * j = blockAt l j := by
    intro j
    rw [blockAt_eq]
    omega
  have hcount : (byteAt l (26 + 3 * (byteAt l 25).toNat + 120)).toNat = blockCount l := rfl
  have hentries : (byteAt l 25).toNat = entryCount l := rfl
  unfold Configuration.standsIn
  simp only [hblock, hcount, readSections_eq_some, ownBlock_eq_some, readPhases_eq_some, readBays_isSome,
    ascending_iff_pairwise]
  constructor
  · rintro ⟨hend, hn, hm, hsite, hlen, hcal, hasc, hp1, hp2, hp3, hp4, hbays, ⟨j, hj, hbay, hnum, hfirst⟩,
      hversion, hsignature⟩
    have hread : readCalendar l = some c.calendar := readCalendar_eq_some.2 ⟨hn, hlen, hcal⟩
    have hinside : ∀ j, j < blockCount l → blockAt l j + 67 ≤ l.length := by
      intro j hj
      rw [blockAt_eq] at hend ⊢
      omega
    have hown : isBayNumber own = true := hnum ▸ hbay.1
    refine ⟨blockAt l j, ⟨j, blockMatches_iff.2 ⟨hj, ?_⟩, rfl, fun j' hj' h => ?_⟩, ?_, hend, hsite, hread,
      ⟨hp1, hp2, hp3, hp4⟩, ⟨hm, hbays⟩, hbay, hversion, hsignature⟩
    · simp only [u8At, hnum, hown, decide_eq_true (hinside j hj), beq_self_eq_true, Bool.and_true]
    · have hp := (blockMatches_iff.1 h).2
      simp only [Bool.and_eq_true, beq_iff_eq] at hp
      exact hfirst j' hj' hp.2
    · rw [minutesWithin_of_whole hend hread]
      exact hasc
  · rintro ⟨i, ⟨j, hmatch, rfl, hfirst⟩, hasc, hend, hsite, hread, ⟨hp1, hp2, hp3, hp4⟩, ⟨hm, hbays⟩, hbay,
      hversion, hsignature⟩
    obtain ⟨hn, hlen, hcal⟩ := readCalendar_eq_some.1 hread
    rw [minutesWithin_of_whole hend hread] at hasc
    obtain ⟨hj, hp⟩ := blockMatches_iff.1 hmatch
    simp only [Bool.and_eq_true, beq_iff_eq] at hp
    refine ⟨hend, hn, hm, hsite, hlen, hcal, hasc, hp1, hp2, hp3, hp4, hbays, ⟨j, hj, hbay, hp.2,
      fun j' hj' hnum => ?_⟩, hversion, hsignature⟩
    obtain ⟨b, hb⟩ := hbays j' (by omega)
    refine hfirst j' hj' (blockMatches_iff.2 ⟨by omega, ?_⟩)
    have hinside : blockAt l j' + 67 ≤ l.length := by
      rw [sectionsEnd, blockAt_eq] at hend
      rw [blockAt_eq]
      omega
    have hown : isBayNumber own = true := hnum ▸ hb.1
    simp only [u8At, hnum, hown, decide_eq_true hinside, beq_self_eq_true, Bool.and_true]

/-- The check passes exactly the images a configuration stands in (R171). -/
theorem judgeImage_eq_ok {own : Nat} {l : List Byte} {c : Configuration} :
    judgeImage own (.bytes l) = .ok c ↔ headerPasses l
      ∧ wordSum (l.take (halfAt l 2).toNat) % 65536 = 0 ∧ c.standsIn (l.take (halfAt l 2).toNat) own := by
  constructor
  · intro h
    have hheader := headerPasses_of_judged h
    rw [judgeImage_of_headerPasses own hheader] at h
    refine ⟨hheader, ?_⟩
    rw [standsIn_iff]
    split at h
    · cases h
    rename_i hsum
    split at h
    · cases h
    rename_i i hi
    split at h
    · rename_i hasc
      split at h
      · rename_i c' hc
        cases h
        exact ⟨by simpa using hsum, i, hi, hasc, hc⟩
      · cases h
    · cases h
  · rintro ⟨hheader, hsum, hstands⟩
    obtain ⟨i, hi, hasc, hc⟩ := standsIn_iff.1 hstands
    rw [judgeImage_of_headerPasses own hheader, if_neg (by simpa using hsum), hi]
    simp [hasc, hc]

/-! ### The ranges of an adopted configuration (R171, R172) -/

theorem SiteBlock.inRange_of_standsIn {b : SiteBlock} {l : List Byte} (h : b.standsIn l) : b.inRange := by
  obtain ⟨-, h1, h2, -, h3, h4, -, h5, -, h6, -, h7, -, -, -, h8, h9, -, h10, h11, -, h12, -, h13⟩ := h
  exact ⟨h1, h2, ⟨h3, h4⟩, h5, h6, h7, h8, h9, h10, h11, h12, h13⟩

theorem PhaseRow.inRange_of_standsAt {r : PhaseRow} {l : List Byte} {i : Nat} (h : r.standsAt l i) :
    r.inRange := by
  obtain ⟨-, h1, h2, -, h3, -, h4, h5, -, hlevels⟩ := h
  exact ⟨⟨h1, h2⟩, h3, h4, h5, fun g => ⟨(hlevels g).2.1, (hlevels g).2.2.2⟩⟩

theorem BayBlock.inRange_of_standsAt {b : BayBlock} {l : List Byte} {i : Nat} (h : b.standsAt l i) :
    b.inRange := by
  obtain ⟨-, -, -, -, h3, h4, -, h5, h6, -, h7, -, h8, -, h9, -, h10, h11, -, h12, -, h13, -, h14, -, h15,
    h16, -, h17, -, -, h18, h19, -, h20, -, h21, -, h22, hgroups, -⟩ := h
  exact ⟨h3, h4, h5, h6, h7, h8, h9, h10, h11, h12, h13, h14, h15, h16, h17, h18, h19, h20, h21, h22,
    fun g => ⟨(hgroups g).2.1, (hgroups g).2.2.1, (hgroups g).2.2.2.2.1⟩⟩

theorem Configuration.inRange_of_standsIn {c : Configuration} {l : List Byte} {own : Nat}
    (h : c.standsIn l own) : c.inRange := by
  obtain ⟨-, hn, -, hsite, hlen, hcal, hasc, hp1, hp2, hp3, hp4, -, ⟨j, -, hbay, -⟩, -⟩ := h
  refine ⟨SiteBlock.inRange_of_standsIn hsite, PhaseRow.inRange_of_standsAt hp1,
    PhaseRow.inRange_of_standsAt hp2, PhaseRow.inRange_of_standsAt hp3, PhaseRow.inRange_of_standsAt hp4,
    BayBlock.inRange_of_standsAt hbay, hlen.trans_le hn, fun e he => ?_, hasc⟩
  obtain ⟨k, hk⟩ := List.getElem?_of_mem he
  exact (hcal k e hk).2.1

theorem fallback_inRange : fallback.inRange := by
  have hrow : fallbackRow.inRange := by unfold PhaseRow.inRange isTemperature; decide
  refine ⟨by unfold SiteBlock.inRange isTemperature; decide, hrow, hrow, hrow, hrow,
    by unfold BayBlock.inRange; decide, by decide, nofun, by decide⟩

/-- What a judgement adopts lies within its ranges. -/
theorem adoptedConfig_inRange (own : Nat) (m : ImageRead) : (adoptedConfig (judgeImage own m)).inRange := by
  cases hj : judgeImage own m with
  | error n => exact fallback_inRange
  | ok c =>
    cases m with
    | noAnswer => cases hj
    | bytes l => exact Configuration.inRange_of_standsIn (judgeImage_eq_ok.1 hj).2.2

end Sys2Proof.Machine
end

