-- ==== Sys2Proof/Proofs/Commands.lean ====
section
/-! PROOFS. The commands: each answers a held reset, its release or a chain of moves; what every step keeps
follows from what each move keeps. -/

namespace Sys2Proof.Machine

/-! ### The adoption (R171, R172) -/

/-- The adoption as the end of LOAD, the first evaluation, and a send if one is owed (log 20). -/
theorem State.adopt_eq (s : State) (j : Except Nat Configuration) :
    s.adopt j =
      if s.fmc.owed && s.br.fireInput && (s.ssl.adopt (failureCode j)).startup == .selftest then
        ((s.adopted (adoptedConfig j) (failureCode j)).evaluate false).makeSend
      else (s.adopted (adoptedConfig j) (failureCode j)).evaluate false := by
  unfold State.adopt State.settleOwed
  have hstart : (((({ s with ssl := s.ssl.adopt (failureCode j) }.recordFallback
      (failureCode j)).adoptBlocks (adoptedConfig j)).evaluate false).ssl.startup)
      = (s.ssl.adopt (failureCode j)).startup := by
    cases failureCode j with
    | none => rfl
    | some n => exact Ssl.writeEvent_startup _ _
  rw [hstart]
  cases failureCode j <;> rfl

theorem State.adopted_startup (s : State) (c : Configuration) (code : Option Nat) :
    (s.adopted c code).ssl.startup = (s.ssl.adopt code).startup := by
  cases code with
  | none => rfl
  | some n => exact Ssl.writeEvent_startup _ _

theorem State.adopted_own (s : State) (c : Configuration) (code : Option Nat) :
    (s.adopted c code).ssl.own = s.ssl.own := by
  cases code with
  | none => rfl
  | some n => exact Ssl.writeEvent_own _ _

/-- An adoption ends LOAD. -/
theorem State.adopted_startup_ne_load (s : State) (c : Configuration) (code : Option Nat) :
    (s.adopted c code).ssl.startup ≠ .load := by
  rw [State.adopted_startup]
  unfold Ssl.adopt
  dsimp only
  split <;> exact Startup.noConfusion

theorem State.imageAdopt_moves (s : State) (m : ImageRead) : Moves s (s.imageAdopt m) := by
  unfold State.imageAdopt
  split
  · rename_i hload
    rw [State.adopt_eq]
    have hend := (Move.adopt _ (failureCode (judgeImage s.ssl.own m)) hload
      (adoptedConfig_inRange s.ssl.own m)).moves.trans (State.evaluate_moves _ false)
    split
    · rename_i hsend
      simp only [Bool.and_eq_true, beq_iff_eq] at hsend
      refine hend.trans (State.makeSend_moves _ ?_)
      rw [State.evaluate_ssl, State.adopted_startup, hsend.2]
      rfl
    · exact hend
  · exact .refl

/-! ### The commands whose meaning takes operands -/

section Meanings

variable (s : State)

theorem exec_fiuSampleEvent (x : InputLevels) (now : Nat) :
    exec (.fiuSampleEvent x now) s = whenReleased s fun s => (s.atField x now).fiuSample := rfl

theorem exec_sensorRestored (k : Sensor) (x : InputLevels) (now : Nat) :
    exec (.sensorRestored k x now) s = whenDue (s.restoreDue k x) s fun s => (s.atField x now).fiuSample := rfl

theorem exec_tempBlind (x : InputLevels) (now : Nat) :
    exec (.tempBlind x now) s = whenDue (s.blindDue x now) s fun s => (s.atField x now).fiuSample := rfl

theorem exec_doorLongOpen (k : Fin 8) (x : InputLevels) (now : Nat) :
    exec (.doorLongOpen k x now) s = whenDue (s.longOpenDue k x) s fun s => (s.atField x now).fiuSample := rfl

theorem exec_zoneHoldExpiry (k : Fin 6) (x : InputLevels) (now : Nat) :
    exec (.zoneHoldExpiry k x now) s = whenDue (s.zoneDue k x) s fun s => (s.atField x now).fiuSample := rfl

theorem exec_selftestEnd (x : InputLevels) (now : Nat) :
    exec (.selftestEnd x now) s = whenDue s.selftestDue s fun s => (s.atField x now).fiuSample := rfl

theorem exec_imageAdopt (m : ImageRead) :
    exec (.imageAdopt m) s = whenReleased s fun s => s.imageAdopt m := rfl

theorem exec_sslSampleEvent (now : Nat) :
    exec (.sslSampleEvent now) s = whenReleased s fun s => (s.atMoment now).sslSample := rfl

theorem exec_listenEnd (now : Nat) :
    exec (.listenEnd now) s = whenDue s.listenDue s fun s => (s.atMoment now).sslSample := rfl

theorem exec_joinEnd (now : Nat) :
    exec (.joinEnd now) s = whenDue s.joinDue s fun s => (s.atMoment now).sslSample := rfl

theorem exec_travel (n : Byte) (b : TravelBody) (now : Nat) :
    exec (.travel n b now) s = whenReleased s fun s => (s.atMoment now).accept n.toNat (.travel b) := rfl

theorem exec_inquiry (n target : Byte) (now : Nat) :
    exec (.inquiry n target now) s = whenReleased s fun s => (s.atMoment now).accept n.toNat (.inquiry target) := rfl

theorem exec_characterReceived (d : Byte) (m : Bool) (now : Nat) :
    exec (.characterReceived d m now) s = whenDue s.watching s fun s => (s.atMoment now).characterReceived d m := rfl

theorem exec_falseStart :
    exec .falseStart s = whenDue s.watching s fun s => { s with lc := s.lc.active } := rfl

theorem exec_brokenCharacter :
    exec .brokenCharacter s = whenDue s.watching s fun s => { s with lc := s.lc.broken } := rfl

theorem exec_frameTimeout (q : Nat) :
    exec (.frameTimeout q) s = whenDue (s.watching && s.lc.timedOut q) s fun s => { s with lc := s.lc.timeout q } := rfl

theorem exec_dominantLevelEnd (bits : Nat) :
    exec (.dominantLevelEnd bits) s = whenDue s.receiving s fun s => s.dominantLevelEnd bits := rfl

theorem exec_arbitrationLoss (n : Nat) :
    exec (.arbitrationLoss n) s = whenReleased s fun s => s.lose n := rfl

theorem exec_alarmHoldEnd :
    exec .alarmHoldEnd s = whenReleased s fun s => { s with lc := s.lc.holdEnd } := rfl

theorem exec_yieldEnd (q : Nat) :
    exec (.yieldEnd q) s = whenDue s.watching s fun s => { s with lc := s.lc.yieldEnd q } := rfl

theorem exec_noticeAgeExpiry (now : Nat) :
    exec (.noticeAgeExpiry now) s = whenReleased s fun s => { s with lc := (s.lc.advance now).expire noticeLife } := rfl

end Meanings

/-! ### Every command -/

/-- What a command can do. -/
inductive Effect (s : State) : State → Prop
  | reset (k : ResetKind) : Effect s (s.heldReset k)
  | release (straps : BitVec 6) (h : s.held ≠ none) : Effect s (s.beginLoad straps)
  | moves {t : State} (h : s.held = none) (m : Moves s t) : Effect s t
  | nothing : Effect s s

section Outcomes

variable {s t : State}

theorem Effect.of_whenReleased {f : State → State} (h : whenReleased s f = .next t)
    (hf : Moves s (f s)) : Effect s t := by
  unfold whenReleased at h
  split at h <;> cases h
  · rename_i hfree
    exact .moves (Option.isNone_iff_eq_none.1 hfree) hf
  · exact .nothing

theorem Effect.of_whenDue {due : Bool} {f : State → State} (h : whenDue due s f = .next t)
    (hf : Moves s (f s)) : Effect s t := by
  unfold whenDue at h
  split at h <;> cases h
  · rename_i hdue
    simp only [State.released, Bool.and_eq_true, Option.isNone_iff_eq_none] at hdue
    exact .moves hdue.1 hf
  · exact .nothing

theorem Effect.of_accept {n : Nat} {f : Frame} (h : Host.Outcome.next (s.accept n f) = (.next t :
    Host.Outcome State Fault Refusal)) : Effect s t := by
  cases h
  have hm := s.accept_moves n f
  unfold State.accept at hm ⊢
  split
  · rename_i hcan
    rw [if_pos hcan] at hm
    simp only [State.canAccept, Bool.and_eq_true] at hcan
    exact .moves (State.mayAccept_eq_true.1 hcan.1.1).1 hm
  · exact .nothing

/-- Every command's effect. -/
theorem exec_effect {i : Instr} (h : exec i s = .next t) : Effect s t := by
  cases i with
  | powerReset => cases h; exact .reset _
  | terminalReset => cases h; exact .reset _
  | resetRelease straps =>
    cases h
    split
    · exact .nothing
    · rename_i hheld
      exact .release straps fun hnone => hheld (by rw [State.released, hnone]; rfl)
  | imageAdopt m =>
    rw [exec_imageAdopt] at h
    exact .of_whenReleased h (s.imageAdopt_moves m)
  | fiuSampleEvent x now =>
    rw [exec_fiuSampleEvent] at h
    exact .of_whenReleased h (s.fiuSample_moves x now)
  | sensorRestored k x now =>
    rw [exec_sensorRestored] at h
    exact .of_whenDue h (s.fiuSample_moves x now)
  | tempBlind x now =>
    rw [exec_tempBlind] at h
    exact .of_whenDue h (s.fiuSample_moves x now)
  | doorLongOpen k x now =>
    rw [exec_doorLongOpen] at h
    exact .of_whenDue h (s.fiuSample_moves x now)
  | zoneHoldExpiry k x now =>
    rw [exec_zoneHoldExpiry] at h
    exact .of_whenDue h (s.fiuSample_moves x now)
  | selftestEnd x now =>
    rw [exec_selftestEnd] at h
    exact .of_whenDue h (s.fiuSample_moves x now)
  | scuSampleEvent => exact .of_whenReleased h s.scuSample_moves
  | minuteBoundary => exact .of_whenDue h s.scuSample_moves
  | holdRetire k => exact .of_whenDue h s.scuSample_moves
  | elapsedMinuteTick => exact .of_whenDue h s.scuSample_moves
  | amendmentExpiry => exact .of_whenDue h s.scuSample_moves
  | lcSampleEvent => exact .of_whenReleased h s.lcSample_moves
  | statusIntervalExpiry => exact .of_whenDue h s.lcSample_moves
  | clashQuietExpiry => exact .of_whenDue h s.lcSample_moves
  | ptSampleEvent => exact .of_whenReleased h s.ptSample_moves
  | entryStale n => exact .of_whenDue h s.ptSample_moves
  | entryLost n => exact .of_whenDue h s.ptSample_moves
  | ltcSampleEvent => exact .of_whenReleased h Move.lights.moves
  | prelightExpiry => exact .of_whenDue h Move.lights.moves
  | hruSampleEvent => exact .of_whenReleased h Move.heat.moves
  | runOnExpiry k => exact .of_whenDue h Move.heat.moves
  | hsuSampleEvent => exact .of_whenReleased h Move.stages.moves
  | minOffExpiry k => exact .of_whenDue h Move.stages.moves
  | abuSampleEvent => exact .of_whenReleased h Move.air.moves
  | fmcSampleEvent => exact .of_whenReleased h s.fmcSample_moves
  | repeatTimerExpiry => exact .of_whenDue h s.fmcSample_moves
  | sslSampleEvent now =>
    rw [exec_sslSampleEvent] at h
    exact .of_whenReleased h ((s.atMoment_moves now).trans (State.sslSample_moves _))
  | listenEnd now =>
    rw [exec_listenEnd] at h
    exact .of_whenDue h ((s.atMoment_moves now).trans (State.sslSample_moves _))
  | joinEnd now =>
    rw [exec_joinEnd] at h
    exact .of_whenDue h ((s.atMoment_moves now).trans (State.sslSample_moves _))
  | characterReceived d m now =>
    rw [exec_characterReceived] at h
    exact .of_whenDue h ((s.atMoment_moves now).trans (State.characterReceived_moves _ d m))
  | falseStart =>
    rw [exec_falseStart] at h
    exact .of_whenDue h s.active_moves
  | brokenCharacter =>
    rw [exec_brokenCharacter] at h
    exact .of_whenDue h (s.setMarks_moves s.lc.broken ⟨rfl, rfl, rfl, rfl⟩ rfl (.inr rfl))
  | frameTimeout q =>
    rw [exec_frameTimeout] at h
    exact .of_whenDue h (s.setLine_moves (s.lc.timeout q) ⟨rfl, rfl, rfl, rfl⟩
      (fun hc => Counters.inRange_countTimeout (l := s.lc.measured q) hc) (.inr rfl))
  | alarmHoldHeard => exact .of_whenDue h s.hearHold_moves
  | dominantLevelEnd bits =>
    rw [exec_dominantLevelEnd] at h
    exact .of_whenDue h (s.dominantLevelEnd_moves bits)
  | frameStart q now =>
    have hm := s.frameStart_moves q now
    cases h
    by_cases hmay : s.maySend = true
    · have hheld : s.held = none := by
        simp only [State.maySend, State.released, Bool.and_eq_true, Option.isNone_iff_eq_none] at hmay
        exact hmay.1.1.1
      exact .moves hheld hm
    · rw [State.frameStart, if_neg hmay]
      exact .nothing
  | arbitrationLoss n =>
    rw [exec_arbitrationLoss] at h
    exact .of_whenReleased h (s.lose_moves n)
  | frameSent => exact .of_whenReleased h s.frameSent_moves
  | alarmHoldEnd =>
    rw [exec_alarmHoldEnd] at h
    exact .of_whenReleased h s.holdEnd_moves
  | yieldEnd q =>
    rw [exec_yieldEnd] at h
    exact .of_whenDue h (s.yieldEnd_moves q)
  | noticeAgeExpiry now =>
    rw [exec_noticeAgeExpiry] at h
    exact .of_whenReleased h ((s.atMoment_moves now).then (Move.store _ (.expire noticeLife)))
  | status n b => exact .of_accept h
  | presence n b => exact .of_accept h
  | travel n b now =>
    rw [exec_travel] at h
    exact .of_whenReleased h ((s.atMoment_moves now).trans (State.accept_moves _ _ _))
  | alarm n b => exact .of_accept h
  | time n b => exact .of_accept h
  | inquiry n b now =>
    rw [exec_inquiry] at h
    exact .of_whenReleased h ((s.atMoment_moves now).trans (State.accept_moves _ _ _))
  | holdPhase p a d => exact .of_accept h
  | advancePhase p a => exact .of_accept h
  | closeBays p a m => exact .of_accept h
  | openBays p a => exact .of_accept h
  | lightForce p a m l => exact .of_accept h
  | cancelAmendments p a => exact .of_accept h
  | alarmReset p a => exact .of_accept h
  | restart p a => exact .of_accept h
  | unknownCommand p a c x => exact .of_accept h

end Outcomes

/-- An invariant is kept by every step when the queue, a held reset, its release and each move of a station
that is not held keep it. -/
theorem step_keeps {P : State → Prop} (hqueue : ∀ (s : State) (q : List Instr), P s → P { s with pending := q })
    (hreset : ∀ (s : State) (k : ResetKind), P s → P (s.heldReset k))
    (hrelease : ∀ (s : State) (b : BitVec 6), s.held ≠ none → P s → P (s.beginLoad b))
    (hmove : ∀ s t : State, s.held = none → P s → Move s t → P t) (s t : State) (hs : P s)
    (hstep : step s = .next t) : P t := by
  have heffect : ∀ u v : State, P u → Effect u v → P v := by
    intro u v hu he
    cases he with
    | reset k => exact hreset u k hu
    | release b h => exact hrelease u b h hu
    | nothing => exact hu
    | moves hheld m =>
      induction m with
      | refl => exact hu
      | tail hm hlast ih => exact hmove _ _ ((Moves.held_pending hm).1.trans hheld) ih hlast
  unfold step at hstep
  split at hstep
  · cases hstep
    exact hs
  · exact heffect _ _ (hqueue s _ hs) (exec_effect hstep)

/-- Settles O1: the two cases of the queue in `step`. -/
theorem stepRunsTheFrontCommand : Obligations.StepRunsTheFrontCommand :=
  ⟨fun s c rest h => by simp [step, h], fun s h => by simp [step, h]⟩

/-- Settles O2: a command answers by `exec_next`, and neither a held reset, nor its release, nor any move
touches the queue. -/
theorem everyCommandAnswersAndLeavesTheQueue : Obligations.EveryCommandAnswersAndLeavesTheQueue := by
  intro c s
  obtain ⟨t, ht⟩ := exec_next c s
  refine ⟨t, ht, ?_⟩
  cases exec_effect ht with
  | reset k => rfl
  | release b h => rfl
  | moves hheld m => exact (Moves.held_pending m).2
  | nothing => rfl

end Sys2Proof.Machine
end

