-- ==== Sys2Proof/Proofs/StoreSafe.lean ====
section
/-! PROOFS. The transmit store stays within its bounds (O55): what each move of the store does to the shared
bytes and frames of R54. -/

namespace Sys2Proof.Machine

/-! ### The shared part, counted (R54) -/

/-- The bytes of the shared part: the waiting ALARM frame, the transmitter's frame and the notices. -/
theorem Lc.sharedBytes_eq (l : Lc) :
    l.sharedBytes = (if l.alarmWaiting.isSome then alarmSize else 0)
      + (l.tx.frame.bind TxFrame.sharedSize).getD 0 + (l.notices.map Notice.size).sum := by
  unfold Lc.sharedBytes Lc.otherSizes
  cases l.alarmWaiting <;> cases l.tx.frame.bind TxFrame.sharedSize <;> simp

/-- The frames of the shared part. -/
theorem Lc.sharedFrames_eq (l : Lc) :
    l.sharedFrames = (if l.alarmWaiting.isSome then 1 else 0)
      + (if (l.tx.frame.bind TxFrame.sharedSize).isSome then 1 else 0) + l.notices.length := by
  unfold Lc.sharedFrames Lc.otherSizes
  cases l.alarmWaiting <;> cases l.tx.frame.bind TxFrame.sharedSize <;> simp

/-- A frame that fits occupies at most 53 shared bytes. -/
theorem TxFrame.sharedSize_le {f : TxFrame} (h : f.fits = true) : f.sharedSize.getD 0 ≤ 53 := by
  cases f with
  | status b r => simp [TxFrame.sharedSize]
  | notice n =>
    have hn : n.body.length ≤ 48 := of_decide_eq_true h
    simp only [TxFrame.sharedSize, Notice.size, Option.getD_some]
    omega
  | alarm a => simp [TxFrame.sharedSize, alarmSize]

theorem Notice.sum_size_le_of_sublist {k l : List Notice} (h : k.Sublist l) :
    (k.map Notice.size).sum ≤ (l.map Notice.size).sum :=
  (h.map Notice.size).sum_le_sum fun _ _ => Nat.zero_le _

/-- Fewer waiting frames, and no other frame in the transmitter, keep the bounds. -/
theorem Lc.storeSafe_of_fewer {l l' : Lc} (h : l.storeSafe) (hn : l'.notices.Sublist l.notices)
    (ha : l'.alarmWaiting.isSome = true → l.alarmWaiting.isSome = true)
    (ht : l'.tx.frame = l.tx.frame ∨ l'.tx.frame = none)
    (hs : l'.statusWaiting = l.statusWaiting) : l'.storeSafe := by
  obtain ⟨hbytes, hframes, hfit, htx, hone⟩ := h
  have hsum := Notice.sum_size_le_of_sublist hn
  have hlen := hn.length_le
  rw [Lc.sharedBytes_eq] at hbytes
  rw [Lc.sharedFrames_eq] at hframes
  have halarm : (if l'.alarmWaiting.isSome then alarmSize else 0)
      ≤ (if l.alarmWaiting.isSome then alarmSize else 0)
      ∧ (if l'.alarmWaiting.isSome then 1 else 0) ≤ (if l.alarmWaiting.isSome then 1 else 0) := by
    cases hw : l'.alarmWaiting.isSome with
    | false => simp
    | true => simp [ha hw]
  refine ⟨?_, ?_, ?_, ?_, ?_⟩
  · rw [Lc.sharedBytes_eq]
    rcases ht with ht | ht <;> rw [ht]
    · omega
    · simp only [Option.bind_none, Option.getD_none]
      omega
  · rw [Lc.sharedFrames_eq]
    rcases ht with ht | ht <;> rw [ht]
    · omega
    · simp only [Option.bind_none, Option.isSome_none, Bool.false_eq_true, if_false]
      omega
  · rw [List.all_eq_true] at hfit ⊢
    exact fun n hmem => hfit n (hn.subset hmem)
  · rcases ht with ht | ht <;> rw [ht]
    · exact htx
    · rfl
  · rw [hs]
    rcases ht with ht | ht <;> rw [ht]
    · exact hone
    · simp

theorem Lc.storeSafe_of_keepsStore {l l' : Lc} (h : l.storeSafe) (hk : l.keepsStore l') :
    l'.storeSafe := by
  obtain ⟨ht, hs, hn, ha⟩ := hk
  exact Lc.storeSafe_of_fewer h (hn ▸ .refl _) (ha ▸ id) (.inl (ht ▸ rfl)) hs

/-! ### The transmitter's frame through the changes of the store -/

theorem Lc.txWithoutOutlived_frame (l : Lc) (life : Nat) :
    (l.txWithoutOutlived life).frame = l.tx.frame ∨ (l.txWithoutOutlived life).frame = none := by
  unfold Lc.txWithoutOutlived
  split
  · split
    · exact .inr rfl
    · exact .inl rfl
  · exact .inl rfl

theorem Tx.withoutNotice_frame (t : Tx) :
    t.withoutNotice.frame = t.frame ∨ t.withoutNotice.frame = none := by
  unfold Tx.withoutNotice
  split
  · exact .inr rfl
  · exact .inr rfl
  · exact .inl rfl

theorem Tx.withoutLostAlarm_frame (t : Tx) :
    t.withoutLostAlarm.frame = t.frame ∨ t.withoutLostAlarm.frame = none := by
  unfold Tx.withoutLostAlarm
  split
  · exact .inr rfl
  · exact .inl rfl

@[simp] theorem TxFrame.withRetry_sharedSize (f : TxFrame) (r : Retry) :
    (f.withRetry r).sharedSize = f.sharedSize := by
  cases f <;> rfl

@[simp] theorem TxFrame.withRetry_fits (f : TxFrame) (r : Retry) : (f.withRetry r).fits = f.fits := by
  cases f <;> rfl

/-! ### The moves that add or shift a frame -/

/-- A posted notice stays within the bounds that its post checks (R55). -/
theorem Lc.postNotice_storeSafe {l : Lc} (k : NoticeKind) (b : List Byte) (h : l.storeSafe) :
    (l.postNotice k b).storeSafe := by
  rcases l.postNotice_cases k b with ⟨-, heq⟩ | ⟨-, -, heq⟩ | ⟨hb, hbytes, hframes, heq⟩
  · rw [heq]
    exact h
  · rw [heq]
    exact Lc.storeSafe_of_keepsStore h ⟨rfl, rfl, rfl, rfl⟩
  · obtain ⟨-, -, hfit, htx, hone⟩ := h
    rw [Lc.sharedBytes_eq] at hbytes
    rw [Lc.sharedFrames_eq] at hframes
    rw [heq]
    refine ⟨?_, ?_, ?_, htx, hone⟩
    · rw [Lc.sharedBytes_eq]
      simp only [List.map_append, List.map_cons, List.map_nil, List.sum_append, List.sum_cons,
        List.sum_nil, Notice.size]
      omega
    · rw [Lc.sharedFrames_eq]
      simp only [List.length_append, List.length_singleton]
      omega
    · simp only [List.all_append, hfit, List.all_cons, List.all_nil, Bool.and_true, Bool.true_and]
      exact decide_eq_true hb

/-- A STATUS goes into its place when that is empty (R58). -/
theorem Lc.postStatus_storeSafe {l : Lc} (h : l.storeSafe) : l.postStatus.storeSafe := by
  rcases l.postStatus_cases with ⟨hempty, heq⟩ | ⟨-, heq⟩
  · obtain ⟨hbytes, hframes, hfit, htx, -⟩ := h
    rw [heq]
    refine ⟨hbytes, hframes, hfit, htx, ?_⟩
    simp only [Lc.statusPlaceEmpty, Bool.and_eq_true] at hempty
    cases hf : l.tx.frame with
    | none => simp
    | some f => cases f <;> simp_all [TxFrame.isStatus]
  · rw [heq]
    exact Lc.storeSafe_of_keepsStore h ⟨rfl, rfl, rfl, rfl⟩

/-- Making room leaves at most the frame in transmission beside the ALARM frame, or room for it (R57). -/
theorem Lc.makeRoom_storeSafe {l : Lc} (a : AlarmFrame) (c : Counters) (h : l.storeSafe)
    (hw : l.alarmWaiting = none) :
    { l with
      alarmWaiting := some a, counters := c
      notices := makeRoom l.otherSizes.sum l.otherSizes.length l.notices }.storeSafe := by
  obtain ⟨-, -, hfit, htx, hone⟩ := h
  have hother : l.otherSizes = (l.tx.frame.bind TxFrame.sharedSize).toList := by
    simp [Lc.otherSizes, hw]
  have hsize : (l.tx.frame.bind TxFrame.sharedSize).getD 0 ≤ 53 := by
    cases hf : l.tx.frame with
    | none => simp
    | some f => exact TxFrame.sharedSize_le (by rw [hf] at htx; exact htx)
  have hroom := makeRoom_fits l.otherSizes.sum l.otherSizes.length l.notices
  refine ⟨?_, ?_, ?_, htx, hone⟩
  · rw [Lc.sharedBytes_eq]
    rcases hroom with hroom | ⟨hroom, -⟩
    · simp only [hroom, alarmSize, Option.isSome_some, if_true, List.map_nil, List.sum_nil]
      omega
    · rw [hother] at hroom ⊢
      cases hb : l.tx.frame.bind TxFrame.sharedSize <;> simp_all [alarmSize] <;> omega
  · rw [Lc.sharedFrames_eq]
    rcases hroom with hroom | ⟨-, hroom⟩
    · simp only [hroom, Option.isSome_some, if_true, List.length_nil]
      split <;> omega
    · rw [hother] at hroom ⊢
      cases hb : l.tx.frame.bind TxFrame.sharedSize <;> simp_all <;> omega
  · rw [List.all_eq_true] at hfit ⊢
    exact fun n hmem => hfit n ((makeRoom_suffix _ _ _).subset hmem)

/-- An ALARM frame replaces the waiting one in place, or has room made for it (R57). -/
theorem Lc.postAlarm_storeSafe {l : Lc} (a : AlarmBody) (h : l.storeSafe) : (l.postAlarm a).storeSafe := by
  have hsafe : { l with tx := l.tx.withoutLostAlarm }.storeSafe :=
    Lc.storeSafe_of_fewer h (.refl _) id l.tx.withoutLostAlarm_frame rfl
  unfold Lc.postAlarm
  dsimp only
  split
  · rename_i hsome
    exact Lc.storeSafe_of_fewer hsafe (.refl _) (fun _ => hsome) (.inl rfl) rfl
  · rename_i hnone
    exact Lc.makeRoom_storeSafe (l := { l with tx := l.tx.withoutLostAlarm }) _ _ hsafe
      (by simpa using hnone)

/-- The transmitter's frame back among the waiting ones occupies no more than before (R53, R63). -/
theorem Lc.requeue_storeSafe {l : Lc} {f : TxFrame} (r : Retry) (h : l.storeSafe)
    (hf : l.tx.frame = some f) : ({ l with tx := .idle }.requeue (f.withRetry r)).storeSafe := by
  obtain ⟨hbytes, hframes, hfit, htx, hone⟩ := h
  rw [Lc.sharedBytes_eq, hf] at hbytes
  rw [Lc.sharedFrames_eq, hf] at hframes
  rw [hf] at htx hone
  cases f with
  | status b q =>
    refine ⟨?_, ?_, hfit, rfl, ?_⟩
    · simpa [Lc.sharedBytes_eq, Lc.requeue, TxFrame.withRetry, Tx.frame, TxFrame.sharedSize] using hbytes
    · simpa [Lc.sharedFrames_eq, Lc.requeue, TxFrame.withRetry, Tx.frame, TxFrame.sharedSize] using hframes
    · simp [Lc.requeue, TxFrame.withRetry, Tx.frame]
  | notice n =>
    refine ⟨?_, ?_, ?_, rfl, ?_⟩
    · simp [Lc.sharedBytes_eq, Lc.requeue, TxFrame.withRetry, Tx.frame, TxFrame.sharedSize,
        Notice.size] at hbytes ⊢
      omega
    · simp [Lc.sharedFrames_eq, Lc.requeue, TxFrame.withRetry, Tx.frame, TxFrame.sharedSize] at hframes ⊢
      omega
    · simpa [Lc.requeue, TxFrame.withRetry, hfit, Notice.fits, TxFrame.fits] using htx
    · simp [Lc.requeue, TxFrame.withRetry, Tx.frame]
  | alarm a =>
    refine ⟨?_, ?_, hfit, rfl, ?_⟩
    · simp [Lc.sharedBytes_eq, Lc.requeue, TxFrame.withRetry, Tx.frame, TxFrame.sharedSize] at hbytes ⊢
      omega
    · simp [Lc.sharedFrames_eq, Lc.requeue, TxFrame.withRetry, Tx.frame, TxFrame.sharedSize] at hframes ⊢
      omega
    · simp [Lc.requeue, TxFrame.withRetry, Tx.frame]

/-! ### Every move -/

theorem StoreMove.storeSafe {s : State} {l : Lc} (m : StoreMove s l) (h : s.lc.storeSafe) :
    l.storeSafe := by
  cases m with
  | expire life =>
    exact Lc.storeSafe_of_fewer h List.filter_sublist id (s.lc.txWithoutOutlived_frame life) rfl
  | postNotice k b hs => exact Lc.postNotice_storeSafe k b h
  | postStatus hs => exact Lc.postStatus_storeSafe h
  | postAlarm a hs => exact Lc.postAlarm_storeSafe a h
  | flush => exact Lc.storeSafe_of_fewer h (List.nil_sublist _) id s.lc.tx.withoutNotice_frame rfl
  | removeAlarm =>
    exact Lc.storeSafe_of_fewer h (.refl _) (fun hnone => by cases hnone) s.lc.tx.withoutLostAlarm_frame rfl
  | hold hs => exact Lc.storeSafe_of_fewer h (.refl _) id (.inr rfl) rfl
  | idle => exact Lc.storeSafe_of_fewer h (.refl _) id (.inr rfl) rfl
  | lost f hf => exact Lc.storeSafe_of_fewer h (.refl _) id (.inl hf.symm) rfl
  | requeue f r hf => exact Lc.requeue_storeSafe r h hf
  | takeAlarm a hs ht hw =>
    obtain ⟨hbytes, hframes, hfit, -, hone⟩ := h
    rw [Lc.sharedBytes_eq, ht, hw] at hbytes
    rw [Lc.sharedFrames_eq, ht, hw] at hframes
    refine ⟨?_, ?_, hfit, rfl, by simp [Tx.frame, TxFrame.isStatus]⟩
    · simpa [Lc.sharedBytes_eq, Tx.frame, TxFrame.sharedSize] using hbytes
    · simpa [Lc.sharedFrames_eq, Tx.frame, TxFrame.sharedSize] using hframes
  | takeNotice n rest hs ht hw =>
    obtain ⟨hbytes, hframes, hfit, -, -⟩ := h
    rw [Lc.sharedBytes_eq, ht, hw] at hbytes
    rw [Lc.sharedFrames_eq, ht, hw] at hframes
    rw [hw, List.all_cons, Bool.and_eq_true] at hfit
    refine ⟨?_, ?_, hfit.2, hfit.1, by simp [Tx.frame, TxFrame.isStatus]⟩
    · simp [Lc.sharedBytes_eq, Tx.frame, TxFrame.sharedSize] at hbytes ⊢
      omega
    · simp [Lc.sharedFrames_eq, Tx.frame, TxFrame.sharedSize] at hframes ⊢
      omega
  | takeStatus b r hs ht hw =>
    obtain ⟨hbytes, hframes, hfit, -, -⟩ := h
    rw [Lc.sharedBytes_eq, ht] at hbytes
    rw [Lc.sharedFrames_eq, ht] at hframes
    exact ⟨by simpa [Lc.sharedBytes_eq, Tx.frame, TxFrame.sharedSize] using hbytes,
      by simpa [Lc.sharedFrames_eq, Tx.frame, TxFrame.sharedSize] using hframes, hfit, rfl, rfl⟩

/-- The store of a reset LC is empty. -/
theorem Lc.storeSafe_of_reset (clock : Nat) (c : Counters) :
    { Lc.reset with clock := clock, counters := c }.storeSafe := by
  refine ⟨?_, ?_, rfl, rfl, rfl⟩
  · simp [Lc.sharedBytes_eq, Lc.reset, Tx.frame]
  · simp [Lc.sharedFrames_eq, Lc.reset, Tx.frame]

theorem Move.storeSafe {s t : State} (m : Move s t) (h : s.lc.storeSafe) : t.lc.storeSafe := by
  cases m with
  | line l hs hc ha => exact Lc.storeSafe_of_keepsStore h hs
  | store l hl => exact hl.storeSafe h
  | enterFire q o => exact StoreMove.flush.storeSafe h
  | restart => exact Lc.storeSafe_of_reset s.lc.clock s.lc.counters
  | lights => rw [State.ltcSample_frame]; exact h
  | heat => rw [State.hruSample_frame]; exact h
  | stages => rw [State.hsuSample_frame]; exact h
  | air => rw [State.abuSample_frame]; exact h
  | adopt c code hl hc => rw [State.adopted_frame]; exact h
  | field | scu | bump | ssl | table | prelight | raise | note | nameFire | fireAir | timer | exitFire =>
    exact h

/-- Settles O55, move by move of the station (`Move.storeSafe`). -/
theorem everyStepKeepsTheStoreWithinItsBounds : Obligations.EveryStepKeepsTheStoreWithinItsBounds := by
  refine step_keeps (P := fun s => s.lc.storeSafe) ?queue ?reset ?release ?move
  case queue => exact fun s q h => h
  case reset => exact fun s k h => Lc.storeSafe_of_reset s.lc.clock Counters.reset
  case release => exact fun s b hheld h => h
  case move => exact fun s t hheld h m => m.storeSafe h

end Sys2Proof.Machine
end

