-- ==== Sys2Proof/Proofs/FireSafe.lean ====
section
/-! PROOFS. The outputs stay at their fire values while fire mode is in force (O56): each output block's
second in fire mode, the entry, and an adoption in fire mode. -/

namespace Sys2Proof.Machine

/-- The outputs at their fire values (R97, R122, R133, R141, R157, R158). -/
def State.atFireValues (s : State) : Prop :=
  s.ltc.groups = six ⟨1000, 1000⟩ ∧ s.ltc.prelight = .idle ∧ s.hru.curtains = eight .inhibited
    ∧ s.hru.request = 0 ∧ s.hru.short = false ∧ s.hsu.grant = 0 ∧ s.hsu.allowed = 0
    ∧ s.hsu.onList = [] ∧ s.hsu.stages.any Stage.on = false
    ∧ s.abu.speed = s.bayOrFallback.fireSpeed ∧ s.abu.damper = s.bayOrFallback.fireDamper
    ∧ s.abu.uncovered = 0

theorem State.fireSafe_iff (s : State) : s.fireSafe ↔ (s.fmc.inForce = true → s.atFireValues) := .rfl

/-! ### The stages in fire mode (R133, R134, R137, R141) -/

theorem Stage.countDown_on (t : Stage) : t.countDown.on = t.on := by
  unfold Stage.countDown
  split
  · rfl
  · split <;> rfl

theorem Stage.forcedOff_on (m : Nat) (t : Stage) : (t.forcedOff m).on = false := by
  unfold Stage.forcedOff
  split
  · rfl
  · exact Bool.eq_false_iff.2 ‹_›

theorem Hsu.allOff_noneOn (m : Nat) (h : Hsu) : (h.allOff m).stages.any Stage.on = false := by
  simp [Hsu.allOff, Stage.forcedOff_on]

/-- A bump changes the rotation order alone (R140). -/
theorem Hsu.bump_kept (h : Hsu) : h.bump = { h with rotation := h.bump.rotation } := by
  unfold Hsu.bump
  split <;> rfl

/-- A grant of 0 leaves an allowed count of 0 where it is, and switches nothing. -/
theorem Hsu.staged_zero {h : Hsu} (bay : BayBlock) (ha : h.allowed = 0) (hl : h.onList = []) :
    h.staged bay 0 = { h with grant := 0, allowed := 0, stages := h.stages.map Stage.countDown } := by
  have hnext : allowedNext bay h.allowed 0 = 0 := by simp [allowedNext, ha]
  simp [Hsu.staged, hnext, hl, Hsu.offMany, Hsu.onMany]

/-- An adoption keeps the grant, the allowed count and the on-list, and switches no stage on (R144). -/
theorem Hsu.adopt_kept (h : Hsu) (bay : BayBlock) :
    (h.adopt bay).grant = h.grant ∧ (h.adopt bay).allowed = h.allowed ∧ (h.adopt bay).onList = h.onList
      ∧ (h.stages.any Stage.on = false → (h.adopt bay).stages.any Stage.on = false) := by
  unfold Hsu.adopt
  split
  · exact ⟨rfl, rfl, rfl, id⟩
  · exact ⟨rfl, rfl, rfl, fun _ => by simp⟩

/-! ### Each move in fire mode -/

section Moves

variable {s : State}

theorem State.enterFire_atFireValues (q : Cause) (o : Option Nat) : (s.enterFire q o).atFireValues :=
  ⟨rfl, rfl, rfl, rfl, rfl, rfl, rfl, rfl, Hsu.allOff_noneOn _ _, rfl, rfl, rfl⟩

/-- The LTC's second at full light in fire mode (R97). -/
theorem State.ltcSample_fire (hfire : s.fmc.inForce = true) (hg : s.ltc.groups = six ⟨1000, 1000⟩)
    (hp : s.ltc.prelight = .idle) :
    s.ltcSample.ltc.groups = six ⟨1000, 1000⟩ ∧ s.ltcSample.ltc.prelight = .idle := by
  unfold State.ltcSample
  split
  · exact ⟨hg, hp⟩
  · refine ⟨?_, by simp [hp, Prelight.countDown]⟩
    apply Six.ext_get
    intro g
    have hlevel : s.ltc.groups.get g = ⟨1000, 1000⟩ := by
      rw [hg]
      match g with
      | 0 | 1 | 2 | 3 | 4 | 5 => rfl
    have hsix : (six (⟨1000, 1000⟩ : Group)).get g = ⟨1000, 1000⟩ := by
      match g with
      | 0 | 1 | 2 | 3 | 4 | 5 => rfl
    simp [hlevel, hsix, State.lightTarget, hfire, rampToward]

/-- The HRU's second in fire mode (R111, R122). -/
theorem State.hruSample_fire (hfire : s.fmc.inForce = true) (hc : s.hru.curtains = eight .inhibited)
    (hr : s.hru.request = 0) (hs : s.hru.short = false) :
    s.hruSample.hru.curtains = eight .inhibited ∧ s.hruSample.hru.request = 0
      ∧ s.hruSample.hru.short = false := by
  unfold State.hruSample
  split
  · exact ⟨hc, hr, hs⟩
  · rename_i c _
    dsimp only
    rw [State.heatRequest_fire c _ hfire]
    refine ⟨?_, rfl, rfl⟩
    simp [State.nextCurtains, hfire, Curtain.next, Eight.ofFn, eight]

/-- The ABU's second at the fire values (R158). -/
theorem State.abuSample_fire (hfire : s.fmc.inForce = true)
    (hv : s.abu.speed = s.bayOrFallback.fireSpeed ∧ s.abu.damper = s.bayOrFallback.fireDamper
      ∧ s.abu.uncovered = 0) :
    s.abuSample.abu.speed = s.bayOrFallback.fireSpeed
      ∧ s.abuSample.abu.damper = s.bayOrFallback.fireDamper ∧ s.abuSample.abu.uncovered = 0 := by
  unfold State.abuSample
  split
  · exact hv
  · rename_i c hc
    simp [Abu.next, hfire, State.bayOrFallback, hc]

theorem Move.fireSafe {t : State} (m : Move s t) (h : s.fireSafe) : t.fireSafe := by
  rw [State.fireSafe_iff] at h ⊢
  intro hfire
  cases m with
  | lights =>
    rw [State.ltcSample_frame] at hfire ⊢
    have hin : s.fmc.inForce = true := hfire
    obtain ⟨hg, hp, hrest⟩ := h hfire
    obtain ⟨hg', hp'⟩ := State.ltcSample_fire hin hg hp
    exact ⟨hg', hp', hrest⟩
  | heat =>
    rw [State.hruSample_frame] at hfire ⊢
    have hin : s.fmc.inForce = true := hfire
    obtain ⟨hg, hp, hc, hr, hs, hrest⟩ := h hfire
    obtain ⟨hc', hr', hs'⟩ := State.hruSample_fire hin hc hr hs
    exact ⟨hg, hp, hc', hr', hs', hrest⟩
  | stages =>
    rw [State.hsuSample_frame] at hfire ⊢
    have hin : s.fmc.inForce = true := hfire
    obtain ⟨hg, hp, hc, hr, hs, hgrant, ha, hl, hon, hrest⟩ := h hfire
    have hstages : s.hsuSample.hsu.grant = 0 ∧ s.hsuSample.hsu.allowed = 0
        ∧ s.hsuSample.hsu.onList = [] ∧ s.hsuSample.hsu.stages.any Stage.on = false := by
      unfold State.hsuSample
      split
      · exact ⟨hgrant, ha, hl, hon⟩
      · rename_i c _
        dsimp only
        rw [State.grantOf_fire c hin, Hsu.staged_zero c.bay ha hl]
        refine ⟨rfl, rfl, hl, ?_⟩
        simpa [Function.comp_def, Stage.countDown_on] using hon
    obtain ⟨hgrant', ha', hl', hon'⟩ := hstages
    exact ⟨hg, hp, hc, hr, hs, hgrant', ha', hl', hon', hrest⟩
  | air =>
    rw [State.abuSample_frame] at hfire ⊢
    have hin : s.fmc.inForce = true := hfire
    obtain ⟨hg, hp, hc, hr, hs, hgrant, ha, hl, hon, hair⟩ := h hfire
    exact ⟨hg, hp, hc, hr, hs, hgrant, ha, hl, hon, State.abuSample_fire hin hair⟩
  | bump =>
    obtain ⟨hg, hp, hc, hr, hs, hgrant, ha, hl, hon, hair⟩ := h hfire
    unfold State.atFireValues
    rw [Hsu.bump_kept]
    exact ⟨hg, hp, hc, hr, hs, hgrant, ha, hl, hon, hair⟩
  | prelight c hno => exact absurd hfire (by simp [hno])
  | enterFire q o => exact State.enterFire_atFireValues q o
  | nameFire q o hin => exact h hin
  | fireAir hin =>
    obtain ⟨hg, hp, hc, hr, hs, hgrant, ha, hl, hon, -⟩ := h hin
    exact ⟨hg, hp, hc, hr, hs, hgrant, ha, hl, hon, rfl, rfl, rfl⟩
  | timer f hm hc ho ht =>
    exact h (by simpa [Fmc.inForce, hm] using hfire)
  | exitFire => cases hfire
  | restart => cases hfire
  | adopt c code hl hrange =>
    rw [State.adopted_frame] at hfire ⊢
    obtain ⟨hg, hp, hc, hr, hs, hgrant, ha, hl', hon, hair⟩ := h hfire
    have hin : s.fmc.inForce = true := hfire
    obtain ⟨hgrant', ha', hl'', hon'⟩ := s.hsu.adopt_kept c.bay
    simp only [Ltc.adopt, Abu.adopt, hin, if_true, State.atFireValues, State.bayOrFallback]
    exact ⟨hg, hp, hc, hr, hs, hgrant'.trans hgrant, ha'.trans ha, hl''.trans hl', hon' hon, trivial, trivial,
      hair.2.2⟩
  | field | scu | ssl | line | store | table | raise | note => exact h hfire

end Moves

/-- Settles O56, move by move of the station (`Move.fireSafe`). -/
theorem everyStepKeepsTheFireValues : Obligations.EveryStepKeepsTheFireValues := by
  refine step_keeps (P := State.fireSafe) ?queue ?reset ?release ?move
  case queue => exact fun s q h => h
  case reset => exact fun s k h hfire => by cases hfire
  case release => exact fun s b hheld h => h
  case move => exact fun s t hheld h m => m.fireSafe h

end Sys2Proof.Machine
end

