-- ==== Sys2Proof/Proofs/StartSafe.lean ====
section
/-! PROOFS. The rules of the start-up states (O57): what the store may hold in each of them, the start-up
states that follow one another, the adoption and the restart. -/

namespace Sys2Proof.Machine

/-! ### The store in a start-up state (R67, R170) -/

/-- What the store and the transmitter may hold in a start-up state. -/
def Lc.fitsStartup (l : Lc) (u : Startup) : Prop :=
  (u.isSilent = true → l.tx = .idle ∧ l.alarmWaiting = none ∧ l.notices = [])
    ∧ (u.sendsFrames = false → l.tx.frame = none)
    ∧ (u.isRun = false → l.statusPlaceEmpty = true)

theorem State.startSafe_iff (s : State) :
    s.startSafe ↔ (s.cfg.isNone = (s.ssl.startup == .load))
      ∧ (s.held.isSome = true → s.ssl.startup = .load) ∧ s.numberFits = true
      ∧ s.lc.fitsStartup s.ssl.startup ∧ (s.ssl.startup.isSilent = true → s.fmc.timer = none)
      ∧ (s.fmc.owed = true → s.ssl.startup = .load) := by
  unfold State.startSafe Lc.fitsStartup
  grind

theorem Lc.statusPlaceEmpty_iff (l : Lc) :
    l.statusPlaceEmpty = true ↔ l.statusWaiting = none ∧ l.tx.frame.any TxFrame.isStatus = false := by
  unfold Lc.statusPlaceEmpty
  cases l.statusWaiting <;> cases l.tx.frame with
  | none => simp
  | some f => cases f <;> simp [TxFrame.isStatus]

/-- A start-up state that sends frames is not silent. -/
theorem Startup.isSilent_of_sendsFrames {u : Startup} (h : u.sendsFrames = true) : u.isSilent = false := by
  cases u <;> simp_all [Startup.sendsFrames, Startup.isSilent]

theorem Startup.sendsFrames_of_isRun {u : Startup} (h : u.isRun = true) : u.sendsFrames = true := by
  cases u <;> simp_all [Startup.sendsFrames, Startup.isRun]

/-- The transmitter has a frame only in a start-up state that sends frames. -/
theorem Lc.fitsStartup.sendsFrames {l : Lc} {u : Startup} {f : TxFrame} (h : l.fitsStartup u)
    (hf : l.tx.frame = some f) : u.sendsFrames = true := by
  by_contra hno
  rw [h.2.1 (Bool.eq_false_iff.2 hno)] at hf
  cases hf

/-- Fewer waiting frames, and no other frame in the transmitter, fit the same start-up state. -/
theorem Lc.fitsStartup_of_fewer {l l' : Lc} {u : Startup} (h : l.fitsStartup u)
    (hn : l.notices = [] → l'.notices = []) (ha : l.alarmWaiting = none → l'.alarmWaiting = none)
    (hi : u.isSilent = true → l.tx = .idle → l'.tx = .idle)
    (ht : l'.tx.frame = l.tx.frame ∨ l'.tx.frame = none)
    (hs : l'.statusWaiting = l.statusWaiting) : l'.fitsStartup u := by
  obtain ⟨hsilent, hframe, hplace⟩ := h
  refine ⟨fun hu => ?_, fun hu => ?_, fun hu => ?_⟩
  · obtain ⟨htx, halarm, hnotices⟩ := hsilent hu
    exact ⟨hi hu htx, ha halarm, hn hnotices⟩
  · rcases ht with ht | ht <;> rw [ht]
    exact hframe hu
  · obtain ⟨hw, hx⟩ := l.statusPlaceEmpty_iff.1 (hplace hu)
    rw [Lc.statusPlaceEmpty_iff, hs]
    rcases ht with ht | ht <;> rw [ht]
    · exact ⟨hw, hx⟩
    · exact ⟨hw, rfl⟩

/-- In a start-up state that is not silent the STATUS place and the transmitter alone are bound. -/
theorem Lc.fitsStartup_of_loud {l : Lc} {u : Startup} (hu : u.isSilent = false)
    (hf : u.sendsFrames = false → l.tx.frame = none) (hp : u.isRun = false → l.statusPlaceEmpty = true) :
    l.fitsStartup u := ⟨fun h => by simp [hu] at h, hf, hp⟩

theorem StoreMove.fitsStartup {s : State} {l : Lc} (m : StoreMove s l)
    (h : s.lc.fitsStartup s.ssl.startup) : l.fitsStartup s.ssl.startup := by
  cases m with
  | expire life =>
    exact Lc.fitsStartup_of_fewer h (fun hn => by simp [Lc.expire, hn]) id
      (fun _ hi => by simp [Lc.expire, Lc.txWithoutOutlived, hi]) (s.lc.txWithoutOutlived_frame life) rfl
  | postNotice k b hs =>
    refine Lc.fitsStartup_of_loud hs ?_ ?_
    · rw [Lc.postNotice_tx]
      exact h.2.1
    · rw [Lc.statusPlaceEmpty_iff, Lc.postNotice_tx, Lc.postNotice_statusWaiting, ← Lc.statusPlaceEmpty_iff]
      exact h.2.2
  | postStatus hs =>
    refine Lc.fitsStartup_of_loud (Startup.isSilent_of_isRun hs) (fun hno => ?_) (fun hno => ?_)
    · rw [Startup.sendsFrames_of_isRun hs] at hno
      cases hno
    · rw [hs] at hno
      cases hno
  | postAlarm a hs =>
    refine Lc.fitsStartup_of_loud hs (fun hno => ?_) (fun hno => ?_)
    · rw [Lc.postAlarm_tx]
      rcases s.lc.tx.withoutLostAlarm_frame with hf | hf <;> rw [hf]
      exact h.2.1 hno
    · obtain ⟨hw, hx⟩ := s.lc.statusPlaceEmpty_iff.1 (h.2.2 hno)
      rw [Lc.statusPlaceEmpty_iff, Lc.postAlarm_tx, Lc.postAlarm_statusWaiting]
      rcases s.lc.tx.withoutLostAlarm_frame with hf | hf <;> rw [hf]
      · exact ⟨hw, hx⟩
      · exact ⟨hw, rfl⟩
  | flush =>
    exact Lc.fitsStartup_of_fewer h (fun _ => rfl) id
      (fun _ hi => by simp [Lc.flush, hi, Tx.withoutNotice]) s.lc.tx.withoutNotice_frame rfl
  | removeAlarm =>
    exact Lc.fitsStartup_of_fewer h id (fun _ => rfl)
      (fun _ hi => by simp [Lc.removeAlarm, hi, Tx.withoutLostAlarm]) s.lc.tx.withoutLostAlarm_frame rfl
  | hold hs =>
    exact Lc.fitsStartup_of_fewer h id id (fun hu => by simp [hs] at hu) (.inr rfl) rfl
  | idle => exact Lc.fitsStartup_of_fewer h id id (fun _ _ => rfl) (.inr rfl) rfl
  | lost f hf =>
    refine Lc.fitsStartup_of_fewer h id id (fun _ hi => ?_) (.inl hf.symm) rfl
    rw [hi] at hf
    cases hf
  | requeue f r hf =>
    have hsends := h.sendsFrames hf
    refine Lc.fitsStartup_of_loud (Startup.isSilent_of_sendsFrames hsends)
      (fun hno => by simp [hsends] at hno) (fun hno => ?_)
    obtain ⟨hw, hx⟩ := s.lc.statusPlaceEmpty_iff.1 (h.2.2 hno)
    rw [hf] at hx
    rw [Lc.statusPlaceEmpty_iff]
    cases f with
    | status b q => simp [TxFrame.isStatus] at hx
    | notice n => exact ⟨hw, rfl⟩
    | alarm a => exact ⟨hw, rfl⟩
  | takeAlarm a hs ht hw =>
    refine Lc.fitsStartup_of_loud (Startup.isSilent_of_sendsFrames hs)
      (fun hno => by simp [hs] at hno) (fun hno => ?_)
    exact (Lc.statusPlaceEmpty_iff _).2 ⟨(s.lc.statusPlaceEmpty_iff.1 (h.2.2 hno)).1, rfl⟩
  | takeNotice n rest hs ht hw =>
    refine Lc.fitsStartup_of_loud (Startup.isSilent_of_sendsFrames hs)
      (fun hno => by simp [hs] at hno) (fun hno => ?_)
    exact (Lc.statusPlaceEmpty_iff _).2 ⟨(s.lc.statusPlaceEmpty_iff.1 (h.2.2 hno)).1, rfl⟩
  | takeStatus b r hs ht hw =>
    refine Lc.fitsStartup_of_loud (Startup.isSilent_of_sendsFrames hs)
      (fun hno => by simp [hs] at hno) (fun hno => ?_)
    have hempty := (s.lc.statusPlaceEmpty_iff.1 (h.2.2 hno)).1
    rw [hempty] at hw
    cases hw

theorem Lc.fitsStartup_of_keepsStore {l l' : Lc} {u : Startup} (h : l.fitsStartup u)
    (hk : l.keepsStore l') : l'.fitsStartup u := by
  obtain ⟨ht, hs, hn, ha⟩ := hk
  exact Lc.fitsStartup_of_fewer h (hn ▸ id) (ha ▸ id) (fun _ hi => ht ▸ hi) (.inl (ht ▸ rfl)) hs

/-- The empty store of a reset fits every start-up state. -/
theorem Lc.fitsStartup_reset (clock : Nat) (c : Counters) (u : Startup) :
    { Lc.reset with clock := clock, counters := c }.fitsStartup u :=
  ⟨fun _ => ⟨rfl, rfl, rfl⟩, fun _ => rfl, fun _ => rfl⟩

/-! ### The start-up states that follow one another (R170) -/

/-- A start-up state that follows another without a reset or an adoption is not silent, neither is the one
before, and neither LISTEN nor JOIN takes anything from the store. -/
theorem Lc.fitsStartup_of_leadsTo {l : Lc} {u v : Startup} (h : l.fitsStartup u)
    (hl : u.leadsTo v = true) : l.fitsStartup v := by
  obtain ⟨-, hframe, hplace⟩ := h
  cases u <;> cases v <;> cases hl
  · exact ⟨fun hs => (Bool.noConfusion hs), fun _ => hframe rfl, fun _ => hplace rfl⟩
  · exact ⟨fun hs => (Bool.noConfusion hs), fun hs => Bool.noConfusion hs, fun _ => hplace rfl⟩
  · exact ⟨fun hs => (Bool.noConfusion hs), fun hs => Bool.noConfusion hs, fun hs => Bool.noConfusion hs⟩

theorem Startup.leadsTo_ne_load {u v : Startup} (h : u.leadsTo v = true) :
    u ≠ .load ∧ v ≠ .load ∧ u.isSilent = false ∧ v.isSilent = false := by
  cases u <;> cases v <;> simp_all [Startup.leadsTo, Startup.isSilent]

theorem State.numberFits_leadsTo {s t : State} (h : s.numberFits = true)
    (hl : s.ssl.startup.leadsTo t.ssl.startup = true) (ho : t.ssl.own = s.ssl.own) :
    t.numberFits = true := by
  unfold State.numberFits at h ⊢
  rw [ho]
  cases hu : s.ssl.startup <;> cases hv : t.ssl.startup <;> simp_all [Startup.leadsTo]

section Moves

variable {s t : State}

/-- What the rules read of a state. -/
theorem State.startSafe_of_same (h : s.startSafe) (hcfg : t.cfg.isNone = s.cfg.isNone)
    (hheld : t.held = s.held) (hstart : t.ssl.startup = s.ssl.startup) (hown : t.ssl.own = s.ssl.own)
    (hlc : s.lc.fitsStartup s.ssl.startup → t.lc.fitsStartup s.ssl.startup)
    (htimer : s.ssl.startup.isSilent = true → s.fmc.timer = none → t.fmc.timer = none)
    (howed : t.fmc.owed = true → s.fmc.owed = true ∨ s.ssl.startup = .load) : t.startSafe := by
  rw [State.startSafe_iff] at h ⊢
  obtain ⟨hc, hh, hn, hl, ht, ho⟩ := h
  rw [hcfg, hheld, hstart]
  refine ⟨hc, hh, ?_, hlc hl, fun hu => htimer hu (ht hu), fun h' => (howed h').elim ho id⟩
  simpa only [State.numberFits, hstart, hown] using hn

theorem Move.startSafe (m : Move s t) (hheld : s.held = none) (h : s.startSafe) : t.startSafe := by
  have hsame : ∀ u : State, u.cfg = s.cfg → u.held = s.held → u.ssl = s.ssl → u.lc = s.lc →
      u.fmc = s.fmc → u.startSafe := by
    intro u hcfg hh hssl hlc hfmc
    exact State.startSafe_of_same h (by rw [hcfg]) hh (by rw [hssl]) (by rw [hssl]) (by rw [hlc]; exact id)
      (fun _ ht => by rw [hfmc, ht]) (fun ho => .inl (by rwa [hfmc] at ho))
  cases m with
  | field | scu | bump | table | prelight | raise | note | fireAir =>
    exact hsame _ rfl rfl rfl rfl rfl
  | lights =>
    rw [State.ltcSample_frame]
    exact hsame _ rfl rfl rfl rfl rfl
  | heat =>
    rw [State.hruSample_frame]
    exact hsame _ rfl rfl rfl rfl rfl
  | stages =>
    rw [State.hsuSample_frame]
    exact hsame _ rfl rfl rfl rfl rfl
  | air =>
    rw [State.abuSample_frame]
    exact hsame _ rfl rfl rfl rfl rfl
  | line l hs hc ha =>
    exact State.startSafe_of_same h rfl rfl rfl rfl (fun hl => Lc.fitsStartup_of_keepsStore hl hs)
      (fun _ ht => ht) .inl
  | store l hl =>
    exact State.startSafe_of_same h rfl rfl rfl rfl hl.fitsStartup (fun _ ht => ht) .inl
  | enterFire q o =>
    exact State.startSafe_of_same h rfl rfl (Ssl.writeEvent_startup _ _) (Ssl.writeEvent_own _ _)
      StoreMove.flush.fitsStartup (fun _ ht => ht) .inl
  | nameFire q o hin => exact State.startSafe_of_same h rfl rfl rfl rfl id (fun _ ht => ht) .inl
  | timer f hm hc ho ht =>
    refine State.startSafe_of_same h rfl rfl rfl rfl id (fun hu htimer => ?_) ho
    by_contra hne
    rcases ht hne with hold | hloud
    · exact hold htimer
    · simp [hloud] at hu
  | exitFire =>
    exact State.startSafe_of_same h rfl rfl rfl rfl id (fun _ _ => rfl) (fun ho => by cases ho)
  | restart =>
    rw [State.startSafe_iff]
    exact ⟨rfl, fun _ => rfl, rfl, Lc.fitsStartup_reset _ _ _, fun _ => rfl, fun ho => by cases ho⟩
  | ssl l hown he hs =>
    rcases hs with hs | hs
    · exact State.startSafe_of_same h rfl rfl hs hown id (fun _ ht => ht) .inl
    · obtain ⟨hne, hne', hloud, hloud'⟩ := Startup.leadsTo_ne_load hs
      rw [State.startSafe_iff] at h ⊢
      obtain ⟨hc, hh, hn, hl, ht, ho⟩ := h
      refine ⟨?_, fun h' => by simp [hheld] at h', State.numberFits_leadsTo hn hs hown,
        Lc.fitsStartup_of_leadsTo hl hs, fun hu => by simp [hloud'] at hu,
        fun h' => absurd (ho h') hne⟩
      rw [show s.cfg.isNone = false from hc.trans (beq_eq_false_iff_ne.2 hne)]
      exact (beq_eq_false_iff_ne.2 hne').symm
  | adopt c code hload hrange =>
    rw [State.startSafe_iff] at h
    obtain ⟨hc, hh, hn, hl, ht, ho⟩ := h
    rw [hload] at hl ht
    obtain ⟨htx, hw, hnotices⟩ := hl.1 rfl
    have hstart : (s.adopted c code).ssl.startup = if isBayNumber s.ssl.own then .selftest else .strapFault :=
      State.adopted_startup s c code
    have hown := s.adopted_own c code
    have hlc : (s.adopted c code).lc = s.lc := by rw [State.adopted_frame]
    have hfmc : (s.adopted c code).fmc = { s.fmc with owed := false } := by rw [State.adopted_frame]
    have hcfg : (s.adopted c code).cfg = some c := by rw [State.adopted_frame]
    have hne := s.adopted_startup_ne_load c code
    rw [State.startSafe_iff, hlc, hfmc, hcfg]
    refine ⟨(beq_eq_false_iff_ne.2 hne).symm, fun h' => ?_, ?_, ?_, fun _ => ht rfl, fun h' => by cases h'⟩
    · rw [State.adopted_frame, hheld] at h'
      cases h'
    · unfold State.numberFits
      rw [hstart, hown]
      cases hb : isBayNumber s.ssl.own <;> simp
    · exact ⟨fun _ => ⟨htx, hw, hnotices⟩, fun _ => hl.2.1 rfl, fun _ => hl.2.2 rfl⟩

end Moves

/-- Settles O57, move by move of the station (`Move.startSafe`). -/
theorem everyStepKeepsTheStartUpRules : Obligations.EveryStepKeepsTheStartUpRules := by
  refine step_keeps (P := State.startSafe) ?queue ?reset ?release ?move
  case queue => exact fun s q h => h
  case reset =>
    intro s k h
    rw [State.startSafe_iff]
    exact ⟨rfl, fun _ => rfl, rfl, Lc.fitsStartup_reset _ _ _, fun _ => rfl, fun ho => by cases ho⟩
  case release =>
    intro s b hheld h
    rw [State.startSafe_iff] at h ⊢
    obtain ⟨hc, hh, hn, hl, ht, ho⟩ := h
    have hload := hh (Option.isSome_iff_ne_none.2 hheld)
    refine ⟨hc, (nomatch ·), ?_, hl, ht, ho⟩
    simp [State.numberFits, hload]
  case move => exact fun s t hheld h m => m.startSafe hheld h

end Sys2Proof.Machine
end

