-- ==== Sys2Proof/Proofs/PeerSafe.lean ====
section
/-! PROOFS. The Peer Table stays ascending and of other stations only (O59): what each frame the table takes
writes, and that nothing else writes it. -/

namespace Sys2Proof.Machine

/-! ### A table written (R51, R69) -/

theorem tableSafe_nil {α : Type} (own : Nat) (may : Nat → Bool) : tableSafe own may ([] : List (Nat × α)) :=
  ⟨.nil, fun _ h => (nomatch h)⟩

/-- A write at a number that the table may hold keeps it safe. -/
theorem tableSafe_setSlot {α : Type} {own : Nat} {may : Nat → Bool} {l : List (Nat × α)} {n : Nat}
    (v : α) (h : tableSafe own may l) (hn : n ≠ own) (hm : may n = true) :
    tableSafe own may (setSlot n v l) := by
  obtain ⟨hup, hall⟩ := h
  refine ⟨setSlot_pairwise n v hup, fun e he => ?_⟩
  rcases mem_setSlot he with rfl | he
  · exact ⟨hm, hn⟩
  · exact hall e he

/-- Entries written in place keep their numbers. -/
theorem tableSafe_map {α : Type} {own : Nat} {may : Nat → Bool} {l : List (Nat × α)} (f : α → α)
    (h : tableSafe own may l) : tableSafe own may (l.map fun e => (e.1, f e.2)) := by
  obtain ⟨hup, hall⟩ := h
  refine ⟨?_, fun e he => ?_⟩
  · rw [List.map_map]
    exact hup
  · obtain ⟨d, hd, rfl⟩ := List.mem_map.1 he
    exact hall d hd

/-- Both tables are safe. -/
def Peers.safe (own : Nat) (p : Peers) : Prop :=
  tableSafe own isBayNumber p.bays ∧ tableSafe own isPanelNumber p.panels

theorem TableMove.safe {own : Nat} {p q : Peers} (m : TableMove own p q) (h : p.safe own) :
    q.safe own := by
  obtain ⟨hbays, hpanels⟩ := h
  cases m with
  | status n b hn hb => exact ⟨tableSafe_setSlot _ hbays hn hb, hpanels⟩
  | presence n b hn hb => exact ⟨tableSafe_setSlot _ hbays hn hb, hpanels⟩
  | panel n hn hb => exact ⟨hbays, tableSafe_setSlot _ hpanels hn hb⟩
  | inquiry n hn hb =>
    unfold Peers.takeInquiry
    split
    · exact ⟨hbays, hpanels⟩
    · exact ⟨hbays, tableSafe_setSlot _ hpanels hn hb⟩
  | sequence n s hn hb =>
    unfold Peers.applySequence
    split
    · exact ⟨hbays, hpanels⟩
    · exact ⟨hbays, tableSafe_setSlot _ hpanels hn hb⟩
  | older => exact ⟨tableSafe_map _ hbays, tableSafe_map _ hpanels⟩

/-! ### Each move -/

/-- No change of the store touches the frame in assembly. -/
theorem StoreMove.asm {s : State} {l : Lc} (m : StoreMove s l) : l.asm = s.lc.asm := by
  cases m with
  | postNotice k b h => exact Lc.postNotice_asm _ _ _
  | postStatus h => exact Lc.postStatus_asm _
  | postAlarm a h => exact Lc.postAlarm_asm _ _
  | requeue f r h => exact Lc.requeue_asm _ _
  | expire | flush | removeAlarm | hold | idle | lost | takeAlarm | takeNotice | takeStatus => rfl

section Moves

variable {s t : State}

/-- What the claim reads of a state that is not held. -/
theorem State.peersSafe_iff (hheld : s.held = none) :
    s.peersSafe ↔ s.pt.safe s.ssl.own ∧ s.lc.asm.safe s.ssl.own := by
  simp [State.peersSafe, Peers.safe, hheld, and_assoc]

theorem Move.peersSafe (m : Move s t) (hheld : s.held = none) (h : s.peersSafe) : t.peersSafe := by
  rw [State.peersSafe_iff hheld] at h
  rw [State.peersSafe_iff (m.held_pending.1.trans hheld)]
  obtain ⟨hpt, hasm⟩ := h
  cases m with
  | ssl l hown he hs => exact hown.symm ▸ ⟨hpt, hasm⟩
  | line l hs hc ha => exact ⟨hpt, ha hasm⟩
  | store l hl => exact ⟨hpt, hl.asm.symm ▸ hasm⟩
  | table p hp => exact ⟨(hp hasm).safe hpt, hasm⟩
  | enterFire q o =>
    rw [State.enterFire_ssl, Ssl.writeEvent_own]
    exact ⟨hpt, hasm⟩
  | restart => exact ⟨⟨tableSafe_nil _ _, tableSafe_nil _ _⟩, trivial⟩
  | adopt c code hl hc =>
    have hkept : (s.adopted c code).pt = s.pt ∧ (s.adopted c code).lc = s.lc := by
      rw [State.adopted_frame]
      exact ⟨rfl, rfl⟩
    rw [State.adopted_own, hkept.1, hkept.2]
    exact ⟨hpt, hasm⟩
  | lights => rw [State.ltcSample_frame]; exact ⟨hpt, hasm⟩
  | heat => rw [State.hruSample_frame]; exact ⟨hpt, hasm⟩
  | stages => rw [State.hsuSample_frame]; exact ⟨hpt, hasm⟩
  | air => rw [State.abuSample_frame]; exact ⟨hpt, hasm⟩
  | field | scu | bump | prelight | raise | note | nameFire | fireAir | timer | exitFire =>
    exact ⟨hpt, hasm⟩

end Moves

/-- Settles O59, move by move of the station (`Move.peersSafe`). -/
theorem everyStepKeepsThePeerTable : Obligations.EveryStepKeepsThePeerTable := by
  refine step_keeps (P := State.peersSafe) ?queue ?reset ?release ?move
  case queue => exact fun s q h => h
  case reset =>
    exact fun s k h => ⟨tableSafe_nil _ _, tableSafe_nil _ _, trivial, fun _ => ⟨rfl, rfl, rfl⟩⟩
  case release =>
    rintro s b hheld ⟨-, -, -, hempty⟩
    obtain ⟨hbays, hpanels, hasm⟩ := hempty (Option.isSome_iff_ne_none.2 hheld)
    rw [State.peersSafe_iff (State.beginLoad_held _ _)]
    rw [State.beginLoad_pt, State.beginLoad_lc, hasm, Peers.safe, hbays, hpanels]
    exact ⟨⟨tableSafe_nil _ _, tableSafe_nil _ _⟩, trivial⟩
  case move => exact fun s t hheld h m => m.peersSafe hheld h

end Sys2Proof.Machine
end

