-- ==== Sys2Proof/Proofs/StageSafe.lean ====
section
/-! PROOFS. The stages on stay within the allowed count, the allowed count within the grant, the on-list the list
of the ON stages, and the rotation order whole (O60). -/

namespace Sys2Proof.Machine

/-! ### One stage switched (R136, R138, R139) -/

theorem Hsu.isOn_iff (h : Hsu) (k : Nat) :
    h.isOn k = true ↔ k ≠ 0 ∧ ∃ t, h.stages[k - 1]? = some t ∧ t.on = true := by
  unfold Hsu.isOn Hsu.stage?
  split <;> simp [*, Option.any_eq_true]

/-- Only stage k's record changes when it is set. -/
theorem Hsu.isOn_setStage {h : Hsu} {k : Nat} (t : Stage) (l : List Nat) (hk : k ≠ 0)
    (hin : k - 1 < h.stages.length) (j : Nat) :
    ({ h.setStage k t with onList := l }).isOn j = if j = k then t.on else h.isOn j := by
  unfold Hsu.isOn Hsu.stage? Hsu.setStage
  by_cases hjk : j = k
  · subst hjk
    simp [hk, hin]
  · by_cases hj : j = 0
    · simp [hj, Ne.symm hk]
    · simp [hj, hjk, List.getElem?_set_ne (show k - 1 ≠ j - 1 by omega)]

/-- A stage on is one of the records. -/
theorem Hsu.lt_of_isOn {h : Hsu} {k : Nat} (hon : h.isOn k = true) : k ≠ 0 ∧ k - 1 < h.stages.length := by
  obtain ⟨hk, t, ht, -⟩ := (h.isOn_iff k).1 hon
  exact ⟨hk, (List.getElem?_eq_some_iff.1 ht).1⟩

theorem Hsu.offNewest_listed {h : Hsu} (m : Nat) (hl : h.listed) : (h.offNewest m).listed := by
  obtain ⟨hnodup, hmem⟩ := hl
  unfold Hsu.offNewest
  split
  · exact ⟨hnodup, hmem⟩
  · rename_i k hk
    have hkmem := List.mem_of_getLast? hk
    obtain ⟨hk0, hin⟩ := Hsu.lt_of_isOn ((hmem k).1 hkmem)
    have hsplit : h.onList = h.onList.dropLast ++ [k] := (List.dropLast_append_getLast? k hk).symm
    rw [hsplit, List.nodup_append] at hnodup
    obtain ⟨hdrop, -, hapart⟩ := hnodup
    refine ⟨hdrop, fun j => ?_⟩
    rw [Hsu.isOn_setStage _ _ hk0 hin]
    by_cases hjk : j = k
    · subst hjk
      simpa using fun hj => hapart j hj j (by simp) rfl
    · rw [if_neg hjk, ← hmem j]
      conv_rhs => rw [hsplit]
      simp [hjk]

/-- The stage that comes on is a record that was off (R139). -/
theorem Hsu.firstExpired_spec {h : Hsu} {k : Nat} (hk : h.firstExpired = some k) :
    k ≠ 0 ∧ k - 1 < h.stages.length ∧ h.isOn k = false := by
  have hany := List.find?_some hk
  unfold Hsu.stage? at hany
  split at hany
  · simp at hany
  · rename_i hk0
    cases hget : h.stages[k - 1]? with
    | none => simp [hget] at hany
    | some t =>
      simp only [hget, Option.any_some, Stage.expired, Bool.and_eq_true, Bool.not_eq_true'] at hany
      refine ⟨hk0, (List.getElem?_eq_some_iff.1 hget).1, ?_⟩
      simp [Hsu.isOn, Hsu.stage?, hk0, hget, hany.1.1]

theorem Hsu.onNext_listed {h : Hsu} (hl : h.listed) : h.onNext.listed := by
  obtain ⟨hnodup, hmem⟩ := hl
  unfold Hsu.onNext
  split
  · exact ⟨hnodup, hmem⟩
  · rename_i k hk
    obtain ⟨hk0, hin, hoff⟩ := Hsu.firstExpired_spec hk
    have hnot : k ∉ h.onList := fun hk' => by simp [(hmem k).1 hk'] at hoff
    refine ⟨?_, fun j => ?_⟩
    · exact List.nodup_append.2 ⟨hnodup, by simp, fun a ha b hb => by simp at hb; rintro rfl; exact hnot (hb ▸ ha)⟩
    · rw [Hsu.isOn_setStage _ _ hk0 hin]
      by_cases hjk : j = k <;> simp [hjk, hmem]

/-! ### Many stages switched, and the sample event (R126, R134 to R139) -/

@[simp] theorem Hsu.offNewest_allowed (m : Nat) (h : Hsu) : (h.offNewest m).allowed = h.allowed := by
  unfold Hsu.offNewest
  split <;> rfl

@[simp] theorem Hsu.offNewest_stages_length (m : Nat) (h : Hsu) :
    (h.offNewest m).stages.length = h.stages.length := by
  unfold Hsu.offNewest
  split
  · rfl
  · exact List.length_set

@[simp] theorem Hsu.onNext_stages_length (h : Hsu) : h.onNext.stages.length = h.stages.length := by
  unfold Hsu.onNext
  split
  · rfl
  · exact List.length_set

@[simp] theorem Hsu.offMany_allowed (m n : Nat) (h : Hsu) : (h.offMany m n).allowed = h.allowed := by
  induction n generalizing h with
  | zero => rfl
  | succ n ih => exact (ih _).trans (Hsu.offNewest_allowed m h)

@[simp] theorem Hsu.offMany_stages_length (m n : Nat) (h : Hsu) :
    (h.offMany m n).stages.length = h.stages.length := by
  induction n generalizing h with
  | zero => rfl
  | succ n ih => exact (ih _).trans (Hsu.offNewest_stages_length m h)

theorem Hsu.offMany_listed (m n : Nat) {h : Hsu} (hl : h.listed) : (h.offMany m n).listed := by
  induction n generalizing h with
  | zero => exact hl
  | succ n ih => exact ih (Hsu.offNewest_listed m hl)

@[simp] theorem Hsu.onMany_allowed (n : Nat) (h : Hsu) : (h.onMany n).allowed = h.allowed := by
  induction n generalizing h with
  | zero => rfl
  | succ n ih => exact (ih _).trans (Hsu.onNext_allowed h)

@[simp] theorem Hsu.onMany_stages_length (n : Nat) (h : Hsu) :
    (h.onMany n).stages.length = h.stages.length := by
  induction n generalizing h with
  | zero => rfl
  | succ n ih => exact (ih _).trans (Hsu.onNext_stages_length h)

theorem Hsu.onMany_listed (n : Nat) {h : Hsu} (hl : h.listed) : (h.onMany n).listed := by
  induction n generalizing h with
  | zero => exact hl
  | succ n ih => exact ih (Hsu.onNext_listed hl)

/-- Switching up to n stages on adds up to n to the on-list. -/
theorem Hsu.onMany_onList_length_le (n : Nat) (h : Hsu) :
    (h.onMany n).onList.length ≤ h.onList.length + n := by
  induction n generalizing h with
  | zero => exact Nat.le_refl _
  | succ n ih =>
    have hnext : h.onNext.onList.length ≤ h.onList.length + 1 := by
      rcases h.onNext_onList with heq | ⟨k, -, heq⟩ <;> simp [heq]
    exact (ih _).trans (by omega)

@[simp] theorem Hsu.staged_allowed (h : Hsu) (bay : BayBlock) (g : Nat) :
    (h.staged bay g).allowed = allowedNext bay h.allowed g := by
  simp [Hsu.staged]

@[simp] theorem Hsu.staged_stages_length (h : Hsu) (bay : BayBlock) (g : Nat) :
    (h.staged bay g).stages.length = h.stages.length := by
  simp [Hsu.staged]

/-- The count down switches no stage. -/
theorem Hsu.countDown_listed {h : Hsu} (g a : Nat) (hl : h.listed) :
    { h with grant := g, allowed := a, stages := h.stages.map Stage.countDown }.listed := by
  refine ⟨hl.1, fun k => (hl.2 k).trans ?_⟩
  unfold Hsu.isOn Hsu.stage?
  split
  · exact Iff.rfl
  · cases hk : h.stages[k - 1]? <;> simp [hk, Stage.countDown_on]

theorem Hsu.staged_listed {h : Hsu} (bay : BayBlock) (g : Nat) (hl : h.listed) :
    (h.staged bay g).listed :=
  Hsu.onMany_listed _ (Hsu.offMany_listed _ _ (Hsu.countDown_listed g _ hl))

/-- Stages go off until the on-list is within the allowed count, and come on up to it. -/
theorem Hsu.staged_onList_length_le (h : Hsu) (bay : BayBlock) (g : Nat) :
    (h.staged bay g).onList.length ≤ allowedNext bay h.allowed g := by
  refine (Hsu.onMany_onList_length_le _ _).trans ?_
  simp only [Hsu.offMany_onList, List.length_take]
  omega

/-- The allowed count stays within what the grant allows (R134). -/
theorem allowedNext_le (bay : BayBlock) (a g : Nat) :
    allowedNext bay a g ≤ g * bay.stageCount / bay.capacity := by
  have hup : (g - bay.hysteresis) * bay.stageCount / bay.capacity ≤ g * bay.stageCount / bay.capacity :=
    Nat.div_le_div_right (Nat.mul_le_mul_right _ (Nat.sub_le _ _))
  unfold allowedNext
  dsimp only
  split
  · exact le_rfl
  · split
    · exact hup
    · omega

/-! ### Every stage off -/

theorem Hsu.listed_of_noneOn {h : Hsu} (hl : h.onList = []) (hon : h.stages.any Stage.on = false) :
    h.listed := by
  refine ⟨by simp [hl], fun k => ?_⟩
  rw [hl, Hsu.isOn_iff]
  refine ⟨fun hk => (nomatch hk), ?_⟩
  rintro ⟨-, t, ht, hton⟩
  rw [List.any_eq_false] at hon
  exact absurd hton (hon t (List.mem_of_getElem? ht))

theorem Hsu.allOff_listed (m : Nat) (h : Hsu) : (h.allOff m).listed :=
  Hsu.listed_of_noneOn rfl (Hsu.allOff_noneOn m h)

/-- With no stage in the on-list none is on. -/
theorem Hsu.noneOn_of_listed {h : Hsu} (hl : h.listed) (hnil : h.onList = []) :
    h.stages.any Stage.on = false := by
  rw [List.any_eq_false]
  intro t ht hton
  obtain ⟨i, hi⟩ := List.mem_iff_getElem?.1 ht
  have hon := (hl.2 (i + 1)).2 ((h.isOn_iff _).2 ⟨by omega, t, by simpa using hi, hton⟩)
  rw [hnil] at hon
  cases hon

/-! ### Each move -/

section Moves

variable {s t : State}

/-- The invariant by the HSU, the configuration and the start-up state, which is all it reads. -/
theorem State.stagesSafe_of_same (h : s.stagesSafe) (hhsu : t.hsu = s.hsu) (hcfg : t.cfg = s.cfg)
    (hstart : t.ssl.startup = s.ssl.startup) : t.stagesSafe := by
  unfold State.stagesSafe at h ⊢
  rwa [hhsu, hcfg, hstart]

theorem State.allOff_stagesSafe (h : s.stagesSafe) (hhsu : t.hsu = s.hsu.allOff s.bayOrFallback.minOff)
    (hcfg : t.cfg = s.cfg) (hstart : t.ssl.startup = s.ssl.startup) : t.stagesSafe := by
  obtain ⟨-, -, hsome, hnone, hload⟩ := h
  unfold State.stagesSafe
  rw [hhsu, hcfg, hstart]
  refine ⟨Hsu.allOff_listed _ _, Nat.le_refl _, fun c hc => ⟨?_, Nat.zero_le _⟩,
    fun hc => ⟨(hnone hc).1, rfl, rfl⟩, hload⟩
  exact (List.length_map _).trans (hsome c hc).1

theorem Move.stagesSafe (m : Move s t) (h : s.stagesSafe) : t.stagesSafe := by
  have ⟨hl, hle, hsome, hnone, hload⟩ := h
  cases m with
  | bump =>
    unfold State.stagesSafe
    rw [Hsu.bump_kept]
    exact h
  | stages =>
    rw [State.hsuSample_frame]
    unfold State.hsuSample
    split
    · exact h
    · rename_i c hc
      refine ⟨Hsu.staged_listed _ _ hl, ?_, ?_, fun hc' => ?_, hload⟩
      · dsimp only
        rw [Hsu.staged_allowed]
        exact Hsu.staged_onList_length_le _ _ _
      · intro d hd
        obtain rfl : c = d := Option.some.inj (hc.symm.trans hd)
        dsimp only
        rw [Hsu.staged_stages_length, Hsu.staged_allowed, Hsu.staged_grant]
        exact ⟨(hsome c hc).1, allowedNext_le _ _ _⟩
      · rw [show s.cfg = none from hc'] at hc
        cases hc
  | ssl l hown he hs =>
    rcases hs with hs | hs
    · exact State.stagesSafe_of_same h rfl rfl hs
    · obtain ⟨hne, hne', -, -⟩ := Startup.leadsTo_ne_load hs
      exact ⟨hl, hle, hsome, fun hc => absurd (hnone hc).1 hne, fun hc => absurd hc hne'⟩
  | enterFire q o => exact State.allOff_stagesSafe h rfl rfl (Ssl.writeEvent_startup _ _)
  | restart =>
    exact ⟨Hsu.allOff_listed _ _, Nat.le_refl _, fun c hc => (nomatch hc), fun _ => ⟨rfl, rfl, rfl⟩,
      fun _ => rfl⟩
  | adopt c code hload' hrange =>
    obtain ⟨-, hgrant, ha⟩ := hnone (hload hload')
    have hnil : s.hsu.onList = [] := List.length_eq_zero_iff.1 (by omega)
    obtain ⟨hgrant', ha', hnil', hon'⟩ := s.hsu.adopt_kept c.bay
    have hlen : (s.hsu.adopt c.bay).stages.length = c.bay.stageCount := by
      unfold Hsu.adopt
      split
      · assumption
      · exact List.length_replicate
    have hne := s.adopted_startup_ne_load c code
    have hhsu : (s.adopted c code).hsu = s.hsu.adopt c.bay := by rw [State.adopted_frame]
    have hcfg : (s.adopted c code).cfg = some c := by rw [State.adopted_frame]
    unfold State.stagesSafe
    rw [hhsu, hcfg, hgrant', ha', hnil', hnil, ha, hgrant]
    refine ⟨Hsu.listed_of_noneOn (hnil'.trans hnil) (hon' (Hsu.noneOn_of_listed hl hnil)), Nat.le_refl _,
      fun d hd => ?_, fun hc => (nomatch hc), fun hc => absurd hc hne⟩
    obtain rfl := Option.some.inj hd
    exact ⟨hlen, Nat.zero_le _⟩
  | lights => rw [State.ltcSample_frame]; exact h
  | heat => rw [State.hruSample_frame]; exact h
  | air => rw [State.abuSample_frame]; exact h
  | field | scu | line | store | table | prelight | raise | note | nameFire | fireAir | timer | exitFire =>
    exact h

/-! ### The rotation order (R136, R140) -/

theorem Hsu.rotates_of_same {h h' : Hsu} (hr : h.rotates) (hrot : h'.rotation = h.rotation)
    (hlen : h'.stages.length = h.stages.length) : h'.rotates := by
  unfold Hsu.rotates
  rwa [hrot, hlen]

theorem Move.rotates (m : Move s t) (h : s.hsu.rotates) : t.hsu.rotates := by
  cases m with
  | bump =>
    unfold Hsu.rotates
    rw [Hsu.bump_stages]
    exact (Hsu.bump_rotation_perm _).trans h
  | stages =>
    unfold State.hsuSample
    split
    · exact h
    · exact Hsu.rotates_of_same h (Hsu.staged_rotation _ _ _) (Hsu.staged_stages_length _ _ _)
  | enterFire q o => exact Hsu.rotates_of_same h rfl (List.length_map _)
  | restart => exact Hsu.rotates_of_same h rfl (List.length_map _)
  | adopt c code hl hc =>
    rw [State.adopted_frame]
    unfold Hsu.adopt
    dsimp only
    split
    · exact h
    · simp [Hsu.rotates]
  | lights => rw [State.ltcSample_frame]; exact h
  | heat => rw [State.hruSample_frame]; exact h
  | air => rw [State.abuSample_frame]; exact h
  | field | scu | ssl | line | store | table | prelight | raise | note | nameFire | fireAir | timer
  | exitFire => exact h

end Moves

/-- Settles O60, move by move of the station (`Move.stagesSafe`, `Move.rotates`). -/
theorem everyStepKeepsTheStages : Obligations.EveryStepKeepsTheStages := by
  refine ⟨step_keeps (P := State.stagesSafe) (fun s q h => h) ?reset (fun s b hheld h => h)
      (fun s t hheld h m => m.stagesSafe h),
    step_keeps (P := fun s => s.hsu.rotates) (fun s q h => h) ?rotation (fun s b hheld h => h)
      (fun s t hheld h m => m.rotates h)⟩
  case reset =>
    exact fun s k h => ⟨Hsu.listed_of_noneOn rfl rfl, Nat.le_refl _, fun c hc => (nomatch hc),
      fun _ => ⟨rfl, rfl, rfl⟩, fun _ => rfl⟩
  case rotation => exact fun s k h => .nil

end Sys2Proof.Machine
end

