-- ==== Sys2Proof/Proofs/RangeSafe.lean ====
section
/-! PROOFS. The ranges (O58, its first two claims): times, counters and lists, and the light levels, the fan and
the damper with the configuration they are computed from. -/

namespace Sys2Proof.Machine

/-! ### Times, counters and lists (R23, R24, R28, R66, R101, R104, R165, R175) -/

theorem State.inRange_iff (s : State) :
    s.inRange ↔ s.scu.inRange ∧ s.ssl.events.length ≤ 8 ∧ s.ltc.recent.length ≤ 16
      ∧ s.ltc.sequence ≤ 255 ∧ s.fmc.repeatCount ≤ 255 ∧ s.fiu.lastGoodAge ≤ 65535
      ∧ s.lc.counters.inRange := by
  simp only [State.inRange, Scu.inRange, and_assoc]

theorem recentAdd_length_le {q : Nat × Nat} {l : List (Nat × Nat)} (h : l.length ≤ 16) :
    (recentAdd q l).length ≤ 16 := by
  unfold recentAdd
  split <;> simp <;> omega

/-- Every counter of the store's changes saturates (R66). -/
theorem StoreMove.counters_inRange {s : State} {l : Lc} (m : StoreMove s l)
    (h : s.lc.counters.inRange) : l.counters.inRange := by
  have ⟨h1, h2, h3, h4, h5, h6, h7, h8⟩ := h
  cases m with
  | expire life => exact ⟨h1, h2, h3, h4, satAdd_le _ _, h6, h7, h8⟩
  | postNotice k b hs =>
    rcases s.lc.postNotice_cases k b with ⟨-, heq⟩ | ⟨-, -, heq⟩ | ⟨-, -, -, heq⟩ <;> rw [heq]
    · exact h
    · exact ⟨h1, h2, h3, satAdd_le _ _, h5, h6, h7, h8⟩
    · exact h
  | postStatus hs =>
    rcases s.lc.postStatus_cases with ⟨-, heq⟩ | ⟨-, heq⟩ <;> rw [heq]
    · exact h
    · exact ⟨h1, h2, h3, h4, h5, satAdd_le _ _, h7, h8⟩
  | postAlarm a hs =>
    unfold Lc.postAlarm
    dsimp only
    split
    · exact h
    · exact ⟨h1, h2, h3, satAdd_le _ _, h5, h6, h7, h8⟩
  | requeue f r hf =>
    rw [Lc.requeue_counters]
    exact h
  | flush | removeAlarm | hold | idle | lost | takeAlarm | takeNotice | takeStatus => exact h

section Moves

variable {s t : State}

theorem Move.inRange (m : Move s t) (h : s.inRange) : t.inRange := by
  rw [State.inRange_iff] at h ⊢
  have ⟨hscu, hev, hrec, hseq, hrep, hage, hcount⟩ := h
  cases m with
  | field p b f hf => exact ⟨hscu, hev, hrec, hseq, hrep, hf hage, hcount⟩
  | scu u hu hf => exact ⟨hu hscu, hev, hrec, hseq, hrep, hage, hcount⟩
  | ssl l hown he hs => exact ⟨hscu, he hev, hrec, hseq, hrep, hage, hcount⟩
  | line l hs hc ha => exact ⟨hscu, hev, hrec, hseq, hrep, hage, hc hcount⟩
  | store l hl => exact ⟨hscu, hev, hrec, hseq, hrep, hage, hl.counters_inRange hcount⟩
  | lights =>
    rw [State.ltcSample_frame]
    have hkept : s.ltcSample.ltc.recent = s.ltc.recent ∧ s.ltcSample.ltc.sequence = s.ltc.sequence := by
      unfold State.ltcSample
      split <;> exact ⟨rfl, rfl⟩
    exact ⟨hscu, hev, hkept.1 ▸ hrec, hkept.2 ▸ hseq, hrep, hage, hcount⟩
  | raise =>
    exact ⟨hscu, hev, recentAdd_length_le hrec, Nat.le_of_lt_succ (Nat.mod_lt _ (by omega)), hrep, hage,
      hcount⟩
  | note o q ho hn => exact ⟨hscu, hev, recentAdd_length_le hrec, hseq, hrep, hage, hcount⟩
  | enterFire q o => exact ⟨hscu, Ssl.writeEvent_length _ hev, hrec, hseq, hrep, hage, hcount⟩
  | timer f hm hc ho ht => exact ⟨hscu, hev, hrec, hseq, hc hrep, hage, hcount⟩
  | exitFire => exact ⟨hscu, hev, hrec, hseq, Nat.zero_le _, hage, hcount⟩
  | restart =>
    obtain ⟨hm, hs, -⟩ := hscu
    exact ⟨⟨hm, hs, Nat.zero_le _, le_rfl, Nat.zero_le _⟩, hev, Nat.zero_le _, hseq, Nat.zero_le _, hage,
      hcount⟩
  | adopt c code hl hc =>
    have hevents : (s.adopted c code).ssl.events.length ≤ 8 := by
      cases code with
      | none => exact hev
      | some n => exact Ssl.writeEvent_length _ hev
    have hltc : (s.ltc.adopt c.site.startLevel s.fmc.inForce).recent = s.ltc.recent
        ∧ (s.ltc.adopt c.site.startLevel s.fmc.inForce).sequence = s.ltc.sequence := by
      unfold Ltc.adopt
      split <;> exact ⟨rfl, rfl⟩
    refine ⟨?_, hevents, ?_⟩ <;> rw [State.adopted_frame]
    · exact hscu
    · exact ⟨hltc.1 ▸ hrec, hltc.2 ▸ hseq, hrep, hage, hcount⟩
  | heat => rw [State.hruSample_frame]; exact h
  | stages => rw [State.hsuSample_frame]; exact h
  | air => rw [State.abuSample_frame]; exact h
  | bump | table | prelight | nameFire | fireAir => exact h

/-! ### Light levels (R92 to R96) -/

theorem Six.get_six {α : Type} (a : α) (g : Fin 6) : (six a).get g = a := by
  match g with
  | 0 | 1 | 2 | 3 | 4 | 5 => rfl

theorem Configuration.row_inRange {c : Configuration} (h : c.inRange) (p : Phase) :
    (c.row p).inRange := by
  obtain ⟨-, hclosed, hwork, hbrk, hchange, -⟩ := h
  cases p <;> assumption

theorem rampToward_le {rate level target top : Nat} (hl : level ≤ top) (ht : target ≤ top) :
    rampToward rate level target ≤ top := by
  unfold rampToward
  split <;> omega

/-- The force level is that of a LIGHT_FORCE record (R32). -/
theorem mem_of_forceLevel {l : List Amendment} {v : Nat} (h : forceLevel l = some v) :
    ∃ o r, .lightForce o r v ∈ l := by
  induction l with
  | nil => cases h
  | cons a rest ih =>
    unfold forceLevel at h
    split at h
    · rename_i w hw
      obtain ⟨o, r, hmem⟩ := ih (hw.trans h)
      exact ⟨o, r, List.mem_cons_of_mem a hmem⟩
    · cases a with
      | lightForce o r w =>
        cases h
        exact ⟨o, r, List.mem_cons_self⟩
      | hold | advance | close => cases h

theorem uncappedTarget_le {c : Configuration} (hc : c.inRange) {force : Option Nat}
    (hf : ∀ v, force = some v → v ≤ 1000) (p : Phase) (z : Six Zone) (b : Bool) (g : Fin 6) :
    uncappedTarget c p force z b g ≤ 1000 := by
  unfold uncappedTarget
  split
  · exact hf _ rfl
  · obtain ⟨-, -, -, -, hlevels⟩ := Configuration.row_inRange hc p
    obtain ⟨-, -, -, -, hwork⟩ := Configuration.row_inRange hc .work
    have hrow := hlevels g
    have hbase : c.phases.work.base.get g ≤ 1000 := (hwork g).1
    dsimp only
    split <;> split <;> omega

theorem cappedTarget_le {top target : Nat} (h : target ≤ top) (gc : GroupConfig) (b : Bool) :
    cappedTarget gc b target ≤ top := by
  unfold cappedTarget
  split
  · exact (Nat.min_le_left _ _).trans h
  · exact h

theorem State.lightTarget_le {c : Configuration} (hc : c.inRange) (hf : s.scu.forcesInRange) (b : Bool)
    (g : Fin 6) : s.lightTarget c b g ≤ 1000 := by
  unfold State.lightTarget
  split
  · exact le_rfl
  · split
    · refine cappedTarget_le (uncappedTarget_le hc (fun v hv => ?_) _ _ _ _) _ _
      obtain ⟨o, r, hmem⟩ := mem_of_forceLevel hv
      exact hf o r v hmem
    · obtain ⟨⟨-, -, -, -, -, -, -, -, -, -, -, hstart⟩, -⟩ := hc
      exact hstart

/-! ### The fan and the damper (R148, R149, R153, R154) -/

theorem targetSpeedOf_le {bay : BayBlock} {ventMin : Nat} (hv : ventMin ≤ 100) (ei : Option Nat) :
    targetSpeedOf bay ventMin ei ≤ 100 := by
  unfold targetSpeedOf
  split
  · exact le_rfl
  · split
    · exact le_rfl
    · split
      · exact hv
      · rename_i e _ _
        have hquot : (100 - ventMin) * (e - bay.eiLow) / (bay.eiHigh - bay.eiLow) ≤ 100 - ventMin := by
          rw [Nat.mul_comm]
          exact Nat.div_le_of_le_mul (Nat.mul_le_mul_right _ (by omega))
        omega

theorem speedToward_le {s target top : Nat} (hs : s ≤ top) (ht : target ≤ top) :
    speedToward s target ≤ top := by
  unfold speedToward
  split <;> omega

theorem damperToward_le {p target top : Nat} (hp : p ≤ top) (ht : target ≤ top) :
    damperToward p target ≤ top := by
  unfold damperToward
  split <;> omega

/-- The damper's target is the supply target as a share of the full supply, which it never exceeds. -/
theorem damperTarget_le (bay : BayBlock) (need neighbours : Nat) :
    supplyTargetOf bay need neighbours * 100 / bay.supplyMax ≤ 100 :=
  Nat.div_le_of_le_mul (Nat.mul_le_mul_right _ (Nat.min_le_left _ _))

theorem BayBlock.fire_le {bay : BayBlock} (h : bay.inRange) : bay.fireSpeed ≤ 100 ∧ bay.fireDamper ≤ 100 := by
  obtain ⟨-, -, -, -, -, -, -, -, -, -, -, -, -, -, -, -, -, hspeed, hdamper, -⟩ := h
  exact ⟨hspeed, hdamper⟩

theorem Abu.next_le {b : Abu} {bay : BayBlock} {ventMin : Nat} (hb : bay.inRange) (hv : ventMin ≤ 100)
    (hs : b.speed ≤ 100) (hd : b.damper ≤ 100) (fire run : Bool) (ei : Option Nat) (u n : Nat) :
    (b.next bay fire run ventMin ei u n).speed ≤ 100 ∧ (b.next bay fire run ventMin ei u n).damper ≤ 100 := by
  obtain ⟨hspeed, hdamper⟩ := BayBlock.fire_le hb
  cases fire with
  | true => exact ⟨hspeed, hdamper⟩
  | false =>
    cases run with
    | true => exact ⟨speedToward_le hs (targetSpeedOf_le hv ei), damperToward_le hd (damperTarget_le _ _ _)⟩
    | false => exact ⟨hs, hd⟩

/-- The bay block whose fire values hold is within its ranges, the fallback's among them. -/
theorem State.bayOrFallback_inRange (h : ∀ c, s.cfg = some c → c.inRange) : s.bayOrFallback.inRange := by
  unfold State.bayOrFallback
  split
  · obtain ⟨-, -, -, -, -, hbay, -⟩ := h _ ‹_›
    exact hbay
  · obtain ⟨-, -, -, -, -, hbay, -⟩ := fallback_inRange
    exact hbay

/-! ### The outputs through each move -/

theorem State.outputsInRange_iff (s : State) :
    s.outputsInRange ↔ (∀ g, (s.ltc.groups.get g).level ≤ 1000) ∧ s.abu.speed ≤ 100 ∧ s.abu.damper ≤ 100
      ∧ s.scu.forcesInRange ∧ ∀ c, s.cfg = some c → c.inRange := .rfl

theorem Move.outputsInRange (m : Move s t) (h : s.outputsInRange) : t.outputsInRange := by
  have ⟨hlevel, hspeed, hdamper, hforce, hcfg⟩ := (s.outputsInRange_iff).1 h
  cases m with
  | scu u hu hf => exact ⟨hlevel, hspeed, hdamper, hf hforce, hcfg⟩
  | lights =>
    rw [State.ltcSample_frame]
    refine ⟨fun g => ?_, hspeed, hdamper, hforce, hcfg⟩
    unfold State.ltcSample
    split
    · exact hlevel g
    · rename_i c hc
      dsimp only
      rw [Six.get_ofFn]
      exact rampToward_le (hlevel g) (State.lightTarget_le (hcfg c hc) hforce _ g)
  | air =>
    rw [State.abuSample_frame]
    have hair : s.abuSample.abu.speed ≤ 100 ∧ s.abuSample.abu.damper ≤ 100 := by
      unfold State.abuSample
      split
      · exact ⟨hspeed, hdamper⟩
      · rename_i c hc
        obtain ⟨-, hvent, -⟩ := Configuration.row_inRange (hcfg c hc) s.scu.phase
        obtain ⟨-, -, -, -, -, hbay, -⟩ := hcfg c hc
        exact Abu.next_le hbay hvent hspeed hdamper _ _ _ _ _
    exact ⟨hlevel, hair.1, hair.2, hforce, hcfg⟩
  | enterFire q o =>
    obtain ⟨hs, hd⟩ := BayBlock.fire_le (State.bayOrFallback_inRange hcfg)
    exact ⟨fun g => (congrArg Group.level (Six.get_six _ g)).le, hs, hd, hforce, hcfg⟩
  | fireAir hin =>
    obtain ⟨hs, hd⟩ := BayBlock.fire_le (State.bayOrFallback_inRange hcfg)
    exact ⟨hlevel, hs, hd, hforce, hcfg⟩
  | restart =>
    refine ⟨fun g => ?_, hspeed, hdamper, fun o r v hmem => (nomatch hmem), fun c hc => (nomatch hc)⟩
    exact (congrArg Group.level (Six.get_six (⟨500, 500⟩ : Group) g)).le.trans (by decide)
  | adopt c code hl hc =>
    rw [State.adopted_frame]
    obtain ⟨⟨-, -, -, -, -, -, -, -, -, -, -, hstart⟩, -, -, -, -, hbay, -⟩ := id hc
    obtain ⟨hs, hd⟩ := BayBlock.fire_le hbay
    have hair : (s.abu.adopt c.bay s.fmc.inForce).speed ≤ 100
        ∧ (s.abu.adopt c.bay s.fmc.inForce).damper ≤ 100 := by
      unfold Abu.adopt
      split
      · exact ⟨hs, hd⟩
      · exact ⟨hspeed, hdamper⟩
    refine ⟨fun g => ?_, hair.1, hair.2, hforce, fun d hd => Option.some.inj hd ▸ hc⟩
    unfold Ltc.adopt
    dsimp only
    split
    · exact hlevel g
    · exact (congrArg Group.level (Six.get_six (⟨c.site.startLevel, _⟩ : Group) g)).le.trans hstart
  | heat => rw [State.hruSample_frame]; exact h
  | stages => rw [State.hsuSample_frame]; exact h
  | field | bump | ssl | line | store | table | prelight | raise | note | nameFire | timer | exitFire =>
    exact h

end Moves

/-- The ranges at a held reset. -/
theorem State.heldReset_inRange (s : State) (k : ResetKind) : (s.heldReset k).inRange := by
  simp [State.inRange_iff, Scu.inRange, Counters.inRange, Scu.reset, Ssl.reset, Ltc.reset, Fmc.reset,
    Fiu.reset, Lc.reset, Counters.reset]

theorem State.heldReset_outputsInRange (s : State) (k : ResetKind) : (s.heldReset k).outputsInRange := by
  refine ⟨fun g => ?_, (by decide : 20 ≤ 100), (by decide : 0 ≤ 100), fun o r v hmem => (nomatch hmem),
      fun c hc => (nomatch hc)⟩
  exact (congrArg Group.level (Six.get_six (⟨500, 500⟩ : Group) g)).le.trans (by decide)

end Sys2Proof.Machine
end

