-- ==== Sys2Proof/Proofs/RecentSafe.lean ====
section
/-! PROOFS. The recent-notice list holds no pair twice, its own pairs those raised last (O58, third claim): the
own sequences read backwards count down from the sequence to come. -/

namespace Sys2Proof.Machine

/-- The sequences of the own pairs in a list, the newest first. -/
def ownSequences (own : Nat) (l : List (Nat × Nat)) : List Nat :=
  ((l.filter fun q => q.1 == own).map Prod.snd).reverse

/-- The j-th sequence below the one to come (R101). -/
def sequenceBelow (next j : Nat) : Nat := (next + 255 - j) % 256

/-- A list of sequences counts down from the one to come. -/
def countsDown (next : Nat) (l : List Nat) : Prop := l = (List.range l.length).map (sequenceBelow next)

theorem State.recentSafe_iff (s : State) :
    s.recentSafe ↔ s.ltc.sequence ≤ 255 ∧ s.ltc.recent.length ≤ 16 ∧ s.ltc.recent.Nodup
      ∧ countsDown s.ltc.sequence (ownSequences s.ssl.own s.ltc.recent)
      ∧ (s.held.isSome = true → s.ltc.recent = []) := .rfl

/-! ### Counting down -/

theorem countsDown_nil (next : Nat) : countsDown next [] := rfl

/-- The first part of a list that counts down counts down. -/
theorem countsDown_take {next : Nat} {l : List Nat} (n : Nat) (h : countsDown next l) :
    countsDown next (l.take n) := by
  unfold countsDown at h ⊢
  conv_lhs => rw [h]
  rw [← List.map_take, List.take_range, List.length_take]

/-- With the sequence to come in front, the list counts down from the next one (R101). -/
theorem countsDown_cons {next : Nat} {l : List Nat} (hn : next ≤ 255) (hl : l.length ≤ 16)
    (h : countsDown next l) : countsDown ((next + 1) % 256) (next :: l) := by
  have hfirst : sequenceBelow ((next + 1) % 256) 0 = next := by
    unfold sequenceBelow
    omega
  have hrest : ∀ j ∈ List.range l.length,
      sequenceBelow next j = sequenceBelow ((next + 1) % 256) (j + 1) := by
    intro j hj
    have := List.mem_range.1 hj
    unfold sequenceBelow
    omega
  unfold countsDown at h ⊢
  rw [List.length_cons, List.range_succ_eq_map, List.map_cons, List.map_map, hfirst]
  exact congrArg (next :: ·) (h.trans (List.map_congr_left hrest))

/-- The sequence to come is none of the last 16. -/
theorem countsDown_notMem {next : Nat} {l : List Nat} (hn : next ≤ 255) (hl : l.length ≤ 16)
    (h : countsDown next l) : next ∉ l := by
  intro hmem
  rw [h] at hmem
  obtain ⟨j, hj, heq⟩ := List.mem_map.1 hmem
  have := List.mem_range.1 hj
  unfold sequenceBelow at heq
  omega

/-! ### A pair added (R104) -/

theorem ownSequences_length_le (own : Nat) (l : List (Nat × Nat)) :
    (ownSequences own l).length ≤ l.length := by
  simpa [ownSequences] using List.length_filter_le _ l

theorem mem_ownSequences {own q : Nat} {l : List (Nat × Nat)} : q ∈ ownSequences own l ↔ (own, q) ∈ l := by
  simp [ownSequences, and_comm]

/-- The oldest pair gone, the own sequences are the first part of what they were. -/
theorem ownSequences_tail (own : Nat) (l : List (Nat × Nat)) :
    ∃ n, ownSequences own l.tail = (ownSequences own l).take n := by
  cases l with
  | nil => exact ⟨0, rfl⟩
  | cons q rest =>
    by_cases hq : q.1 = own
    · refine ⟨(ownSequences own rest).length, ?_⟩
      simp [ownSequences, hq]
    · refine ⟨(ownSequences own rest).length, ?_⟩
      simp [ownSequences, hq]

/-- What is left before a pair is added: the list, or the list without its oldest pair. -/
theorem recentAdd_eq (q : Nat × Nat) (l : List (Nat × Nat)) :
    ∃ k, recentAdd q l = k ++ [q] ∧ k.Sublist l
      ∧ ∀ own, ∃ n, ownSequences own k = (ownSequences own l).take n := by
  unfold recentAdd
  split
  · exact ⟨l, rfl, .refl _, fun own => ⟨(ownSequences own l).length, (List.take_length).symm⟩⟩
  · exact ⟨l.tail, rfl, List.tail_sublist l, fun own => ownSequences_tail own l⟩

theorem ownSequences_append_own (own q : Nat) (l : List (Nat × Nat)) :
    ownSequences own (l ++ [(own, q)]) = q :: ownSequences own l := by
  simp [ownSequences]

theorem ownSequences_append_other {own o : Nat} (q : Nat) (l : List (Nat × Nat)) (h : o ≠ own) :
    ownSequences own (l ++ [(o, q)]) = ownSequences own l := by
  simp [ownSequences, h]

theorem recentAdd_nodup {q : Nat × Nat} {l : List (Nat × Nat)} (h : l.Nodup) (hq : q ∉ l) :
    (recentAdd q l).Nodup := by
  obtain ⟨k, heq, hsub, -⟩ := recentAdd_eq q l
  rw [heq]
  exact List.nodup_append.2 ⟨h.sublist hsub, List.nodup_singleton q, fun a ha b hb =>
    fun hab => hq ((List.mem_singleton.1 hb) ▸ hab ▸ hsub.subset ha)⟩

/-- An own pair of the sequence to come, added, keeps the count down. -/
theorem recentAdd_own_countsDown {own next : Nat} {l : List (Nat × Nat)} (hn : next ≤ 255)
    (hl : l.length ≤ 16) (h : countsDown next (ownSequences own l)) :
    countsDown ((next + 1) % 256) (ownSequences own (recentAdd (own, next) l)) := by
  obtain ⟨k, heq, hsub, htake⟩ := recentAdd_eq (own, next) l
  obtain ⟨n, hn'⟩ := htake own
  have hlen := ((ownSequences_length_le own k).trans hsub.length_le).trans hl
  rw [heq, ownSequences_append_own]
  exact countsDown_cons hn hlen (hn' ▸ countsDown_take n h)

/-- A pair of another station, added, leaves the own ones to count down. -/
theorem recentAdd_other_countsDown {own next o q : Nat} {l : List (Nat × Nat)} (ho : o ≠ own)
    (h : countsDown next (ownSequences own l)) :
    countsDown next (ownSequences own (recentAdd (o, q) l)) := by
  obtain ⟨k, heq, -, htake⟩ := recentAdd_eq (o, q) l
  obtain ⟨n, hn'⟩ := htake own
  rw [heq, ownSequences_append_other q k ho, hn']
  exact countsDown_take n h

/-! ### Each move -/

section Moves

variable {s t : State}

theorem State.recentSafe_of_same (h : s.recentSafe) (hr : t.ltc.recent = s.ltc.recent)
    (hq : t.ltc.sequence = s.ltc.sequence) (ho : t.ssl.own = s.ssl.own) (hh : t.held = s.held) :
    t.recentSafe := by
  rw [State.recentSafe_iff] at h ⊢
  rwa [hr, hq, ho, hh]

theorem Move.recentSafe (m : Move s t) (hheld : s.held = none) (h : s.recentSafe) : t.recentSafe := by
  have ⟨hseq, hlen, hnodup, hown, _⟩ := (s.recentSafe_iff).1 h
  have hfree : ∀ l : List (Nat × Nat), s.held.isSome = true → l = [] := by
    intro l hs
    rw [hheld] at hs
    cases hs
  cases m with
  | ssl l ho he hs => exact State.recentSafe_of_same h rfl rfl ho rfl
  | enterFire q o => exact State.recentSafe_of_same h rfl rfl (Ssl.writeEvent_own _ _) rfl
  | lights =>
    have hkept : s.ltcSample.ltc.recent = s.ltc.recent ∧ s.ltcSample.ltc.sequence = s.ltc.sequence := by
      unfold State.ltcSample
      split <;> exact ⟨rfl, rfl⟩
    refine State.recentSafe_of_same h hkept.1 hkept.2 ?_ State.ltcSample_held
    rw [State.ltcSample_frame]
  | raise =>
    have hnot : (s.ssl.own, s.ltc.sequence) ∉ s.ltc.recent := fun hmem =>
      countsDown_notMem hseq ((ownSequences_length_le _ _).trans hlen) hown (mem_ownSequences.2 hmem)
    exact ⟨Nat.le_of_lt_succ (Nat.mod_lt _ (by omega)), recentAdd_length_le hlen,
      recentAdd_nodup hnodup hnot, recentAdd_own_countsDown hseq hlen hown, hfree _⟩
  | note o q ho hn =>
    exact ⟨hseq, recentAdd_length_le hlen, recentAdd_nodup hnodup hn, recentAdd_other_countsDown ho hown,
      hfree _⟩
  | restart => exact ⟨hseq, Nat.zero_le _, .nil, countsDown_nil _, fun _ => rfl⟩
  | adopt c code hl hc =>
    have hltc : (s.adopted c code).ltc = s.ltc.adopt c.site.startLevel s.fmc.inForce := by
      rw [State.adopted_frame]
    have hkept : (s.adopted c code).ltc.recent = s.ltc.recent
        ∧ (s.adopted c code).ltc.sequence = s.ltc.sequence := by
      rw [hltc]
      unfold Ltc.adopt
      split <;> exact ⟨rfl, rfl⟩
    refine State.recentSafe_of_same h hkept.1 hkept.2 (State.adopted_own _ _ _) ?_
    rw [State.adopted_frame]
  | heat => rw [State.hruSample_frame]; exact h
  | stages => rw [State.hsuSample_frame]; exact h
  | air => rw [State.abuSample_frame]; exact h
  | field | scu | bump | line | store | table | prelight | nameFire | fireAir | timer | exitFire => exact h

end Moves

theorem State.heldReset_recentSafe (s : State) (k : ResetKind) : (s.heldReset k).recentSafe :=
  ⟨Nat.zero_le _, Nat.zero_le _, .nil, countsDown_nil _, fun _ => rfl⟩

/-- Settles O58, each of the three invariants move by move of the station (`Move.inRange`,
`Move.outputsInRange`, `Move.recentSafe`). -/
theorem everyStepKeepsTheRanges : Obligations.EveryStepKeepsTheRanges := by
  refine ⟨step_keeps (P := State.inRange) (fun s q h => h) (fun s k h => s.heldReset_inRange k)
      (fun s b hheld h => h) (fun s t hheld h m => m.inRange h),
    step_keeps (P := State.outputsInRange) (fun s q h => h) (fun s k h => s.heldReset_outputsInRange k)
      (fun s b hheld h => h) (fun s t hheld h m => m.outputsInRange h),
    step_keeps (P := State.recentSafe) (fun s q h => h) (fun s k h => s.heldReset_recentSafe k) ?release
      (fun s t hheld h m => m.recentSafe hheld h)⟩
  case release =>
    rintro s b hheld ⟨hseq, -, -, -, hempty⟩
    have hnil := hempty (Option.isSome_iff_ne_none.2 hheld)
    rw [State.recentSafe_iff, State.beginLoad_ltc, hnil]
    exact ⟨hseq, Nat.zero_le _, .nil, countsDown_nil _, fun _ => rfl⟩

end Sys2Proof.Machine
end

