-- ==== Sys2Proof/Proofs/Resets.lean ====
section
/-! PROOFS. The held resets and the reset state (O3, O54): what `State.heldReset` sets. -/

namespace Sys2Proof.Machine

/-! ### Rows of equal things read -/

theorem PerSensor.get_perSensor {α : Type} (a : α) (k : Sensor) : (perSensor a).get k = a := by
  cases k <;> rfl

theorem Eight.get_eight {α : Type} (a : α) (k : Fin 8) : (eight a).get k = a := by
  match k with
  | 0 | 1 | 2 | 3 | 4 | 5 | 6 | 7 => rfl

/-! ### The values of a held reset, block by block (Section 1.9, R42, R66, R68, R107, R125, R144, R159, R169) -/

/-- The inputs at every reset, whatever bay temperature a restart keeps (R9, Section 1.9). -/
theorem State.inputsCleared_of_reset {t : State} (g : Option Int) (age : Nat) (temp : Int) (n : Nat)
    (l : Option Int) (hbr : t.br = restartRecord g age temp ∨ t.br = BayRecord.reset)
    (hfiu : t.fiu = { Fiu.reset with lastGood := l, lastGoodAge := n }) : t.inputsCleared := by
  have hrec : t.br = { BayRecord.reset with
      tBay := t.br.tBay, tempSource := t.br.tempSource, tempBlind := t.br.tempBlind } := by
    rcases hbr with h | h <;> rw [h]
    unfold restartRecord
    split
    · split <;> rfl
    · rfl
  unfold State.inputsCleared
  rw [hrec, hfiu]
  exact ⟨rfl, rfl, rfl, rfl, rfl, rfl, PerSensor.get_perSensor _, Eight.get_eight _, rfl, rfl, rfl, rfl,
    fun k => ⟨congrArg Zone.state (Six.get_six _ k), congrArg Zone.holdRemaining (Six.get_six _ k)⟩,
    rfl, rfl, PerSensor.get_perSensor _, fun k => ⟨Eight.get_eight _ k, Eight.get_eight _ k⟩⟩

theorem Lc.cleared_reset (clock : Nat) (c : Counters) :
    { Lc.reset with clock := clock, counters := c }.cleared :=
  ⟨rfl, rfl, rfl, rfl, rfl, rfl, rfl, rfl, rfl, rfl, rfl, rfl⟩

theorem State.heldReset_outputs (s : State) (k : ResetKind) : (s.heldReset k).outputsAtReset :=
  ⟨Six.get_six _, rfl, rfl, rfl, rfl, Eight.get_eight _, rfl, rfl, rfl, rfl, rfl, rfl, rfl, rfl, rfl, rfl,
    rfl, rfl, rfl, rfl, rfl, rfl, rfl, rfl⟩

/-- Settles O3: `State.heldReset` and `State.beginLoad`, block by block. -/
theorem heldResetsSetResetValues : Obligations.HeldResetsSetResetValues := by
  refine ⟨fun s i k hi => ⟨s.heldReset k, ?_, rfl, rfl, rfl, rfl, ?_, ?_, Lc.cleared_reset _ _, rfl, rfl,
    s.heldReset_outputs k, rfl, rfl, PerSensor.get_perSensor _, rfl, rfl⟩, fun s straps hheld => ?_⟩
  case refine_1 => rcases hi with ⟨rfl, rfl⟩ | ⟨rfl, rfl⟩ <;> rfl
  case refine_2 =>
    exact ⟨State.inputsCleared_of_reset none 0 0 0 none (.inr rfl) rfl, rfl, rfl, rfl, rfl, rfl⟩
  case refine_3 => exact ⟨rfl, rfl, rfl, rfl, rfl, rfl, rfl, rfl, rfl, rfl, rfl⟩
  case refine_4 =>
    have hno : s.released = false := by
      unfold State.released
      rwa [Option.isNone_eq_false_iff, Option.isSome_iff_ne_none]
    change Host.Outcome.next (if s.released then s else s.beginLoad straps) = _
    rw [hno]
    rfl

/-- The reset state is a held reset of itself, so what a held reset meets it meets. -/
theorem State.reset_eq_heldReset : State.reset = State.reset.heldReset .power := rfl

/-- Settles O54, by what a held reset makes of each invariant. -/
theorem resetStateIsSafe : Obligations.ResetStateIsSafe := by
  unfold Obligations.ResetStateIsSafe
  rw [State.reset_eq_heldReset]
  refine ⟨Lc.storeSafe_of_reset _ _, fun hfire => (nomatch hfire), ?start, State.heldReset_inRange _ _,
    ?peers, ?stages, State.heldReset_outputsInRange _ _, State.heldReset_recentSafe _ _, .nil⟩
  case start =>
    rw [State.startSafe_iff]
    exact ⟨rfl, fun _ => rfl, rfl, Lc.fitsStartup_reset _ _ _, fun _ => rfl, fun ho => (nomatch ho)⟩
  case peers => exact ⟨tableSafe_nil _ _, tableSafe_nil _ _, trivial, fun _ => ⟨rfl, rfl, rfl⟩⟩
  case stages =>
    exact ⟨Hsu.listed_of_noneOn rfl rfl, Nat.le_refl _, fun c hc => (nomatch hc),
      fun _ => ⟨rfl, rfl, rfl⟩, fun _ => rfl⟩

end Sys2Proof.Machine
end

