-- ==== Sys2Proof/Proofs/Panel.lean ====
section
/-! PROOFS. A panel's frame on the way to its command: what its acceptance writes, whether the SCU takes it
(R39, R75), and the RESTART it may carry (O4). -/

namespace Sys2Proof.Machine

/-! ### A panel's entry (R39, R71, R75) -/

theorem Peers.takePanel_other (p : Peers) {n m : Nat} (h : m ≠ n) :
    slot? (p.takePanel n).panels m = slot? p.panels m := slot?_setSlot_other _ _ h

/-- A frame taken from a panel leaves the sequence that was applied last. -/
theorem Peers.lastSequence_takePanel (p : Peers) (n : Nat) :
    (p.takePanel n).lastSequence n = p.lastSequence n := by
  unfold Peers.lastSequence
  rw [Peers.takePanel_slot]
  rfl

theorem Peers.refreshed_takePanel (p : Peers) (n : Byte) : p.refreshed (p.takePanel n.toNat) n :=
  ⟨rfl, p.takePanel_slot _, fun _ hm => p.takePanel_other hm⟩

/-- The table once the SCU has applied a panel's frame. -/
def Peers.applied (p : Peers) (n : Nat) (q : Byte) : Peers := (p.takePanel n).applySequence n q

theorem Peers.recorded_applied (p : Peers) (n : Byte) (q : Byte) :
    p.recorded (p.applied n.toNat q) n q := by
  have hslot := p.takePanel_slot n.toNat
  unfold Peers.applied Peers.applySequence
  rw [hslot]
  refine ⟨rfl, slot?_setSlot_same _ _ _, fun m hm => ?_⟩
  exact (slot?_setSlot_other _ _ hm).trans (p.takePanel_other hm)

/-! ### The frame taken, and obeyed (R39, R40) -/

/-- The station when the SCU has taken a panel's frame and not yet obeyed it. -/
def State.commanded (s : State) (p : Byte) (q : Byte) : State :=
  { s with lc := s.lc.framePassed, pt := s.pt.applied p.toNat q }

/-- The station when a panel's frame has refreshed its entry and nothing more. -/
def State.refreshed (s : State) (p : Byte) : State :=
  { s with lc := s.lc.framePassed, pt := s.pt.takePanel p.toNat }

section Taken

variable {s : State} {p : Byte} {a : PanelAddress}

/-- A panel's frame at a station whose table takes it, on the way to the SCU. -/
theorem State.acceptPanel_of_hears (h : s.hears p.toNat) (hp : isPanelNumber p.toNat = true)
    (ht : s.ssl.startup.takesFrames = true) (code : Byte) (x : Half) :
    s.acceptPanel p a code x = (s.refreshed p).panelFrame p.toNat ⟨a, code, x⟩ := by
  unfold State.acceptPanel
  rw [State.accept_of_canAccept (State.canAccept_of_hears (k := .panel) h hp), State.handOn_panel,
      State.peersTake_line]
  congr 1
  simp [State.peersTake, ht, State.refreshed]

theorem State.takesCommand.takesFrames (h : s.takesCommand p a) : s.ssl.startup.takesFrames = true := by
  obtain ⟨-, -, hrun, -⟩ := h
  rw [hrun]
  rfl

/-- A taken frame has its sequence applied and is obeyed (R39). -/
theorem State.acceptPanel_of_takes (h : s.takesCommand p a) (code : Byte) (x : Half) :
    s.acceptPanel p a code x = (s.commanded p a.sequence).obey p.toNat ⟨a, code, x⟩ := by
  have htakes := h.takesFrames
  obtain ⟨hears, hp, hrun, hfirst, hlast, hnew⟩ := h
  rw [State.acceptPanel_of_hears hears hp htakes, State.panelFrame, if_pos]
  · rfl
  · have hseq := s.pt.lastSequence_takePanel p.toNat
    simp [State.takesPanel, State.refreshed, hseq, hrun, Startup.isRun, hfirst, hlast, hnew]

/-- A frame that is not taken refreshes the panel's entry and does nothing else (R39, R75). -/
theorem State.acceptPanel_of_untaken (h : s.hears p.toNat) (hp : isPanelNumber p.toNat = true)
    (ht : s.ssl.startup.takesFrames = true) (hno : ¬ s.takesCommand p a) (code : Byte) (x : Half) :
    s.acceptPanel p a code x = s.refreshed p := by
  rw [State.acceptPanel_of_hears h hp ht, State.panelFrame, if_neg]
  intro htakes
  have hseq := s.pt.lastSequence_takePanel p.toNat
  simp only [State.takesPanel, State.refreshed, hseq, Bool.and_eq_true, bne_iff_ne]
    at htakes
  obtain ⟨⟨⟨hrun, hfirst⟩, hlast⟩, hnew⟩ := htakes
  exact hno ⟨h, hp, (Startup.isRun_iff _).1 hrun, of_decide_eq_true hfirst, of_decide_eq_true hlast, hnew⟩

theorem State.obey_of_normal (b : PanelBody) (h : s.fmc.mode = .normal) (n : Nat) :
    s.obey n b = s.command n b := by
  simp [State.obey, Fmc.inForce, h]

/-- In fire mode an ALARM_RESET alone is obeyed (R40). -/
theorem State.obey_of_fire {b : PanelBody} (h : s.fmc.inForce = true) (hb : b.command ≠ 7) (n : Nat) :
    s.obey n b = s := by
  rw [State.obey, if_pos]
  rw [h, bne_iff_ne.2 hb]
  rfl

/-- A taken command outside fire mode. -/
theorem State.acceptPanel_of_takes_normal (h : s.takesCommand p a) (hm : s.fmc.mode = .normal) (code : Byte)
    (x : Half) :
    s.acceptPanel p a code x = (s.commanded p a.sequence).command p.toNat ⟨a, code, x⟩ := by
  rw [State.acceptPanel_of_takes h]
  exact State.obey_of_normal (s := s.commanded p a.sequence) _ hm _

end Taken

/-! ### RESTART (R177) -/

/-- Stage k after every stage has been switched off between two sample events (R141, R145). -/
theorem Hsu.allOff_getElem? (m : Nat) (h : Hsu) (k : Nat) :
    (h.allOff m).stages[k]? = h.stages[k]?.map (Stage.forcedOff m) := List.getElem?_map

/-- Settles O4: the row is `State.restart` of the station that has taken the frame, which touches nothing that
the RESTART keeps. -/
theorem restartKeepsWhatSurvives : Obligations.RestartKeepsWhatSurvives := by
  intro s p a htakes hmode
  have hrun : s.ssl.startup = .run := htakes.2.2.1
  have hexec : exec (.restart p a) s = .next (s.commanded p a.sequence).restart := by
    change Host.Outcome.next (s.acceptPanel p a 8 0) = _
    rw [State.acceptPanel_of_takes_normal htakes hmode]
    simp [State.command, State.restartCommand, State.commanded, hrun, Startup.isRun, Fmc.inForce, hmode]
  have hheld : s.held = none := htakes.1.1
  refine ⟨_, hexec, hheld, rfl, rfl, rfl, rfl, rfl, rfl, rfl, rfl, PerSensor.get_perSensor _, rfl, rfl, rfl,
    rfl, rfl, rfl, rfl, rfl, rfl, rfl, Lc.cleared_reset _ _, rfl, rfl, rfl, rfl, rfl, rfl, rfl, rfl, ?stages,
    rfl, rfl, rfl, rfl, rfl, rfl, rfl, rfl, ?inputs, rfl, rfl, ?good, ?blind⟩
  case stages =>
    intro c k g hc hk
    have hoff : (s.commanded p a.sequence).restart.hsu = s.hsu.allOff c.bay.minOff := by
      simp [State.commanded, State.bayOrFallback, hc]
    rw [hoff, Hsu.allOff_getElem?, hk]
    rfl
  case inputs => exact State.inputsCleared_of_reset _ _ _ _ _ (.inl rfl) rfl
  case good =>
    intro g hg hage
    have hbr : (s.commanded p a.sequence).restart.br = restartRecord s.fiu.lastGood s.fiu.lastGoodAge s.br.tBay :=
      rfl
    rw [hbr, hg, restartRecord, if_pos hage]
    exact ⟨rfl, rfl, rfl⟩
  case blind =>
    intro hno
    have hbr : (s.commanded p a.sequence).restart.br
        = { BayRecord.reset with tBay := s.br.tBay } := by
      change restartRecord s.fiu.lastGood s.fiu.lastGoodAge s.br.tBay = _
      unfold restartRecord
      rcases hno with hno | hno
      · rw [hno]
      · split
        · rw [if_neg (by omega)]
        · rfl
    rw [hbr]
    exact ⟨rfl, rfl, rfl⟩

end Sys2Proof.Machine
end

