-- ==== Sys2Proof/Proofs/Amend.lean ====
section
/-! PROOFS. The evaluation of the operating phase over a list of records, and a record added by a panel's
command (R28, R34, R35): what O27 to O30 share. -/

namespace Sys2Proof.Machine

/-! ### A list brought up to date (R29, R30, R34) -/

theorem Amendment.broughtUp_of_isTimed {cal : List CalEntry} {t : Nat} {a : Amendment}
    (h : a.isTimed = true) : a.broughtUp cal t = some a := by
  cases a with
  | hold | advance => cases h
  | close | lightForce => rfl

/-- The CLOSE and LIGHT_FORCE records stand as they were in their order. -/
theorem filter_isTimed_broughtUp (cal : List CalEntry) (t : Nat) (l : List Amendment) :
    (l.filterMap (Amendment.broughtUp cal t)).filter Amendment.isTimed = l.filter Amendment.isTimed := by
  induction l with
  | nil => rfl
  | cons a l ih =>
    cases ha : a.isTimed with
    | true => simp [Amendment.broughtUp_of_isTimed ha, ha, ih]
    | false =>
      cases hb : a.broughtUp cal t with
      | none => simp [hb, ha, ih]
      | some b => simp [hb, ha, ih, (Amendment.isTimed_of_broughtUp hb).trans ha]

theorem Amendment.isClose_iff_isTimed_and {a : Amendment} : a.isClose = true → a.isTimed = true := by
  cases a <;> simp [Amendment.isClose, Amendment.isTimed]

/-- BAY_CLOSED is as it was before an evaluation (R31). -/
theorem any_isClose_broughtUp (cal : List CalEntry) (t : Nat) (l : List Amendment) :
    (l.filterMap (Amendment.broughtUp cal t)).any Amendment.isClose = l.any Amendment.isClose := by
  have hkey : ∀ k : List Amendment, k.any Amendment.isClose = (k.filter Amendment.isTimed).any Amendment.isClose := by
    intro k
    rw [List.any_filter]
    congr 1
    funext a
    cases a <;> rfl
  rw [hkey, filter_isTimed_broughtUp, ← hkey]

theorem broughtUp_append_timed {cal : List CalEntry} {t : Nat} {a : Amendment} (l : List Amendment)
    (h : a.isTimed = true) :
    (l ++ [a]).filterMap (Amendment.broughtUp cal t) = l.filterMap (Amendment.broughtUp cal t) ++ [a] := by
  simp [Amendment.broughtUp_of_isTimed h]

theorem broughtUp_list_of_timed {cal : List CalEntry} {t : Nat} {l : List Amendment}
    (h : l.all Amendment.isTimed = true) : l.filterMap (Amendment.broughtUp cal t) = l := by
  rw [List.all_eq_true] at h
  rw [List.filterMap_congr fun a ha => Amendment.broughtUp_of_isTimed (h a ha), List.filterMap_some]

/-- The newest LIGHT_FORCE record sets the force level (R32). -/
theorem forceLevel_append (l : List Amendment) (o r v : Nat) :
    forceLevel (l ++ [.lightForce o r v]) = some v := by
  induction l with
  | nil => rfl
  | cons a l ih => simp [forceLevel, ih]

/-! ### The operating phase (R34, R35) -/

/-- An evaluation between minute boundaries, as `State.phaseFollows` reads it. -/
theorem State.phaseFollows_of_evaluated {s t : State} {c : Configuration} {u : Scu}
    (ht : t.scu = u.evaluated c s.br false) (hl : u.latch = s.scu.latch) : s.phaseFollows t c := by
  have hrun := Scu.evaluated_running u c s.br
  dsimp only at hrun
  rw [← ht] at hrun
  have hphase : (t.scu.phase, t.scu.latch) = operatingPhase t.scu.bayClosed t.scu.valid
      (scheduledPhase c.calendar t.scu.minute t.scu.amendments) s.scu.latch := by
    have hm : t.scu.minute = u.minute ∧ t.scu.valid = u.valid := by
      rw [hrun]
      exact ⟨rfl, rfl⟩
    rw [hm.1, hm.2, ← hl]
    exact Prod.ext (congrArg Scu.phase hrun) (congrArg Scu.latch hrun)
  unfold State.phaseFollows
  dsimp only
  generalize scheduledPhase c.calendar t.scu.minute t.scu.amendments = planned at hphase
  cases hclosed : t.scu.bayClosed with
  | true =>
    rw [hclosed] at hphase
    obtain ⟨hp, hlatch⟩ := Prod.mk.inj hphase
    exact ⟨fun _ => ⟨hp, hlatch⟩, fun h => (nomatch h), fun h => (nomatch h)⟩
  | false =>
    cases hvalid : t.scu.valid with
    | false =>
      rw [hclosed, hvalid] at hphase
      obtain ⟨hp, hlatch⟩ := Prod.mk.inj hphase
      exact ⟨fun h => (nomatch h), fun _ _ => ⟨hp, hlatch⟩, fun _ h => (nomatch h)⟩
    | true =>
      rw [hclosed, hvalid] at hphase
      refine ⟨fun h => (nomatch h), fun _ h => (nomatch h), fun _ _ => ?_⟩
      cases planned with
      | closed =>
        refine ⟨fun h => absurd rfl h, fun _ => ?_⟩
        cases hlatch : s.scu.latch <;> rw [hlatch] at hphase <;> obtain ⟨hp, hl'⟩ := Prod.mk.inj hphase <;>
          exact ⟨hl', hp⟩
      | work | brk | changeover =>
        obtain ⟨hp, hlatch⟩ := Prod.mk.inj hphase
        exact ⟨fun _ => ⟨hp, hlatch⟩, fun h => (nomatch h)⟩

theorem State.withScu_hsu_kept (s : State) (u : Scu) :
    (s.withScu u).hsu = { s.hsu with rotation := (s.withScu u).hsu.rotation } := by
  unfold State.withScu
  dsimp only
  split
  · rfl
  · exact Hsu.bump_kept _

/-- The rotation order alone of the HSU follows an evaluation. -/
theorem State.evaluate_hsu_kept (s : State) (b : Bool) :
    (s.evaluate b).hsu = { s.hsu with rotation := (s.evaluate b).hsu.rotation } :=
  s.withScu_hsu_kept _

theorem State.evaluate_scu_of_cfg {s : State} {c : Configuration} (h : s.cfg = some c) (b : Bool) :
    (s.evaluate b).scu = s.scu.evaluated c s.br b := by
  simp [State.evaluate, h]

/-! ### A command of the amendment list (R28) -/

section Commands

variable {s : State} {p : Byte} {a : PanelAddress}

/-- What an evaluation of a changed list leaves as it was. -/
theorem State.amendsOnly_of_frame {t : State}
    (hframe : t = { s.commanded p a.sequence with ssl := t.ssl, scu := t.scu, hsu := t.hsu })
    (hhsu : t.hsu = { s.hsu with rotation := t.hsu.rotation })
    (hssl : t.ssl = { s.ssl with events := t.ssl.events, overflow := t.ssl.overflow, report := t.ssl.report })
    (hscu : t.scu = { s.scu with
      amendments := t.scu.amendments, latch := t.scu.latch, phase := t.scu.phase }) :
    s.amendsOnly t p a := by
  have hlc : t.lc = s.lc.framePassed := congrArg State.lc hframe
  have hpt : t.pt = s.pt.applied p.toNat a.sequence := congrArg State.pt hframe
  refine ⟨?_, hlc, hpt ▸ s.pt.recorded_applied p a.sequence, hhsu, hssl, hscu⟩
  rw [hlc, hpt]
  exact hframe

/-- A command that finds no case for itself changes no list. -/
theorem State.amendsOnly_commanded (s : State) (p : Byte) (a : PanelAddress) :
    s.amendsOnly (s.commanded p a.sequence) p a := State.amendsOnly_of_frame rfl rfl rfl rfl

/-- The list changed, with the records `l`, and evaluated. -/
def State.amended (s : State) (p q : Byte) (l : List Amendment) : State :=
  { s.commanded p q with scu := { s.scu with amendments := l } }.evaluate false

variable {c : Configuration} {l : List Amendment}

theorem State.amended_scu (hc : s.cfg = some c) (q : Byte) :
    (s.amended p q l).scu = { s.scu with amendments := l }.evaluated c s.br false :=
  State.evaluate_scu_of_cfg (s := { s.commanded p q with scu := { s.scu with amendments := l } }) hc false

theorem State.amended_amendments (hc : s.cfg = some c) (q : Byte) :
    (s.amended p q l).scu.amendments = l.filterMap (Amendment.broughtUp c.calendar s.scu.minute) := by
  rw [State.amended_scu hc]
  rfl

theorem State.amended_phaseFollows (hc : s.cfg = some c) (q : Byte) :
    s.phaseFollows (s.amended p q l) c :=
  State.phaseFollows_of_evaluated (State.amended_scu hc q) rfl

theorem State.amended_amendsOnly (hc : s.cfg = some c) : s.amendsOnly (s.amended p a.sequence l) p a := by
  refine State.amendsOnly_of_frame ?_ ?_ rfl ?_
  · unfold State.amended
    rw [State.evaluate_frame]
  · exact State.evaluate_hsu_kept _ _
  · rw [State.amended_scu hc]
    rfl

/-- The event of a record that had to go, at the station that has changed its list (R28). -/
def State.replacing (s : State) (old : Amendment) (t : State) : State :=
  { t with ssl := s.ssl.writeEvent ⟨.amendmentReplaced, old.code, s.scu.minute⟩ }

theorem State.replacing_event (s t : State) (old : Amendment) :
    (s.replacing old t).ssl.events.getLast? = some ⟨.amendmentReplaced, old.code, s.scu.minute⟩ := by
  simp [State.replacing, Ssl.writeEvent_events]

theorem Ssl.writeEvent_kept (l : Ssl) (e : Event) :
    l.writeEvent e = { l with
      events := (l.writeEvent e).events, overflow := (l.writeEvent e).overflow
      report := (l.writeEvent e).report } := by
  unfold Ssl.writeEvent
  split <;> rfl

theorem State.replacing_amendsOnly (hc : s.cfg = some c) (old : Amendment) :
    s.amendsOnly (s.replacing old (s.amended p a.sequence l)) p a := by
  obtain ⟨-, -, -, hhsu, -, hscu⟩ := State.amended_amendsOnly (p := p) (a := a) (l := l) hc
  refine State.amendsOnly_of_frame ?_ hhsu (Ssl.writeEvent_kept _ _) hscu
  unfold State.replacing State.amended
  rw [State.evaluate_frame]

/-- A record with room for it joins the others as the newest (R28). -/
theorem State.addAmendment_of_room (x : Amendment) (q : Byte) (h : (x.others s.scu.amendments).length < 8) :
    (s.commanded p q).addAmendment x = s.amended p q (x.others s.scu.amendments ++ [x]) := by
  have hothers : (x.others (s.commanded p q).scu.amendments).length < 8 := h
  rw [State.addAmendment_eq, if_pos hothers]
  rfl

/-- A record that finds the list full makes the oldest one go, with its event (R28). -/
theorem State.addAmendment_of_full {old : Amendment} {rest : List Amendment} (x : Amendment) (q : Byte)
    (h : x.others s.scu.amendments = old :: rest) (hlen : 7 ≤ rest.length) :
    (s.commanded p q).addAmendment x = s.replacing old (s.amended p q (rest ++ [x])) := by
  have hothers : x.others (s.commanded p q).scu.amendments = old :: rest := h
  rw [State.addAmendment_eq, hothers, if_neg (by simp only [List.length_cons]; omega)]
  rfl

/-- A record added: the list it joins, and that nothing but the list and its event is touched. -/
theorem State.addAmendment_cases (hc : s.cfg = some c) (p : Byte) (a : PanelAddress) (x : Amendment) :
    let t := (s.commanded p a.sequence).addAmendment x
    let others := x.others s.scu.amendments
    s.amendsOnly t p a ∧ s.phaseFollows t c
      ∧ (∃ l, l.Sublist others ∧ t.scu = (s.amended p a.sequence (l ++ [x])).scu)
      ∧ (others.length < 8 → t.ssl = s.ssl ∧ t.scu = (s.amended p a.sequence (others ++ [x])).scu)
      ∧ ∀ old rest, others = old :: rest → 7 ≤ rest.length →
        t.ssl.events.getLast? = some ⟨.amendmentReplaced, old.code, s.scu.minute⟩
        ∧ t.scu = (s.amended p a.sequence (rest ++ [x])).scu := by
  dsimp only
  by_cases hroom : (x.others s.scu.amendments).length < 8
  · rw [State.addAmendment_of_room x _ hroom]
    refine ⟨State.amended_amendsOnly hc, State.amended_phaseFollows hc _, ⟨_, .refl _, rfl⟩,
      fun _ => ⟨rfl, rfl⟩, fun old rest h hlen => ?_⟩
    simp only [h, List.length_cons] at hroom
    omega
  · cases hothers : x.others s.scu.amendments with
    | nil => simp [hothers] at hroom
    | cons old rest =>
      have hlen : 7 ≤ rest.length := by
        simp only [hothers, List.length_cons] at hroom
        omega
      rw [State.addAmendment_of_full x _ hothers hlen]
      refine ⟨State.replacing_amendsOnly hc old, State.amended_phaseFollows hc _,
        ⟨_, List.sublist_cons_self _ _, rfl⟩, fun h => ?_, fun old' rest' h _ => ?_⟩
      · simp only [List.length_cons] at h
        omega
      · cases h
        exact ⟨State.replacing_event _ _ _, rfl⟩

end Commands

end Sys2Proof.Machine
end

