-- ==== Sys2Proof/Proofs/PanelCommands.lean ====
section
/-! PROOFS. The panel's commands of the amendment list and the commands without effect (O27 to O30, O32). -/

namespace Sys2Proof.Machine

/-! ### CLOSE_BAYS, OPEN_BAYS, LIGHT_FORCE and CANCEL_AMENDMENTS (R28, R31, R32, R40) -/

section Timed

variable {s : State} {c : Configuration} {p : Byte} {a : PanelAddress} {x : Amendment}

/-- What the list holds once a CLOSE or LIGHT_FORCE has joined the records `l`. -/
theorem State.amended_timed (hc : s.cfg = some c) (hx : x.isTimed = true) (q : Byte) (l : List Amendment) :
    let t := s.amended p q (l ++ [x])
    t.scu.amendments = l.filterMap (Amendment.broughtUp c.calendar s.scu.minute) ++ [x]
      ∧ t.scu.amendments.filter Amendment.isTimed = l.filter Amendment.isTimed ++ [x]
      ∧ ((∀ r ∈ l, r.stands c.calendar s.scu.minute) → t.scu.amendments = l ++ [x]) := by
  dsimp only
  rw [State.amended_amendments hc, broughtUp_append_timed l hx]
  refine ⟨rfl, ?_, fun h => by rw [broughtUp_list_of_stands h]⟩
  rw [List.filter_append, filter_isTimed_broughtUp]
  simp [hx]

/-- A CLOSE or LIGHT_FORCE record added to the list (R28, R31, R32). -/
theorem State.addTimed (hc : s.cfg = some c) (p : Byte) (a : PanelAddress) (hx : x.isTimed = true) :
    let t := (s.commanded p a.sequence).addAmendment x
    s.amendsOnly t p a ∧ s.phaseFollows t c
      ∧ (∃ l, t.scu.amendments = l ++ [x])
      ∧ (s.scu.amendments.length < 8 → t.ssl = s.ssl
        ∧ t.scu.amendments.filter Amendment.isTimed = s.scu.amendments.filter Amendment.isTimed ++ [x]
        ∧ ((∀ r ∈ s.scu.amendments, r.stands c.calendar s.scu.minute) →
          t.scu.amendments = s.scu.amendments ++ [x]))
      ∧ ∀ old rest, s.scu.amendments = old :: rest → 7 ≤ rest.length →
        t.ssl.events.getLast? = some ⟨.amendmentReplaced, old.code, s.scu.minute⟩
        ∧ ((∀ r ∈ rest, r.stands c.calendar s.scu.minute) → t.scu.amendments = rest ++ [x]) := by
  have hothers : x.others s.scu.amendments = s.scu.amendments := by
    cases x with
    | hold | advance => cases hx
    | close | lightForce => rfl
  obtain ⟨honly, hphase, ⟨l, -, hl⟩, hroom, hfull⟩ := State.addAmendment_cases hc p a x
  rw [hothers] at hroom hfull
  refine ⟨honly, hphase, ⟨l.filterMap (Amendment.broughtUp c.calendar s.scu.minute), ?_⟩, fun hlen => ?_,
    fun old rest heq hlen => ?_⟩
  · rw [hl]
    exact (State.amended_timed hc hx a.sequence l).1
  · obtain ⟨hssl, hscu⟩ := hroom hlen
    rw [hscu]
    exact ⟨hssl, (State.amended_timed hc hx a.sequence _).2⟩
  · obtain ⟨hevent, hscu⟩ := hfull old rest heq hlen
    rw [hscu]
    exact ⟨hevent, (State.amended_timed hc hx a.sequence _).2.2⟩

/-- A list cut down and evaluated. -/
theorem State.amended_filter (hc : s.cfg = some c) (q : Byte) :
    let t := s.amended p q (s.scu.amendments.filter fun r => !r.isClose)
    t.scu.bayClosed = false
      ∧ t.scu.amendments.filter Amendment.isTimed
        = (s.scu.amendments.filter Amendment.isTimed).filter (fun r => !r.isClose)
      ∧ ((∀ r ∈ s.scu.amendments, r.stands c.calendar s.scu.minute) →
        t.scu.amendments = s.scu.amendments.filter fun r => !r.isClose) := by
  dsimp only
  have hlist := State.amended_amendments (p := p) (l := s.scu.amendments.filter fun r => !r.isClose) hc q
  refine ⟨?_, ?_, fun h => ?_⟩
  · unfold Scu.bayClosed
    rw [hlist, any_isClose_broughtUp]
    simp
  · rw [hlist, filter_isTimed_broughtUp, List.filter_filter, List.filter_filter]
    congr 1
    funext r
    exact Bool.and_comm _ _
  · rw [hlist]
    exact broughtUp_list_of_stands fun r hr => h r (List.mem_of_mem_filter hr)

end Timed

/-- Settles O29: the record's list by `State.addTimed`, the list without its CLOSE records by
`State.amended_filter`. -/
theorem closeAndOpenBays : Obligations.CloseAndOpenBays := by
  intro s c p a m hc htakes hmode
  refine ⟨?close, ?openUp⟩
  case close =>
    have hexec : exec (.closeBays p a m) s = .next ((s.commanded p a.sequence).closeBays p.toNat m.toNat) := by
      change Host.Outcome.next (s.acceptPanel p a 3 m) = _
      rw [State.acceptPanel_of_takes_normal htakes hmode]
      rfl
    refine ⟨_, hexec, ?_⟩
    by_cases hm : m.toNat ≤ 1440
    · have hclose : (s.commanded p a.sequence).closeBays p.toNat m.toNat
          = (s.commanded p a.sequence).addAmendment
            (.close p.toNat (if m.toNat = 0 then none else some m.toNat)) := if_neg (by omega)
      rw [hclose]
      obtain ⟨honly, ⟨hclosed, -⟩, ⟨l, hl⟩, hroom, hfull⟩ := State.addTimed hc p a
        (x := .close p.toNat (if m.toNat = 0 then none else some m.toNat)) rfl
      have hbay : ((s.commanded p a.sequence).addAmendment
          (.close p.toNat (if m.toNat = 0 then none else some m.toNat))).scu.bayClosed = true := by
        unfold Scu.bayClosed
        rw [hl]
        simp [Amendment.isClose]
      obtain ⟨hphase, hlatch⟩ := hclosed hbay
      refine ⟨honly, fun _ => ⟨hphase, hbay, hlatch⟩, ?_, fun h => absurd hm (by omega)⟩
      rintro - added rfl
      exact ⟨by rw [hl, List.getLast?_concat], hroom, hfull⟩
    · have hno : (s.commanded p a.sequence).closeBays p.toNat m.toNat = s.commanded p a.sequence :=
        if_pos (by omega)
      rw [hno]
      exact ⟨s.amendsOnly_commanded p a, fun h => absurd h hm, fun h => absurd h hm, fun _ => ⟨rfl, rfl, rfl⟩⟩
  case openUp =>
    have hexec : exec (.openBays p a) s = .next (s.commanded p a.sequence).openBays := by
      change Host.Outcome.next (s.acceptPanel p a 4 0) = _
      rw [State.acceptPanel_of_takes_normal htakes hmode]
      rfl
    refine ⟨_, hexec, ?_⟩
    cases hbay : s.scu.bayClosed with
    | true =>
      have hopen : (s.commanded p a.sequence).openBays
          = s.amended p a.sequence (s.scu.amendments.filter fun r => !r.isClose) := if_pos hbay
      obtain ⟨hclosed, htimed, hstands⟩ := State.amended_filter (p := p) hc a.sequence
      rw [hopen]
      exact ⟨State.amended_amendsOnly hc, rfl, hclosed, fun _ => ⟨State.amended_phaseFollows hc _, htimed⟩,
        hstands, fun h => (nomatch h)⟩
    | false =>
      have hopen : (s.commanded p a.sequence).openBays = s.commanded p a.sequence :=
        if_neg (by rw [show (s.commanded p a.sequence).scu.bayClosed = false from hbay]; decide)
      rw [hopen]
      refine ⟨s.amendsOnly_commanded p a, rfl, hbay, fun h => (nomatch h), fun _ => ?_, fun _ => ⟨rfl, rfl⟩⟩
      refine (List.filter_eq_self.2 fun r hr => ?_).symm
      simpa using List.any_eq_false.1 hbay r hr

/-- Settles O30: the record's list by `State.addTimed`; an emptied list has nothing to bring up to date. -/
theorem lightForceAndCancel : Obligations.LightForceAndCancel := by
  intro s c p a m l hc htakes hmode
  refine ⟨?force, ?cancel⟩
  case force =>
    have hexec : exec (.lightForce p a m l) s
        = .next ((s.commanded p a.sequence).lightForce p.toNat m.toNat l.toNat) := by
      change Host.Outcome.next (s.acceptPanel p a 5 (m ++ l)) = _
      rw [State.acceptPanel_of_takes_normal htakes hmode]
      change Host.Outcome.next (State.lightForce _ _ _ _) = _
      rw [BitVec.extractLsb'_append_eq_left, BitVec.extractLsb'_append_eq_right]
    refine ⟨_, hexec, ?_⟩
    by_cases hok : 1 ≤ m.toNat ∧ m.toNat ≤ 240 ∧ l.toNat ≤ 250
    · have hforce : (s.commanded p a.sequence).lightForce p.toNat m.toNat l.toNat
          = (s.commanded p a.sequence).addAmendment (.lightForce p.toNat m.toNat (4 * l.toNat)) :=
        if_pos hok
      rw [hforce]
      obtain ⟨honly, hphase, ⟨k, hk⟩, hroom, hfull⟩ := State.addTimed hc p a
        (x := .lightForce p.toNat m.toNat (4 * l.toNat)) rfl
      refine ⟨honly, ?_, fun h => absurd hok (by omega)⟩
      rintro - - - added rfl
      exact ⟨by rw [hk, List.getLast?_concat], by rw [hk, forceLevel_append], hphase, hroom, hfull⟩
    · have hno : (s.commanded p a.sequence).lightForce p.toNat m.toNat l.toNat
          = s.commanded p a.sequence := if_neg hok
      rw [hno]
      exact ⟨s.amendsOnly_commanded p a, fun h1 h2 h3 => absurd ⟨h1, h2, h3⟩ hok, fun _ => ⟨rfl, rfl, rfl⟩⟩
  case cancel =>
    have hexec : exec (.cancelAmendments p a) s = .next (s.commanded p a.sequence).cancelAmendments := by
      change Host.Outcome.next (s.acceptPanel p a 6 0) = _
      rw [State.acceptPanel_of_takes_normal htakes hmode]
      rfl
    refine ⟨_, hexec, ?_⟩
    by_cases hnil : s.scu.amendments = []
    · have hno : (s.commanded p a.sequence).cancelAmendments = s.commanded p a.sequence :=
        if_pos (List.isEmpty_iff.2 hnil)
      rw [hno]
      have hscu : (s.commanded p a.sequence).scu = s.scu := rfl
      rw [hscu]
      exact ⟨s.amendsOnly_commanded p a, rfl, hnil, by rw [hnil]; rfl, by simp [Scu.bayClosed, hnil],
        fun h => absurd hnil h, fun _ => ⟨rfl, rfl⟩⟩
    · have hcancel : (s.commanded p a.sequence).cancelAmendments = s.amended p a.sequence [] :=
        if_neg fun h => hnil (List.isEmpty_iff.1 h)
      have hlist := State.amended_amendments (p := p) (l := []) hc a.sequence
      rw [hcancel]
      exact ⟨State.amended_amendsOnly hc, rfl, hlist, by rw [hlist]; rfl, by rw [Scu.bayClosed, hlist]; rfl,
        fun _ => State.amended_phaseFollows hc _, fun h => absurd h hnil⟩

/-! ### Commands without effect (R39, R40, R75) -/

/-- The row of a panel's frame, by the command code and the argument it carries. -/
theorem exec_panelRow {p : Byte} {a : PanelAddress} {arg : Half} {m l code : Byte} {i : Instr}
    (hi : i ∈ panelRows p a arg m l code) :
    ∃ k x, (∀ s, exec i s = .next (s.acceptPanel p a k x))
      ∧ (i ≠ .alarmReset p a → code.toNat ≠ 7 → k ≠ 7) := by
  simp only [panelRows, List.mem_cons, List.not_mem_nil, or_false] at hi
  rcases hi with rfl | rfl | rfl | rfl | rfl | rfl | rfl | rfl | rfl
  · exact ⟨1, _, fun s => rfl, fun _ _ => by decide⟩
  · exact ⟨2, _, fun s => rfl, fun _ _ => by decide⟩
  · exact ⟨3, _, fun s => rfl, fun _ _ => by decide⟩
  · exact ⟨4, _, fun s => rfl, fun _ _ => by decide⟩
  · exact ⟨5, _, fun s => rfl, fun _ _ => by decide⟩
  · exact ⟨6, _, fun s => rfl, fun _ _ => by decide⟩
  · exact ⟨7, _, fun s => rfl, fun h => absurd rfl h⟩
  · exact ⟨8, _, fun s => rfl, fun _ _ => by decide⟩
  · exact ⟨code, _, fun s => rfl, fun _ h hk => h (by rw [hk]; rfl)⟩

/-- A command of a code that is none of the eight. -/
theorem State.command_of_unknown (s : State) {b : PanelBody} (h : b.command.toNat = 0 ∨ 8 < b.command.toNat)
    (n : Nat) : s.command n b = s := by
  have hne : ∀ k : Byte, 1 ≤ k.toNat → k.toNat ≤ 8 → b.command ≠ k := by
    rintro k hlow hhigh rfl
    omega
  simp only [State.command, hne 1 (by decide) (by decide), hne 2 (by decide) (by decide),
    hne 3 (by decide) (by decide), hne 4 (by decide) (by decide), hne 5 (by decide) (by decide),
    hne 6 (by decide) (by decide), hne 7 (by decide) (by decide), hne 8 (by decide) (by decide), if_false]

/-- Settles O32: a taken frame that nothing obeys ends as `State.commanded`, one not taken as `State.refreshed`,
or with the table untouched in the states in which it takes no frame. -/
theorem commandsWithoutEffect : Obligations.CommandsWithoutEffect := by
  refine ⟨fun s p a code arg htakes hcode => ?unknown, fun s p a arg m l code htakes hfire hcode i hi hne => ?fire,
    fun s p a arg m l code hears hp hno i hi => ?untaken⟩
  case unknown =>
    refine ⟨s.commanded p a.sequence, ?_, rfl, rfl, s.pt.recorded_applied p a.sequence⟩
    change Host.Outcome.next (s.acceptPanel p a code arg) = _
    rw [State.acceptPanel_of_takes htakes, State.obey, State.command_of_unknown _ hcode, ite_self]
  case fire =>
    obtain ⟨k, x, hexec, hk⟩ := exec_panelRow hi
    refine ⟨s.commanded p a.sequence, ?_, rfl, rfl, s.pt.recorded_applied p a.sequence⟩
    rw [hexec, State.acceptPanel_of_takes htakes]
    exact congrArg _ (State.obey_of_fire (s := s.commanded p a.sequence) hfire (hk hne hcode) _)
  case untaken =>
    obtain ⟨k, x, hexec, -⟩ := exec_panelRow hi
    cases ht : s.ssl.startup.takesFrames with
    | true =>
      refine ⟨s.refreshed p, ?_, rfl, rfl, fun _ => s.pt.refreshed_takePanel p, fun h => (nomatch h)⟩
      rw [hexec, State.acceptPanel_of_untaken hears hp ht hno]
    | false =>
      refine ⟨{ s with lc := s.lc.framePassed }, ?_, rfl, rfl, fun h => (nomatch h), fun _ => rfl⟩
      have hrun : s.ssl.startup.isRun = false := by
        cases hu : s.ssl.startup <;> simp_all [Startup.takesFrames, Startup.isRun]
      rw [hexec, State.acceptPanel,
        State.accept_of_canAccept (State.canAccept_of_hears (k := .panel) hears hp), State.handOn_panel]
      simp [State.peersTake, ht, State.panelFrame, State.takesPanel, hrun]

end Sys2Proof.Machine
end

