-- ==== Sys2Proof/Proofs/PhaseCommands.lean ====
section
/-! PROOFS. HOLD_PHASE and ADVANCE_PHASE on the pending entry of the calendar (O27, O28). -/

namespace Sys2Proof.Machine

/-! ### The calendar as a ring (R21, R22) -/

section Ring

variable {cal : List CalEntry} {t k : Nat} {l : List Amendment}

theorem baseEntry_pos (h : 1 ≤ cal.length) (t : Nat) : 1 ≤ baseEntry cal t := by
  unfold baseEntry
  dsimp only
  split <;> omega

theorem baseEntry_le (cal : List CalEntry) (t : Nat) : baseEntry cal t ≤ cal.length := by
  unfold baseEntry
  dsimp only
  split
  · exact le_rfl
  · exact List.countP_le_length

theorem entryBefore_entryAfter (h : 1 ≤ k) (hk : k ≤ cal.length) : entryBefore cal (entryAfter cal k) = k := by
  unfold entryAfter
  split
  · unfold entryBefore
    rw [if_pos le_rfl]
    omega
  · unfold entryBefore
    rw [if_neg (by omega)]
    omega

theorem entryAfter_entryBefore (h : 1 ≤ k) (hk : k ≤ cal.length) : entryAfter cal (entryBefore cal k) = k := by
  unfold entryBefore
  split
  · unfold entryAfter
    rw [if_pos le_rfl]
    omega
  · unfold entryAfter
    rw [if_neg (by omega)]
    omega

/-- The pending entry is the base entry, when a HOLD on that is HOLDING, or the one behind it (R22). -/
theorem pendingEntry_cases (h : 1 ≤ cal.length) (t : Nat) (l : List Amendment) :
    baseEntry cal t = pendingEntry cal t l
      ∨ (entryInForce cal t l = baseEntry cal t ∧ pendingEntry cal t l = entryAfter cal (baseEntry cal t)) := by
  unfold pendingEntry entryInForce
  dsimp only
  split
  · exact .inl (entryAfter_entryBefore (baseEntry_pos h t) (baseEntry_le cal t)).symm
  · exact .inr ⟨rfl, rfl⟩

/-- The base entry is the one before a pending entry that is not itself the base entry. -/
theorem baseEntry_of_pending (h : 1 ≤ cal.length) (hk : k = pendingEntry cal t l) (hne : baseEntry cal t ≠ k) :
    baseEntry cal t = entryBefore cal k := by
  rcases pendingEntry_cases h t l with hb | ⟨-, hb⟩
  · exact absurd (hb.trans hk.symm) hne
  · rw [hk, hb, entryBefore_entryAfter (baseEntry_pos h t) (baseEntry_le cal t)]

/-- No HOLD in a list of CLOSE and LIGHT_FORCE records. -/
theorem entryInForce_of_noHold (h : l.any (Amendment.holdsNow (baseEntry cal t)) = false) :
    entryInForce cal t l = baseEntry cal t := by
  simp [entryInForce, h]

theorem Amendment.not_holdsNow_of_isTimed {a : Amendment} (h : a.isTimed = true) (k : Nat) :
    a.holdsNow k = false := by
  cases a with
  | hold | advance => cases h
  | close | lightForce => rfl

theorem Amendment.not_advances_of_isTimed {a : Amendment} (h : a.isTimed = true) (k : Nat) :
    a.advances k = false := by
  cases a with
  | hold | advance => cases h
  | close | lightForce => rfl

theorem any_eq_false_of_timed {f : Amendment → Bool} (h : l.all Amendment.isTimed = true)
    (hf : ∀ a : Amendment, a.isTimed = true → f a = false) : l.any f = false := by
  rw [List.any_eq_false]
  intro a ha
  rw [hf a (List.all_eq_true.1 h a ha)]
  decide

/-- The scheduled phase of a list of CLOSE and LIGHT_FORCE records is the base entry's (R34). -/
theorem scheduledPhase_of_timed (hcal : 1 ≤ cal.length) (h : l.all Amendment.isTimed = true) :
    scheduledPhase cal t l = entryPhase cal (baseEntry cal t) := by
  have hempty : cal.isEmpty = false := by
    cases cal with
    | nil => simp at hcal
    | cons => rfl
  unfold scheduledPhase
  dsimp only
  rw [hempty, any_eq_false_of_timed h fun a ha => Amendment.not_advances_of_isTimed ha _,
    entryInForce_of_noHold (any_eq_false_of_timed h fun a ha => Amendment.not_holdsNow_of_isTimed ha _)]
  simp

/-- With an ADVANCE on the entry behind the base entry, that entry's phase is the scheduled one (R30, R34). -/
theorem scheduledPhase_of_advance (hcal : 1 ≤ cal.length) (h : l.all Amendment.isTimed = true) (o : Nat)
    (hk : k = entryAfter cal (baseEntry cal t)) :
    scheduledPhase cal t (l ++ [.advance o k]) = entryPhase cal k := by
  have hempty : cal.isEmpty = false := by
    cases cal with
    | nil => simp at hcal
    | cons => rfl
  have hforce : entryInForce cal t (l ++ [.advance o k]) = baseEntry cal t := by
    refine entryInForce_of_noHold ?_
    rw [List.any_append,
      any_eq_false_of_timed h fun a ha => Amendment.not_holdsNow_of_isTimed ha (baseEntry cal t)]
    rfl
  unfold scheduledPhase
  rw [hempty]
  unfold pendingEntry
  rw [hforce, ← hk]
  simp [Amendment.advances]

end Ring

/-! ### The two records at their evaluation (R29, R30) -/

theorem broughtUp_hold_onBase {cal : List CalEntry} {t k : Nat} (o d : Nat) (st : HoldStage)
    (h : baseEntry cal t = k) :
    (Amendment.hold o k d st).broughtUp cal t
      = if minutesForward (entryMinute cal k) t < d then some (.hold o k d .holding) else none := by
  simp [Amendment.broughtUp, h]

theorem broughtUp_hold_waiting {cal : List CalEntry} {t k : Nat} (o d : Nat) (hne : baseEntry cal t ≠ k)
    (h : baseEntry cal t = entryBefore cal k) :
    (Amendment.hold o k d .waiting).broughtUp cal t = some (.hold o k d .waiting) := by
  simp only [Amendment.broughtUp, hne, if_false]
  rw [if_pos h]

/-- The records beside those on entry k, as the claims write them. -/
theorem filter_others (k : Nat) (l : List Amendment) :
    (l.filter fun r => match r with
      | .hold _ e _ _ | .advance _ e => e != k
      | .close _ _ | .lightForce _ _ _ => true) = l.filter fun r => !r.concerns k := by
  congr 1
  funext r
  cases r <;> rfl

section Commands

variable {s : State} {c : Configuration}

theorem State.commanded_calendar (hc : s.cfg = some c) (p q : Byte) :
    (s.commanded p q).calendar = c.calendar := by
  simp [State.calendar, State.commanded, hc]

theorem State.commanded_pendingNow (hc : s.cfg = some c) (p q : Byte) :
    (s.commanded p q).pendingNow = pendingEntry c.calendar s.scu.minute s.scu.amendments := by
  unfold State.pendingNow
  rw [State.commanded_calendar hc]
  rfl

theorem State.commanded_mayAmend (hc : s.cfg = some c) (p q : Byte) :
    (s.commanded p q).mayAmend = true ↔ s.scu.valid = true ∧ 2 ≤ c.calendar.length
      ∧ entryFixed c.calendar (pendingEntry c.calendar s.scu.minute s.scu.amendments) = false := by
  unfold State.mayAmend
  rw [State.commanded_calendar hc, State.commanded_pendingNow hc]
  simp [State.commanded, and_assoc]

theorem exec_holdPhase {p : Byte} {a : PanelAddress} (d : Half) (htakes : s.takesCommand p a)
    (hmode : s.fmc.mode = .normal) :
    exec (.holdPhase p a d) s = .next ((s.commanded p a.sequence).holdPhase p.toNat d.toNat) := by
  change Host.Outcome.next (s.acceptPanel p a 1 d) = _
  rw [State.acceptPanel_of_takes_normal htakes hmode]
  rfl

theorem exec_advancePhase {p : Byte} {a : PanelAddress} (htakes : s.takesCommand p a)
    (hmode : s.fmc.mode = .normal) :
    exec (.advancePhase p a) s = .next ((s.commanded p a.sequence).advancePhase p.toNat) := by
  change Host.Outcome.next (s.acceptPanel p a 2 0) = _
  rw [State.acceptPanel_of_takes_normal htakes hmode]
  rfl

/-- HOLD_PHASE: no effect, or the WAITING HOLD with its delay cut (R40). -/
theorem State.commanded_holdPhase (hc : s.cfg = some c) (p q : Byte) (d : Nat) {k g : Nat}
    (hk : k = pendingEntry c.calendar s.scu.minute s.scu.amendments)
    (hg : g = minutesForward (entryMinute c.calendar k) (entryMinute c.calendar (entryAfter c.calendar k))) :
    (s.commanded p q).holdPhase p.toNat d
      = if s.scu.valid = true ∧ 2 ≤ c.calendar.length ∧ entryFixed c.calendar k = false ∧ 1 ≤ d ∧ d ≤ 240
          ∧ 1 < g then
          (s.commanded p q).addAmendment (.hold p.toNat k (min d (g - 1)) .waiting)
        else s.commanded p q := by
  have hmay := State.commanded_mayAmend hc p q
  rw [← hk] at hmay
  unfold State.holdPhase
  rw [State.commanded_calendar hc, State.commanded_pendingNow hc, ← hk]
  dsimp only
  rw [← hg]
  simp only [Bool.and_eq_true, hmay, decide_eq_true_eq, and_assoc]

theorem State.commanded_advancePhase (hc : s.cfg = some c) (p q : Byte) {k : Nat}
    (hk : k = pendingEntry c.calendar s.scu.minute s.scu.amendments) :
    (s.commanded p q).advancePhase p.toNat
      = if s.scu.valid = true ∧ 2 ≤ c.calendar.length ∧ entryFixed c.calendar k = false then
          (s.commanded p q).addAmendment (.advance p.toNat k)
        else s.commanded p q := by
  have hmay := State.commanded_mayAmend hc p q
  rw [← hk] at hmay
  unfold State.advancePhase
  rw [State.commanded_pendingNow hc, ← hk]
  simp only [hmay]

end Commands

/-- Settles O27: a HOLD on the pending entry is brought up at once when that is the base entry, and waits
otherwise, since the base entry is then the one before it. -/
theorem holdPhaseDelaysThePendingEntry : Obligations.HoldPhaseDelaysThePendingEntry := by
  refine ⟨fun s c p a d hc htakes hmode k g hk hg hno => ?refused,
    fun s c p a d hc htakes hmode hvalid hlen k g delay kept added hk hg hdelay hkept hadded htimed => ?acts⟩
  case refused =>
    refine ⟨s.commanded p a.sequence, ?_, s.amendsOnly_commanded p a, rfl, rfl, rfl⟩
    rw [exec_holdPhase d htakes hmode, State.commanded_holdPhase hc _ _ _ hk hg, if_neg]
    rintro ⟨hvalid, hlen, hfixed, hlow, hhigh, hgap⟩
    rcases hno with h | h | h | h | h | h
    · simp [hvalid] at h
    · omega
    · simp [hfixed] at h
    all_goals omega
  case acts =>
    refine ⟨_, exec_holdPhase d htakes hmode, ?_⟩
    rw [State.commanded_holdPhase hc _ _ _ hk hg, ← hdelay]
    by_cases hact : entryFixed c.calendar k = false ∧ 1 ≤ d.toNat ∧ d.toNat ≤ 240 ∧ 1 < g
    · rw [if_pos ⟨hvalid, hlen, hact⟩]
      have hothers : (Amendment.hold p.toNat k delay .waiting).others s.scu.amendments = kept :=
        (hkept.trans (filter_others k _)).symm
      obtain ⟨honly, hphase, -, hroom, hfull⟩ :=
        State.addAmendment_cases hc p a (.hold p.toNat k delay .waiting)
      rw [hothers] at hroom hfull
      have hlist : ∀ l : List Amendment, l.all Amendment.isTimed = true →
          (s.amended p a.sequence (l ++ [.hold p.toNat k delay .waiting])).scu.amendments = l ++ added := by
        intro l hl
        rw [State.amended_amendments hc, List.filterMap_append, broughtUp_list_of_timed hl, hadded]
        split
        · rename_i hbase
          by_cases hwithin : minutesForward (entryMinute c.calendar k) s.scu.minute < delay <;>
            simp [broughtUp_hold_onBase _ _ _ hbase, hwithin]
        · rename_i hbase
          rw [List.filterMap_cons,
            broughtUp_hold_waiting _ _ hbase (baseEntry_of_pending (by omega) hk hbase)]
          rfl
      refine ⟨honly, fun _ _ _ _ => ⟨fun hlt => ?_, fun old rest heq hle => ?_, hphase⟩⟩
      · obtain ⟨hssl, hscu⟩ := hroom hlt
        rw [hscu]
        exact ⟨hlist kept htimed, hssl⟩
      · obtain ⟨hevent, hscu⟩ := hfull old rest heq hle
        rw [hscu]
        rw [heq, List.all_cons, Bool.and_eq_true] at htimed
        exact ⟨hlist rest htimed.2, hevent⟩
    · rw [if_neg fun h => hact h.2.2]
      exact ⟨s.amendsOnly_commanded p a, fun h1 h2 h3 h4 => absurd ⟨h1, h2, h3, h4⟩ hact⟩

/-- Settles O28: an ADVANCE on the base entry retires at once, its phase in force all the same; on the entry
behind it, its phase is the scheduled one. -/
theorem advancePhaseSchedulesThePendingEntry : Obligations.AdvancePhaseSchedulesThePendingEntry := by
  refine ⟨fun s c p a hc htakes hmode hno => ?refused,
    fun s c p a hc htakes hmode hvalid hlen k kept added hk hkept hadded htimed => ?acts⟩
  case refused =>
    refine ⟨s.commanded p a.sequence, ?_, s.amendsOnly_commanded p a, rfl, rfl, rfl⟩
    rw [exec_advancePhase htakes hmode, State.commanded_advancePhase hc _ _ rfl, if_neg]
    rintro ⟨hvalid, hlen, hfixed⟩
    rcases hno with h | h | h
    · simp [hvalid] at h
    · omega
    · simp [hfixed] at h
  case acts =>
    refine ⟨_, exec_advancePhase htakes hmode, ?_⟩
    rw [State.commanded_advancePhase hc _ _ hk]
    cases hfixed : entryFixed c.calendar k with
    | true =>
      rw [if_neg fun h => (nomatch h.2.2)]
      exact ⟨s.amendsOnly_commanded p a, fun h => (nomatch h)⟩
    | false =>
      rw [if_pos ⟨hvalid, hlen, rfl⟩]
      have hothers : (Amendment.advance p.toNat k).others s.scu.amendments = kept :=
        (hkept.trans (filter_others k _)).symm
      obtain ⟨honly, hphase, ⟨l, hsub, hl⟩, hroom, hfull⟩ :=
        State.addAmendment_cases hc p a (.advance p.toNat k)
      rw [hothers] at hsub hroom hfull
      have hlist : ∀ l : List Amendment, l.all Amendment.isTimed = true →
          (s.amended p a.sequence (l ++ [.advance p.toNat k])).scu.amendments = l ++ added := by
        intro l hl
        rw [State.amended_amendments hc, List.filterMap_append, broughtUp_list_of_timed hl, hadded]
        have hbefore := baseEntry_of_pending (k := k) (show 1 ≤ c.calendar.length by omega) hk
        split
        · rename_i hbase
          have hne : baseEntry c.calendar s.scu.minute ≠ entryBefore c.calendar k := by
            have hpos := baseEntry_pos (show 1 ≤ c.calendar.length by omega) s.scu.minute
            rw [hbase]
            unfold entryBefore
            split <;> omega
          simp [Amendment.broughtUp, hne]
        · rename_i hbase
          simp [Amendment.broughtUp, hbefore hbase]
      have htimedl : l.all Amendment.isTimed = true := by
        rw [List.all_eq_true] at htimed ⊢
        exact fun r hr => htimed r (hsub.subset hr)
      generalize (s.commanded p a.sequence).addAmendment (.advance p.toNat k) = t at *
      have hkept' : t.scu.minute = s.scu.minute ∧ t.scu.valid = s.scu.valid := by
        rw [hl, State.amended_scu hc]
        exact ⟨rfl, rfl⟩
      have hplanned : scheduledPhase c.calendar t.scu.minute t.scu.amendments = entryPhase c.calendar k := by
        rw [hkept'.1, hl, hlist l htimedl, hadded]
        split
        · rename_i hbase
          rw [List.append_nil, scheduledPhase_of_timed (by omega) htimedl, hbase]
        · rename_i hbase
          refine scheduledPhase_of_advance (by omega) htimedl _ ?_
          rcases pendingEntry_cases (show 1 ≤ c.calendar.length by omega) s.scu.minute s.scu.amendments with
            hb | ⟨-, hb⟩
          · exact absurd (hb.trans hk.symm) hbase
          · exact hk.trans hb
      obtain ⟨hclosed, -, hopen⟩ := hphase
      rw [hplanned] at hopen
      refine ⟨honly, fun _ => ⟨fun hlt => ?_, fun old rest heq hle => ?_, hclosed, fun hbay => ?_⟩⟩
      · obtain ⟨hssl, hscu⟩ := hroom hlt
        rw [hscu]
        exact ⟨hlist kept htimed, hssl⟩
      · obtain ⟨hevent, hscu⟩ := hfull old rest heq hle
        rw [hscu]
        rw [heq, List.all_cons, Bool.and_eq_true] at htimed
        exact ⟨hlist rest htimed.2, hevent⟩
      · exact hopen hbay (hkept'.2.trans hvalid)

end Sys2Proof.Machine
end

