-- ==== Sys2Proof/Proofs/OutputSeconds.lean ====
section
/-! PROOFS. The seconds of the LTC, of the door curtains and of the ABU (O44, O46, O49): the model's functions by
their cases. -/

namespace Sys2Proof.Machine

section Works

variable {s : State} {c : Configuration}

theorem State.works.released (h : s.works c) : s.released = true := by
  rw [State.released, h.1]
  rfl

theorem exec_ltcSampleEvent_of_works (h : s.works c) : exec .ltcSampleEvent s = .next s.ltcSample :=
  whenReleased_free State.ltcSample h.1

theorem exec_abuSampleEvent_of_works (h : s.works c) : exec .abuSampleEvent s = .next s.abuSample :=
  whenReleased_free State.abuSample h.1

/-! ### The LTC's second (R92 to R96, R99) -/

/-- Group g+1 after the LTC's second. -/
theorem State.ltcSample_group (h : s.works c) (g : Fin 6) :
    let engaged := capNext c.bay.dayThreshold s.ltc.capEngaged s.br.daylight
    s.ltcSample.ltc.groups.get g =
      ⟨rampToward (c.bay.groups.get g).rampRate (s.ltc.groups.get g).level (s.lightTarget c engaged g),
        s.lightTarget c engaged g⟩ := by
  simp [State.ltcSample, h.2]

theorem State.ltcSample_kept (h : s.works c) :
    s.ltcSample.ltc.capEngaged = capNext c.bay.dayThreshold s.ltc.capEngaged s.br.daylight
      ∧ s.ltcSample.ltc.recent = s.ltc.recent ∧ s.ltcSample.ltc.sequence = s.ltc.sequence
      ∧ s.ltcSample.ltc.prelight = s.ltc.prelight.countDown := by
  simp [State.ltcSample, h.2]

theorem capNext_iff {threshold : Nat} {engaged : Bool} {d : Option Nat} :
    capNext threshold engaged d = true ↔
      ∃ n, d = some n ∧ (threshold ≤ n ∨ (engaged = true ∧ 9 * threshold / 10 ≤ n)) := by
  cases d <;> simp [capNext]

theorem rampToward_spec (rate level target : Nat) :
    (target ≤ level + rate ∧ level ≤ target + rate → rampToward rate level target = target)
      ∧ (level + rate < target → rampToward rate level target = level + rate)
      ∧ (target + rate < level → rampToward rate level target = level - rate) := by
  unfold rampToward
  refine ⟨fun h => ?_, fun h => ?_, fun h => ?_⟩ <;> split <;> omega

theorem Zone.holdsUp_eq (z : Zone) : z.holdsUp = (z.state == .occupied || z.state == .hold) := by
  unfold Zone.holdsUp
  cases z.state <;> rfl

theorem Prelight.isActive_eq (p : Prelight) : p.isActive = (p != .idle) := by
  cases p <;> rfl

theorem Six.toList_any {α : Type} (r : Six α) (f : α → Bool) :
    r.toList.any f = (List.finRange 6).any fun k => f (r.get k) := rfl

/-- The uncapped target by the terms of the statement (R93). -/
theorem uncappedTarget_spec (c : Configuration) (phase : Phase) (force : Option Nat) (zones : Six Zone)
    (p : Prelight) (g : Fin 6) {u : Nat} (hforce : ∀ v, force = some v → u = v)
    (hfree : force = none → u = max ((c.row phase).base.get g)
      (max (if (List.finRange 6).any fun k => (zones.get k).groups.getLsbD g.val
            && ((zones.get k).state == .occupied || (zones.get k).state == .hold)
          then (c.row phase).occ.get g else 0)
        (if (c.bay.groups.get g).aisle && p != .idle then c.phases.work.base.get g else 0))) :
    uncappedTarget c phase force zones p.isActive g = u := by
  cases force with
  | some v => exact (hforce v rfl).symm
  | none =>
    rw [hfree rfl]
    unfold uncappedTarget groupHeldUp
    rw [Six.toList_any, Prelight.isActive_eq]
    simp only [Zone.holdsUp_eq]

/-- Settles O44: the target and the level of a group by `State.ltcSample_group`, pre-light by its count down. -/
theorem lightLevelsFollowTheirTargets : Obligations.LightLevelsFollowTheirTargets := by
  intro s c hworks
  obtain ⟨hcap, hrecent, hseq, hpre⟩ := State.ltcSample_kept hworks
  have hgroup := State.ltcSample_group hworks
  dsimp only at hgroup
  rw [← hcap] at hgroup
  refine ⟨_, exec_ltcSampleEvent_of_works hworks, s.ltcSample_frame, hrecent, hseq, ?cap, fun hfire g => ?fire,
    fun hfire hrun g => ?before, fun hfire hrun g u hforce hfree => ?run, fun g => ?ramp, fun h => ?idle,
    fun r h hr => ?count, fun h => ⟨?ends, ?row⟩⟩
  case cap => rw [hcap, capNext_iff]
  case fire => rw [hgroup, State.lightTarget, if_pos hfire]
  case before =>
    have hno : s.ssl.startup.isRun = false := Bool.eq_false_iff.2 (mt (Startup.isRun_iff _).1 hrun)
    rw [hgroup]
    simp [State.lightTarget, hfire, hno]
  case run =>
    rw [hgroup]
    simp only [State.lightTarget, hfire, hrun, Startup.isRun, if_true, Bool.false_eq_true, if_false]
    rw [uncappedTarget_spec c s.scu.phase _ _ s.ltc.prelight g hforce hfree]
    rfl
  case ramp =>
    rw [hgroup]
    exact rampToward_spec _ _ _
  case idle => rw [hpre, h]; rfl
  case count =>
    rw [hpre, h]
    exact if_neg (by omega)
  case ends => rw [hpre, h]; rfl
  case row => exact whenDue_due State.ltcSample hworks.1 (by simp [State.prelightDue, hworks.2, h])

/-! ### The door curtains (R111 to R113) -/

theorem State.hruSample_curtain (h : s.works c) (k : Fin 8) :
    s.hruSample.hru.curtains.get k = (s.hru.curtains.get k).next c.bay.runOn
      (!s.fmc.inForce && (c.row s.scu.phase).curtains) (s.br.doors.get k).state := by
  rw [State.hruSample_hru_of_works h]
  exact Eight.get_ofFn _ _

theorem DoorState.isUnsealed_iff (d : DoorState) : d.isUnsealed = true ↔ d = .openUnsealed := by
  cases d <;> simp [DoorState.isUnsealed]

theorem Curtain.next_not_allowed (runOn : Nat) (d : DoorState) (x : Curtain) :
    x.next runOn false d = .inhibited := rfl

/-- A curtain at a door that is not OPEN_UNSEALED (R112). -/
theorem Curtain.next_sealed (runOn : Nat) {d : DoorState} (h : d ≠ .openUnsealed) (x : Curtain) :
    x.next runOn true d =
      match x with
      | .off | .inhibited => .off
      | .running => if runOn = 0 then .off else .runOn runOn
      | .runOn r => if r ≤ 1 then .off else .runOn (r - 1) := by
  have hno : d.isUnsealed = false := Bool.eq_false_iff.2 (mt (DoorState.isUnsealed_iff d).1 h)
  unfold Curtain.next
  rw [hno]
  cases x <;> rfl

theorem State.outputs_curtain (t : State) (k : Fin 8) :
    t.outputs.curtains.get k = (t.hru.curtains.get k).output := Eight.get_ofFn _ _

/-- Settles O46, by the rows of the curtain table. -/
theorem curtainsFollowTheirDoors : Obligations.CurtainsFollowTheirDoors := by
  intro s c k hworks
  refine ⟨_, exec_hruSampleEvent_of_works hworks, ?_⟩
  rw [State.outputs_curtain, State.hruSample_curtain hworks]
  refine ⟨fun hbar => ?barred, fun hfire hrow => ?allowed⟩
  case barred =>
    have hno : (!s.fmc.inForce && (c.row s.scu.phase).curtains) = false := by
      rcases hbar with h | h <;> simp [h]
    rw [hno, Curtain.next_not_allowed]
    exact ⟨rfl, rfl⟩
  case allowed =>
    rw [hfire, hrow]
    refine ⟨fun hdoor => ?_, fun hdoor => ?_⟩
    · rw [hdoor]
      exact ⟨rfl, rfl⟩
    · simp only [Bool.not_false, Bool.true_and, Curtain.next_sealed c.bay.runOn hdoor]
      refine ⟨fun h => ?_, fun h hr => ?_, fun h hr => ?_, fun r h hr => ?_, fun h => ?_⟩
      · rcases h with h | h <;> rw [h] <;> exact ⟨rfl, rfl⟩
      · rw [h]
        exact if_pos hr
      · rw [h]
        simp [hr, Curtain.output]
      · rw [h]
        simp [Nat.not_le.2 hr, Curtain.output]
      · refine ⟨by rw [h]; rfl, by rw [h]; rfl, whenDue_due State.hruSample hworks.1 ?_⟩
        have hno : (s.br.doors.get k).state.isUnsealed = false :=
          Bool.eq_false_iff.2 (mt (DoorState.isUnsealed_iff _).1 hdoor)
        simp [State.runOnDue, hworks.2, hfire, hrow, hno, h]

/-! ### The ABU's second (R148 to R156, R158) -/

theorem State.abuSample_abu (h : s.works c) :
    s.abuSample.abu = s.abu.next c.bay s.fmc.inForce s.ssl.startup.isRun (c.row s.scu.phase).ventMin
      s.br.exhaust s.br.unsealed (s.pt.neighboursUncovered s.ssl.own) := by
  simp [State.abuSample, h.2]

/-- A neighbour's uncovered extract by what it announces, if it announces anything (R152). -/
theorem Peers.uncoveredOf_eq {p : Peers} {n u : Nat} (hsome : ∀ b, p.fresh n = some b → u = b.uncovered.toNat)
    (hnone : p.fresh n = none → u = 0) : p.uncoveredOf n = u := by
  unfold Peers.uncoveredOf
  cases h : p.fresh n with
  | none => exact (hnone h).symm
  | some b => exact (hsome b h).symm

theorem damperToward_spec (p target : Nat) :
    (target ≤ p + 5 → p ≤ target + 5 → damperToward p target = target)
      ∧ (p + 5 < target → damperToward p target = p + 5)
      ∧ (target + 5 < p → damperToward p target = p - 5) := by
  unfold damperToward
  refine ⟨fun h h' => ?_, fun h => ?_, fun h => ?_⟩ <;> split <;> omega

theorem speedToward_spec (v target : Nat) :
    (v ≤ target → speedToward v target = target)
      ∧ (target < v → speedToward v target = max target (v - 2)) := by
  unfold speedToward
  exact ⟨fun h => if_pos h, fun h => if_neg (by omega)⟩

/-- Settles O49: `Abu.next` in fire mode, before RUN and in RUN. -/
theorem airBalanceSecond : Obligations.AirBalanceSecond := by
  rintro s c ventMin uw ue hworks rfl hwest hwest' heast heast'
  have hnear : s.pt.neighboursUncovered s.ssl.own = uw + ue := by
    rw [Peers.neighboursUncovered, Peers.uncoveredOf_eq hwest hwest', Peers.uncoveredOf_eq heast heast']
  refine ⟨_, exec_abuSampleEvent_of_works hworks, s.abuSample_frame, rfl, rfl, ?_⟩
  rw [State.abuSample_abu hworks, hnear]
  refine ⟨rfl, rfl, rfl, rfl, fun hfire => ?fire, fun hfire => ?covered, fun hfire hrun => ?held,
    fun hfire hrun => ?run⟩
  case fire => rw [hfire]; exact ⟨rfl, rfl, rfl⟩
  case covered => rw [hfire]; rfl
  case held =>
    have hno : s.ssl.startup.isRun = false := Bool.eq_false_iff.2 (mt (Startup.isRun_iff _).1 hrun)
    rw [hfire, hno]
    exact ⟨rfl, rfl⟩
  case run =>
    rw [hfire, hrun]
    obtain ⟨hup, hdown⟩ := speedToward_spec s.abu.speed
      (targetSpeedOf c.bay (c.row s.scu.phase).ventMin s.br.exhaust)
    refine ⟨fun h => ?_, fun e h he => ?_, fun e h he hlow => ?_, fun e h he hlow => ?_, hup, hdown, rfl,
      damperToward_spec _ _⟩
    · rw [h]
      rfl
    · rw [h]
      exact if_pos he
    · rw [h]
      exact (if_neg (by omega)).trans (if_pos hlow)
    · rw [h]
      exact (if_neg (by omega)).trans (if_neg (by omega))

end Works

end Sys2Proof.Machine
end

