-- ==== Sys2Proof/Proofs/StageSecond.lean ====
section
/-! PROOFS. The HSU's second (O48): which stages go off and come on, and what becomes of each stage record. -/

namespace Sys2Proof.Machine

/-! ### A stage record read (R136) -/

theorem Hsu.isOn_eq (h : Hsu) (k : Nat) : h.isOn k = (h.stage? k).any Stage.on := rfl

theorem Hsu.stage?_isSome {h : Hsu} {k : Nat} (hk : (h.stage? k).isSome = true) :
    k ≠ 0 ∧ k - 1 < h.stages.length := by
  unfold Hsu.stage? at hk
  split at hk
  · cases hk
  · exact ⟨‹_›, by simpa using hk⟩

/-- Only stage k's record changes when it is set. -/
theorem Hsu.stage?_setStage {h : Hsu} {k : Nat} (t : Stage) (l : List Nat) (hk : (h.stage? k).isSome = true)
    (j : Nat) : ({ h.setStage k t with onList := l }).stage? j = if j = k then some t else h.stage? j := by
  obtain ⟨hk0, hin⟩ := Hsu.stage?_isSome hk
  unfold Hsu.stage? Hsu.setStage
  by_cases hjk : j = k
  · subst hjk
    simp [hk0, hin]
  · by_cases hj : j = 0
    · simp [hj, Ne.symm hk0]
    · simp [hj, hjk, List.getElem?_set_ne (show k - 1 ≠ j - 1 by omega)]

theorem Hsu.stage?_isSome_of_isOn {h : Hsu} {k : Nat} (hk : h.isOn k = true) : (h.stage? k).isSome = true := by
  rw [Hsu.isOn_eq] at hk
  cases hs : h.stage? k with
  | none => simp [hs] at hk
  | some t => rfl

theorem Stage.expired_iff (t : Stage) :
    t.expired = true ↔ t.on = false ∧ t.minOff = 0 ∧ t.held = false := by
  simp [Stage.expired, and_assoc]

/-! ### Switching off (R138) -/

theorem Hsu.offMany_onList_subset (m n : Nat) (h : Hsu) : (h.offMany m n).onList ⊆ h.onList := by
  rw [Hsu.offMany_onList]
  exact List.take_subset _ _

/-- A stage that leaves the on-list is off with its minimum-off time; every other record stands (R138). -/
theorem Hsu.offMany_stage? (m n : Nat) {h : Hsu} (hl : h.listed) (j : Nat) :
    (h.offMany m n).stage? j =
      if j ∈ h.onList ∧ j ∉ (h.offMany m n).onList then some ⟨false, m, false⟩ else h.stage? j := by
  induction n generalizing h with
  | zero => exact (if_neg fun hj => hj.2 hj.1).symm
  | succ n ih =>
    rw [Hsu.offMany, ih (Hsu.offNewest_listed m hl)]
    have hsub := Hsu.offMany_onList_subset m n (h.offNewest m)
    unfold Hsu.offNewest at hsub ⊢
    cases hlast : h.onList.getLast? with
    | none => rfl
    | some k =>
      have hsplit : h.onList = h.onList.dropLast ++ [k] := (List.dropLast_append_getLast? k hlast).symm
      have hkmem := List.mem_of_getLast? hlast
      have hnot : k ∉ h.onList.dropLast := by
        have hnodup := hl.1
        rw [hsplit, List.nodup_append] at hnodup
        exact fun hk => hnodup.2.2 k hk k (by simp) rfl
      rw [hlast] at hsub
      dsimp only at hsub ⊢
      rw [Hsu.stage?_setStage _ _ (Hsu.stage?_isSome_of_isOn ((hl.2 k).1 hkmem))]
      by_cases hjk : j = k
      · subst hjk
        rw [if_neg fun hj => hnot hj.1, if_pos rfl, if_pos ⟨hkmem, fun hj => hnot (hsub hj)⟩]
      · have hmem : j ∈ h.onList ↔ j ∈ h.onList.dropLast := by
          conv_lhs => rw [hsplit]
          simp [hjk]
        simp only [hjk, hmem, if_false]

/-! ### Switching on (R139) -/

theorem Hsu.onNext_of_none {h : Hsu} (hf : h.firstExpired = none) : h.onNext = h := by
  simp [Hsu.onNext, hf]

theorem Hsu.onNext_of_some {h : Hsu} {k : Nat} (hf : h.firstExpired = some k) :
    h.onNext = { h.setStage k ⟨true, 0, false⟩ with onList := h.onList ++ [k] } := by
  simp [Hsu.onNext, hf]

theorem Hsu.onMany_of_none {h : Hsu} (hf : h.firstExpired = none) (n : Nat) : h.onMany n = h := by
  induction n with
  | zero => rfl
  | succ n ih => rw [Hsu.onMany, Hsu.onNext_of_none hf, ih]

theorem Hsu.firstExpired_expired {h : Hsu} {k : Nat} (hf : h.firstExpired = some k) :
    (h.stage? k).any Stage.expired = true :=
  List.find?_some (p := fun k => (h.stage? k).any Stage.expired) hf

theorem Hsu.firstExpired_isSome {h : Hsu} {k : Nat} (hf : h.firstExpired = some k) :
    (h.stage? k).isSome = true := by
  have hany := Hsu.firstExpired_expired hf
  cases hs : h.stage? k with
  | none => simp [hs] at hany
  | some t => rfl

theorem Hsu.firstExpired_notMem {h : Hsu} {k : Nat} (hl : h.listed) (hf : h.firstExpired = some k) :
    k ∉ h.onList := by
  intro hmem
  obtain ⟨-, -, hoff⟩ := Hsu.firstExpired_spec hf
  rw [(hl.2 k).1 hmem] at hoff
  cases hoff

theorem Hsu.onMany_onList_prefix (n : Nat) (h : Hsu) : h.onList <+: (h.onMany n).onList := by
  induction n generalizing h with
  | zero => exact List.prefix_refl _
  | succ n ih =>
    refine List.IsPrefix.trans ?_ (ih h.onNext)
    rcases h.onNext_onList with heq | ⟨k, -, heq⟩ <;> rw [heq]
    exact List.prefix_append _ _

/-- A stage that joins the on-list had expired and is on; every other record stands (R139). -/
theorem Hsu.onMany_stage? (n : Nat) {h : Hsu} (hl : h.listed) (j : Nat) :
    (h.onMany n).stage? j =
        (if j ∈ (h.onMany n).onList ∧ j ∉ h.onList then some ⟨true, 0, false⟩ else h.stage? j)
      ∧ (j ∈ (h.onMany n).onList → j ∉ h.onList → (h.stage? j).any Stage.expired = true) := by
  induction n generalizing h with
  | zero => exact ⟨(if_neg fun hj => hj.2 hj.1).symm, fun hj hn => absurd hj hn⟩
  | succ n ih =>
    obtain ⟨hstage, hexp⟩ := ih (Hsu.onNext_listed hl)
    rw [Hsu.onMany, hstage]
    cases hf : h.firstExpired with
    | none =>
      rw [Hsu.onNext_of_none hf] at hexp ⊢
      exact ⟨rfl, hexp⟩
    | some k =>
      have hprefix := (Hsu.onMany_onList_prefix n h.onNext).subset
      rw [Hsu.onNext_of_some hf] at hexp hprefix ⊢
      have hread := Hsu.stage?_setStage ⟨true, 0, false⟩ (h.onList ++ [k]) (Hsu.firstExpired_isSome hf) j
      rw [hread] at hexp ⊢
      by_cases hjk : j = k
      · subst hjk
        have hin : j ∈ h.onList ++ [j] := by simp
        refine ⟨?_, fun _ _ => Hsu.firstExpired_expired hf⟩
        rw [if_neg fun hj => hj.2 hin, if_pos rfl, if_pos ⟨hprefix hin, Hsu.firstExpired_notMem hl hf⟩]
      · rw [if_neg hjk] at hexp ⊢
        have hmem : j ∈ h.onList ++ [k] ↔ j ∈ h.onList := by simp [hjk]
        simp only [hmem] at hexp ⊢
        exact ⟨trivial, hexp⟩

/-- A stage that had not expired has not after others came on. -/
theorem Hsu.onMany_not_expired (n : Nat) {h : Hsu} (hl : h.listed) {j : Nat}
    (hj : (h.stage? j).any Stage.expired = false) : ((h.onMany n).stage? j).any Stage.expired = false := by
  rw [(Hsu.onMany_stage? n hl j).1]
  split
  · rfl
  · exact hj

/-- The stages before one that came on, in the rotation order, had not expired (R139). -/
theorem Hsu.onMany_earlier (n : Nat) {h : Hsu} (hl : h.listed) {earlier later : List Nat} {k : Nat}
    (hrot : h.rotation = earlier ++ k :: later) (hk : k ∉ earlier) (hon : k ∈ (h.onMany n).onList)
    (hoff : k ∉ h.onList) {j : Nat} (hj : j ∈ earlier) :
    ((h.onMany n).stage? j).any Stage.expired = false := by
  induction n generalizing h with
  | zero => exact absurd hon hoff
  | succ n ih =>
    have hl' := Hsu.onNext_listed hl
    cases hf : h.firstExpired with
    | none =>
      rw [Hsu.onMany, Hsu.onNext_of_none hf] at hon ⊢
      exact ih hl hrot hon hoff
    | some k' =>
      by_cases hkk : k' = k
      · subst hkk
        have hfirst : (h.stage? j).any Stage.expired = false := by
          have hfind := hf
          unfold Hsu.firstExpired at hfind
          rw [hrot, List.find?_append] at hfind
          cases he : earlier.find? fun k => (h.stage? k).any Stage.expired with
          | none => simpa using List.find?_eq_none.1 he j hj
          | some i =>
            rw [he] at hfind
            obtain rfl : i = k' := by simpa using hfind
            exact absurd (List.mem_of_find?_eq_some he) hk
        exact Hsu.onMany_not_expired (n + 1) hl hfirst
      · refine ih hl' (by rw [Hsu.onNext_rotation]; exact hrot) hon ?_
        rw [Hsu.onNext_of_some hf]
        simp [Ne.symm hkk, hoff]

/-- Where fewer stages came on than were asked for, none is left that has expired (R139). -/
theorem Hsu.onMany_exhausted (n : Nat) (h : Hsu)
    (hfew : (h.onMany n).onList.length < h.onList.length + n) {k : Nat} (hk : k ∈ h.rotation) :
    ((h.onMany n).stage? k).any Stage.expired = false := by
  induction n generalizing h with
  | zero => exact absurd hfew (Nat.lt_irrefl _)
  | succ n ih =>
    cases hf : h.firstExpired with
    | none =>
      rw [Hsu.onMany_of_none hf]
      simpa using List.find?_eq_none.1 hf k hk
    | some k' =>
      refine ih h.onNext ?_ (by rw [Hsu.onNext_rotation]; exact hk)
      have hlen : h.onNext.onList.length = h.onList.length + 1 := by rw [Hsu.onNext_of_some hf]; simp
      rw [hlen]
      rw [Hsu.onMany] at hfew
      omega

/-! ### The whole second (R126, R134, R137) -/

/-- The HSU after the count down, before a stage is switched. -/
def Hsu.counted (h : Hsu) (g a : Nat) : Hsu :=
  { h with grant := g, allowed := a, stages := h.stages.map Stage.countDown }

theorem Hsu.counted_stage? (h : Hsu) (g a k : Nat) :
    (h.counted g a).stage? k = (h.stage? k).map Stage.countDown := by
  unfold Hsu.counted Hsu.stage?
  split
  · rfl
  · exact List.getElem?_map

/-- Steps 3 to 6 by whether the allowed count is below the stages on (R126). -/
theorem Hsu.staged_eq (h : Hsu) (bay : BayBlock) (g : Nat) :
    let a := allowedNext bay h.allowed g
    h.staged bay g = if a < h.onList.length then (h.counted g a).offMany bay.minOff (h.onList.length - a)
      else (h.counted g a).onMany (a - h.onList.length) := by
  dsimp only
  unfold Hsu.staged
  dsimp only
  have hlen := (h.counted g (allowedNext bay h.allowed g)).offMany_onList bay.minOff
    (h.onList.length - allowedNext bay h.allowed g)
  split
  · rename_i hlt
    have hzero : allowedNext bay h.allowed g - ((h.counted g (allowedNext bay h.allowed g)).offMany bay.minOff
        (h.onList.length - allowedNext bay h.allowed g)).onList.length = 0 := by
      rw [hlen, List.length_take]
      simp only [Hsu.counted]
      omega
    unfold Hsu.counted at hzero
    rw [hzero]
    rfl
  · rename_i hge
    rw [show h.onList.length - allowedNext bay h.allowed g = 0 by omega]
    rfl

/-- The record of a stage after the second: unchanged by a switch where its place in the on-list is (R136). -/
theorem Hsu.staged_stage? {h : Hsu} (hl : h.listed) (bay : BayBlock) (g k : Nat) :
    (h.staged bay g).stage? k =
      if k ∈ (h.staged bay g).onList then
        if k ∈ h.onList then (h.stage? k).map Stage.countDown else some ⟨true, 0, false⟩
      else if k ∈ h.onList then some ⟨false, bay.minOff, false⟩ else (h.stage? k).map Stage.countDown := by
  have hcount := h.counted_stage? g (allowedNext bay h.allowed g) k
  have hl' : (h.counted g (allowedNext bay h.allowed g)).listed := Hsu.countDown_listed g _ hl
  rw [Hsu.staged_eq]
  split
  · have hsub := Hsu.offMany_onList_subset bay.minOff (h.onList.length - allowedNext bay h.allowed g)
      (h.counted g (allowedNext bay h.allowed g)) (a := k)
    rw [Hsu.offMany_stage? _ _ hl', hcount]
    change _ → k ∈ h.onList at hsub
    change (if k ∈ h.onList ∧ _ then _ else _) = _
    by_cases hk : k ∈ ((h.counted g (allowedNext bay h.allowed g)).offMany bay.minOff
        (h.onList.length - allowedNext bay h.allowed g)).onList
    · simp [hk, hsub hk]
    · simp [hk]
  · have hsub := (Hsu.onMany_onList_prefix (allowedNext bay h.allowed g - h.onList.length)
      (h.counted g (allowedNext bay h.allowed g))).subset (a := k)
    rw [(Hsu.onMany_stage? _ hl' k).1, hcount]
    change k ∈ h.onList → _ at hsub
    change (if _ ∧ k ∉ h.onList then _ else _) = _
    by_cases hk : k ∈ h.onList
    · simp [hk, hsub hk]
    · simp [hk]

theorem Stage.countDown_of_on {t : Stage} (h : t.on = true) : t.countDown = t := if_pos h

theorem Stage.countDown_of_off {t : Stage} (h : t.on = false) :
    t.countDown = if t.held then { t with held := false } else { t with minOff := t.minOff - 1 } :=
  if_neg (by simp [h])

/-- The allowed stage count (R134). -/
theorem allowedNext_spec (bay : BayBlock) (a g : Nat) :
    (g * bay.stageCount / bay.capacity < a → allowedNext bay a g = g * bay.stageCount / bay.capacity)
      ∧ (a ≤ g * bay.stageCount / bay.capacity →
        allowedNext bay a g = max a ((g - bay.hysteresis) * bay.stageCount / bay.capacity)) := by
  unfold allowedNext
  dsimp only
  refine ⟨fun h => if_pos h, fun h => ?_⟩
  rw [if_neg (by omega)]
  split <;> omega

theorem Stage.not_expired {t : Stage} (h : t.expired = false) : t.on = true ∨ 0 < t.minOff ∨ t.held = true := by
  have hno := mt t.expired_iff.2 (by simp [h])
  by_contra hall
  simp only [not_or, Nat.not_lt, Nat.le_zero, Bool.not_eq_true] at hall
  exact hno hall

/-- Settles O48, by whether stages go off or come on (`Hsu.staged_eq`) and by the record of each stage
(`Hsu.staged_stage?`). -/
theorem stagesFollowTheAllowedCount : Obligations.StagesFollowTheAllowedCount := by
  intro s c hworks hsafe
  obtain ⟨hl, -⟩ := hsafe
  refine ⟨_, exec_hsuSampleEvent_of_works hworks, ?_⟩
  rw [State.hsuSample_hsu_of_works hworks, Hsu.staged_grant, Hsu.staged_allowed]
  generalize s.grantOf c = g
  obtain ⟨hdown, hup⟩ := allowedNext_spec c.bay s.hsu.allowed g
  have hlen := s.hsu.staged_onList_length_le c.bay g
  have hstage := Hsu.staged_stage? hl c.bay g
  have heq := s.hsu.staged_eq c.bay g
  dsimp only at heq
  have hl' : (s.hsu.counted g (allowedNext c.bay s.hsu.allowed g)).listed := Hsu.countDown_listed g _ hl
  have honList : ∀ k x, s.hsu.stage? k = some x → (k ∈ s.hsu.onList ↔ x.on = true) := by
    intro k x hx
    rw [hl.2, Hsu.isOn_eq, hx]
    rfl
  refine ⟨hdown, hup, fun hle => ?shorter, fun hle => ⟨?longer, hlen⟩, fun k x hx hon hk => ?goesOff,
    fun k x hx hon hk => ?staysOn, fun k x hx hon hk => ?comesOn, fun k x hx hon hk => ?staysOff,
    fun earlier k later hrot hke hk hks j hj x hx => ?earlier, fun hfew k hk x hx => ?exhausted,
    fun k x hx hon hheld hmin => ?row⟩
  case shorter =>
    rw [heq]
    split
    · rename_i hlt
      rw [Hsu.offMany_onList]
      change s.hsu.onList.take (s.hsu.onList.length - _) = _
      congr 1
      omega
    · rename_i hge
      have hsame : s.hsu.onList.length = allowedNext c.bay s.hsu.allowed g := by omega
      rw [show allowedNext c.bay s.hsu.allowed g - s.hsu.onList.length = 0 by omega, ← hsame,
        List.take_length]
      rfl
  case longer =>
    rw [heq, if_neg (by omega)]
    exact Hsu.onMany_onList_prefix _ (s.hsu.counted g _)
  case goesOff => rw [hstage, if_neg hk, if_pos ((honList k x hx).2 hon)]
  case staysOn =>
    rw [hstage, if_pos hk, if_pos ((honList k x hx).2 hon), hx]
    exact congrArg some (Stage.countDown_of_on hon)
  case comesOn =>
    have hks : k ∉ s.hsu.onList := fun h => by simp [(honList k x hx).1 h] at hon
    have hexp : x.countDown.expired = true := by
      rw [heq] at hk
      split at hk
      · exact absurd (Hsu.offMany_onList_subset _ _ _ hk) hks
      · have hany := (Hsu.onMany_stage? _ hl' k).2 hk hks
        rw [Hsu.counted_stage?, hx] at hany
        exact hany
    obtain ⟨-, hmin, hheld⟩ := (Stage.expired_iff _).1 hexp
    rw [Stage.countDown_of_off hon] at hmin hheld
    cases hh : x.held with
    | true =>
      rw [hh] at hmin
      exact .inl ⟨rfl, hmin⟩
    | false =>
      rw [hh] at hmin
      exact .inr ⟨rfl, Nat.le_of_sub_eq_zero hmin⟩
  case staysOff =>
    have hks : k ∉ s.hsu.onList := fun h => by simp [(honList k x hx).1 h] at hon
    rw [hstage, if_neg hk, if_neg hks, hx]
    exact congrArg some (Stage.countDown_of_off hon)
  case earlier =>
    rw [heq] at hk hx
    split at hk
    · exact absurd (Hsu.offMany_onList_subset _ _ _ hk) hks
    · rename_i hge
      rw [if_neg hge] at hx
      have hno := Hsu.onMany_earlier _ hl' hrot hke hk hks hj
      rw [hx] at hno
      exact Stage.not_expired hno
  case exhausted =>
    rw [heq] at hfew hx
    split at hfew
    · rw [Hsu.offMany_onList, List.length_take] at hfew
      simp only [Hsu.counted] at hfew
      omega
    · rename_i hge
      rw [if_neg hge] at hx
      have hno := Hsu.onMany_exhausted (allowedNext c.bay s.hsu.allowed g - s.hsu.onList.length)
        (s.hsu.counted g (allowedNext c.bay s.hsu.allowed g))
        (show _ < s.hsu.onList.length + _ by omega) hk
      rw [hx] at hno
      exact Stage.not_expired hno
  case row =>
    refine whenDue_due State.hsuSample hworks.1 ?_
    simp [State.minOffDue, hworks.2, hx, Stage.expired, Stage.countDown, hon, hheld, hmin]

end Sys2Proof.Machine
end

