-- ==== Sys2Proof/Proofs/LineEvents.lean ====
section
/-! PROOFS. The events of the line: quiet, broken characters, alarm holds heard and losses (O36 to O39). -/

namespace Sys2Proof.Machine

section Line

variable {s : State} {c : Configuration}

theorem State.works.receiving (h : s.works c) (ht : s.lc.tx.listening = true) : s.receiving = true := by
  simp [State.receiving, h.released, h.2, ht]

theorem State.works.watching (h : s.works c) (ht : s.lc.tx.listening = true)
    (ha : s.lc.awaitRecessive = false) : s.watching = true := by
  simp [State.watching, h.receiving ht, ha]

theorem State.works.canHear (h : s.works c) (ht : s.lc.tx ≠ .holding) (hh : s.lc.holdHeard = false) :
    s.canHear = true := by
  have hno : s.lc.tx.isHolding = false := by
    cases htx : s.lc.tx with
    | holding => exact absurd htx ht
    | idle | sending | lost => rfl
  simp [State.canHear, h.released, h.2, hno, hh]

/-- Where nothing is watched for, a command that waits for it changes nothing. -/
theorem whenDue_of_not {due : Bool} (f : State → State) (h : due = false) : whenDue due s f = .next s := by
  rw [h]
  exact whenDue_notDue f

/-! ### Quiet, the yield and the own hold (R44, R53, R61, R62) -/

/-- A yield ends only at twelve character times of quiet (R62). -/
theorem Lc.yieldEnd_spec (l : Lc) (q : Nat) :
    l.yieldEnd q = if 132 ≤ max l.quiet q then { l with quiet := max l.quiet q, yielding := false } else l := by
  unfold Lc.yieldEnd Lc.measured
  rfl

/-- Settles O36: every one of the rows is guarded by `State.watching`, or, for a frame's start, by
`State.maySend`. -/
theorem quietYieldAndOwnHold : Obligations.QuietYieldAndOwnHold := by
  refine ⟨fun s c h ht ha => ?falseStart, fun s c q h ht ha hq => ?yieldEnds, fun s c q h ht hq hquiet => ?yieldStays,
    fun s d marker q now ha i hi => ?waits, fun s h ht => ?hold⟩
  case falseStart =>
    rw [exec_falseStart, whenDue_due _ h.1 (h.watching ht ha)]
    simp [Lc.active, ha]
  case yieldEnds =>
    refine ⟨_, ?_, rfl⟩
    rw [exec_yieldEnd, whenDue_due _ h.1 (h.watching ht ha), Lc.yieldEnd_spec, if_pos (by omega)]
  case yieldStays =>
    have hsame : s.lc.yieldEnd q = s.lc := by rw [Lc.yieldEnd_spec, if_neg (by omega)]
    rw [exec_yieldEnd]
    unfold whenDue
    split
    · dsimp only
      rw [hsame]
    · rfl
  case waits =>
    have hno := State.watching_of_awaitRecessive ha
    simp only [List.mem_cons, List.not_mem_nil, or_false] at hi
    rcases hi with rfl | rfl | rfl | rfl | rfl | rfl
    · rw [exec_characterReceived]; exact whenDue_of_not _ hno
    · rw [exec_falseStart]; exact whenDue_of_not _ hno
    · rw [exec_brokenCharacter]; exact whenDue_of_not _ hno
    · rw [exec_frameTimeout]; exact whenDue_of_not _ (by rw [hno]; rfl)
    · rw [exec_yieldEnd]; exact whenDue_of_not _ hno
    · have hsend : s.maySend = false := by simp [State.maySend, ha]
      exact congrArg _ (if_neg (by rw [hsend]; decide))
  case hold =>
    rw [exec_alarmHoldEnd, whenReleased_free _ h]
    simp [Lc.holdEnd, ht, Lc.active]

/-! ### A hold heard (R52, R163) -/

theorem State.holdHeard_of_fire (h : s.fmc.inForce = true) : s.holdHeard = s := by
  unfold State.holdHeard
  cases hm : s.fmc.mode with
  | normal => simp [Fmc.inForce, hm] at h
  | fire => rfl

theorem State.holdHeard_of_normal (h : s.fmc.mode = .normal) : s.holdHeard = s.enterFire .heard none := by
  unfold State.holdHeard
  rw [h]

theorem State.hearHold_of_fire (h : s.fmc.inForce = true) :
    s.hearHold = { s with lc := s.lc.hearHold } :=
  State.holdHeard_of_fire (s := { s with lc := s.lc.hearHold }) h

theorem State.hearHold_of_normal (h : s.fmc.mode = .normal) :
    s.hearHold = { s with lc := s.lc.hearHold }.enterFire .heard none :=
  State.holdHeard_of_normal (s := { s with lc := s.lc.hearHold }) h

theorem Fmc.inForce_iff (f : Fmc) : f.inForce = true ↔ f.mode ≠ .normal := by
  unfold Fmc.inForce
  cases f.mode <;> simp

/-- Both modes of a hold heard: the line alone, or the line with its notices flushed (R52, R163). -/
theorem State.hearHold_lc (s : State) :
    s.hearHold.lc = if s.fmc.inForce then s.lc.hearHold else s.lc.hearHold.flush := by
  cases hf : s.fmc.inForce with
  | true => rw [State.hearHold_of_fire hf]; rfl
  | false =>
    have hn : s.fmc.mode = .normal := by
      by_contra hne
      rw [(Fmc.inForce_iff _).2 hne] at hf
      cases hf
    rw [State.hearHold_of_normal hn]
    rfl

theorem State.hearHold_inForce (s : State) : s.hearHold.fmc.inForce = true := by
  cases hf : s.fmc.inForce with
  | true => rw [State.hearHold_of_fire hf]; exact hf
  | false =>
    have hn : s.fmc.mode = .normal := by
      by_contra hne
      rw [(Fmc.inForce_iff _).2 hne] at hf
      cases hf
    rw [State.hearHold_of_normal hn]
    rfl

theorem exec_alarmHoldHeard_of_canHear (hheld : s.held = none) (h : s.canHear = true) :
    exec .alarmHoldHeard s = .next s.hearHold := whenDue_due _ hheld h

/-! ### The outputs at a fire entry (R97, R122, R141, R157) -/

theorem State.enterFire_lights (q : Cause) (o : Option Nat) (g : Fin 6) :
    (s.enterFire q o).outputs.lights.get g = 1000 :=
  (Six.get_ofFn _ _).trans (congrArg Group.level (Six.get_six _ g))

theorem State.enterFire_curtains (q : Cause) (o : Option Nat) (k : Fin 8) :
    (s.enterFire q o).outputs.curtains.get k = false :=
  (Eight.get_ofFn _ _).trans (congrArg Curtain.output (Eight.get_eight _ k))

theorem State.enterFire_stages (q : Cause) (o : Option Nat) (k : Fin 8) :
    (s.enterFire q o).outputs.stages.get k = false := by
  refine (Eight.get_ofFn _ _).trans ?_
  have hoff := Hsu.allOff_noneOn s.bayOrFallback.minOff s.hsu
  rw [List.any_eq_false] at hoff
  refine Bool.eq_false_iff.2 fun hon => ?_
  obtain ⟨-, t, ht, hton⟩ := (Hsu.isOn_iff _ _).1 hon
  exact hoff t (List.mem_of_getElem? ht) hton

theorem State.enterFire_events (q : Cause) (o : Option Nat) :
    (s.enterFire q o).ssl.events = (if s.ssl.events.length < 8 then s.ssl.events else s.ssl.events.tail)
      ++ [⟨.fireEnter, o.getD 0, s.scu.minute⟩] := Ssl.writeEvent_events _ _

end Line

/-- Settles O38: `State.hearHold` by whether fire mode is in force. -/
theorem alarmHoldHeardEntersFireMode : Obligations.AlarmHoldHeardEntersFireMode := by
  refine ⟨fun s c f h ht hh => ?sending, fun s c h ht hh => ?idle⟩
  case sending =>
    have hne : s.lc.tx ≠ .holding := by simp [ht]
    have hlc := s.hearHold_lc
    refine ⟨_, exec_alarmHoldHeard_of_canHear h.1 (h.canHear hne hh), fun hf => ?_, fun hf hn => ?_, ?_, ?_,
      s.hearHold_inForce⟩ <;> rw [hlc]
    · split
      · exact ht
      · cases f with
        | notice n => cases hf
        | status | alarm => simp [Lc.flush, ht, Tx.withoutNotice]
    · cases f with
      | notice n => simp [Fmc.inForce, hn, Lc.flush, ht, Tx.withoutNotice]
      | status | alarm => cases hf
    · split <;> rfl
    · split <;> rfl
  case idle =>
    have hne : s.lc.tx ≠ .holding := by simp [ht]
    have hlc := s.hearHold_lc
    refine ⟨_, exec_alarmHoldHeard_of_canHear h.1 (h.canHear hne hh), ?_, ?_, ?_, ?_, ?_,
      fun hf => State.hearHold_of_fire hf, fun hn => ?_⟩
    case refine_6 =>
      rw [State.hearHold_of_normal hn]
      have hbay : s.bayOrFallback = c.bay := by simp [State.bayOrFallback, h.2]
      exact ⟨rfl, rfl, rfl, rfl, State.enterFire_events _ _, State.enterFire_lights _ _,
        State.enterFire_stages _ _, State.enterFire_curtains _ _, congrArg BayBlock.fireSpeed hbay,
        congrArg BayBlock.fireDamper hbay, rfl, rfl, rfl, rfl, rfl, rfl, rfl, rfl, rfl, rfl, rfl⟩
    all_goals
      rw [hlc]
      split <;> rfl

section Levels

variable {s : State} {c : Configuration}

/-! ### The end of a dominant level (R44, R49, R52, R64) -/

theorem exec_dominantLevelEnd_of_works (h : s.works c) (ht : s.lc.tx.listening = true) (bits : Nat) :
    exec (.dominantLevelEnd bits) s = .next (s.dominantLevelEnd bits) := by
  rw [exec_dominantLevelEnd]
  exact whenDue_due _ h.1 (h.receiving ht)

/-- A level too short for a hold, or one handed over before. -/
theorem State.dominantLevelEnd_of_no_hearing {bits : Nat} (h : bits < 22 ∨ s.lc.holdHeard = true) :
    s.dominantLevelEnd bits
      = { s with lc := s.lc.levelEnds (s.lc.holdHeard || decide (22 ≤ bits)) } := by
  unfold State.dominantLevelEnd holdBits
  rw [if_neg]
  rintro ⟨hbits, hhear⟩
  rcases h with h | h
  · omega
  · simp [State.canHear, h] at hhear

/-- A level of 22 bit times or more not handed over before is handed over at its end (R52; log 15). -/
theorem State.dominantLevelEnd_of_hearing {bits : Nat} (hhear : s.canHear = true) (hbits : 22 ≤ bits) :
    s.dominantLevelEnd bits = { s.hearHold with lc := s.hearHold.lc.levelEnds true } := by
  unfold State.dominantLevelEnd holdBits
  rw [if_pos ⟨hbits, hhear⟩, decide_eq_true hbits, Bool.or_true]

/-- After a hold heard a second one is not heard before the level has ended (R52). -/
theorem State.hearHold_holdHeard (s : State) : s.hearHold.lc.holdHeard = true := by
  rw [s.hearHold_lc]
  split <;> rfl

theorem State.hearHold_works (h : s.works c) : s.hearHold.works c := by
  unfold State.works
  unfold State.hearHold
  rw [State.holdHeard_frame]
  exact h

theorem State.hearHold_listening (h : s.lc.tx.listening = true) : s.hearHold.lc.tx.listening = true := by
  rw [s.hearHold_lc]
  split
  · exact h
  · change s.lc.tx.withoutNotice.listening = true
    unfold Tx.withoutNotice
    split <;> simp_all [Tx.listening]

/-- Heard at its end or before it, a level comes to the same (R52). -/
theorem State.dominantLevelEnd_hearHold (h : s.works c) (ht : s.lc.tx.listening = true)
    (hh : s.lc.holdHeard = false) {bits : Nat} (hbits : 22 ≤ bits) :
    exec .alarmHoldHeard s = .next s.hearHold
      ∧ exec (.dominantLevelEnd bits) s = .next { s.hearHold with lc := s.hearHold.lc.levelEnds true }
      ∧ exec (.dominantLevelEnd bits) s.hearHold
        = .next { s.hearHold with lc := s.hearHold.lc.levelEnds true } := by
  have hne : s.lc.tx ≠ .holding := by
    intro hx
    rw [hx] at ht
    cases ht
  have hhear := h.canHear hne hh
  refine ⟨exec_alarmHoldHeard_of_canHear h.1 hhear, ?_, ?_⟩
  · rw [exec_dominantLevelEnd_of_works h ht, State.dominantLevelEnd_of_hearing hhear hbits]
  · rw [exec_dominantLevelEnd_of_works (State.hearHold_works h) (State.hearHold_listening ht),
      State.dominantLevelEnd_of_no_hearing (.inr s.hearHold_holdHeard), s.hearHold_holdHeard]
    rfl

/-- The end of a level while the transmitter waits for no judgement. -/
theorem Lc.levelEnds_of_idle {l : Lc} (h : l.tx = .idle) (hold : Bool) :
    l.levelEnds hold = { l with
      brokenFrame := false, holdHeard := false, awaitRecessive := false, quiet := 0
      counters.checkFail := if l.brokenFrame && !hold then satAdd l.counters.checkFail 1
        else l.counters.checkFail } := by
  have hjudge : l.judgeLoss hold = l := by
    unfold Lc.judgeLoss
    rw [h]
  unfold Lc.levelEnds Lc.judgeBroken Lc.countCheckFail
  rw [hjudge]
  cases l.brokenFrame && !hold <;> rfl

end Levels

/-- Settles O37: the level's end by `Lc.levelEnds_of_idle`, heard or not. -/
theorem brokenCharactersAndTimeouts : Obligations.BrokenCharactersAndTimeouts := by
  refine ⟨fun s c h ht ha => ?broken, fun s c bits h ht hh hbits => ?short,
    fun s c bits h ht hh => ?heard, fun s c bits h ht hh hbits => ?long, fun s c l b q h ht ha hasm => ?timeout⟩
  case broken =>
    refine ⟨_, (exec_brokenCharacter s).trans (whenDue_due _ h.1 (h.watching (by rw [ht]; rfl) ha)), ?_⟩
    unfold Lc.broken Assembler.inFrame
    cases s.lc.asm <;> rfl
  case short =>
    refine ⟨_, exec_dominantLevelEnd_of_works h (by rw [ht]; rfl) bits, ?_⟩
    rw [State.dominantLevelEnd_of_no_hearing (.inl hbits), Lc.levelEnds_of_idle ht, hh,
      decide_eq_false (by omega : ¬ 22 ≤ bits)]
    simp only [Bool.or_false, Bool.not_false, Bool.and_true]
    rw [← hh]
    rfl
  case heard =>
    rw [exec_dominantLevelEnd_of_works h (by rw [ht]; rfl), State.dominantLevelEnd_of_no_hearing (.inr hh),
      Lc.levelEnds_of_idle ht, hh]
    simp
  case long =>
    obtain ⟨hhear, hend, hend'⟩ := State.dominantLevelEnd_hearHold h (by rw [ht]; rfl) hh hbits
    have hidle : s.hearHold.lc.tx = .idle := by
      rw [s.hearHold_lc]
      split
      · exact ht
      · simp [Lc.flush, Tx.withoutNotice, ht]
    refine ⟨_, _, hhear, hend, hend', fun hfire => ?_, fun hnormal => ?_⟩ <;> rw [Lc.levelEnds_of_idle hidle]
    · rw [State.hearHold_of_fire hfire]
      simp [Lc.hearHold, hh]
    · rw [State.hearHold_of_normal hnormal]
      refine ⟨rfl, ?_, State.enterFire_events _ _⟩
      simp [Lc.hearHold, Lc.flush, Tx.withoutNotice, ht, hh]
  case timeout =>
    have htimed : s.lc.timedOut q = decide (22 < max s.lc.quiet q) := by
      simp [Lc.timedOut, hasm, Assembler.inFrame, frameQuiet, charBits, Lc.measured]
    refine ⟨fun hq => ⟨_, ?_, rfl⟩, fun hq hquiet => ?_⟩
    · rw [exec_frameTimeout, whenDue_due _ h.1]
      · rfl
      · rw [h.watching ht ha, htimed, decide_eq_true (by omega)]
        rfl
    · rw [exec_frameTimeout]
      refine whenDue_of_not _ ?_
      rw [htimed, decide_eq_false (by omega), Bool.and_false]

/-! ### Losses (R63, R64) -/

theorem Lc.requeue_eq_waitsAgain {l l' : Lc} (f : TxFrame) (hn : l'.notices = l.notices)
    (ha : l'.alarmWaiting = l.alarmWaiting) : l'.requeue f = l.waitsAgain f l' := by
  cases f with
  | status b r => rfl
  | notice n => simp [Lc.requeue, Lc.waitsAgain, hn]
  | alarm a => simp [Lc.requeue, Lc.waitsAgain, ha]

/-- What a level's end makes of a frame awaiting its judgement, the receiver's marks aside (R64). -/
theorem Lc.levelEnds_of_lost {l : Lc} {f : TxFrame} (h : l.tx = .lost (some f)) (hold : Bool) :
    (l.levelEnds hold).tx = .idle ∧ (l.levelEnds hold).asm = l.asm
      ∧ (hold = true → (l.levelEnds hold).counters = l.counters
        ∧ (l.levelEnds hold).sameStore (l.waitsAgain f l))
      ∧ (hold = false →
        (l.levelEnds hold).counters.lineFault = satAdd l.counters.lineFault 1
        ∧ (f.retry.faults < 3 → (l.levelEnds hold).sameStore
          (l.waitsAgain (f.withRetry ⟨f.retry.faults + 1, true⟩) l))
        ∧ (3 ≤ f.retry.faults → (l.levelEnds hold).sameStore l)) := by
  have hbroken : ∀ k : Lc, (k.judgeBroken hold).tx = k.tx ∧ (k.judgeBroken hold).asm = k.asm
      ∧ (k.judgeBroken hold).sameStore k ∧ (k.judgeBroken hold).counters.lineFault = k.counters.lineFault
      ∧ (hold = true → (k.judgeBroken hold).counters = k.counters) := by
    intro k
    unfold Lc.judgeBroken
    split
    · rename_i hb
      refine ⟨rfl, rfl, ⟨rfl, rfl, rfl⟩, rfl, fun hh => ?_⟩
      simp [hh] at hb
    · exact ⟨rfl, rfl, ⟨rfl, rfl, rfl⟩, rfl, fun _ => rfl⟩
  obtain ⟨htx, hasm, hstore, hfault, hcount⟩ := hbroken (l.judgeLoss hold)
  have hsame : ∀ k, (l.judgeLoss hold).sameStore k → (l.levelEnds hold).sameStore k := by
    rintro k ⟨h1, h2, h3⟩
    exact ⟨hstore.1.trans h1, hstore.2.1.trans h2, hstore.2.2.trans h3⟩
  cases hold with
  | true =>
    have hjudge : l.judgeLoss true = { l with tx := .idle }.requeue f := by
      unfold Lc.judgeLoss
      rw [h]
      rfl
    refine ⟨htx.trans ?_, hasm.trans ?_, fun _ => ⟨(hcount rfl).trans ?_, hsame _ ?_⟩, fun hno => (nomatch hno)⟩
    all_goals rw [hjudge]
    · exact Lc.requeue_tx _ _
    · exact Lc.requeue_asm _ _
    · exact Lc.requeue_counters _ _
    · cases f <;> exact ⟨rfl, rfl, rfl⟩
  | false =>
    have hjudge : l.judgeLoss false = ({ l with tx := .idle }.countLineFault).faulted f := by
      unfold Lc.judgeLoss
      rw [h]
      rfl
    unfold Lc.faulted at hjudge
    by_cases hfew : f.retry.faults + 1 < 4
    · rw [if_pos hfew] at hjudge
      refine ⟨htx.trans ?_, hasm.trans ?_, fun hno => (nomatch hno), fun _ => ⟨hfault.trans ?_,
        fun _ => hsame _ ?_, fun hge => by omega⟩⟩
      all_goals rw [hjudge]
      · exact Lc.requeue_tx _ _
      · exact Lc.requeue_asm _ _
      · exact congrArg Counters.lineFault (Lc.requeue_counters _ _)
      · cases f <;> exact ⟨rfl, rfl, rfl⟩
    · rw [if_neg hfew] at hjudge
      refine ⟨htx.trans ?_, hasm.trans ?_, fun hno => (nomatch hno), fun _ => ⟨hfault.trans ?_,
        fun hlt => by omega, fun _ => hsame _ ?_⟩⟩
      all_goals rw [hjudge]
      · rfl
      · rfl
      · rfl
      · exact ⟨rfl, rfl, rfl⟩

/-- Settles O39: a loss by `State.lose`, its judgement by `Lc.levelEnds_of_lost`. -/
theorem lossesOfTheLine : Obligations.LossesOfTheLine := by
  refine ⟨fun s f h ht => ?inHead, fun s f sent h ht hsent => ?behind, fun f own => ?chars,
    fun s c f bits h ht hh hbits => ?fault, fun s c f bits h ht hh hbits hn => ?normal,
    fun s c f bits h ht hcase => ?hold⟩
  case inHead =>
    rw [exec_arbitrationLoss, whenReleased_free _ h]
    simp only [State.lose, ht, if_true]
    exact congrArg (fun l => Host.Outcome.next { s with lc := l })
      (Lc.requeue_eq_waitsAgain (l := s.lc) (l' := { s.lc with quiet := 0, tx := .idle }) f rfl rfl)
  case behind =>
    rw [exec_arbitrationLoss, whenReleased_free _ h]
    simp only [State.lose, ht, Lc.bodyLoss, show ¬ sent = 0 by omega, if_false]
  case chars => cases f <;> rfl
  case fault =>
    obtain ⟨htx, hasm, -, hfault⟩ := Lc.levelEnds_of_lost ht false
    obtain ⟨hcount, hfew, hmany⟩ := hfault rfl
    refine ⟨_, exec_dominantLevelEnd_of_works h (by rw [ht]; rfl) bits, ?_⟩
    rw [State.dominantLevelEnd_of_no_hearing (.inl hbits), hh, decide_eq_false (by omega : ¬ 22 ≤ bits)]
    exact ⟨rfl, htx, hasm, hcount, hfew, hmany⟩
  case normal =>
    obtain ⟨hhear, hend, hend'⟩ := State.dominantLevelEnd_hearHold h (by rw [ht]; rfl) hh hbits
    refine ⟨_, _, hhear, hend, hend', ?_⟩
    have hlc := State.hearHold_lc s
    rw [if_neg (by simp [Fmc.inForce, hn])] at hlc
    have hfmc : s.hearHold.fmc = { s.fmc with mode := .fire .heard none } := by
      rw [State.hearHold_of_normal hn]
      rfl
    rw [hlc, hfmc]
    cases f with
    | notice n =>
      have hflush : s.lc.hearHold.flush.levelEnds true
          = { s.lc.hearHold with
              notices := [], tx := .idle, brokenFrame := false, holdHeard := false, awaitRecessive := false } := by
        simp [Lc.levelEnds, Lc.judgeLoss, Lc.flush, ht, Tx.withoutNotice, Lc.judgeBroken, Lc.hearHold]
      rw [hflush]
      exact ⟨rfl, rfl, rfl, rfl, rfl, fun _ => ⟨rfl, rfl, rfl⟩, fun hno => (nomatch hno)⟩
    | status b r =>
      have hlost : s.lc.hearHold.flush.tx = .lost (some (.status b r)) := by
        simp [Lc.flush, ht, Tx.withoutNotice]
      obtain ⟨htx, hasm, hheld, -⟩ := Lc.levelEnds_of_lost hlost true
      obtain ⟨hcount, hs, hnotices, halarm⟩ := hheld rfl
      exact ⟨rfl, htx, hasm, hcount, hnotices, fun hno => (nomatch hno), fun _ => ⟨hs, hnotices, halarm⟩⟩
    | alarm a =>
      have hlost : s.lc.hearHold.flush.tx = .lost (some (.alarm a)) := by
        simp [Lc.flush, ht, Tx.withoutNotice]
      obtain ⟨htx, hasm, hheld, -⟩ := Lc.levelEnds_of_lost hlost true
      obtain ⟨hcount, hs, hnotices, halarm⟩ := hheld rfl
      exact ⟨rfl, htx, hasm, hcount, hnotices, fun hno => (nomatch hno), fun _ => ⟨hs, hnotices, halarm⟩⟩
  case hold =>
    refine ⟨_, exec_dominantLevelEnd_of_works h (by rw [ht]; rfl) bits, ?_⟩
    cases hh : s.lc.holdHeard with
    | true =>
      obtain ⟨htx, -, hheld, -⟩ := Lc.levelEnds_of_lost ht true
      rw [State.dominantLevelEnd_of_no_hearing (.inr hh), hh]
      exact ⟨rfl, htx, hheld rfl⟩
    | false =>
      obtain ⟨hbits, hfire⟩ : 22 ≤ bits ∧ s.fmc.inForce = true := by simpa [hh] using hcase
      have hlost : s.lc.hearHold.tx = .lost (some f) := ht
      obtain ⟨htx, -, hheld, -⟩ := Lc.levelEnds_of_lost hlost true
      obtain ⟨hcount, hs⟩ := hheld rfl
      rw [State.dominantLevelEnd_of_hearing (h.canHear (by simp [ht]) hh) hbits,
        State.hearHold_of_fire hfire]
      refine ⟨rfl, htx, hcount, ?_⟩
      cases f <;> exact hs

end Sys2Proof.Machine
end

