-- ==== Sys2Proof/Proofs/LineFrames.lean ====
section
/-! PROOFS. The frames this station sends: their start, their levels and end, their age, and the LC's second
that posts them (O40 to O43). -/

namespace Sys2Proof.Machine

/-! ### The flags of a STATUS (Section 11.3) -/

theorem Scu.bayClosed_iff (u : Scu) : u.bayClosed = true ↔ ∃ o r, .close o r ∈ u.amendments := by
  unfold Scu.bayClosed
  rw [List.any_eq_true]
  constructor
  · rintro ⟨a, ha, hclose⟩
    cases a with
    | close o r => exact ⟨o, r, ha⟩
    | hold | advance | lightForce => cases hclose
  · rintro ⟨o, r, ha⟩
    exact ⟨_, ha, rfl⟩

theorem getLsbD_append_ofBool_zero {w : Nat} (x : BitVec w) (b : Bool) :
    (x ++ BitVec.ofBool b).getLsbD 0 = b := by
  rw [BitVec.getLsbD_append]
  simp

theorem getLsbD_append_ofBool_succ {w : Nat} (x : BitVec w) (b : Bool) (i : Nat) :
    (x ++ BitVec.ofBool b).getLsbD (i + 1) = x.getLsbD i := by
  simp [BitVec.getLsbD_append]

/-- Twelve flags side by side, each at its bit. -/
theorem twelveFlags_bits (b0 b1 b2 b3 b4 b5 b6 b7 b8 b9 b10 b11 : Bool) :
    ∀ f : BitVec (1 + 1 + 1 + 1 + 1 + 1 + 1 + 1 + 1 + 1 + 1 + 1),
      f = BitVec.ofBool b11 ++ BitVec.ofBool b10 ++ BitVec.ofBool b9 ++ BitVec.ofBool b8 ++ BitVec.ofBool b7
        ++ BitVec.ofBool b6 ++ BitVec.ofBool b5 ++ BitVec.ofBool b4 ++ BitVec.ofBool b3 ++ BitVec.ofBool b2
        ++ BitVec.ofBool b1 ++ BitVec.ofBool b0 →
      f.getLsbD 0 = b0 ∧ f.getLsbD 1 = b1 ∧ f.getLsbD 2 = b2 ∧ f.getLsbD 3 = b3 ∧ f.getLsbD 4 = b4
        ∧ f.getLsbD 5 = b5 ∧ f.getLsbD 6 = b6 ∧ f.getLsbD 7 = b7 ∧ f.getLsbD 8 = b8 ∧ f.getLsbD 9 = b9
        ∧ f.getLsbD 10 = b10 ∧ f.getLsbD 11 = b11 := by
  rintro _ rfl
  simp only [getLsbD_append_ofBool_succ, getLsbD_append_ofBool_zero, BitVec.getLsbD_ofBool]
  simp

/-- Each flag at its bit (Section 11.3). -/
theorem State.statusFlags_bits (s : State) :
    s.statusFlags.getLsbD 0 = s.fmc.inForce
    ∧ s.statusFlags.getLsbD 1 = s.hru.frost ∧ s.statusFlags.getLsbD 2 = s.hru.short
    ∧ s.statusFlags.getLsbD 3 = s.br.tempSubst ∧ s.statusFlags.getLsbD 4 = s.br.tempBlind
    ∧ s.statusFlags.getLsbD 5 = s.scu.bayClosed
    ∧ s.statusFlags.getLsbD 6 = s.scu.timeInvalid ∧ s.statusFlags.getLsbD 7 = s.br.outdoorOwn
    ∧ s.statusFlags.getLsbD 8 = s.scu.mismatch ∧ s.statusFlags.getLsbD 9 = s.br.doorLongOpen
    ∧ s.statusFlags.getLsbD 10 = s.ssl.imageFallback ∧ s.statusFlags.getLsbD 11 = s.lc.clash :=
  twelveFlags_bits _ _ _ _ _ _ _ _ _ _ _ _ s.statusFlags rfl

section Frames

variable {s : State} {l : Lc} {c : Configuration}

/-! ### The age of notices (R56) -/

/-- With no notice awaiting a loss's judgement, exactly the outlived waiting ones go, each counted (R56). -/
theorem Lc.expire_of_idle (h : l.tx = .idle) (life : Nat) :
    l.expire life = { l with
      notices := l.notices.filter fun n => !l.outlived life n
      counters.noticeStale := satAdd l.counters.noticeStale (l.notices.countP (l.outlived life)) } := by
  have htx : l.txWithoutOutlived life = l.tx := by
    unfold Lc.txWithoutOutlived
    rw [h]
  have hcount : l.notices.length - (l.notices.filter fun n => !l.outlived life n).length
      = l.notices.countP (l.outlived life) := by
    rw [← List.countP_eq_length_filter, List.length_eq_countP_add_countP (l.outlived life)]
    simp
  unfold Lc.expire
  simp only [htx, if_true, Nat.add_zero, hcount]

theorem satAdd_satAdd (n a b : Nat) : satAdd (satAdd n a) b = satAdd n (a + b) := by
  unfold satAdd
  omega

/-- Judging by the longer life first and by the shorter after it counts what the shorter counts. -/
theorem countP_outlived_twice {p q : Notice → Bool} (h : ∀ n, p n = true → q n = true) (ns : List Notice) :
    ns.countP p + (ns.filter fun n => !p n).countP q = ns.countP q := by
  induction ns with
  | nil => rfl
  | cons n rest ih =>
    cases hp : p n with
    | true => simp [hp, h n hp]; omega
    | false => cases hq : q n <;> simp [hp, hq] <;> omega

/-- A moment at which no notice has passed its age only moves the clock (R56). -/
theorem Lc.advance_of_young (h : l.tx = .idle) {now : Nat}
    (hyoung : ∀ n ∈ l.notices, max l.clock now ≤ n.posted + 2000000)
    (hc : l.counters.noticeStale ≤ 65535) : l.advance now = { l with clock := max l.clock now } := by
  have hin : ∀ n ∈ l.notices, { l with clock := max l.clock now }.outlived (noticeLife + 1) n = false := by
    intro n hn
    have := hyoung n hn
    exact decide_eq_false (by unfold noticeLife; dsimp only; omega)
  have hkept : l.notices.filter
      (fun n => !{ l with clock := max l.clock now }.outlived (noticeLife + 1) n) = l.notices :=
    List.filter_eq_self.2 fun n hn => by rw [hin n hn]; rfl
  have hnone : l.notices.countP ({ l with clock := max l.clock now }.outlived (noticeLife + 1)) = 0 :=
    List.countP_eq_zero.2 fun n hn => by rw [hin n hn]; decide
  unfold Lc.advance
  rw [Lc.expire_of_idle (l := { l with clock := max l.clock now }) h]
  dsimp only
  rw [hkept, hnone, satAdd_of_le (by omega)]
  rfl

/-- Settles O42: the row judges by `noticeLife + 1` at the moment and by `noticeLife` after it. -/
theorem noticesAgeOut : Obligations.NoticesAgeOut := by
  intro s now h ht hclock
  refine ⟨_, (exec_noticeAgeExpiry s now).trans (whenReleased_free _ h), rfl, fun n => ?_, ?_, rfl, rfl, ?_, rfl⟩
  · change n ∈ ((s.lc.advance now).expire noticeLife).notices ↔ _
    unfold Lc.advance
    rw [Lc.mem_expire, Lc.mem_expire]
    unfold noticeLife
    dsimp only [Lc.expire_clock]
    rw [Nat.max_eq_right hclock, and_assoc]
    exact and_congr_right fun _ => by omega
  · change ((s.lc.advance now).expire noticeLife).counters.noticeStale = _
    unfold Lc.advance
    rw [Lc.expire_of_idle (l := { s.lc with clock := max s.lc.clock now }) ht]
    rw [Lc.expire_of_idle (by exact ht)]
    dsimp only
    rw [satAdd_satAdd, Nat.max_eq_right hclock]
    refine congrArg (satAdd s.lc.counters.noticeStale) ?_
    refine countP_outlived_twice (fun n hn => ?_) s.lc.notices
    have hold := of_decide_eq_true hn
    exact decide_eq_true (by unfold noticeLife at hold ⊢; dsimp only at hold ⊢; omega)
  · change ((s.lc.advance now).expire noticeLife).tx = _
    unfold Lc.advance
    rw [Lc.expire_of_idle (l := { s.lc with clock := max s.lc.clock now }) ht, Lc.expire_of_idle (by exact ht)]
    exact ht

/-! ### The start of a frame (R60, R61, R65) -/

theorem exec_frameStart (s : State) (q now : Nat) : exec (.frameStart q now) s = .next (s.frameStart q now) := rfl

theorem State.maySend_of_works (h : s.works c) (hs : s.ssl.startup = .run ∨ s.ssl.startup = .join)
    (ht : s.lc.tx = .idle) (ha : s.lc.awaitRecessive = false) : s.maySend = true := by
  rcases hs with hs | hs <;> simp [State.maySend, h.released, hs, Startup.sendsFrames, ht, ha]

/-- The head of a frame on a line not held dominant. -/
theorem Lc.headSent_of_recessive (h : l.awaitRecessive = false) :
    l.headSent = { l with
      asm := .hunt, quiet := 0, holdHeard := false
      counters.frameTimeout := (match l.asm with
        | .assemble _ _ => min 65535 (l.counters.frameTimeout + 1)
        | .hunt | .skip => l.counters.frameTimeout) } := by
  rw [Lc.headSent_eq]
  cases hasm : l.asm <;> simp [Assembler.inFrame, satAdd, h]

/-- At a moment that ages no notice the first waiting frame starts as soon as its gap is reached (R61). -/
theorem State.frameStart_of_choice (h : s.cfg = some c) (hs : s.maySend = true) {q now : Nat}
    (hyoung : s.lc.advance now = { s.lc with clock := max s.lc.clock now }) (hq : s.lc.quiet ≤ q) {k : Choice}
    (hk : s.lc.choice = some k) :
    s.frameStart q now
      = if k.gap ≤ q then { s with lc := { s.lc with clock := max s.lc.clock now } }.startFrame c k else s := by
  have hmoment : s.atMoment now = { s with lc := { s.lc with clock := max s.lc.clock now } } := by
    unfold State.atMoment
    rw [hyoung]
  have hk' : { s.lc with clock := max s.lc.clock now }.choice = some k := hk
  have hmax : max s.lc.quiet q = q := Nat.max_eq_right hq
  unfold State.frameStart
  rw [if_pos hs, hmoment]
  dsimp only
  unfold Lc.starting Lc.measured
  rw [hk', h]
  dsimp only
  rw [hmax]
  by_cases hgap : k.gap ≤ q
  · rw [if_pos hgap, Option.filter_some, if_pos (decide_eq_true hgap)]
  · rw [if_neg hgap, Option.filter_some, if_neg (by simpa using hgap)]

theorem State.frameStart_of_no_choice {q now : Nat}
    (hyoung : s.lc.advance now = { s.lc with clock := max s.lc.clock now }) (hk : s.lc.choice = none) :
    s.frameStart q now = s := by
  have hk' : (s.lc.advance now).choice = none := by rw [hyoung]; exact hk
  unfold State.frameStart
  split
  · rename_i hs
    have hnone : (s.atMoment now).lc.starting q = none := by
      unfold Lc.starting
      rw [State.atMoment_lc, hk']
      rfl
    simp only [hnone]
  · rfl

/-- A notice that starts was waiting, and young enough, at the moment of its start (R56). -/
theorem State.frameStart_notice {q now : Nat} {n : Notice} (ht : s.lc.tx = .idle)
    (hn : (s.frameStart q now).lc.tx = .sending (.notice n)) : n ∈ (s.lc.advance now).notices := by
  have hidle : s.lc.tx ≠ .sending (.notice n) := by simp [ht]
  unfold State.frameStart at hn
  split at hn
  · dsimp only at hn
    split at hn
    next k c hk hc =>
      obtain ⟨hchoice, -⟩ := Lc.starting_eq_some.1 hk
      cases k with
      | alarm a => cases hn
      | status r => cases hn
      | notice m rest =>
        cases hn
        rw [State.atMoment_lc] at hchoice
        unfold Lc.choice at hchoice
        split at hchoice
        next => cases hchoice
        next hns =>
          cases hchoice
          rw [hns]
          exact List.mem_cons_self
        next => split at hchoice <;> cases hchoice
        next => cases hchoice
    all_goals exact absurd hn hidle
  · exact absurd hn hidle

end Frames

/-- Settles O40: the start by `State.frameStart_of_choice` for each choice of `Lc.choice`. -/
theorem framesStartInSelectionOrder : Obligations.FramesStartInSelectionOrder := by
  refine ⟨fun s => ?flags, fun s t q now n ht hstep hn => ?young, ?starts⟩
  case flags =>
    obtain ⟨h0, h1, h2, h3, h4, h5, h6, h7, h8, h9, h10, h11⟩ := s.statusFlags_bits
    exact ⟨by rw [h0]; exact Fmc.inForce_iff _, h1, h2, h3, h4, by rw [h5]; exact Scu.bayClosed_iff _, h6, h7, h8,
      h9, h10, h11⟩
  case young =>
    cases hstep
    have hmem := State.frameStart_notice ht hn
    unfold Lc.advance at hmem
    obtain ⟨-, hlt⟩ := Lc.mem_expire.1 hmem
    unfold noticeLife at hlt
    dsimp only at hlt
    omega
  case starts =>
    intro s c q now h hs ht ha hyoung hstale hq sent hsent
    have hmay := State.maySend_of_works h hs ht ha
    have hmoment := Lc.advance_of_young ht hyoung hstale
    have hhead : { s.lc with clock := max s.lc.clock now }.headSent = sent :=
      (Lc.headSent_of_recessive (by exact ha)).trans hsent.symm
    have hstart : ∀ {k : Choice}, s.lc.choice = some k →
        (k.gap ≤ q → exec (.frameStart q now) s
          = .next ({ s with lc := { s.lc with clock := max s.lc.clock now } }.startFrame c k))
        ∧ (q < k.gap → exec (.frameStart q now) s = .next s) := by
      intro k hk
      rw [exec_frameStart, State.frameStart_of_choice h.2 hmay hmoment hq hk]
      exact ⟨fun hge => by rw [if_pos hge], fun hlt => by rw [if_neg (by omega)]⟩
    refine ⟨fun a hal => ?_, fun hal n rest hns => ?_, fun hal hns hwait => ?_, fun hal hns hy r hst => ?_⟩
    · have hk : s.lc.choice = some (.alarm a) := by simp [Lc.choice, hal]
      obtain ⟨hgo, hstay⟩ := hstart hk
      refine ⟨fun hge => (hgo hge).trans ?_, hstay⟩
      rw [← hhead]
      rfl
    · have hk : s.lc.choice = some (.notice n rest) := by simp [Lc.choice, hal, hns]
      obtain ⟨hgo, hstay⟩ := hstart hk
      refine ⟨fun hge => (hgo hge).trans ?_, hstay⟩
      rw [← hhead]
      rfl
    · have hk : s.lc.choice = none := by
        rcases hwait with hy | hst
        · cases hst : s.lc.statusWaiting <;> simp [Lc.choice, hal, hns, hst, hy]
        · simp [Lc.choice, hal, hns, hst]
      rw [exec_frameStart, State.frameStart_of_no_choice hmoment hk]
    · have hk : s.lc.choice = some (.status r) := by simp [Lc.choice, hal, hns, hst, hy]
      obtain ⟨hgo, hstay⟩ := hstart hk
      refine ⟨hstay, fun hge => ⟨s.snapshot c, (hgo hge).trans ?_, ?_, ?_, ?_, rfl, rfl, rfl, rfl, rfl, rfl, rfl, rfl,
        rfl, rfl, rfl, rfl, fun he => ?_, fun e he => ?_, rfl, rfl, rfl, rfl⟩⟩
      · rw [← hhead]
        rfl
      · change (BitVec.ofNat 3 s.scu.phase.code).toNat = _
        cases s.scu.phase <;> rfl
      · change (BitVec.ofNat 2 s.br.tempSource.code).toNat = _
        cases s.br.tempSource <;> rfl
      · change (toByte c.site.interval.code).toNat = _
        cases c.site.interval <;> rfl
      · change exhaustHalf s.br.exhaust = _
        rw [he]
        rfl
      · change exhaustHalf s.br.exhaust = _
        rw [he]
        rfl

/-! ### The levels of a frame and its end (R43, R62, R65) -/

/-- Blocks of one length laid end to end: the block at an index (R43). -/
theorem block_of_flatMap {α β : Type} {f : α → List β} {k : Nat} (hf : ∀ a, (f a).length = k) :
    ∀ (i : Nat) (l : List α) (a : α), l[i]? = some a → ((l.flatMap f).drop (k * i)).take k = f a
  | _, [], a, h => by simp at h
  | 0, b :: rest, a, h => by
    obtain rfl : b = a := by simpa using h
    rw [List.flatMap_cons, Nat.mul_zero, List.drop_zero, List.take_left' (hf b)]
  | i + 1, b :: rest, a, h => by
    have hrest : rest[i]? = some a := by simpa using h
    rw [List.flatMap_cons, Nat.mul_succ, Nat.add_comm, ← List.drop_drop, List.drop_left' (hf b)]
    exact block_of_flatMap hf i rest a hrest

/-- The marker is 1 on the head alone (R43). -/
theorem markedChars_getElem? {chars : List Byte} {i : Nat} {d : Byte} (h : chars[i]? = some d) :
    (markedChars chars)[i]? = some (d, decide (i = 0)) := by
  cases chars with
  | nil => simp at h
  | cons a rest =>
    cases i with
    | zero => simpa [markedChars] using h
    | succ i => simpa [markedChars] using h

theorem exec_frameSent (s : State) : exec .frameSent s = whenReleased s State.frameSent := rfl

/-- Settles O41: the levels block by block, the end by what was in transmission. -/
theorem sentFramesLeaveTheStore : Obligations.SentFramesLeaveTheStore := by
  refine ⟨fun f own => ⟨frameLevels_length _, fun i d hd => ?levels⟩, fun s b r h ht => ?status,
    fun s a h ht => ?alarm, fun s n h ht => ?notice⟩
  case levels =>
    refine (block_of_flatMap (fun _ => charLevels_length _ _) i _ _ (markedChars_getElem? hd)).trans ?_
    simp [charLevels, bitLevel]
  all_goals rw [exec_frameSent, whenReleased_free _ h]
  case status => simp [State.frameSent, ht, Lc.active]
  case alarm => simp [State.frameSent, ht, Lc.active]
  case notice =>
    have hsent : s.frameSent = { s with
        lc := { s.lc.active with tx := .idle }, ssl := if n.isReport then s.ssl.reportSent else s.ssl } := by
      simp [State.frameSent, ht]
    refine ⟨_, rfl, ?_⟩
    rw [hsent]
    refine ⟨rfl, fun hk => ?_, fun hk => ?_⟩
    · exact if_neg (by simpa [Notice.isReport] using hk)
    · dsimp only
      rw [if_pos (by simpa [Notice.isReport] using hk)]
      exact ⟨rfl, fun hr => by simp [Ssl.reportSent, hr], fun hr => by simp [Ssl.reportSent, hr], rfl⟩

/-! ### The LC's second (R50, R58, R59) -/

section Second

variable {s : State} {l : Lc} {c : Configuration}

theorem exec_lcSampleEvent (s : State) : exec .lcSampleEvent s = whenReleased s State.lcSample := rfl

theorem exec_statusIntervalExpiry (s : State) :
    exec .statusIntervalExpiry s = whenDue s.intervalDue s State.lcSample := rfl

theorem exec_clashQuietExpiry (s : State) :
    exec .clashQuietExpiry s = whenDue s.clashDue s State.lcSample := rfl

/-- The second of the clash moves its mark and its quiet alone (R50). -/
theorem Lc.clashSecond_frame (l : Lc) :
    l.clashSecond = { l with clash := l.clashSecond.clash, clashQuiet := l.clashSecond.clashQuiet } := by
  unfold Lc.clashSecond
  split <;> rfl

/-- The interval's second moves its count, the STATUS place and STATUS_LATE alone (R58). -/
theorem Lc.intervalSecond_frame (l : Lc) (n : Nat) :
    l.intervalSecond n = { l with
      intervalCount := (l.intervalSecond n).intervalCount, statusWaiting := (l.intervalSecond n).statusWaiting
      counters := (l.intervalSecond n).counters } := by
  unfold Lc.intervalSecond Lc.postStatus
  split
  · split <;> rfl
  · rfl

/-- The LC's part of the prompt check (R59). -/
def Lc.prompted (l : Lc) (cause : Bool) : Lc := if l.statusPlaceEmpty && cause then l.postStatus else l

theorem State.promptCheck_eq (s : State) : s.promptCheck = { s with lc := s.lc.prompted s.promptCause } := by
  unfold State.promptCheck Lc.prompted
  split <;> rfl

/-- The second by the start-up state (R67). -/
theorem State.lcSample_eq (h : s.cfg = some c) :
    s.lcSample = { s with lc := if s.ssl.startup = .run
      then (s.lc.clashSecond.intervalSecond c.site.interval.seconds).prompted s.promptCause
      else s.lc.clashSecond } := by
  unfold State.lcSample
  rw [h]
  dsimp only
  cases hs : s.ssl.startup with
  | run =>
    rw [if_pos (by rfl), if_pos rfl, State.promptCheck_eq]
    have hkept : (s.lc.clashSecond.intervalSecond c.site.interval.seconds).presenceMark = s.lc.presenceMark
        ∧ (s.lc.clashSecond.intervalSecond c.site.interval.seconds).lastStatus = s.lc.lastStatus := by
      rw [Lc.intervalSecond_frame, Lc.clashSecond_frame]
      exact ⟨rfl, rfl⟩
    unfold State.promptCause
    dsimp only
    rw [hkept.1, hkept.2]
  | load | selftest | listen | join | strapFault => rfl

/-- With the place taken a prompt check does nothing (R59). -/
theorem Lc.prompted_of_full (h : l.statusPlaceEmpty = false) (cause : Bool) : l.prompted cause = l := by
  unfold Lc.prompted
  rw [h]
  rfl

theorem Lc.prompted_of_no_cause (l : Lc) : l.prompted false = l := by
  unfold Lc.prompted
  rw [Bool.and_false]
  rfl

theorem Lc.prompted_of_empty (h : l.statusPlaceEmpty = true) :
    l.prompted true = { l with statusWaiting := some Retry.fresh } := by
  unfold Lc.prompted Lc.postStatus
  rw [h]
  rfl

theorem Lc.prompted_frame (l : Lc) (cause : Bool) :
    l.prompted cause = { l with statusWaiting := (l.prompted cause).statusWaiting } := by
  unfold Lc.prompted Lc.postStatus
  cases h : l.statusPlaceEmpty <;> cases cause <;> rfl

/-- After a STATUS has been posted its place is taken (R58). -/
theorem Lc.postStatus_full (l : Lc) : l.postStatus.statusPlaceEmpty = false := by
  rcases l.postStatus_cases with ⟨-, heq⟩ | ⟨hfull, heq⟩ <;> rw [heq]
  · rfl
  · exact hfull

theorem State.promptCause_iff (s : State) :
    s.promptCause = true ↔ s.lc.presenceMark = true ∨ ∃ h, s.lc.lastStatus = some h
      ∧ (h.request + 10 ≤ s.hru.request ∨ s.hru.request + 10 ≤ h.request ∨ h.fire ≠ s.fmc.inForce
        ∨ h.frost ≠ s.hru.frost) := by
  cases hl : s.lc.lastStatus <;> simp [State.promptCause, hl, LastStatus.differs, or_assoc]

/-- The LC after a second of RUN before the interval (R58, R59). -/
theorem lcSecond_before {n : Nat} (hlt : l.intervalCount + 1 < n) (cause : Bool) :
    (l.clashSecond.intervalSecond n).prompted cause
      = { l.clashSecond with intervalCount := l.intervalCount + 1 }.prompted cause := by
  unfold Lc.intervalSecond
  rw [if_neg]
  · rw [Lc.clashSecond_frame]
  · rw [Lc.clashSecond_frame]
    dsimp only
    omega

/-- The LC after the second that completes the interval (R58; log 39). -/
theorem lcSecond_at {n : Nat} (heq : l.intervalCount + 1 = n) (cause : Bool) :
    (l.clashSecond.intervalSecond n).prompted cause = { l.clashSecond with intervalCount := 0 }.postStatus := by
  have hat : l.clashSecond.intervalSecond n = { l.clashSecond with intervalCount := 0 }.postStatus := by
    unfold Lc.intervalSecond
    rw [if_pos]
    rw [Lc.clashSecond_frame]
    dsimp only
    omega
  rw [hat, Lc.prompted_of_full (Lc.postStatus_full _)]

/-- What the LC's second leaves alone in every start-up state. -/
theorem State.lcSample_kept (h : s.cfg = some c) :
    s.lcSample.lc.clash = s.lc.clashSecond.clash ∧ s.lcSample.lc.clashQuiet = s.lc.clashSecond.clashQuiet
      ∧ s.lcSample.lc.notices = s.lc.notices ∧ s.lcSample.lc.alarmWaiting = s.lc.alarmWaiting
      ∧ s.lcSample.lc.tx = s.lc.tx ∧ s.lcSample.lc.asm = s.lc.asm := by
  rw [State.lcSample_eq h]
  dsimp only
  split
  · rw [Lc.prompted_frame, Lc.intervalSecond_frame, Lc.clashSecond_frame]
    exact ⟨rfl, rfl, rfl, rfl, rfl, rfl⟩
  · rw [Lc.clashSecond_frame]
    exact ⟨rfl, rfl, rfl, rfl, rfl, rfl⟩

end Second

/-- Settles O43: `State.lcSample_eq`, the interval by `lcSecond_before` and `lcSecond_at`. -/
theorem lineControllerSecond : Obligations.LineControllerSecond := by
  intro s c h
  have hstep : exec .lcSampleEvent s = .next s.lcSample := (exec_lcSampleEvent s).trans (whenReleased_free _ h.1)
  obtain ⟨hclash, hquiet, hnotices, halarm, htx, hasm⟩ := State.lcSample_kept h.2
  have heq := State.lcSample_eq h.2
  have hframe := s.lc.clashSecond_frame
  refine ⟨_, hstep, by rw [heq], hnotices, halarm, htx, hasm, fun hc => ?_, fun hc => ?_, fun hc hlt => ?_,
    fun hc h599 => ⟨?_, ?_⟩, fun hrun => ?_, fun hrun hlt => ?_, fun hrun hat => ?_⟩
  · rw [hclash, hquiet]
    simp [Lc.clashSecond, hc]
  · rw [hquiet]
    simp [Lc.clashSecond, hc]
  · rw [hclash]
    simp [Lc.clashSecond, hc]
    omega
  · rw [hclash]
    simp [Lc.clashSecond, hc, h599]
  · rw [exec_clashQuietExpiry]
    exact whenDue_due _ h.1 (by simp [State.clashDue, h.2, hc, h599])
  · rw [heq, if_neg hrun, hframe]
    exact ⟨rfl, rfl, rfl⟩
  · rw [heq, if_pos hrun, lcSecond_before hlt]
    have hplace : { s.lc.clashSecond with intervalCount := s.lc.intervalCount + 1 }.statusPlaceEmpty
        = s.lc.statusPlaceEmpty := by rw [hframe]; rfl
    refine ⟨?_, ?_, fun hfull => ?_, fun hempty hmark hlast => ?_, fun hempty hcause => ?_⟩
    · rw [Lc.prompted_frame]
    · rw [Lc.prompted_frame, hframe]
    · rw [Lc.prompted_of_full (hplace.trans hfull), hframe]
    · have hno : s.promptCause = false := by
        refine Bool.eq_false_iff.2 fun hyes => ?_
        rcases (State.promptCause_iff s).1 hyes with hm | ⟨t, ht, hdiff⟩
        · rw [hmark] at hm
          cases hm
        · obtain ⟨h1, h2, h3, h4⟩ := hlast t ht
          rcases hdiff with hd | hd | hd | hd
          · omega
          · omega
          · exact hd h3
          · exact hd h4
      rw [hno, Lc.prompted_of_no_cause, hframe]
      exact ((Lc.statusPlaceEmpty_iff _).1 hempty).1
    · rw [(State.promptCause_iff s).2 hcause, Lc.prompted_of_empty (hplace.trans hempty)]
      rfl
  · have hlc : s.lcSample.lc = { s.lc.clashSecond with intervalCount := 0 }.postStatus := by
      rw [heq, if_pos hrun, lcSecond_at hat]
    have hplace : { s.lc.clashSecond with intervalCount := 0 }.statusPlaceEmpty
        = s.lc.statusPlaceEmpty := by rw [hframe]; rfl
    rw [hlc]
    refine ⟨?_, ?_, fun hempty => ?_, fun hfull => ?_⟩
    · unfold Lc.postStatus
      split <;> rfl
    · rw [exec_statusIntervalExpiry]
      exact whenDue_due _ h.1 (by simp [State.intervalDue, hrun, Startup.isRun, h.2, hat])
    · unfold Lc.postStatus
      rw [if_pos (hplace.trans hempty), hframe]
      exact ⟨rfl, rfl⟩
    · unfold Lc.postStatus
      rw [if_neg (by rw [hplace, hfull]; decide), hframe]
      exact ⟨rfl, rfl⟩

end Sys2Proof.Machine
end

