-- ==== Sys2Proof/Proofs/Notices.lean ====
section
/-! PROOFS. What is posted to the store: the FMC's sends, travel notices forwarded, the REPORT; and an ALARM
frame at the FMC (O50 to O53). -/

namespace Sys2Proof.Machine

/-! ### Sends (R53, R57, R165, R166) -/

section Sends

variable {s : State} {l : Lc}

theorem exec_fmcSampleEvent (s : State) : exec .fmcSampleEvent s = whenReleased s State.fmcSample := rfl

theorem exec_repeatTimerExpiry (s : State) :
    exec .repeatTimerExpiry s = whenDue s.repeatDue s State.fmcSample := rfl

/-- Making room discards the oldest notices, and no more of them than needed (R57). -/
theorem makeRoom_minimal (bytes frames : Nat) : ∀ l : List Notice, ∃ gone,
    l = gone ++ makeRoom bytes frames l
    ∧ ∀ before n, gone = before ++ [n] →
      ¬ (bytes + ((n :: makeRoom bytes frames l).map Notice.size).sum + alarmSize ≤ 223
        ∧ frames + (n :: makeRoom bytes frames l).length < 7)
  | [] => ⟨[], rfl, fun before n h => by simp at h⟩
  | n :: rest => by
    unfold makeRoom
    split
    · exact ⟨[], rfl, fun before m h => by simp at h⟩
    · rename_i hfull
      obtain ⟨gone, hrest, hmin⟩ := makeRoom_minimal bytes frames rest
      refine ⟨n :: gone, congrArg (n :: ·) hrest, fun before m h => ?_⟩
      cases before with
      | nil =>
        obtain ⟨rfl, rfl⟩ : n = m ∧ gone = [] := by simpa using h
        rw [List.nil_append] at hrest
        rwa [← hrest]
      | cons k before =>
        obtain ⟨rfl, hgone⟩ : n = k ∧ gone = before ++ [m] := by simpa using h
        exact hmin before m hgone

/-- What the order of a hold keeps of the LC (R53). -/
theorem Lc.orderHold_kept (l : Lc) :
    l.orderHold.counters = l.counters ∧ l.orderHold.clock = l.clock
      ∧ (l.alarmWaiting.isSome = true → l.orderHold.alarmWaiting.isSome = true)
      ∧ (l.tx ≠ .holding → l.orderHold.asm = .hunt) := by
  unfold Lc.orderHold
  split
  next hx => exact ⟨rfl, rfl, id, fun hne => absurd hx hne⟩
  next =>
    have hcases : l.requeueTx = l ∨ ∃ f, l.requeueTx = l.requeue f := by
      unfold Lc.requeueTx
      split
      · exact .inr ⟨_, rfl⟩
      · exact .inl rfl
    rcases hcases with hx | ⟨f, hx⟩ <;> rw [hx]
    · exact ⟨rfl, rfl, id, fun _ => rfl⟩
    · cases f with
      | status | notice => exact ⟨rfl, rfl, id, fun _ => rfl⟩
      | alarm => exact ⟨rfl, rfl, fun _ => rfl, fun _ => rfl⟩

/-- An order cuts off a frame being sent, which waits again (R53). -/
theorem Lc.orderHold_of_sending {f : TxFrame} (h : l.tx = .sending f) :
    l.orderHold = { l.requeue f with tx := .holding, asm := .hunt, brokenFrame := false } := by
  simp [Lc.orderHold, Lc.requeueTx, h, Tx.frame]

theorem Lc.orderHold_of_idle (h : l.tx = .idle) :
    l.orderHold = { l with tx := .holding, asm := .hunt, brokenFrame := false } := by
  simp [Lc.orderHold, Lc.requeueTx, h, Tx.frame]

/-- A waiting ALARM frame is replaced in place (R57). -/
theorem Lc.postAlarm_of_waiting (ht : l.tx = .holding) (h : l.alarmWaiting.isSome = true) (a : AlarmBody) :
    l.postAlarm a = { l with alarmWaiting := some ⟨a, l.clock, Retry.fresh⟩ } := by
  simp [Lc.postAlarm, ht, Tx.withoutLostAlarm, h]

/-- With neither a waiting ALARM frame nor another in the transmitter the notices alone make room (R57). -/
theorem Lc.postAlarm_of_none (ht : l.tx = .holding) (h : l.alarmWaiting = none) (a : AlarmBody) :
    l.postAlarm a = { l with
      alarmWaiting := some ⟨a, l.clock, Retry.fresh⟩
      notices := makeRoom 0 0 l.notices
      counters.noticeDrop
        := satAdd l.counters.noticeDrop (l.notices.length - (makeRoom 0 0 l.notices).length) } := by
  simp [Lc.postAlarm, ht, Tx.withoutLostAlarm, h, Lc.otherSizes, Tx.frame]

/-- The send of a start-up state from SELFTEST to RUN is made (R165). -/
theorem State.send_of_made (h : s.ssl.startup = .selftest ∨ s.ssl.startup = .listen ∨ s.ssl.startup = .join
    ∨ s.ssl.startup = .run) : s.send = s.makeSend := by
  unfold State.send
  rcases h with h | h | h | h <;> rw [h]

/-- The repeat timer at 0 in fire mode with the input ACTIVE (R166). -/
theorem State.fmcSample_of_send (ht : s.fmc.timer = some 1) (hi : s.br.fireInput = true)
    (hf : s.fmc.inForce = true) (hs : s.ssl.startup = .selftest ∨ s.ssl.startup = .listen ∨ s.ssl.startup = .join
      ∨ s.ssl.startup = .run) : s.fmcSample = s.makeSend := by
  unfold State.fmcSample
  rw [ht]
  dsimp only
  rw [if_pos le_rfl]
  unfold State.timerExpired
  dsimp only
  rw [hi, hf, if_pos (by rfl)]
  exact State.send_of_made (s := { s with fmc := { s.fmc with timer := none } }) hs

theorem State.fmcSample_of_stop (ht : s.fmc.timer = some 1)
    (h : s.br.fireInput = false ∨ s.fmc.inForce = false) :
    s.fmcSample = { s with fmc := { s.fmc with timer := none } } := by
  unfold State.fmcSample
  rw [ht]
  dsimp only
  rw [if_pos le_rfl]
  unfold State.timerExpired
  refine if_neg ?_
  rcases h with h | h <;> simp [h]

end Sends

/-- Settles O50: the send by `Lc.orderHold` and `Lc.postAlarm`. -/
theorem repeatTimerMakesSends : Obligations.RepeatTimerMakesSends := by
  intro s h
  refine ⟨_, (exec_fmcSampleEvent s).trans (whenReleased_free _ h), fun ht => ?stopped, fun n ht hn => ?running,
    fun ht => ?row, fun ht hno => State.fmcSample_of_stop ht hno, fun ht hi hf hs => ?send⟩
  case stopped => simp [State.fmcSample, ht]
  case running =>
    simp only [State.fmcSample, ht]
    exact if_neg (by omega)
  case row =>
    rw [exec_repeatTimerExpiry]
    exact whenDue_due _ h (by simp [State.repeatDue, ht])
  case send =>
    rw [State.fmcSample_of_send ht hi hf hs]
    obtain ⟨hcount, hclock, hwaits, hhunt⟩ := s.lc.orderHold_kept
    have htx := s.lc.orderHold_tx
    have hlc : s.makeSend.lc = s.lc.orderHold.postAlarm ⟨toByte s.ssl.own, 1, toByte s.fmc.repeatCount⟩ := rfl
    have htx' : s.makeSend.lc.tx = .holding := by
      rw [hlc, Lc.postAlarm_tx, htx]
      rfl
    refine ⟨rfl, rfl, htx', ?dominant, ?alarm, fun hne => ?hunt, fun b r hb => ?status, fun hw => ⟨?_, ?_, ?_⟩,
      fun hidle hnone => ?room⟩
    case dominant =>
      change s.makeSend.lc.tx.isHolding = true
      rw [htx']
      rfl
    case alarm => rw [hlc, Lc.postAlarm_alarmWaiting, hclock]; rfl
    case hunt => rw [hlc, Lc.postAlarm_asm]; exact hhunt hne
    case status => rw [hlc, Lc.postAlarm_statusWaiting, Lc.orderHold_of_sending hb]; rfl
    case refine_1 => rw [hlc, Lc.postAlarm_of_waiting htx (hwaits hw)]; exact hcount
    case refine_2 =>
      intro n hn
      rw [hlc, Lc.postAlarm_of_waiting htx (hwaits hw), Lc.orderHold_of_sending hn]
      rfl
    case refine_3 =>
      intro hidle
      rw [hlc, Lc.postAlarm_of_waiting htx (hwaits hw), Lc.orderHold_of_idle hidle]
    case room =>
      have hpost := Lc.postAlarm_of_none htx (by rw [Lc.orderHold_of_idle hidle]; exact hnone)
        ⟨toByte s.ssl.own, 1, toByte s.fmc.repeatCount⟩
      have hold : s.lc.orderHold.notices = s.lc.notices := by rw [Lc.orderHold_of_idle hidle]
      obtain ⟨gone, hgone, hmin⟩ := makeRoom_minimal 0 0 s.lc.notices
      have hnotices : s.makeSend.lc.notices = makeRoom 0 0 s.lc.notices := by rw [hlc, hpost, hold]
      have hlen : s.lc.notices.length - (makeRoom 0 0 s.lc.notices).length = gone.length := by
        have := congrArg List.length hgone
        rw [List.length_append] at this
        omega
      refine ⟨gone, hnotices ▸ hgone, ?_, ?_, fun before n hb => ?_⟩
      · rw [hlc, hpost, hcount, hold, hlen]
        rfl
      · rw [hnotices]
        refine (makeRoom_fits 0 0 s.lc.notices).imp_right fun ⟨hbytes, hframes⟩ => ?_
        rw [Nat.zero_add] at hbytes hframes
        exact ⟨hbytes, hframes⟩
      · rw [hnotices]
        have hfull := hmin before n hb
        rw [Nat.zero_add, Nat.zero_add, Classical.not_and_iff_not_or_not, Nat.not_le, Nat.not_lt] at hfull
        exact hfull

/-! ### Posting a notice (R54, R55) -/

/-- A notice no longer than 48 joins the store as the newest where it has room, and is dropped and counted
otherwise (R55). -/
theorem Lc.postNotice_of_short (l : Lc) (k : NoticeKind) {b : List Byte} (h : b.length ≤ 48) :
    (l.sharedBytes + (b.length + 5) ≤ 223 → l.sharedFrames < 7 →
      l.postNotice k b = { l with notices := l.notices ++ [⟨k, b, l.clock, Retry.fresh⟩] })
    ∧ (223 < l.sharedBytes + (b.length + 5) ∨ 7 ≤ l.sharedFrames →
      l.postNotice k b = { l with counters.noticeDrop := satAdd l.counters.noticeDrop 1 }) := by
  rcases l.postNotice_cases k b with ⟨hlong, -⟩ | ⟨-, hfull, heq⟩ | ⟨-, hbytes, hframes, heq⟩
  · omega
  · exact ⟨fun _ _ => by omega, fun _ => heq⟩
  · exact ⟨fun _ _ => heq, fun hfull => by omega⟩

section Accepted

variable {s : State} {c : Configuration} {n : Nat}

/-- A moment starts no transmission and ends none. -/
theorem Lc.advance_tx_sending {l : Lc} {now : Nat} {f : TxFrame} (h : (l.advance now).tx = .sending f) :
    l.tx = .sending f := by
  have hx : (l.advance now).tx = Lc.txWithoutOutlived { l with clock := max l.clock now } (noticeLife + 1) := rfl
  rw [hx] at h
  unfold Lc.txWithoutOutlived at h
  dsimp only at h
  split at h
  · split at h
    · cases h
    · exact h
  · exact h

theorem State.hears_atMoment (h : s.hears n) (now : Nat) : (s.atMoment now).hears n := by
  obtain ⟨hheld, hcfg, htx, hwait, hown⟩ := h
  exact ⟨hheld, hcfg, fun f hf => htx f (Lc.advance_tx_sending hf), hwait, hown⟩

/-- A timed row of an accepted frame: the frame handed on at its moment. -/
theorem whenReleased_accept_atMoment (h : s.hears n) {f : Frame} (hf : s.filterAccepts n f.kind = true) (now : Nat) :
    (whenReleased s fun s => (s.atMoment now).accept n f)
      = .next ({ s with lc := (s.lc.advance now).framePassed }.handOn n f) := by
  have hcan : (s.atMoment now).canAccept n f.kind = true :=
    State.canAccept_of_hears (s.hears_atMoment h now) hf
  rw [whenReleased_free _ h.1, State.accept_of_canAccept hcan]
  rfl

/-! ### Travel notices (R102 to R106) -/

/-- A travel notice acted on: noted, pre-light started, and forwarded where a hop remains (R104 to R106). -/
def State.travelled (s : State) (c : Configuration) (b : TravelBody) : State :=
  let acted := (s.noteNotice b.origin.toNat b.sequence.toNat).startPrelight c
  if 0 < takenHops b then acted.postTravel { b with hops := toByte (takenHops b - 1) } else acted

/-- Whether a travel notice is acted on (R102 to R104). -/
def State.actsOn (s : State) (n : Nat) (b : TravelBody) : Bool :=
  s.weighsNotice b && fromItsSide s.ssl.own n b.direction
    && !s.ltc.recent.contains (b.origin.toNat, b.sequence.toNat)

theorem State.travelNotice_eq (s : State) (c : Configuration) (n : Nat) (b : TravelBody) :
    s.travelNotice c n b = if s.actsOn n b then s.travelled c b else s := rfl

theorem State.travelled_frame (s : State) (c : Configuration) (b : TravelBody) :
    s.travelled c b = { s with
      ltc := { s.ltc with
        recent := recentAdd (b.origin.toNat, b.sequence.toNat) s.ltc.recent
        prelight := .active c.site.prelightHold }
      lc := if 0 < takenHops b
        then s.lc.postNotice .travel { b with hops := toByte (takenHops b - 1) }.bytes else s.lc } := by
  unfold State.travelled
  dsimp only
  split <;> rfl

/-- Each of the conditions under which a travel notice is passed over (R102 to R104). -/
theorem State.actsOn_eq_false {b : TravelBody} (h : s.ssl.startup ≠ .run ∨ s.fmc.inForce = true
    ∨ (b.origin.toNat, b.sequence.toNat) ∈ s.ltc.recent
    ∨ isBayNumber b.origin.toNat = false ∨ b.origin.toNat = s.ssl.own
    ∨ 1 < b.direction.toNat ∨ (b.direction.toNat = 1 ∧ s.ssl.own < n)
    ∨ (b.direction.toNat = 0 ∧ n < s.ssl.own)) : s.actsOn n b = false := by
  unfold State.actsOn State.weighsNotice fromItsSide
  rcases h with h | h | h | h | h | h | ⟨hd, h⟩ | ⟨hd, h⟩
  · have hrun : s.ssl.startup.isRun = false := by
      rw [Bool.eq_false_iff]
      exact fun hr => h ((Startup.isRun_iff _).1 hr)
    simp [hrun]
  · simp [h]
  · simp [h]
  · simp [h]
  · simp [h]
  · simp [show ¬ b.direction.toNat ≤ 1 by omega]
  · have hone : b.direction = 1 := BitVec.eq_of_toNat_eq hd
    simp [hone, show ¬ n < s.ssl.own by omega]
  · have hzero : b.direction = 0 := BitVec.eq_of_toNat_eq hd
    simp [hzero, show ¬ s.ssl.own < n by omega]

theorem State.actsOn_eq_true {b : TravelBody} (hrun : s.ssl.startup = .run) (hf : s.fmc.inForce = false)
    (hnew : (b.origin.toNat, b.sequence.toNat) ∉ s.ltc.recent) (hbay : isBayNumber b.origin.toNat = true)
    (hown : b.origin.toNat ≠ s.ssl.own)
    (hside : (b.direction.toNat = 1 ∧ n < s.ssl.own) ∨ (b.direction.toNat = 0 ∧ s.ssl.own < n)) :
    s.actsOn n b = true := by
  have hlist : s.ltc.recent.contains (b.origin.toNat, b.sequence.toNat) = false := by simpa using hnew
  unfold State.actsOn State.weighsNotice fromItsSide
  rw [hlist]
  rcases hside with ⟨hd, h⟩ | ⟨hd, h⟩
  · have hone : b.direction = 1 := BitVec.eq_of_toNat_eq hd
    simp [hrun, Startup.isRun, hf, hbay, hown, hone, h]
  · have hzero : b.direction = 0 := BitVec.eq_of_toNat_eq hd
    simp [hrun, Startup.isRun, hf, hbay, hown, hzero, h]

end Accepted

/-- Settles O51: the counts of the store by `Lc.sharedBytes_eq`, a received notice by `State.actsOn`. -/
theorem travelNoticesAreActedOnOnce : Obligations.TravelNoticesAreActedOnOnce := by
  refine ⟨fun l => ⟨?bytes, ?frames⟩, fun l k b hb => ?refused, fun s c n b now hc h hf => ?received⟩
  case bytes =>
    rw [Lc.sharedBytes_eq, Nat.add_comm, ← Nat.add_assoc]
    refine congrArg _ ?_
    cases l.tx with
    | idle | holding => rfl
    | sending f => cases f <;> rfl
    | lost f => rcases f with _ | f <;> [rfl; cases f <;> rfl]
  case frames =>
    rw [Lc.sharedFrames_eq, Nat.add_comm, ← Nat.add_assoc]
    refine congrArg _ ?_
    cases l.tx with
    | idle | holding => rfl
    | sending f => cases f <;> rfl
    | lost f => rcases f with _ | f <;> [rfl; cases f <;> rfl]
  case refused => unfold Lc.postNotice Lc.answer; rw [if_pos hb]
  case received =>
    have hexec : exec (.travel n b now) s
        = .next ({ s with lc := (s.lc.advance now).framePassed }.travelNotice c n.toNat b) := by
      rw [exec_travel, whenReleased_accept_atMoment (f := .travel b) h hf]
      change Host.Outcome.next ({ s with lc := (s.lc.advance now).framePassed }.travelFrame n.toNat b) = _
      unfold State.travelFrame
      rw [hc]
    have hacts : State.actsOn { s with lc := (s.lc.advance now).framePassed } n.toNat b = s.actsOn n.toNat b := rfl
    refine ⟨_, hexec, ?_⟩
    rw [State.travelNotice_eq, hacts]
    refine ⟨?_, ?_, ?_, fun hno => ?_, fun hrun hfire hnew hbay hown hside => ?_⟩
    · split
      · rw [State.travelled_frame]
      · rfl
    · split
      · rw [State.travelled_frame]
      · rfl
    · split
      · rw [State.travelled_frame]
      · rfl
    · rw [if_neg (by rw [State.actsOn_eq_false hno]; decide)]
      exact ⟨rfl, rfl⟩
    · rw [if_pos (State.actsOn_eq_true hrun hfire hnew hbay hown hside), State.travelled_frame]
      dsimp only
      obtain ⟨k, hk, -⟩ := recentAdd_eq (b.origin.toNat, b.sequence.toNat) s.ltc.recent
      refine ⟨rfl, ?_, fun hzero => ?_, fun l hl hpos => ?_⟩
      · rw [hk]
        exact List.getLast?_concat
      · rw [if_neg (by unfold takenHops; omega)]
        rfl
      · subst hl
        rw [if_pos (by unfold takenHops; omega)]
        obtain ⟨hroom, hfull⟩ := (s.lc.advance now).framePassed.postNotice_of_short .travel
          (b := { b with hops := toByte (takenHops b - 1) }.bytes) (Nat.le_of_ble_eq_true rfl)
        refine ⟨fun hbytes hframes => ?_, fun hno => ?_⟩
        · rw [hroom hbytes hframes]
          exact ⟨rfl, rfl⟩
        · rw [hfull hno]
          exact ⟨rfl, rfl⟩

/-! ### An ALARM frame (R163, R164) -/

/-- Settles O52: `State.alarmFrame` by the mode. -/
theorem alarmFrameEntersOrNamesTheFire : Obligations.AlarmFrameEntersOrNamesTheFire := by
  intro s n b o h ho
  have hexec : exec (.alarm n b) s = .next ({ s with lc := s.lc.framePassed }.alarmFrame b) := by
    change Host.Outcome.next (s.accept n.toNat (.alarm b)) = _
    rw [State.accept_of_canAccept (State.canAccept_of_hears (k := .alarm) h rfl)]
    rfl
  have hbody : bodyOrigin b = o := ho.symm
  refine ⟨_, hexec, ?_⟩
  cases hm : s.fmc.mode with
  | normal =>
    have heq : { s with lc := s.lc.framePassed }.alarmFrame b
        = { s with lc := s.lc.framePassed }.enterFire .heard o := by
      simp [State.alarmFrame, hm, hbody]
    rw [heq]
    exact ⟨rfl, rfl, rfl, rfl, rfl, rfl, fun _ => ⟨rfl, rfl, rfl, State.enterFire_lights _ _,
      State.enterFire_stages _ _, State.enterFire_curtains _ _, State.enterFire_events _ _⟩,
      fun hf => by simp [Fmc.inForce, hm] at hf, fun hf => (nomatch hf), fun _ hf => (nomatch hf),
      fun _ hf => (nomatch hf)⟩
  | fire cause origin =>
    have heq : { s with lc := s.lc.framePassed }.alarmFrame b
        = { s with lc := s.lc.framePassed, fmc := { s.fmc with
            mode := .fire cause (if cause = .heard ∧ origin = none then o else origin) } } := by
      have hsame : s.fmc = { s.fmc with mode := .fire cause origin } := by rw [← hm]
      unfold State.alarmFrame
      rw [hm, hbody]
      cases cause with
      | own => simp [← hsame]
      | heard =>
        cases origin with
        | some m => simp [← hsame]
        | none =>
          cases o with
          | some k => rfl
          | none => simp [← hsame]
    rw [heq]
    refine ⟨rfl, rfl, rfl, rfl, rfl, rfl, fun hn => (nomatch hn), fun _ => ⟨rfl, rfl⟩, fun hf => ?_, fun m hf => ?_,
      fun m hf => ?_⟩
    · obtain ⟨rfl, rfl⟩ : cause = .heard ∧ origin = none := by simpa using hf
      rfl
    · obtain ⟨rfl, rfl⟩ : cause = .heard ∧ origin = some m := by simpa using hf
      simp [← hm]
    · obtain ⟨rfl, rfl⟩ : cause = .own ∧ origin = m := by simpa using hf
      simp [← hm]

/-! ### INQUIRY and REPORT (R75, R176) -/

section Report

variable {s : State} {c : Configuration}

theorem Peers.takeInquiry_refreshed (p : Peers) (n : Byte) :
    (slot? p.panels n.toNat = none → p.takeInquiry n.toNat = p)
      ∧ (slot? p.panels n.toNat ≠ none → p.refreshed (p.takeInquiry n.toNat) n) := by
  unfold Peers.takeInquiry
  cases hs : slot? p.panels n.toNat with
  | none => exact ⟨fun _ => rfl, fun hno => absurd rfl hno⟩
  | some e => exact ⟨fun hno => (nomatch hno), fun _ => p.refreshed_takePanel n⟩

/-- A REPORT's body is at most 40 long, below the store's limit (R176). -/
theorem State.reportBody_length (s : State) (c : Configuration) : (s.reportBody c).length ≤ 48 := by
  have hevents : ((s.ssl.events.take 4).flatMap Event.bytes).length = (s.ssl.events.take 4).length * 4 := by
    rw [List.length_flatMap]
    simp [Event.bytes, halfBytes]
  have hfour : (s.ssl.events.take 4).length ≤ 4 := List.length_take_le _ _
  unfold State.reportBody
  simp only [List.length_append, hevents, Counters.bytes, halfBytes, List.length_cons, List.length_nil,
    List.length_flatMap, List.map_cons, List.map_nil, List.sum_cons, List.sum_nil]
  omega

/-- A REPORT posted: its records are noted where it is taken (R176). -/
theorem State.postReport_eq (s : State) (c : Configuration) :
    s.postReport c = { s with
      lc := s.lc.postNotice .report (s.reportBody c)
      ssl := { s.ssl with report := if s.lc.answer (s.reportBody c).length = .taken
        then ⟨min 4 s.ssl.events.length, false⟩ else s.ssl.report } } := by
  unfold State.postReport
  dsimp only
  cases h : s.lc.answer (s.reportBody c).length <;> rfl

theorem State.inquiry_eq (h : s.cfg = some c) (target : Nat) :
    s.inquiry target = if s.ssl.startup = .run ∧ target = s.ssl.own ∧ s.lc.reportPending = false
      then s.postReport c else s := by
  unfold State.inquiry
  rw [h]
  dsimp only
  refine if_congr ?_ rfl rfl
  rw [Bool.and_eq_true, Bool.and_eq_true, Startup.isRun_iff, and_assoc, beq_iff_eq]
  simp

end Report

/-- The station once an INQUIRY has passed the line and the table. -/
def State.inquired (s : State) (p : Byte) (now : Nat) : State := { s with
  lc := (s.lc.advance now).framePassed
  pt := if s.ssl.startup.takesFrames then s.pt.takeInquiry p.toNat else s.pt }

/-- Settles O53: `State.inquiry_eq` at the station whose table has taken the INQUIRY. -/
theorem inquiryIsAnsweredByAReport : Obligations.InquiryIsAnsweredByAReport := by
  refine ⟨fun k => by cases k <;> rfl, fun k => by cases k <;> rfl, fun a => by cases a <;> rfl,
    fun s c p target now hc h hp => ?_⟩
  obtain ⟨habsent, hpresent⟩ := s.pt.takeInquiry_refreshed p
  have hexec : exec (.inquiry p target now) s = .next ((s.inquired p now).inquiry target.toNat) := by
    rw [exec_inquiry, whenReleased_accept_atMoment (f := .inquiry target) h hp]
    change Host.Outcome.next (State.inquiry (State.peersTake _ _) _) = _
    unfold State.peersTake
    unfold State.inquired
    cases s.ssl.startup.takesFrames <;> rfl
  have hinquiry := State.inquiry_eq (s := s.inquired p now) (c := c) hc target.toNat
  have hpt : ((s.inquired p now).inquiry target.toNat).pt = (s.inquired p now).pt := by
    rw [hinquiry, State.postReport_eq]
    split <;> rfl
  refine ⟨_, hexec, ?frame, fun hno => ?_, fun ht hsome => ?_, fun hno => ?quiet,
    fun l body hl hrun htarget hpend hbody => ?report⟩
  case frame =>
    rw [hinquiry, State.postReport_eq]
    split <;> rfl
  · rw [hpt]
    unfold State.inquired
    rw [habsent hno, ite_self]
  · rw [hpt]
    unfold State.inquired
    rw [if_pos ht]
    exact hpresent hsome
  case quiet =>
    rw [hinquiry, if_neg]
    · exact ⟨rfl, rfl⟩
    · rintro ⟨hrun, htarget, hpend⟩
      rcases hno with hno | hno | hno
      · exact hno hrun
      · exact hno htarget
      · exact absurd (hno.symm.trans hpend) (by decide)
  case report =>
    subst hl
    have hpost : (s.inquired p now).inquiry target.toNat = (s.inquired p now).postReport c := by
      rw [hinquiry]
      exact if_pos ⟨hrun, htarget, hpend⟩
    have hbody' : (s.inquired p now).reportBody c = body := by
      rw [hbody]
      unfold State.reportBody
      unfold State.inquired
      cases s.ssl.overflow <;> rfl
    have hlen := hbody' ▸ (s.inquired p now).reportBody_length c
    obtain ⟨hroom, hfull⟩ := (s.inquired p now).lc.postNotice_of_short .report hlen
    rw [hpost, State.postReport_eq, hbody']
    refine ⟨fun hbytes hframes => ?_, fun hno => ?_⟩
    · rw [hroom hbytes hframes]
      refine ⟨rfl, rfl, if_pos ?_⟩
      unfold Lc.answer
      rw [if_neg (by omega), if_neg]
      exact not_or.2 ⟨Nat.not_lt.2 hbytes, Nat.not_le.2 hframes⟩
    · rw [hfull hno]
      have hdropped : (s.inquired p now).lc.answer body.length = .dropped := by
        unfold Lc.answer
        rw [if_neg (by omega)]
        exact if_pos hno
      refine ⟨rfl, ?_, rfl⟩
      rw [hdropped]
      rfl

end Sys2Proof.Machine
end

