-- ==== Sys2Proof/Proofs/CalendarSecond.lean ====
section
/-! PROOFS. The evaluation of the operating phase, record by record, and the SCU's second (O17 to O22). -/

namespace Sys2Proof.Machine

/-! ### What an evaluation makes of a record (R29, R30) -/

section Records

variable {cal : List CalEntry} {t k o d : Nat} {l : List Amendment}

/-- CLOSE and LIGHT_FORCE records outlast an evaluation, and none is made by one. -/
theorem mem_broughtUp_timed {a : Amendment} (h : a.isTimed = true) :
    a ∈ l.filterMap (Amendment.broughtUp cal t) ↔ a ∈ l := by
  have hfilter := filter_isTimed_broughtUp cal t l
  constructor
  · intro ha
    have hmem : a ∈ (l.filterMap (Amendment.broughtUp cal t)).filter Amendment.isTimed :=
      List.mem_filter.2 ⟨ha, h⟩
    rw [hfilter] at hmem
    exact List.mem_of_mem_filter hmem
  · intro ha
    exact List.mem_filterMap.2 ⟨a, ha, Amendment.broughtUp_of_isTimed h⟩

/-- What an evaluation can bring a record to that is a HOLD (R29). -/
theorem Amendment.broughtUp_eq_hold {a : Amendment} {st : HoldStage}
    (h : a.broughtUp cal t = some (.hold o k d st)) :
    (baseEntry cal t = k ∧ minutesForward (entryMinute cal k) t < d ∧ st = .holding ∧ ∃ st', a = .hold o k d st')
      ∨ (baseEntry cal t ≠ k ∧ baseEntry cal t = entryBefore cal k ∧ st = .waiting ∧ a = .hold o k d .waiting) := by
  cases a with
  | advance o' k' =>
    simp only [Amendment.broughtUp] at h
    split at h <;> cases h
  | close | lightForce => cases h
  | hold o' k' d' st' =>
    simp only [Amendment.broughtUp] at h
    split at h
    next hbase =>
      split at h
      next hlt =>
        cases h
        exact .inl ⟨hbase, hlt, rfl, _, rfl⟩
      next => cases h
    next hbase =>
      split at h
      next hbefore =>
        cases st' with
        | waiting =>
          cases h
          exact .inr ⟨hbase, hbefore, rfl, rfl⟩
        | holding => cases h
      next => cases h

/-- A HOLD on the base entry is HOLDING through its window (R29). -/
theorem mem_broughtUp_holding (hbase : baseEntry cal t = k) (hlt : minutesForward (entryMinute cal k) t < d)
    {st : HoldStage} (h : .hold o k d st ∈ l) :
    .hold o k d .holding ∈ l.filterMap (Amendment.broughtUp cal t) :=
  List.mem_filterMap.2 ⟨_, h, by simp only [Amendment.broughtUp, hbase, if_true, if_pos hlt]⟩

/-- A WAITING HOLD waits while the base entry is the one before its own (R29). -/
theorem mem_broughtUp_waiting (hbefore : baseEntry cal t = entryBefore cal k) (hne : baseEntry cal t ≠ k)
    (h : .hold o k d .waiting ∈ l) : .hold o k d .waiting ∈ l.filterMap (Amendment.broughtUp cal t) :=
  List.mem_filterMap.2 ⟨_, h, by simp only [Amendment.broughtUp, if_neg hne, if_pos hbefore]⟩

/-- No HOLD on an entry outlasts an evaluation off it but a WAITING one on the entry behind the base entry. -/
theorem not_mem_broughtUp_holding (hne : baseEntry cal t ≠ k) :
    .hold o k d .holding ∉ l.filterMap (Amendment.broughtUp cal t) := by
  intro h
  obtain ⟨a, -, ha⟩ := List.mem_filterMap.1 h
  rcases Amendment.broughtUp_eq_hold ha with ⟨hbase, -⟩ | ⟨-, -, hst, -⟩
  · exact hne hbase
  · cases hst

/-- A HOLD past its window retires at the evaluation on its entry (R29). -/
theorem not_mem_broughtUp_past (hbase : baseEntry cal t = k) (hle : d ≤ minutesForward (entryMinute cal k) t)
    (st : HoldStage) : .hold o k d st ∉ l.filterMap (Amendment.broughtUp cal t) := by
  intro h
  obtain ⟨a, -, ha⟩ := List.mem_filterMap.1 h
  rcases Amendment.broughtUp_eq_hold ha with ⟨-, hlt, -⟩ | ⟨hne, -⟩
  · omega
  · exact hne hbase

/-- A HOLD whose entry is neither the base entry nor the one behind it retires (R29). -/
theorem not_mem_broughtUp_away (hne : baseEntry cal t ≠ k) (hbefore : baseEntry cal t ≠ entryBefore cal k)
    (st : HoldStage) : .hold o k d st ∉ l.filterMap (Amendment.broughtUp cal t) := by
  intro h
  obtain ⟨a, -, ha⟩ := List.mem_filterMap.1 h
  rcases Amendment.broughtUp_eq_hold ha with ⟨hbase, -⟩ | ⟨-, hb, -⟩
  · exact hne hbase
  · exact hbefore hb

/-- An ADVANCE stands exactly while the base entry is the one before its own (R30). -/
theorem mem_broughtUp_advance :
    .advance o k ∈ l.filterMap (Amendment.broughtUp cal t) ↔ baseEntry cal t = entryBefore cal k
        ∧ .advance o k ∈ l := by
  rw [List.mem_filterMap]
  constructor
  · rintro ⟨a, ha, h⟩
    cases a with
    | advance o' k' =>
      simp only [Amendment.broughtUp] at h
      split at h
      next hbase =>
        cases h
        exact ⟨hbase, ha⟩
      next => cases h
    | close | lightForce => cases h
    | hold o' k' d' st' =>
      simp only [Amendment.broughtUp] at h
      split at h
      · split at h <;> cases h
      · split at h
        · cases st' <;> cases h
        · cases h
  · rintro ⟨hbase, h⟩
    exact ⟨_, h, if_pos hbase⟩

end Records

/-! ### The phase and the latch of an evaluation (R34 to R36) -/

section Evaluated

variable {u : Scu} {c : Configuration} {br : BayRecord} {b : Bool}

/-- Whether an evaluation sets the latch (R36). -/
def Scu.latches (u : Scu) (c : Configuration) (br : BayRecord) (b : Bool) : Bool :=
  b && u.valid && !(u.evaluated c br b).bayClosed
    && scheduledPhase c.calendar u.minute (u.evaluated c br b).amendments == .closed && !u.latch
    && preheatReached c br u.minute (u.evaluated c br b).amendments

theorem Scu.evaluated_phase_latch (u : Scu) (c : Configuration) (br : BayRecord) (b : Bool) :
    ((u.evaluated c br b).phase, (u.evaluated c br b).latch)
      = operatingPhase (u.evaluated c br b).bayClosed u.valid
        (scheduledPhase c.calendar u.minute (u.evaluated c br b).amendments) (u.latch || u.latches c br b) := rfl

theorem Scu.evaluated_of_closed (h : (u.evaluated c br b).bayClosed = true) :
    (u.evaluated c br b).phase = .closed ∧ (u.evaluated c br b).latch = false := by
  have heq := u.evaluated_phase_latch c br b
  rw [h] at heq
  exact Prod.mk.inj heq

theorem Scu.evaluated_of_invalid (h : (u.evaluated c br b).bayClosed = false) (hv : u.valid = false) :
    (u.evaluated c br b).phase = .work ∧ (u.evaluated c br b).latch = u.latch := by
  have heq := u.evaluated_phase_latch c br b
  have hsets : u.latches c br b = false := by simp [Scu.latches, hv]
  rw [h, hv, hsets, Bool.or_false] at heq
  exact Prod.mk.inj heq

theorem Scu.evaluated_of_planned_closed (h : (u.evaluated c br b).bayClosed = false) (hv : u.valid = true)
    (hp : scheduledPhase c.calendar u.minute (u.evaluated c br b).amendments = .closed) :
    (u.evaluated c br b).phase = (if (u.evaluated c br b).latch then .preheat else .closed)
      ∧ (u.evaluated c br b).latch = (u.latch || u.latches c br b) := by
  have heq := u.evaluated_phase_latch c br b
  rw [h, hv, hp] at heq
  cases hl : u.latch || u.latches c br b <;> rw [hl] at heq <;> obtain ⟨hphase, hlatch⟩ := Prod.mk.inj heq <;>
    rw [hphase, hlatch] <;> exact ⟨rfl, rfl⟩

theorem Scu.evaluated_of_planned_open (h : (u.evaluated c br b).bayClosed = false) (hv : u.valid = true)
    (hp : scheduledPhase c.calendar u.minute (u.evaluated c br b).amendments ≠ .closed) :
    (u.evaluated c br b).phase
        = operating (scheduledPhase c.calendar u.minute (u.evaluated c br b).amendments)
      ∧ (u.evaluated c br b).latch = false := by
  have heq := u.evaluated_phase_latch c br b
  rw [h, hv] at heq
  generalize scheduledPhase c.calendar u.minute (u.evaluated c br b).amendments = planned at *
  cases planned with
  | closed => exact absurd rfl hp
  | work | brk | changeover => exact Prod.mk.inj heq

/-- The latch after an evaluation (R35, R36). -/
theorem Scu.evaluated_latch_iff (u : Scu) (c : Configuration) (br : BayRecord) (b : Bool) :
    (u.evaluated c br b).latch = true ↔ (u.evaluated c br b).bayClosed = false
      ∧ ((u.valid = false ∧ u.latch = true)
        ∨ (u.valid = true
          ∧ scheduledPhase c.calendar u.minute (u.evaluated c br b).amendments = .closed
          ∧ (u.latch || u.latches c br b) = true)) := by
  cases hclosed : (u.evaluated c br b).bayClosed with
  | true => simp [(Scu.evaluated_of_closed hclosed).2]
  | false =>
    cases hv : u.valid with
    | false => simp [(Scu.evaluated_of_invalid hclosed hv).2]
    | true =>
      by_cases hp : scheduledPhase c.calendar u.minute (u.evaluated c br b).amendments = .closed
      · simp [(Scu.evaluated_of_planned_closed hclosed hv hp).2, hp]
      · simp [(Scu.evaluated_of_planned_open hclosed hv hp).2, hp]

theorem preheatReached_iff (c : Configuration) (br : BayRecord) (t : Nat) (l : List Amendment) :
    preheatReached c br t l = true ↔ ∃ k, preheatTarget c.calendar (pendingEntry c.calendar t l) = some k
      ∧ minutesForward t ((entryMinute c.calendar k + holdDelay k l) % 10080) ≤ preheatLead c br := by
  unfold preheatReached
  cases preheatTarget c.calendar (pendingEntry c.calendar t l) <;> simp

/-- The latch set by an evaluation that finds it clear (R36). -/
theorem Scu.evaluated_latch_of_clear (hl : u.latch = false) :
    (u.evaluated c br b).latch = true ↔ b = true ∧ u.valid = true ∧ (u.evaluated c br b).bayClosed = false
      ∧ scheduledPhase c.calendar u.minute (u.evaluated c br b).amendments = .closed
      ∧ preheatReached c br u.minute (u.evaluated c br b).amendments = true := by
  rw [Scu.evaluated_latch_iff, hl, Bool.false_or]
  unfold Scu.latches
  simp only [Bool.and_eq_true, Bool.not_eq_true', beq_iff_eq, hl]
  constructor
  · rintro ⟨h, ⟨-, hno⟩ | ⟨hv, hp, ⟨⟨⟨⟨hb, -⟩, -⟩, -⟩, -⟩, hreach⟩⟩
    · cases hno
    · exact ⟨hb, hv, h, hp, hreach⟩
  · rintro ⟨hb, hv, h, hp, hreach⟩
    exact ⟨h, .inr ⟨hv, hp, ⟨⟨⟨⟨hb, hv⟩, h⟩, hp⟩, trivial⟩, hreach⟩⟩

end Evaluated

/-! ### The SCU's second (R23, R26, R33, R41) -/

section Second

variable {s : State} {c : Configuration}

theorem exec_scuSampleEvent (s : State) : exec .scuSampleEvent s = whenReleased s State.scuSample := rfl

theorem exec_minuteBoundary (s : State) :
    exec .minuteBoundary s = whenDue (s.scu.second == 59) s State.scuSample := rfl

theorem exec_elapsedMinuteTick (s : State) :
    exec .elapsedMinuteTick s = whenDue (s.scu.elapsed == 59) s State.scuSample := rfl

theorem exec_holdRetire (k : Nat) (s : State) :
    exec (.holdRetire k) s = whenDue (s.holdRetireDue k) s State.scuSample := rfl

theorem exec_amendmentExpiry (s : State) :
    exec .amendmentExpiry s = whenDue s.amendmentDue s State.scuSample := rfl

theorem exec_scuSampleEvent_of_released (h : s.held = none) :
    exec .scuSampleEvent s = .next s.scuSample := (exec_scuSampleEvent s).trans (whenReleased_free _ h)

/-- The second before the comparison of signatures: the time, and the source where it is lost. -/
theorem State.scuSecond_eq (s : State) :
    s.scuSecond = { s.scu.oneSecond with
      rank := if s.sourceIsLost then 15 else s.scu.rank
      source := if s.sourceIsLost then none else s.scu.source
      amendments := if s.scu.elapsed = 59 then s.scu.amendments.filterMap Amendment.tick
        else s.scu.amendments } := by
  unfold State.scuSecond
  dsimp only
  cases s.sourceIsLost <;> split <;> rfl

/-- The comparison of signatures sets the mismatch mark and may write an event (R41). -/
theorem State.compareSignatures_frame (s : State) :
    s.compareSignatures = { s with
      scu := { s.scu with mismatch := s.compareSignatures.scu.mismatch }
      ssl := { s.ssl with
        events := s.compareSignatures.ssl.events, overflow := s.compareSignatures.ssl.overflow
        report := s.compareSignatures.ssl.report } } := by
  unfold State.compareSignatures
  split
  · rfl
  · split
    · rfl
    · dsimp only
      split
      · rfl
      · exact congrArg (fun l => { s with scu := { s.scu with mismatch := true }, ssl := l })
          (Ssl.writeEvent_kept _ _)

/-- What the second's evaluation starts from. -/
def State.scuBefore (s : State) : Scu :=
  { s.scuSecond with mismatch := State.compareSignatures { s with scu := s.scuSecond } |>.scu.mismatch }

theorem State.scuSample_frame (s : State) :
    s.scuSample = { s with
      scu := s.scuSample.scu
      hsu := { s.hsu with rotation := s.scuSample.hsu.rotation }
      ssl := { s.ssl with
        events := s.scuSample.ssl.events, overflow := s.scuSample.ssl.overflow
        report := s.scuSample.ssl.report } } := by
  have hhsu : s.scuSample.hsu = { s.hsu with rotation := s.scuSample.hsu.rotation } := by
    have hkept := State.evaluate_hsu_kept (State.compareSignatures { s with scu := s.scuSecond }) (s.scu.second == 59)
    have hsame : (State.compareSignatures { s with scu := s.scuSecond }).hsu = s.hsu := by
      rw [State.compareSignatures_frame]
    rw [hsame] at hkept
    exact hkept
  rw [← hhsu]
  unfold State.scuSample
  rw [State.evaluate_frame]
  dsimp only
  rw [State.compareSignatures_frame]

theorem State.scuSample_scu (h : s.cfg = some c) :
    s.scuSample.scu = s.scuBefore.evaluated c s.br (s.scu.second == 59) := by
  have hcfg : (State.compareSignatures { s with scu := s.scuSecond }).cfg = some c := by
    rw [State.compareSignatures_frame]
    exact h
  unfold State.scuSample
  rw [State.evaluate_scu_of_cfg hcfg, State.compareSignatures_frame]
  rfl

theorem State.scuSample_scu_of_none (h : s.cfg = none) :
    s.scuSample.scu = { s.scuBefore with phase := .work } := by
  have hcfg : (State.compareSignatures { s with scu := s.scuSecond }).cfg = none := by
    rw [State.compareSignatures_frame]
    exact h
  unfold State.scuSample State.evaluate
  rw [hcfg, State.withScu_scu, State.compareSignatures_frame]
  rfl

/-- The time, the rank and the source are the second's own; the evaluation changes the records, the phase and
the latch. -/
theorem State.scuSample_kept (s : State) :
    s.scuSample.scu = { s.scuBefore with
      amendments := s.scuSample.scu.amendments, phase := s.scuSample.scu.phase, latch := s.scuSample.scu.latch } := by
  cases h : s.cfg with
  | none => rw [State.scuSample_scu_of_none h]
  | some c => rw [State.scuSample_scu h]; rfl

theorem State.scuBefore_eq (s : State) :
    s.scuBefore = { s.scu.oneSecond with
      rank := if s.sourceIsLost then 15 else s.scu.rank
      source := if s.sourceIsLost then none else s.scu.source
      amendments := if s.scu.elapsed = 59 then s.scu.amendments.filterMap Amendment.tick
        else s.scu.amendments
      mismatch := s.scuBefore.mismatch } := by
  unfold State.scuBefore
  rw [State.scuSecond_eq]

theorem State.scuSample_minute (s : State) : s.scuSample.scu.minute = s.scu.oneSecond.minute := by
  rw [State.scuSample_kept, State.scuBefore_eq]

theorem State.sourceIsLost_iff (s : State) :
    s.sourceIsLost = true ↔ ∃ n, s.scu.source = some n ∧ s.pt.age? n = some .lost := by
  unfold State.sourceIsLost
  cases s.scu.source <;> simp

end Second

/-- Settles O17: `State.scuSample_kept` and `State.scuBefore_eq`. -/
theorem timeOfWeekAdvances : Obligations.TimeOfWeekAdvances := by
  intro s h
  have hframe := s.scuSample_frame
  have hkept := s.scuSample_kept
  rw [State.scuBefore_eq] at hkept
  refine ⟨_, exec_scuSampleEvent_of_released h, fun hlt => ?second, fun h59 => ?minute, fun hlt => ?elapsed,
    fun h59 => ?tick, ?valid, fun n hn hlost => ?lost, fun hno => ?kept, ?frame, ?hsu, ?ssl⟩
  case second =>
    rw [hkept]
    exact ⟨if_neg (by omega), if_neg (by omega)⟩
  case minute =>
    have hrow := (exec_minuteBoundary s).trans (whenDue_due State.scuSample h (by simp [h59]))
    refine ⟨?_, ?_, hrow⟩ <;> rw [hkept] <;> exact if_pos h59
  case elapsed =>
    rw [hkept]
    exact if_neg (by omega)
  case tick =>
    refine ⟨?_, (exec_elapsedMinuteTick s).trans (whenDue_due _ h (by simp [h59]))⟩
    rw [hkept]
    exact if_pos h59
  case valid => rw [hkept]; rfl
  case lost =>
    rw [hkept]
    exact ⟨if_pos ((State.sourceIsLost_iff s).2 ⟨n, hn, hlost⟩), if_pos ((State.sourceIsLost_iff s).2 ⟨n, hn, hlost⟩)⟩
  case kept =>
    have hsource : ¬ s.sourceIsLost = true := by
      rw [State.sourceIsLost_iff]
      rintro ⟨n, hn, hlost⟩
      exact hno n hn hlost
    rw [hkept]
    exact ⟨if_neg hsource, if_neg hsource⟩
  case frame => rw [hframe]
  case hsu => rw [hframe]
  case ssl => rw [hframe]

/-! ### Countdowns (R33) -/

theorem Amendment.tick_isTimed {a a' : Amendment} (h : a.tick = some a') : a'.isTimed = a.isTimed := by
  cases a with
  | hold | advance => cases h; rfl
  | close o r =>
    cases r with
    | none => cases h; rfl
    | some r => simp only [Amendment.tick] at h; split at h <;> cases h; rfl
  | lightForce o r v => simp only [Amendment.tick] at h; split at h <;> cases h; rfl

theorem mem_tick_close {l : List Amendment} {o r : Nat} :
    .close o (some r) ∈ l.filterMap Amendment.tick ↔ 1 ≤ r ∧ .close o (some (r + 1)) ∈ l := by
  rw [List.mem_filterMap]
  constructor
  · rintro ⟨a, ha, h⟩
    cases a with
    | hold | advance => cases h
    | lightForce o' q v => simp only [Amendment.tick] at h; split at h <;> cases h
    | close o' q =>
      cases q with
      | none => cases h
      | some q =>
        simp only [Amendment.tick] at h
        split at h
        next => cases h
        next hq =>
          cases h
          rw [Nat.sub_add_cancel (by omega)]
          exact ⟨by omega, ha⟩
  · rintro ⟨hr, h⟩
    exact ⟨_, h, if_neg (by omega)⟩

theorem mem_tick_lightForce {l : List Amendment} {o r v : Nat} :
    .lightForce o r v ∈ l.filterMap Amendment.tick ↔ 1 ≤ r ∧ .lightForce o (r + 1) v ∈ l := by
  rw [List.mem_filterMap]
  constructor
  · rintro ⟨a, ha, h⟩
    cases a with
    | hold | advance => cases h
    | close o' q =>
      cases q with
      | none => cases h
      | some q => simp only [Amendment.tick] at h; split at h <;> cases h
    | lightForce o' q w =>
      simp only [Amendment.tick] at h
      split at h
      next => cases h
      next hq =>
        cases h
        rw [Nat.sub_add_cancel (by omega)]
        exact ⟨by omega, ha⟩
  · rintro ⟨hr, h⟩
    exact ⟨_, h, if_neg (by omega)⟩

theorem mem_tick_endless {l : List Amendment} {o : Nat} :
    .close o none ∈ l.filterMap Amendment.tick ↔ .close o none ∈ l := by
  rw [List.mem_filterMap]
  constructor
  · rintro ⟨a, ha, h⟩
    cases a with
    | hold | advance => cases h
    | lightForce o' q v => simp only [Amendment.tick] at h; split at h <;> cases h
    | close o' q =>
      cases q with
      | none => cases h; exact ha
      | some q => simp only [Amendment.tick] at h; split at h <;> cases h
  · exact fun h => ⟨_, h, rfl⟩

/-- The HOLD and ADVANCE records do not count down. -/
theorem mem_tick_of_not_isTimed {l : List Amendment} {a : Amendment} (h : a.isTimed = false) :
    a ∈ l.filterMap Amendment.tick ↔ a ∈ l := by
  have hself : ∀ b : Amendment, b.isTimed = false → b.tick = some b := by
    intro b hb
    cases b with
    | hold | advance => rfl
    | close | lightForce => cases hb
  rw [List.mem_filterMap]
  constructor
  · rintro ⟨b, hb, htick⟩
    rw [hself b ((Amendment.tick_isTimed htick).symm.trans h)] at htick
    cases htick
    exact hb
  · exact fun ha => ⟨a, ha, hself a h⟩

section Second

variable {s : State} {c : Configuration}

/-- The timed records after the second are those of the countdown, whether an image is adopted or not. -/
theorem State.mem_scuSample_timed {a : Amendment} (h : a.isTimed = true) :
    a ∈ s.scuSample.scu.amendments ↔ a ∈ s.scuBefore.amendments := by
  cases hc : s.cfg with
  | none => rw [State.scuSample_scu_of_none hc]
  | some c =>
    rw [State.scuSample_scu hc]
    exact mem_broughtUp_timed h

theorem State.scuBefore_amendments (s : State) :
    s.scuBefore.amendments = if s.scu.elapsed = 59 then s.scu.amendments.filterMap Amendment.tick
      else s.scu.amendments := by
  rw [State.scuBefore_eq]

/-- The HOLD and ADVANCE records an evaluation meets are those listed. -/
theorem State.mem_scuBefore_of_not_isTimed {a : Amendment} (h : a.isTimed = false) :
    a ∈ s.scuBefore.amendments ↔ a ∈ s.scu.amendments := by
  rw [State.scuBefore_amendments]
  split
  · exact mem_tick_of_not_isTimed h
  · rfl

end Second

/-- Settles O18: the countdown by record, the evaluation keeping every timed record. -/
theorem timedAmendmentsCountDown : Obligations.TimedAmendmentsCountDown := by
  intro s h
  refine ⟨_, exec_scuSampleEvent_of_released h, fun o => ?endless, fun hne a ha => ?still, fun h59 o r hr => ?close,
    fun h59 o r v hr => ?force, fun h59 o v => ?gone, fun h59 hone => ?row⟩
  case endless =>
    rw [State.mem_scuSample_timed rfl, State.scuBefore_amendments]
    split
    · exact mem_tick_endless
    · rfl
  case still => rw [State.mem_scuSample_timed ha, State.scuBefore_amendments, if_neg hne]
  case close =>
    rw [State.mem_scuSample_timed rfl, State.scuBefore_amendments, if_pos h59, mem_tick_close]
    exact and_iff_right hr
  case force =>
    rw [State.mem_scuSample_timed rfl, State.scuBefore_amendments, if_pos h59, mem_tick_lightForce]
    exact and_iff_right hr
  case gone =>
    rw [State.mem_scuSample_timed rfl, State.mem_scuSample_timed rfl, State.scuBefore_amendments, if_pos h59,
      mem_tick_close, mem_tick_lightForce]
    exact ⟨fun hno => absurd hno.1 (by omega), fun hno => absurd hno.1 (by omega)⟩
  case row =>
    rw [exec_amendmentExpiry]
    refine whenDue_due _ h ?_
    unfold State.amendmentDue
    rw [Bool.and_eq_true, beq_iff_eq, List.any_eq_true]
    refine ⟨h59, ?_⟩
    obtain ⟨o, hclose | ⟨v, hforce⟩⟩ := hone
    · exact ⟨_, hclose, rfl⟩
    · exact ⟨_, hforce, rfl⟩

/-! ### A HOLD at its second (R29) -/

section Hold

variable {s : State} {c : Configuration}

theorem State.scuSample_amendments (h : s.cfg = some c) :
    s.scuSample.scu.amendments
      = s.scuBefore.amendments.filterMap (Amendment.broughtUp c.calendar s.scuSample.scu.minute) := by
  have hminute : s.scuSample.scu.minute = s.scuBefore.minute := by rw [State.scuSample_kept]
  rw [hminute, State.scuSample_scu h]
  rfl

/-- The row of a HOLD that retires with its entry in force (R29). -/
theorem exec_holdRetire_of_due (h : s.works c) {o k d : Nat} {stage : HoldStage}
    (hmem : .hold o k d stage ∈ s.scu.amendments) (hbase : baseEntry c.calendar s.scuSample.scu.minute = k)
    (hd : d ≤ minutesForward (entryMinute c.calendar k) s.scuSample.scu.minute) :
    exec (.holdRetire k) s = .next s.scuSample := by
  rw [State.scuSample_minute] at hbase hd
  rw [exec_holdRetire]
  refine whenDue_due _ h.1 ?_
  unfold State.holdRetireDue State.calendar
  rw [h.2]
  simp only [Option.isSome_some, Bool.true_and, Bool.and_eq_true, beq_iff_eq, List.any_eq_true]
  exact ⟨hbase, _, hmem, by simpa using hd⟩

end Hold

/-- Settles O19: the HOLD at its evaluation, case by case of the base entry. -/
theorem holdRetiresAtItsDelay : Obligations.HoldRetiresAtItsDelay := by
  refine ⟨fun s c o k d m stage h hmem hm hbase hd => ?retires, fun s c o k d stage h hmem => ?second⟩
  case retires =>
    have hminute : s.scuSample.scu.minute = m := (State.scuSample_minute s).trans hm.symm
    subst hminute
    refine ⟨_, exec_holdRetire_of_due h hmem hbase hd, exec_scuSampleEvent_of_released h.1, rfl,
      fun o' st => ?gone, fun honly hcal => ?_⟩
    case gone =>
      rw [State.scuSample_amendments h.2]
      exact not_mem_broughtUp_past hbase hd st
    have hall : s.scuSample.scu.amendments.all Amendment.isTimed = true := by
      rw [List.all_eq_true]
      intro a ha
      by_contra hno
      rw [Bool.not_eq_true] at hno
      have hgone : a ∉ s.scuSample.scu.amendments := by
        rw [State.scuSample_amendments h.2] at ha ⊢
        obtain ⟨x, hx, hup⟩ := List.mem_filterMap.1 ha
        have htimed := (Amendment.isTimed_of_broughtUp hup).symm.trans hno
        have hlist : x ∈ s.scu.amendments.filter fun a => !a.isTimed := List.mem_filter.2
          ⟨(State.mem_scuBefore_of_not_isTimed htimed).1 hx, by rw [htimed]; rfl⟩
        rw [honly, List.mem_singleton] at hlist
        subst hlist
        rw [broughtUp_hold_onBase _ _ _ hbase, if_neg (by omega)] at hup
        cases hup
      exact hgone ha
    rw [scheduledPhase_of_timed (List.length_pos_iff.2 hcal) hall, hbase]
  case second =>
    have hlist := State.scuSample_amendments h.2
    have hsame := (State.mem_scuBefore_of_not_isTimed (s := s) (a := .hold o k d stage) rfl).2 hmem
    refine ⟨_, exec_scuSampleEvent_of_released h.1, fun hbase hlt => ?_, fun hbase hd => ⟨fun o' st => ?_, ?_⟩,
      fun hbefore hne => ⟨fun hwait => ?_, ?_⟩, fun hne hbefore st => ?_⟩
    · rw [hlist]
      exact mem_broughtUp_holding hbase hlt hsame
    · rw [hlist]
      exact not_mem_broughtUp_past hbase hd st
    · exact exec_holdRetire_of_due h hmem hbase hd
    · rw [hlist]
      exact mem_broughtUp_waiting hbefore hne ((State.mem_scuBefore_of_not_isTimed rfl).2 hwait)
    · rw [hlist]
      exact not_mem_broughtUp_holding hne
    · rw [hlist]
      exact not_mem_broughtUp_away hne hbefore st

/-! ### The calendar (R21, R22, R34) -/

section Ring

variable {cal : List CalEntry} {t k : Nat} {l : List Amendment}

theorem any_holdsNow_iff : l.any (Amendment.holdsNow k) = true ↔ ∃ o d, .hold o k d .holding ∈ l := by
  rw [List.any_eq_true]
  constructor
  · rintro ⟨a, ha, h⟩
    cases a with
    | hold o e d st =>
      cases st with
      | waiting => cases h
      | holding =>
        obtain rfl : e = k := by simpa [Amendment.holdsNow] using h
        exact ⟨o, d, ha⟩
    | advance | close | lightForce => cases h
  · rintro ⟨o, d, h⟩
    exact ⟨_, h, beq_self_eq_true k⟩

theorem any_advances_iff : l.any (Amendment.advances k) = true ↔ ∃ o, .advance o k ∈ l := by
  rw [List.any_eq_true]
  constructor
  · rintro ⟨a, ha, h⟩
    cases a with
    | advance o e =>
      obtain rfl : e = k := by simpa [Amendment.advances] using h
      exact ⟨o, ha⟩
    | hold | close | lightForce => cases h
  · rintro ⟨o, h⟩
    exact ⟨_, h, beq_self_eq_true k⟩

/-- The scheduled phase of a calendar with entries (R34). -/
theorem scheduledPhase_of_ne_nil (h : cal ≠ []) :
    scheduledPhase cal t l = if l.any (Amendment.advances (pendingEntry cal t l)) then
      entryPhase cal (pendingEntry cal t l) else entryPhase cal (entryInForce cal t l) := by
  unfold scheduledPhase
  rw [if_neg (by simpa using h)]

/-- In an ascending calendar the entries at or before a minute are the first ones. -/
theorem getElem_minute_le_iff : ∀ {cal : List CalEntry}, (cal.map CalEntry.minute).Pairwise (· < ·) →
    ∀ (i : Nat) (hi : i < cal.length),
      cal[i].minute ≤ t ↔ i < cal.countP fun e => decide (e.minute ≤ t)
  | [], _, i, hi => absurd hi (Nat.not_lt_zero i)
  | e :: rest, hasc, i, hi => by
    obtain ⟨hlt, hrest⟩ := List.pairwise_cons.1 (List.map_cons ▸ hasc)
    by_cases he : e.minute ≤ t
    · rw [List.countP_cons_of_pos (by simpa using he)]
      cases i with
      | zero => simpa using he
      | succ i =>
        rw [List.getElem_cons_succ, getElem_minute_le_iff hrest i (by simpa using hi), Nat.succ_lt_succ_iff]
    · have hnone : (e :: rest).countP (fun e => decide (e.minute ≤ t)) = 0 := by
        rw [List.countP_eq_zero]
        intro x hx
        rcases List.mem_cons.1 hx with rfl | hx
        · simpa using he
        · have := hlt _ (List.mem_map_of_mem hx)
          simp only [decide_eq_true_eq]
          omega
      rw [hnone]
      refine iff_of_false ?_ (Nat.not_lt_zero i)
      cases i with
      | zero => exact he
      | succ i =>
        have := hlt _ (List.mem_map_of_mem (List.getElem_mem (l := rest) (n := i) (by simpa using hi)))
        rw [List.getElem_cons_succ]
        omega

theorem entryMinute_eq_getElem (h : 1 ≤ k) (hk : k - 1 < cal.length) : entryMinute cal k = cal[k - 1].minute := by
  unfold entryMinute entry?
  rw [if_neg (by omega), List.getElem?_eq_getElem hk]

end Ring

theorem Hsu.bump_of_cons {h : Hsu} {k : Nat} {rest : List Nat} (hr : h.rotation = k :: rest) :
    h.bump.rotation = rest ++ [k] := by
  unfold Hsu.bump
  rw [hr]

/-- A change of the operating phase, and nothing else, bumps the rotation order (R38). -/
theorem State.scuSample_hsu (s : State) :
    s.scuSample.hsu = if s.scuSample.scu.phase = s.scu.phase then s.hsu else s.hsu.bump := by
  have hsame : (State.compareSignatures { s with scu := s.scuSecond }).hsu = s.hsu
      ∧ (State.compareSignatures { s with scu := s.scuSecond }).scu.phase = s.scu.phase := by
    rw [State.compareSignatures_frame, State.scuSecond_eq]
    exact ⟨rfl, rfl⟩
  have heq := hsame
  unfold State.scuSample State.evaluate State.withScu
  dsimp only
  rw [hsame.1, hsame.2]

/-- Settles O20: the ring, the ascending calendar, and `Scu.evaluated` at the second. -/
theorem operatingPhaseFollowsTheCalendar : Obligations.OperatingPhaseFollowsTheCalendar := by
  refine ⟨fun c p => by cases p <;> exact ⟨rfl, rfl⟩, fun cal t k l hcal hbase => ⟨fun hheld => ?held,
      fun hnone => ?free⟩,
    fun cal t hcal hasc => ?ascending, fun s c h => ?second⟩
  case held =>
    have hpos : 1 ≤ cal.length := List.length_pos_iff.2 hcal
    have hk : 1 ≤ k ∧ k ≤ cal.length := hbase ▸ ⟨baseEntry_pos hpos t, baseEntry_le cal t⟩
    have hforce : entryInForce cal t l = entryBefore cal k := by
      unfold entryInForce
      rw [hbase]
      exact if_pos (any_holdsNow_iff.2 hheld)
    have hpending : pendingEntry cal t l = k := by
      unfold pendingEntry
      rw [hforce, entryAfter_entryBefore hk.1 hk.2]
    refine ⟨hpending, fun hno => ?_⟩
    rw [scheduledPhase_of_ne_nil hcal, hpending, if_neg (by rw [any_advances_iff]; rintro ⟨o, ho⟩; exact hno o ho),
      hforce]
    unfold entryBefore
    refine congrArg _ (if_congr ?_ rfl rfl)
    omega
  case free =>
    have hpos : 1 ≤ cal.length := List.length_pos_iff.2 hcal
    have hle : k ≤ cal.length := hbase ▸ baseEntry_le cal t
    have hforce : entryInForce cal t l = k := by
      unfold entryInForce
      rw [hbase]
      refine if_neg ?_
      rw [any_holdsNow_iff]
      rintro ⟨o, d, ho⟩
      exact hnone o d ho
    have hpending : pendingEntry cal t l = if k = cal.length then 1 else k + 1 := by
      unfold pendingEntry entryAfter
      rw [hforce]
      refine if_congr ?_ rfl rfl
      omega
    refine ⟨hpending, fun o ho => ?_⟩
    rw [scheduledPhase_of_ne_nil hcal, hpending, if_pos (any_advances_iff.2 ⟨o, ho⟩)]
  case ascending =>
    have hpos : 1 ≤ cal.length := List.length_pos_iff.2 hcal
    refine ⟨baseEntry_pos hpos t, baseEntry_le cal t, fun hsome => ?_, fun hnone => ?_⟩
    · have hpassed : 0 < cal.countP fun e => decide (e.minute ≤ t) := by
        rw [List.countP_pos_iff]
        obtain ⟨e, he, hle⟩ := hsome
        exact ⟨e, he, decide_eq_true hle⟩
      have hlast : cal.countP (fun e => decide (e.minute ≤ t)) ≤ cal.length := List.countP_le_length
      have hbase : baseEntry cal t = cal.countP fun e => decide (e.minute ≤ t) := if_neg (by omega)
      rw [hbase, entryMinute_eq_getElem hpassed (by omega)]
      refine ⟨(getElem_minute_le_iff hasc _ _).2 (by omega), fun k hk hklen hle => ?_⟩
      rw [entryMinute_eq_getElem hk (by omega)] at hle ⊢
      have hkp := (getElem_minute_le_iff hasc (k - 1) (by omega)).1 hle
      by_cases heq : k = cal.countP fun e => decide (e.minute ≤ t)
      · subst heq
        exact le_rfl
      · have hmono := List.pairwise_iff_getElem.1 hasc (k - 1) (cal.countP (fun e => decide (e.minute ≤ t)) - 1)
          (by simpa using (by omega : k - 1 < cal.length)) (by rw [List.length_map]; omega) (by omega)
        rw [List.getElem_map, List.getElem_map] at hmono
        exact hmono.le
    · refine if_pos (List.countP_eq_zero.2 fun e he => ?_)
      have := hnone e he
      simpa using this
  case second =>
    have hscu := State.scuSample_scu h.2
    have hvalid : s.scuBefore.valid = s.scu.valid := by rw [State.scuBefore_eq]; rfl
    have hlatch : s.scuBefore.latch = s.scu.latch := by rw [State.scuBefore_eq]; rfl
    have hhsu := State.scuSample_hsu s
    refine ⟨_, exec_scuSampleEvent_of_released h.1, fun hc => ?_, fun hc hv => ?_, fun hc hv => ⟨fun hp => ?_,
        fun hp => ?_⟩,
      fun hnil => by rw [hnil]; rfl, fun hcal hall => ?_, fun hsame => ?_, fun hne k rest hr => ?_⟩
    · rw [hscu] at hc ⊢
      exact Scu.evaluated_of_closed hc
    · rw [hscu] at hc ⊢
      rw [← hlatch]
      exact Scu.evaluated_of_invalid hc (hvalid.trans hv)
    · rw [hscu] at hc hp ⊢
      exact (Scu.evaluated_of_planned_closed hc (hvalid.trans hv) hp).1
    · rw [hscu] at hc hp ⊢
      exact Scu.evaluated_of_planned_open hc (hvalid.trans hv) hp
    · exact scheduledPhase_of_timed (List.length_pos_iff.2 hcal) hall
    · rw [hhsu, if_pos hsame]
    · rw [hhsu, if_neg hne]
      exact Hsu.bump_of_cons hr

/-! ### Pre-heat (R36) -/

theorem isWorkPhase_iff (p : CalPhase) : isWorkPhase p = true ↔ p = .work ∨ p = .changeover := by
  cases p <;> simp [isWorkPhase]

theorem isWorkPhase_eq_false_iff (p : CalPhase) : isWorkPhase p = false ↔ p = .closed ∨ p = .brk := by
  cases p <;> simp [isWorkPhase]

/-- Every entry comes round from the pending one on. -/
theorem exists_ring_index {n pending j : Nat} (hp : 1 ≤ pending) (hn : pending ≤ n) (hj : 1 ≤ j) (hjn : j ≤ n) :
    ∃ i, i < n ∧ (pending - 1 + i) % n + 1 = j := by
  by_cases hle : pending ≤ j
  · refine ⟨j - pending, by omega, ?_⟩
    rw [show pending - 1 + (j - pending) = j - 1 by omega, Nat.mod_eq_of_lt (by omega)]
    omega
  · refine ⟨j + n - pending, by omega, ?_⟩
    rw [show pending - 1 + (j + n - pending) = j - 1 + n by omega, Nat.add_mod_right,
      Nat.mod_eq_of_lt (by omega)]
    omega

/-- Settles O21: `preheatTarget` as a search round the ring, the latch by `Scu.evaluated_latch_iff`. -/
theorem preheatLatchIsSetAtTheLead : Obligations.PreheatLatchIsSetAtTheLead := by
  refine ⟨fun c br hb => ?lead, fun c br hb => ?blind, fun cal pending k hp hn at_ hat => ⟨?target, ?none⟩,
    fun s c h hl => ?set, fun s c h hl => ?clear⟩
  case lead =>
    unfold preheatLead
    split
    · exact absurd ‹_› hb
    all_goals omega
  case blind => simp [preheatLead, hb]
  case target =>
    have hfun : (fun i => (pending - 1 + i) % cal.length + 1) = at_ := (funext hat).symm
    unfold preheatTarget
    rw [hfun, List.find?_map, Option.map_eq_some_iff]
    constructor
    · rintro ⟨i, hi, rfl⟩
      obtain ⟨hwork, hmem, hbefore⟩ := List.find?_range_eq_some.1 hi
      refine ⟨i, List.mem_range.1 hmem, rfl, (isWorkPhase_iff _).1 hwork, fun j hj => ?_⟩
      exact (isWorkPhase_eq_false_iff _).1 (by simpa using hbefore j hj)
    · rintro ⟨i, hi, rfl, hwork, hbefore⟩
      refine ⟨i, List.find?_range_eq_some.2 ⟨(isWorkPhase_iff _).2 hwork, List.mem_range.2 hi, fun j hj => ?_⟩, rfl⟩
      have := (isWorkPhase_eq_false_iff _).2 (hbefore j hj)
      simpa using this
  case none =>
    unfold preheatTarget
    rw [List.find?_eq_none]
    constructor
    · intro hall j hj hjn
      obtain ⟨i, hi, hij⟩ := exists_ring_index hp hn hj hjn
      refine (isWorkPhase_eq_false_iff _).1 ?_
      have := hall j (List.mem_map.2 ⟨i, List.mem_range.2 hi, hij⟩)
      simpa using this
    · intro hall x hx
      obtain ⟨i, hi, rfl⟩ := List.mem_map.1 hx
      have hlt := Nat.mod_lt (pending - 1 + i) (by omega : 0 < cal.length)
      rw [(isWorkPhase_eq_false_iff _).2 (hall _ (by omega) (by omega))]
      decide
  case set =>
    have hscu := State.scuSample_scu h.2
    have hvalid : s.scuBefore.valid = s.scu.valid := by rw [State.scuBefore_eq]; rfl
    have hlatch : s.scuBefore.latch = true := by rw [State.scuBefore_eq]; exact hl
    refine ⟨_, exec_scuSampleEvent_of_released h.1, ?_⟩
    have hiff := s.scuBefore.evaluated_latch_iff c s.br (s.scu.second == 59)
    rw [hlatch, hvalid, Bool.true_or] at hiff
    rw [hscu]
    refine hiff.trans (and_congr_right fun _ => ?_)
    change _ ↔ s.scu.valid = false ∨ scheduledPhase c.calendar s.scuBefore.minute _ = .closed
    cases s.scu.valid <;> simp
  case clear =>
    have hscu := State.scuSample_scu h.2
    have hvalid : s.scuBefore.valid = s.scu.valid := by rw [State.scuBefore_eq]; rfl
    have hlatch : s.scuBefore.latch = false := by rw [State.scuBefore_eq]; exact hl
    have hiff := Scu.evaluated_latch_of_clear (c := c) (br := s.br) (b := s.scu.second == 59) hlatch
    rw [hvalid] at hiff
    refine ⟨_, exec_scuSampleEvent_of_released h.1, fun hne => ?_, fun h59 => ?_⟩
    · rw [hscu, Bool.eq_false_iff]
      intro hset
      obtain ⟨hb, -⟩ := hiff.1 hset
      exact hne (by simpa using hb)
    · rw [hscu]
      refine hiff.trans ?_
      rw [preheatReached_iff]
      simp only [h59, beq_self_eq_true, true_and]
      rfl

/-! ### The mismatch of signatures (R41) -/

/-- A slot of an ascending table holds what the table lists under its number. -/
theorem slot?_eq_some_iff {α : Type} {n : Nat} {v : α} : ∀ {l : List (Nat × α)},
    (l.map Prod.fst).Pairwise (· < ·) → (slot? l n = some v ↔ (n, v) ∈ l)
  | [], _ => by simp [slot?]
  | (k, w) :: rest, h => by
    obtain ⟨hlt, hrest⟩ := List.pairwise_cons.1 (List.map_cons ▸ h)
    unfold slot?
    split
    next hk =>
      subst hk
      have hno : (k, v) ∉ rest := fun hmem => Nat.lt_irrefl _ (hlt k (List.mem_map.2 ⟨_, hmem, rfl⟩))
      simp [hno, eq_comm]
    next hk =>
      rw [slot?_eq_some_iff hrest]
      simp [Ne.symm hk]

theorem Peers.mem_differing {p : Peers} (h : (p.bays.map Prod.fst).Pairwise (· < ·)) {own : Half} {n : Nat} :
    n ∈ p.differing own ↔ ∃ b, p.fresh n = some b ∧ b.signature ≠ own := by
  unfold Peers.differing Peers.fresh
  rw [List.mem_map]
  constructor
  · rintro ⟨⟨m, e⟩, hmem, rfl⟩
    obtain ⟨hmem, hany⟩ := List.mem_filter.1 hmem
    obtain ⟨b, hb, hsig⟩ := (Option.any_eq_true _ _).1 hany
    refine ⟨b, ?_, by simpa using hsig⟩
    rw [(slot?_eq_some_iff h).2 hmem]
    exact hb
  · rintro ⟨b, hb, hsig⟩
    obtain ⟨e, he, heb⟩ := Option.bind_eq_some_iff.1 hb
    refine ⟨(n, e), List.mem_filter.2 ⟨(slot?_eq_some_iff h).1 he, ?_⟩, rfl⟩
    rw [heb]
    simpa using hsig

theorem Peers.differing_pairwise {p : Peers} (h : (p.bays.map Prod.fst).Pairwise (· < ·)) (own : Half) :
    (p.differing own).Pairwise (· < ·) :=
  h.sublist (List.filter_sublist.map _)

/-- The comparison of signatures by the stations that differ (R41). -/
theorem State.scuSample_compared {s : State} {c : Configuration} (h : s.cfg = some c) :
    (s.scuSample.scu.mismatch = true ↔ s.pt.differing (toHalf c.signature) ≠ [])
      ∧ (s.scu.mismatch = true ∨ s.pt.differing (toHalf c.signature) = [] → s.scuSample.ssl = s.ssl)
      ∧ (s.scu.mismatch = false → ∀ n rest, s.pt.differing (toHalf c.signature) = n :: rest →
        s.scuSample.ssl = s.ssl.writeEvent ⟨.calendarMismatch, n, s.scuSample.scu.minute⟩) := by
  have hssl : s.scuSample.ssl = (State.compareSignatures { s with scu := s.scuSecond }).ssl := rfl
  have hmismatch : s.scuSample.scu.mismatch
      = (State.compareSignatures { s with scu := s.scuSecond }).scu.mismatch := by
    rw [State.scuSample_kept]
    rfl
  have hminute : s.scuSample.scu.minute = s.scuSecond.minute := by
    rw [State.scuSample_minute, State.scuSecond_eq]
  have hsecond : s.scuSecond.mismatch = s.scu.mismatch := by
    rw [State.scuSecond_eq]
    rfl
  rw [hssl, hmismatch, hminute]
  unfold State.compareSignatures
  rw [h]
  dsimp only
  rw [hsecond]
  cases hd : s.pt.differing (toHalf c.signature) with
  | nil => simp
  | cons n rest =>
    dsimp only
    cases hm : s.scu.mismatch with
    | true => simp
    | false =>
      refine ⟨by simp, fun hno => by simp at hno, fun _ m rest' hcons => ?_⟩
      cases hcons
      rfl

/-- Settles O22: the stations that differ are listed ascending, the lowest first. -/
theorem calendarMismatchNamesTheLowest : Obligations.CalendarMismatchNamesTheLowest := by
  intro s c h hasc
  obtain ⟨hiff, hquiet, hevent⟩ := State.scuSample_compared h.2
  have hmem : ∀ n, n ∈ s.pt.differing (toHalf c.signature)
      ↔ ∃ b, s.pt.fresh n = some b ∧ b.signature ≠ toHalf c.signature := fun n => Peers.mem_differing hasc
  refine ⟨_, exec_scuSampleEvent_of_released h.1, ?_, fun hno => ?_, fun hm n b hb hsig hlow => ?_⟩
  · rw [hiff, ← exists_congr hmem]
    exact ⟨List.exists_mem_of_ne_nil _, fun ⟨_, hn⟩ => List.ne_nil_of_mem hn⟩
  · refine hquiet (hno.imp_right fun hfalse => ?_)
    by_contra hne
    rw [hiff.2 hne] at hfalse
    cases hfalse
  · have hn := (hmem n).2 ⟨b, hb, hsig⟩
    cases hd : s.pt.differing (toHalf c.signature) with
    | nil =>
      rw [hd] at hn
      cases hn
    | cons k rest =>
      have hk : k = n := by
        obtain ⟨b', hb', hsig'⟩ := (hmem k).1 (hd ▸ List.mem_cons_self)
        have hle := hlow k b' hb' hsig'
        have hsorted := Peers.differing_pairwise hasc (toHalf c.signature)
        rw [hd] at hn hsorted
        rcases List.mem_cons.1 hn with heq | hrest
        · exact heq.symm
        · have := (List.pairwise_cons.1 hsorted).1 n hrest
          omega
      rw [hevent hm k rest hd, Ssl.writeEvent_events, hk]

end Sys2Proof.Machine
end

