-- ==== Sys2Proof/Proofs/TimeFrames.lean ====
section
/-! PROOFS. Accepted frames of time and state at the Peer Table and the SCU, and the table's second (O23 to
O26). -/

namespace Sys2Proof.Machine

/-! ### The table's second (R78, R79) -/

section Ages

variable {s : State} {c : Configuration} {n : Nat}

theorem exec_ptSampleEvent (s : State) : exec .ptSampleEvent s = whenReleased s State.ptSample := rfl

theorem exec_entryStale (n : Nat) (s : State) :
    exec (.entryStale n) s = whenDue (s.ageDue n .fresh .stale) s State.ptSample := rfl

theorem exec_entryLost (n : Nat) (s : State) :
    exec (.entryLost n) s = whenDue (s.ageDue n .stale .lost) s State.ptSample := rfl

theorem State.ptSample_of_works (h : s.works c) : s.ptSample = { s with pt := s.pt.older } := by
  unfold State.ptSample
  rw [h.2]

theorem Peers.older_bays (p : Peers) (n : Nat) : slot? p.older.bays n = (slot? p.bays n).map BayEntry.older :=
  slot?_map _ _ _

theorem Peers.older_panels (p : Peers) (n : Nat) :
    slot? p.older.panels n = (slot? p.panels n).map PanelEntry.older := slot?_map _ _ _

theorem bayAge_spec (i : Interval) (q : Nat) :
    (q ≤ 2 * i.seconds → bayAge i q = .fresh) ∧ (2 * i.seconds < q → q ≤ 4 * i.seconds → bayAge i q = .stale)
      ∧ (4 * i.seconds < q → bayAge i q = .lost) := by
  unfold bayAge
  refine ⟨fun h => if_pos h, fun h h' => ?_, fun h => ?_⟩
  · rw [if_neg (by omega), if_pos h']
  · rw [if_neg (by omega), if_neg (by omega)]

theorem panelAge_spec (q : Nat) :
    (q ≤ 120 → panelAge q = .fresh) ∧ (120 < q → q ≤ 240 → panelAge q = .stale)
      ∧ (240 < q → panelAge q = .lost) := by
  unfold panelAge
  refine ⟨fun h => if_pos h, fun h h' => ?_, fun h => ?_⟩
  · rw [if_neg (by omega), if_pos h']
  · rw [if_neg (by omega), if_neg (by omega)]

theorem intervalSeconds_bounds (i : Interval) : 2 ≤ i.seconds ∧ i.seconds ≤ 16 := by
  cases i <;> decide

/-- A bay station's entry that passes from one age to another names the row (R78). -/
theorem State.ageDue_of_bay (h : s.works c) {e : BayEntry} (he : slot? s.pt.bays n = some e) {was will : Age}
    (hwas : e.age = was) (hwill : e.older.age = will) : s.ageDue n was will = true := by
  simp [State.ageDue, h.2, Peers.age?, Peers.older_bays, he, hwas, hwill]

/-- A panel's entry that passes from one age to another names the row (R79). -/
theorem State.ageDue_of_panel (h : s.works c) (hbay : slot? s.pt.bays n = none) {e : PanelEntry}
    (he : slot? s.pt.panels n = some e) {was will : Age} (hwas : e.age = was) (hwill : e.older.age = will) :
    s.ageDue n was will = true := by
  simp [State.ageDue, h.2, Peers.age?, Peers.older_bays, Peers.older_panels, hbay, he, hwas, hwill]

end Ages

/-- Settles O26: each entry by `BayEntry.older` and `PanelEntry.older`. -/
theorem entriesAgeByTheirSilence : Obligations.EntriesAgeByTheirSilence := by
  intro s c h
  have hsample := State.ptSample_of_works h
  have hstep : exec .ptSampleEvent s = .next { s with pt := s.pt.older } := by
    rw [exec_ptSampleEvent, whenReleased_free _ h.1, hsample]
  have hstale : ∀ n, s.ageDue n .fresh .stale = true →
      exec (.entryStale n) s = .next { s with pt := s.pt.older } := by
    intro n hdue
    rw [exec_entryStale, whenDue_due _ h.1 hdue, hsample]
  have hlost : ∀ n, s.ageDue n .stale .lost = true →
      exec (.entryLost n) s = .next { s with pt := s.pt.older } := by
    intro n hdue
    rw [exec_entryLost, whenDue_due _ h.1 hdue, hsample]
  refine ⟨_, hstep, rfl, fun n e he => ?bay, fun n e he => ?panel, fun n hn => ?_, fun n hn => ?_⟩
  case bay =>
    obtain ⟨hfresh, hmid, hold⟩ := bayAge_spec e.interval (satAdd e.silence 1)
    have hsec := intervalSeconds_bounds e.interval
    refine ⟨e.older, by rw [Peers.older_bays, he]; rfl, rfl, hfresh, hmid, hold, fun hage hq => ?_, fun hage hq => ?_⟩
    · refine hstale n (State.ageDue_of_bay h he hage (hmid ?_ ?_)) <;> rw [satAdd_of_le (by omega)] <;> omega
    · refine hlost n (State.ageDue_of_bay h he hage (hold ?_))
      rw [satAdd_of_le (by omega)]
      omega
  case panel =>
    obtain ⟨hfresh, hmid, hold⟩ := panelAge_spec (satAdd e.silence 1)
    refine ⟨e.older, by rw [Peers.older_panels, he]; rfl, rfl, hfresh, hmid, hold, fun hbay hage hq => ?_,
      fun hbay hage hq => ?_⟩
    · refine hstale n (State.ageDue_of_panel h hbay he hage (hmid ?_ ?_)) <;> rw [satAdd_of_le (by omega)] <;> omega
    · refine hlost n (State.ageDue_of_panel h hbay he hage (hold ?_))
      rw [satAdd_of_le (by omega)]
      omega
  · rw [Peers.older_bays, hn]; rfl
  · rw [Peers.older_panels, hn]; rfl

/-! ### A time step (R25, R27, R29, R30, R35, R36) -/

section Step

variable {s : State} {c : Configuration}

/-- The step lies forward, within half a week (R25). -/
def State.stepsForward (s : State) (minute second : Nat) : Prop :=
  0 < secondsForward (weekSecond s.scu.minute s.scu.second) (weekSecond minute second)
    ∧ secondsForward (weekSecond s.scu.minute s.scu.second) (weekSecond minute second) < 302400

/-- The SCU at a time step before its evaluation. -/
def State.scuAtStep (s : State) (minute second : Nat) : Scu := { s.scu with
  minute := minute, second := second, valid := true, latch := false
  amendments := if 0 < secondsForward (weekSecond s.scu.minute s.scu.second) (weekSecond minute second)
      ∧ secondsForward (weekSecond s.scu.minute s.scu.second) (weekSecond minute second) < 302400
    then s.scu.amendments.filter (Amendment.survivesStep s.calendar s.scu.minute minute) else s.scu.amendments }

theorem State.timeStep_eq (s : State) (minute second : Nat) :
    s.timeStep minute second = State.evaluate { s with scu := s.scuAtStep minute second } true := rfl

theorem State.mem_scuAtStep {minute second : Nat} {a : Amendment} :
    a ∈ (s.scuAtStep minute second).amendments ↔ a ∈ s.scu.amendments
      ∧ (s.stepsForward minute second → a.survivesStep s.calendar s.scu.minute minute = true) := by
  unfold State.scuAtStep State.stepsForward
  dsimp only
  split
  next h => rw [List.mem_filter, forall_prop_of_true h]
  next h => rw [forall_prop_of_false h, and_true]

/-- An evaluation changes the records, the phase and the latch. -/
theorem State.evaluate_scu_kept (s : State) (b : Bool) :
    (s.evaluate b).scu = { s.scu with
      amendments := (s.evaluate b).scu.amendments, phase := (s.evaluate b).scu.phase
      latch := (s.evaluate b).scu.latch } := by
  unfold State.evaluate
  rw [State.withScu_scu]
  split <;> rfl

/-- The entry's minute is among those a forward step skips (R25). -/
theorem skipped_iff (a b m : Nat) :
    skipped a b m = true ↔ 0 < minutesForward a m ∧ minutesForward a m ≤ minutesForward a b := by
  simp [skipped]

theorem survivesStep_waiting (cal : List CalEntry) (a b o k d : Nat) :
    (Amendment.hold o k d .waiting).survivesStep cal a b
      = (!skipped a b (entryMinute cal k) || decide (minutesForward (entryMinute cal k) b < d)) := rfl

theorem survivesStep_advance (cal : List CalEntry) (a b o k : Nat) :
    (Amendment.advance o k).survivesStep cal a b = !skipped a b (entryMinute cal k) := rfl

/-- What a time step makes of the records, the latch and the phase (R27, R29, R30, R35, R36). -/
theorem State.timeStep_stepped (h : s.cfg = some c) (minute second : Nat) :
    s.stepped c (s.timeStep minute second) := by
  have hcal : s.calendar = c.calendar := by simp [State.calendar, h]
  have hscu : (s.timeStep minute second).scu = (s.scuAtStep minute second).evaluated c s.br true := by
    rw [State.timeStep_eq]
    exact State.evaluate_scu_of_cfg (s := { s with scu := s.scuAtStep minute second }) h true
  have hlist : (s.timeStep minute second).scu.amendments
      = (s.scuAtStep minute second).amendments.filterMap (Amendment.broughtUp c.calendar minute) := by
    rw [hscu]
    rfl
  have hsurvives : ∀ {a : Amendment}, a ∈ s.scu.amendments →
      (s.stepsForward minute second → a.survivesStep c.calendar s.scu.minute minute = true) →
      a ∈ (s.scuAtStep minute second).amendments := by
    intro a ha hs
    rw [State.mem_scuAtStep, hcal]
    exact ⟨ha, hs⟩
  have hminute : (s.timeStep minute second).scu.minute = minute := by rw [hscu]; rfl
  have hsecond : (s.timeStep minute second).scu.second = second := by rw [hscu]; rfl
  unfold State.stepped
  rw [hminute, hsecond]
  dsimp only
  refine ⟨fun a ha => ?timed, fun o k d hmem hpassed hd o' st => ?past, fun o k d st hmem hbase hlt => ?holding,
    fun o k d hmem hno hbefore hne => ?waiting, fun o k d hne => ?off, fun o k hgone => ?advanceGone,
    fun o k hmem hno hbefore => ?advance, fun hclosed => ?closed, fun hopen => ⟨?latch, fun hp => ?plannedClosed,
    fun hp => ?plannedOpen⟩⟩
  case timed =>
    rw [hlist, mem_broughtUp_timed ha, State.mem_scuAtStep]
    refine and_iff_left fun _ => ?_
    cases a with
    | hold | advance => cases ha
    | close | lightForce => rfl
  case past =>
    obtain ⟨hpos, hhalf, hskip⟩ := hpassed
    rw [hlist]
    intro hin
    obtain ⟨a, ha, hup⟩ := List.mem_filterMap.1 hin
    obtain ⟨-, hsurvived⟩ := State.mem_scuAtStep.1 ha
    rcases Amendment.broughtUp_eq_hold hup with ⟨-, hlt, -⟩ | ⟨-, -, -, rfl⟩
    · omega
    · have hs := hsurvived ⟨hpos, hhalf⟩
      rw [hcal] at hs
      rw [survivesStep_waiting, (skipped_iff _ _ _).2 hskip, decide_eq_false (by omega)] at hs
      cases hs
  case holding =>
    rw [hlist]
    refine mem_broughtUp_holding hbase hlt (hsurvives hmem fun _ => ?_)
    cases st with
    | holding => rfl
    | waiting =>
      rw [survivesStep_waiting, decide_eq_true hlt, Bool.or_true]
  case waiting =>
    rw [hlist]
    refine mem_broughtUp_waiting hbefore hne (hsurvives hmem fun hforward => ?_)
    have hskip : skipped s.scu.minute minute (entryMinute c.calendar k) = false := by
      rw [Bool.eq_false_iff, Ne, skipped_iff]
      exact fun hs => hno ⟨hforward.1, hforward.2, hs⟩
    rw [survivesStep_waiting, hskip]
    rfl
  case off =>
    rw [hlist]
    exact not_mem_broughtUp_holding hne
  case advanceGone =>
    rw [hlist, mem_broughtUp_advance]
    rintro ⟨hbefore, hin⟩
    obtain ⟨-, hsurvived⟩ := State.mem_scuAtStep.1 hin
    rcases hgone with ⟨hpos, hhalf, hskip⟩ | hne
    · have hs := hsurvived ⟨hpos, hhalf⟩
      rw [hcal] at hs
      rw [survivesStep_advance, (skipped_iff _ _ _).2 hskip] at hs
      cases hs
    · exact hne hbefore
  case advance =>
    rw [hlist, mem_broughtUp_advance]
    refine ⟨hbefore, hsurvives hmem fun hforward => ?_⟩
    have hskip : skipped s.scu.minute minute (entryMinute c.calendar k) = false := by
      rw [Bool.eq_false_iff, Ne, skipped_iff]
      exact fun hs => hno ⟨hforward.1, hforward.2, hs⟩
    rw [survivesStep_advance, hskip]
    rfl
  case closed =>
    rw [hscu] at hclosed ⊢
    exact Scu.evaluated_of_closed hclosed
  case latch =>
    rw [hscu] at hopen ⊢
    rw [Scu.evaluated_latch_of_clear (by rfl), preheatReached_iff]
    exact ⟨fun ⟨_, _, _, hp, hk⟩ => ⟨hp, hk⟩, fun ⟨hp, hk⟩ => ⟨rfl, rfl, hopen, hp, hk⟩⟩
  case plannedClosed =>
    rw [hscu] at hopen hp ⊢
    exact (Scu.evaluated_of_planned_closed hopen rfl hp).1
  case plannedOpen =>
    rw [hscu] at hopen hp ⊢
    exact (Scu.evaluated_of_planned_open hopen rfl hp).1

/-- Times within 2 s of each other, the short way round the week (R25). -/
theorem Scu.near_iff (u : Scu) (minute second : Nat) :
    u.near minute second = true ↔
      secondsForward (weekSecond u.minute u.second) (weekSecond minute second) ≤ 2
        ∨ 604798 ≤ secondsForward (weekSecond u.minute u.second) (weekSecond minute second) := by
  have hlt : secondsForward (weekSecond u.minute u.second) (weekSecond minute second) < 604800 :=
    Nat.mod_lt _ (by omega)
  unfold Scu.near
  rw [decide_eq_true_eq]
  omega

/-- A time adopted: kept within 2 s, stepped to otherwise (R24, R25, R27). -/
theorem State.adoptTime_spec (h : s.cfg = some c) (f r m sec : Nat) :
    (s.adoptTime f r m sec).scu.rank = r + 1 ∧ (s.adoptTime f r m sec).scu.source = some f
      ∧ (s.scu.valid = true →
          secondsForward (weekSecond s.scu.minute s.scu.second) (weekSecond m sec) ≤ 2
            ∨ 604798 ≤ secondsForward (weekSecond s.scu.minute s.scu.second) (weekSecond m sec) →
          (s.adoptTime f r m sec).scu = { s.scu with rank := r + 1, source := some f })
      ∧ (s.scu.valid = false ∨
          (2 < secondsForward (weekSecond s.scu.minute s.scu.second) (weekSecond m sec)
            ∧ secondsForward (weekSecond s.scu.minute s.scu.second) (weekSecond m sec) < 604798) →
          (s.adoptTime f r m sec).scu.valid = true ∧ (s.adoptTime f r m sec).scu.minute = m
          ∧ (s.adoptTime f r m sec).scu.second = sec ∧ (s.adoptTime f r m sec).scu.elapsed = s.scu.elapsed
          ∧ s.stepped c (s.adoptTime f r m sec)) := by
  cases hkeep : s.scu.valid && s.scu.near m sec with
  | true =>
    have hadopt : s.adoptTime f r m sec = { s with scu := { s.scu with rank := r + 1, source := some f } } := by
      unfold State.adoptTime
      rw [hkeep]
      rfl
    rw [Bool.and_eq_true, Scu.near_iff] at hkeep
    obtain ⟨hv, hnear⟩ := hkeep
    rw [hadopt]
    refine ⟨rfl, rfl, fun _ _ => rfl, fun hno => ?_⟩
    rcases hno with hno | ⟨hlo, hhi⟩
    · rw [hv] at hno
      cases hno
    · omega
  | false =>
    have hadopt : s.adoptTime f r m sec
        = State.timeStep { s with scu := { s.scu with rank := r + 1, source := some f } } m sec := by
      unfold State.adoptTime
      rw [hkeep]
      rfl
    have hkept := State.evaluate_scu_kept { s with
      scu := State.scuAtStep { s with scu := { s.scu with rank := r + 1, source := some f } } m sec } true
    rw [hadopt, State.timeStep_eq, hkept]
    refine ⟨rfl, rfl, fun hv hnear => ?_, fun _ => ⟨rfl, rfl, rfl, rfl, ?_⟩⟩
    · rw [hv, (Scu.near_iff _ _ _).2 hnear] at hkeep
      cases hkeep
    · exact State.timeStep_stepped (s := { s with scu := { s.scu with rank := r + 1, source := some f } }) h m sec

/-- The rotation order alone of the HSU follows a time judged. -/
theorem State.judgeTime_hsu_kept (s : State) (f r m sec : Nat) :
    (s.judgeTime f r m sec).hsu = { s.hsu with rotation := (s.judgeTime f r m sec).hsu.rotation } := by
  have hadopt : (s.adoptTime f r m sec).hsu = { s.hsu with rotation := (s.adoptTime f r m sec).hsu.rotation } := by
    unfold State.adoptTime
    dsimp only
    split
    · rfl
    · exact State.evaluate_hsu_kept _ _
  unfold State.judgeTime
  split
  · rfl
  · split
    · split
      · rfl
      · split
        · exact hadopt
        · rfl
    · split
      · exact hadopt
      · rfl

end Step

/-! ### Frames taken (R24, R72 to R76) -/

section Taken

variable {s : State} {c : Configuration} {n : Nat}

theorem Startup.takesFrames_of (h : s.ssl.startup = .run ∨ s.ssl.startup = .join ∨ s.ssl.startup = .listen
    ∨ s.ssl.startup = .strapFault) : s.ssl.startup.takesFrames = true := by
  rcases h with h | h | h | h <;> rw [h] <;> rfl

theorem State.accept_of_hears (h : s.hears n) {f : Frame} (hf : s.filterAccepts n f.kind = true) :
    s.accept n f = State.handOn { s with lc := s.lc.framePassed } n f :=
  State.accept_of_canAccept (State.canAccept_of_hears h hf)

theorem State.peersTake_of_takes (h : s.ssl.startup.takesFrames = true) (f : Peers → Peers) :
    s.peersTake f = { s with pt := f s.pt } := if_pos h

theorem State.peersTake_of_selftest (h : s.ssl.startup = .selftest) (f : Peers → Peers) : s.peersTake f = s := by
  unfold State.peersTake
  rw [h]
  rfl

theorem State.judgeTime_of_selftest (h : s.ssl.startup = .selftest) (f r m sec : Nat) :
    s.judgeTime f r m sec = s := by
  unfold State.judgeTime
  rw [h]
  rfl

theorem timeInRange_iff (m sec : Nat) : timeInRange m sec = true ↔ m ≤ 10079 ∧ sec ≤ 59 := by
  simp [timeInRange]

/-- How a heard time and rank are judged (R24, R26; log 12). -/
theorem State.judgeTime_spec (h : s.ssl.startup.takesFrames = true) (f r m sec : Nat) :
    (s.scu.source = some f → 14 ≤ r → s.judgeTime f r m sec = { s with scu := s.scu.loseSource })
      ∧ (s.scu.source ≠ some f → s.scu.rank ≤ r + 1 → s.judgeTime f r m sec = s)
      ∧ (10079 < m ∨ 59 < sec → s.scu.source ≠ some f ∨ r ≤ 13 → s.judgeTime f r m sec = s)
      ∧ ((s.scu.source = some f ∧ r ≤ 13) ∨ (s.scu.source ≠ some f ∧ r + 1 < s.scu.rank) → m ≤ 10079 → sec ≤ 59 →
        s.judgeTime f r m sec = s.adoptTime f r m sec) := by
  unfold State.judgeTime
  rw [h]
  refine ⟨fun hs hr => ?_, fun hs hr => ?_, fun hout hcase => ?_, fun hcase hm hsec => ?_⟩
  · rw [if_neg (by decide), if_pos hs, if_pos hr]
  · rw [if_neg (by decide), if_neg hs, if_neg (by omega)]
  · have hrange : ¬ timeInRange m sec = true := by rw [timeInRange_iff]; omega
    rw [if_neg (by decide)]
    by_cases hs : s.scu.source = some f
    · have hr := hcase.resolve_left (not_not.2 hs)
      rw [if_pos hs, if_neg (by omega), if_neg hrange]
    · rw [if_neg hs, if_neg (fun hno => hrange hno.2)]
  · have hrange : timeInRange m sec = true := (timeInRange_iff _ _).2 ⟨hm, hsec⟩
    rw [if_neg (by decide), if_pos hrange]
    rcases hcase with ⟨hs, hr⟩ | ⟨hs, hr⟩
    · rw [if_pos hs, if_neg (by omega)]
    · rw [if_neg hs, if_pos ⟨hr, hrange⟩]

/-- The station when a frame has passed the line and the table. -/
def State.taken (s : State) (p : Peers) : State := { s with lc := s.lc.framePassed, pt := p }

/-- What a heard time leaves alone at the station that has taken its frame. -/
theorem State.judged_frame (s : State) (p : Peers) (f r m sec : Nat) :
    s.lc.afterFrame ((s.taken p).judgeTime f r m sec).lc ∧ ((s.taken p).judgeTime f r m sec).pt = p
      ∧ (s.taken p).judgeTime f r m sec = { s with
          scu := ((s.taken p).judgeTime f r m sec).scu, hsu := ((s.taken p).judgeTime f r m sec).hsu
          lc := ((s.taken p).judgeTime f r m sec).lc, pt := ((s.taken p).judgeTime f r m sec).pt }
      ∧ ((s.taken p).judgeTime f r m sec).hsu
        = { s.hsu with rotation := ((s.taken p).judgeTime f r m sec).hsu.rotation } := by
  have hframe := State.judgeTime_frame (s := s.taken p) f r m sec
  have hlc : ((s.taken p).judgeTime f r m sec).lc = s.lc.framePassed := by rw [hframe]; rfl
  have hpt : ((s.taken p).judgeTime f r m sec).pt = p := by rw [hframe]; rfl
  refine ⟨hlc ▸ s.lc.afterFrame_framePassed, hpt, ?_, State.judgeTime_hsu_kept _ _ _ _ _⟩
  rw [hlc, hpt]
  exact hframe

/-- What a heard time that is adopted makes of the SCU (R24, R25, R27). -/
theorem State.judged_adopts (hc : s.cfg = some c) (ht : s.ssl.startup.takesFrames = true) (p : Peers)
    {f r m sec : Nat}
    (hcase : (s.scu.source = some f ∧ r ≤ 13) ∨ (s.scu.source ≠ some f ∧ r + 1 < s.scu.rank))
    (hm : m ≤ 10079) (hsec : sec ≤ 59) :
    ((s.taken p).judgeTime f r m sec).scu.rank = r + 1
      ∧ ((s.taken p).judgeTime f r m sec).scu.source = some f
      ∧ (s.scu.valid = true →
          secondsForward (weekSecond s.scu.minute s.scu.second) (weekSecond m sec) ≤ 2
            ∨ 604798 ≤ secondsForward (weekSecond s.scu.minute s.scu.second) (weekSecond m sec) →
          ((s.taken p).judgeTime f r m sec).scu = { s.scu with rank := r + 1, source := some f })
      ∧ (s.scu.valid = false ∨
          (2 < secondsForward (weekSecond s.scu.minute s.scu.second) (weekSecond m sec)
            ∧ secondsForward (weekSecond s.scu.minute s.scu.second) (weekSecond m sec) < 604798) →
          ((s.taken p).judgeTime f r m sec).scu.valid = true ∧ ((s.taken p).judgeTime f r m sec).scu.minute = m
          ∧ ((s.taken p).judgeTime f r m sec).scu.second = sec
          ∧ ((s.taken p).judgeTime f r m sec).scu.elapsed = s.scu.elapsed
          ∧ ∀ c', s.cfg = some c' → s.stepped c' ((s.taken p).judgeTime f r m sec)) := by
  obtain ⟨-, -, -, hadopts⟩ := State.judgeTime_spec (s := s.taken p) ht f r m sec
  obtain ⟨hrank, hsource, hnear, hfar⟩ := State.adoptTime_spec (s := s.taken p) hc f r m sec
  rw [hadopts hcase hm hsec]
  refine ⟨hrank, hsource, hnear, fun hfor => ?_⟩
  obtain ⟨hv, hmin, hs, he, hstepped⟩ := hfar hfor
  refine ⟨hv, hmin, hs, he, fun c' hc' => ?_⟩
  rw [hc] at hc'
  cases hc'
  exact hstepped

end Taken

/-- Settles O23: the panel's entry by `Peers.takePanel`, its time by `State.judgeTime_spec` at rank 0. -/
theorem timeFrameIsJudgedByRank : Obligations.TimeFrameIsJudgedByRank := by
  have hstep : ∀ (s : State) (p : Byte) (b : TimeBody), s.hears p.toNat → isPanelNumber p.toNat = true →
      exec (.time p b) s = .next (State.judgeTime
        (State.peersTake { s with lc := s.lc.framePassed } fun q => q.takePanel p.toNat) p.toNat 0 b.minute.toNat
          b.second.toNat) := by
    intro s p b h hp
    change Host.Outcome.next (s.accept p.toNat (.time b)) = _
    rw [State.accept_of_hears (f := .time b) h hp]
    rfl
  refine ⟨fun s p b h hp hs => ⟨_, hstep s p b h hp, ?selftest⟩, fun s p b h hp hs => ?taken⟩
  case selftest =>
    rw [State.peersTake_of_selftest (s := { s with lc := s.lc.framePassed }) hs,
      State.judgeTime_of_selftest (s := { s with lc := s.lc.framePassed }) hs]
    exact ⟨rfl, rfl⟩
  case taken =>
    have htakes := Startup.takesFrames_of hs
    obtain ⟨c, hc⟩ := Option.isSome_iff_exists.1 h.2.1
    have htake := State.peersTake_of_takes (s := { s with lc := s.lc.framePassed }) htakes
    have hexec := hstep s p b h hp
    rw [htake] at hexec
    obtain ⟨hlc, hpt, hframe, hhsu⟩ :=
      s.judged_frame (s.pt.takePanel p.toNat) p.toNat 0 b.minute.toNat b.second.toNat
    obtain ⟨-, hworse, hout, -⟩ := State.judgeTime_spec
      (s := s.taken (s.pt.takePanel p.toNat)) htakes p.toNat 0 b.minute.toNat b.second.toNat
    refine ⟨_, hexec, hlc, hpt.symm ▸ s.pt.refreshed_takePanel p, hframe, hhsu,
      fun hs hr => (congrArg State.scu (hworse hs hr)).trans rfl,
      fun hno => (congrArg State.scu (hout hno (.inr (by omega)))).trans rfl, fun hcase hm hsec => ?_⟩
    refine State.judged_adopts hc htakes _ ?_ hm hsec
    by_cases hsrc : s.scu.source = some p.toNat
    · exact .inl ⟨hsrc, by omega⟩
    · exact .inr ⟨hsrc, hcase.resolve_left hsrc⟩

/-- An interval code as the table stores it (R76). -/
theorem Interval.ofAnnounced_eq (b : Byte) :
    Interval.ofAnnounced b = if b = 0 then .s2 else if b = 1 then .s4 else if b = 2 then .s8 else .s16 := rfl

theorem storedStatus_eq (b : StatusBody) :
    storedStatus b = { b with interval := if b.interval.toNat ≤ 3 then b.interval else 3 } := by
  have hcode : toByte (Interval.ofAnnounced b.interval).code = if b.interval.toNat ≤ 3 then b.interval else 3 := by
    rw [Interval.ofAnnounced_eq]
    split
    next h => rw [h]; rfl
    next h0 =>
    split
    next h => rw [h]; rfl
    next h1 =>
    split
    next h => rw [h]; rfl
    next h2 =>
    split
    next h =>
      have hthree : b.interval = 3 := by
        have n0 : b.interval.toNat ≠ 0 := fun h => h0 (BitVec.eq_of_toNat_eq h)
        have n1 : b.interval.toNat ≠ 1 := fun h => h1 (BitVec.eq_of_toNat_eq h)
        have n2 : b.interval.toNat ≠ 2 := fun h => h2 (BitVec.eq_of_toNat_eq h)
        exact BitVec.eq_of_toNat_eq (show b.interval.toNat = 3 by omega)
      rw [hthree]
      rfl
    next h => rfl
  unfold storedStatus
  rw [hcode]

/-- Settles O24: the sender's entry by `Peers.takeStatus`, its time by `State.judgeTime_spec`. -/
theorem statusFrameRefreshesItsSender : Obligations.StatusFrameRefreshesItsSender := by
  have hstep : ∀ (s : State) (n : Byte) (b : StatusBody), s.hears n.toNat → isBayNumber n.toNat = true →
      exec (.status n b) s = .next (State.judgeTime
        (State.peersTake { s with lc := s.lc.framePassed } fun q => q.takeStatus n.toNat b) n.toNat b.rank.toNat
          b.minute.toNat b.second.toNat) := by
    intro s n b h hn
    change Host.Outcome.next (s.accept n.toNat (.status b)) = _
    rw [State.accept_of_hears (f := .status b) h hn]
    rfl
  refine ⟨fun s n b h hn hs => ⟨_, hstep s n b h hn, ?selftest⟩, fun s n b h hn hs => ?taken⟩
  case selftest =>
    rw [State.peersTake_of_selftest (s := { s with lc := s.lc.framePassed }) hs,
      State.judgeTime_of_selftest (s := { s with lc := s.lc.framePassed }) hs]
    exact ⟨rfl, rfl⟩
  case taken =>
    have htakes := Startup.takesFrames_of hs
    obtain ⟨c, hc⟩ := Option.isSome_iff_exists.1 h.2.1
    have htake := State.peersTake_of_takes (s := { s with lc := s.lc.framePassed }) htakes
    have hexec := hstep s n b h hn
    rw [htake] at hexec
    obtain ⟨hlc, hpt, hframe, -⟩ :=
      s.judged_frame (s.pt.takeStatus n.toNat b) n.toNat b.rank.toNat b.minute.toNat b.second.toNat
    obtain ⟨hloses, hworse, hout, -⟩ := State.judgeTime_spec
      (s := s.taken (s.pt.takeStatus n.toNat b)) htakes n.toNat b.rank.toNat b.minute.toNat b.second.toNat
    refine ⟨_, hexec, hlc, (congrArg Peers.panels hpt).trans rfl, ?slot, fun m hm => ?other, hframe,
      fun hs hr => (congrArg State.scu (hloses hs hr)).trans rfl,
      fun hs hr => (congrArg State.scu (hworse hs hr)).trans rfl,
      fun hno hcase => (congrArg State.scu (hout hno hcase)).trans rfl,
      fun hcase hm hsec => State.judged_adopts hc htakes _ hcase hm hsec⟩
    case slot =>
      refine (congrArg (fun q => slot? (Peers.bays q) n.toNat) hpt).trans ?_
      rw [Peers.takeStatus_slot]
      unfold statusEntry
      rw [storedStatus_eq]
      rfl
    case other =>
      refine (congrArg (fun q => slot? (Peers.bays q) m) hpt).trans ?_
      exact s.pt.takeStatus_other _ hm

/-- Settles O25: the sender's entry by `Peers.takePresence`. -/
theorem presenceResetsItsSendersEntry : Obligations.PresenceResetsItsSendersEntry := by
  intro s n b h hn
  have hstep : exec (.presence n b) s = .next { s with
      pt := if s.ssl.startup.takesFrames then s.pt.takePresence n.toNat b else s.pt
      lc := { s.lc.framePassed with presenceMark := true } } := by
    change Host.Outcome.next (s.accept n.toNat (.presence b)) = _
    rw [State.accept_of_hears (f := .presence b) h hn]
    unfold State.handOn State.peersTake
    dsimp only
    cases s.ssl.startup.takesFrames <;> rfl
  refine ⟨_, hstep, rfl, fun hs => ?_, fun hs => ?_⟩
  · dsimp only
    rw [hs]
    rfl
  · dsimp only
    rw [if_pos (Startup.takesFrames_of hs)]
    exact ⟨s.pt.takePresence_slot _ _, fun m hm => s.pt.takePresence_other _ hm, rfl⟩

end Sys2Proof.Machine
end

