-- ==== Sys2Proof/Proofs/FrameCharacters.lean ====
section
/-! PROOFS. The characters of a frame one after another, the receive filter and the frame they come to (O33 to
O35). -/

namespace Sys2Proof.Machine

/-! ### Kinds, lengths and the filter (R47, R51, R179) -/

theorem Kind.ofCode_code (k : Kind) : Kind.ofCode k.code = some k := by
  cases k <;> rfl

theorem Kind.ofCode_eq_some_iff (d : Byte) (k : Kind) : Kind.ofCode d = some k ↔ d = k.code := by
  constructor
  · intro h
    unfold Kind.ofCode at h
    repeat' split at h
    all_goals cases h
    all_goals assumption
  · rintro rfl
    exact Kind.ofCode_code k

/-- The station between is out of the way exactly when it has no entry that is not LOST (R51, R85). -/
theorem Peers.bridged_iff (p : Peers) (m : Nat) :
    p.bridged m = true ↔ ∀ e, slot? p.bays m = some e → e.age = .lost := by
  unfold Peers.bridged
  cases slot? p.bays m <;> simp

theorem isBayNumber_iff (n : Nat) : isBayNumber n = true ↔ 1 ≤ n ∧ n ≤ 48 := by simp [isBayNumber]

theorem isPanelNumber_iff (n : Nat) : isPanelNumber n = true ↔ 56 ≤ n ∧ n ≤ 63 := by simp [isPanelNumber]

/-- A TRAVEL frame is received from the next station, or the one behind it past a station out of the way. -/
theorem State.filterAccepts_travel (s : State) (h : Nat) :
    s.filterAccepts h .travel = true ↔ 1 ≤ h ∧ h ≤ 48
      ∧ (h = s.ssl.own + 1 ∨ s.ssl.own = h + 1
        ∨ (h = s.ssl.own + 2 ∧ ∀ e, slot? s.pt.bays (s.ssl.own + 1) = some e → e.age = .lost)
        ∨ (s.ssl.own = h + 2 ∧ ∀ e, slot? s.pt.bays (h + 1) = some e → e.age = .lost)) := by
  have hup : (s.ssl.own + (s.ssl.own + 2)) / 2 = s.ssl.own + 1 := by omega
  have hdown : (h + 2 + h) / 2 = h + 1 := by omega
  unfold State.filterAccepts
  rw [Bool.and_eq_true, Bool.or_eq_true, Bool.and_eq_true, beq_iff_eq, beq_iff_eq, isBayNumber_iff, and_assoc,
    Peers.bridged_iff]
  refine and_congr_right fun _ => and_congr_right fun _ => ?_
  unfold distance
  constructor
  · rintro (hone | ⟨htwo, hlost⟩)
    · omega
    · by_cases hle : s.ssl.own ≤ h
      · obtain rfl : h = s.ssl.own + 2 := by omega
        rw [hup] at hlost
        exact .inr (.inr (.inl ⟨rfl, hlost⟩))
      · have hown : s.ssl.own = h + 2 := by omega
        rw [hown, hdown] at hlost
        exact .inr (.inr (.inr ⟨hown, hlost⟩))
  · rintro (hone | hone | ⟨htwo, hlost⟩ | ⟨htwo, hlost⟩)
    · exact .inl (by omega)
    · exact .inl (by omega)
    · refine .inr ⟨by omega, ?_⟩
      rw [htwo, hup]
      exact hlost
    · refine .inr ⟨by omega, ?_⟩
      rw [htwo, hdown]
      exact hlost

/-! ### One character -/

section Character

variable {s : State} {c : Configuration} {chars : List Byte} {clash : Bool} {d : Byte} {now : Nat}

theorem exec_characterReceived_of_works (h : s.works c) (ht : s.lc.tx.listening = true)
    (ha : s.lc.awaitRecessive = false) (d : Byte) (m : Bool) (now : Nat) :
    exec (.characterReceived d m now) s = .next ((s.atMoment now).characterReceived d m) := by
  rw [exec_characterReceived]
  exact whenDue_due _ h.1 (h.watching ht ha)

theorem Lc.active_of_recessive {l : Lc} (h : l.awaitRecessive = false) :
    l.active = { l with quiet := 0, holdHeard := false } := by
  cases l
  simp_all [Lc.active]

/-- The state a character without a marker finds its frame in. -/
def State.heard (s : State) (now : Nat) : State := { s with lc := (s.lc.advance now).active }

theorem State.characterReceived_in_frame (hasm : s.lc.asm = .assemble chars clash) (d : Byte) (now : Nat) :
    (s.atMoment now).characterReceived d false = (s.heard now).nextCharacter (chars ++ [d]) clash := by
  have hheard : (s.heard now).lc.asm = .assemble chars clash := hasm
  change State.assembleCharacter (s.heard now) d false = _
  unfold State.assembleCharacter
  rw [hheard]
  rfl

theorem byteAt_append_last (l : List Byte) (d : Byte) : byteAt (l ++ [d]) l.length = d := by
  simp [byteAt]

end Character

/-- Settles O33: each character by the branch of `State.nextCharacter` it comes to. -/
theorem headKindAndLengthCharacters : Obligations.HeadKindAndLengthCharacters := by
  refine ⟨fun d k => ?codes, fun k n => ?lengths, fun s h k => ?filter, fun s c d now h ht ha => ⟨?head,
      fun hasm => ?ignored⟩,
    fun s c hd d clash now h ht ha hasm => ?kind, fun s c hd kc d k clash now h ht ha hasm hk => ?length⟩
  case codes =>
    rw [Kind.ofCode_eq_some_iff, ← BitVec.toNat_inj]
    cases k <;> exact Iff.rfl
  case lengths =>
    cases k with
    | report =>
      simp only [Kind.fits, Bool.or_eq_true, beq_iff_eq]
      constructor
      · rintro ((((rfl | rfl) | rfl) | rfl) | rfl)
        · exact ⟨0, by omega, rfl⟩
        · exact ⟨1, by omega, rfl⟩
        · exact ⟨2, by omega, rfl⟩
        · exact ⟨3, by omega, rfl⟩
        · exact ⟨4, by omega, rfl⟩
      · rintro ⟨e, he, rfl⟩
        omega
    | status | presence | travel | alarm | panel | time | inquiry => exact beq_iff_eq
  case filter =>
    cases k with
    | status | presence => exact isBayNumber_iff h
    | travel => exact s.filterAccepts_travel h
    | alarm => exact iff_of_true rfl trivial
    | panel | time | inquiry => exact isPanelNumber_iff h
    | report => exact iff_of_false Bool.false_ne_true id
  case head =>
    have hlisten : s.lc.tx.listening = true := by rw [ht]; rfl
    refine ⟨_, exec_characterReceived_of_works h hlisten ha d true now, ?_, ?_, ?_, fun l b hasm => ?_,
        fun hasm => ?_⟩
    · rfl
    · rfl
    · change ((State.heard s now).lc.head s.ssl.own d).quiet = 0
      unfold Lc.head
      dsimp only
      split <;> rfl
    · change ((State.heard s now).lc.head s.ssl.own d).counters.frameTimeout = _
      have hin : (State.heard s now).lc.asm.inFrame = true := by
        change s.lc.asm.inFrame = true
        rw [hasm]
        rfl
      unfold Lc.head
      rw [if_pos hin]
      rfl
    · change ((State.heard s now).lc.head s.ssl.own d).counters.frameTimeout = _
      have hin : ¬ (State.heard s now).lc.asm.inFrame = true := by
        change ¬ s.lc.asm.inFrame = true
        rcases hasm with hasm | hasm <;> rw [hasm] <;> decide
      unfold Lc.head
      rw [if_neg hin]
      rfl
  case ignored =>
    have hlisten : s.lc.tx.listening = true := by rw [ht]; rfl
    refine ⟨_, exec_characterReceived_of_works h hlisten ha d false now, ?_⟩
    have hsame : State.characterReceived (s.atMoment now) d false = s.heard now := by
      change State.assembleCharacter (s.heard now) d false = _
      have hheard : (s.heard now).lc.asm = s.lc.asm := rfl
      unfold State.assembleCharacter
      rw [hheard]
      rcases hasm with hasm | hasm <;> rw [hasm] <;> rfl
    rw [hsame]
    unfold State.heard
    rw [Lc.active_of_recessive (l := s.lc.advance now) ha]
  case kind =>
    have hlisten : s.lc.tx.listening = true := by rw [ht]; rfl
    refine ⟨_, exec_characterReceived_of_works h hlisten ha d false now, ?_⟩
    rw [State.characterReceived_in_frame hasm]
    have hnext : (s.heard now).nextCharacter ([hd] ++ [d]) clash = (s.heard now).kindCharacter [hd, d] clash := rfl
    rw [hnext]
    unfold State.kindCharacter
    have hcode : byteAt [hd, d] 1 = d := rfl
    rw [hcode]
    cases hk : Kind.ofCode d with
    | none => exact ⟨rfl, fun _ => ⟨rfl, rfl⟩, fun k hno => (nomatch hno)⟩
    | some k =>
      have hfilter : (s.heard now).filterAccepts (byteAt [hd, d] 0).toNat k = s.filterAccepts hd.toNat k := rfl
      dsimp only
      rw [hfilter]
      cases hpass : clash || s.filterAccepts hd.toNat k with
      | true =>
        refine ⟨rfl, fun hno => (nomatch hno), fun k' hk' => ⟨rfl, fun _ => rfl, fun hc hf => ?_⟩⟩
        cases hk'
        rw [hc, hf] at hpass
        cases hpass
      | false =>
        refine ⟨rfl, fun hno => (nomatch hno), fun k' hk' => ⟨rfl, fun hor => ?_, fun _ _ => rfl⟩⟩
        cases hk'
        rw [Bool.or_eq_false_iff] at hpass
        rcases hor with hor | hor
        · rw [hpass.1] at hor
          cases hor
        · rw [hpass.2] at hor
          cases hor
  case length =>
    have hlisten : s.lc.tx.listening = true := by rw [ht]; rfl
    refine ⟨_, exec_characterReceived_of_works h hlisten ha d false now, ?_⟩
    rw [State.characterReceived_in_frame hasm]
    have hnext : (s.heard now).nextCharacter ([hd, kc] ++ [d]) clash
        = (s.heard now).lengthCharacter [hd, kc, d] clash := rfl
    rw [hnext]
    unfold State.lengthCharacter
    have hcode : byteAt [hd, kc, d] 1 = kc := rfl
    have hlen : byteAt [hd, kc, d] 2 = d := rfl
    rw [hcode, hlen, hk, Option.any_some]
    cases hfits : k.fits d.toNat with
    | true => exact ⟨rfl, fun _ => ⟨rfl, rfl⟩, fun hno => (nomatch hno)⟩
    | false => exact ⟨rfl, fun hno => (nomatch hno), fun _ => ⟨rfl, rfl⟩⟩

/-! ### The end of a frame (R45, R48, R50) -/

/-- A frame's last character, the second of its check value, is judged (R48). -/
theorem State.nextCharacter_of_last {s : State} {chars : List Byte} (hlen : 4 ≤ chars.length)
    (hlast : chars.length = (byteAt chars 2).toNat + 4) (d : Byte) (clash : Bool) :
    s.nextCharacter (chars ++ [d]) clash = s.frameComplete (chars ++ [d]) clash := by
  have hbyte : byteAt (chars ++ [d]) 2 = byteAt chars 2 := byteAt_append_left (by omega)
  unfold State.nextCharacter
  rw [hbyte, List.length_append, List.length_singleton, if_neg (by omega), if_neg (by omega), if_pos (by omega)]

/-- The check of a frame that ends with `d` (R45). -/
theorem checkAgrees_append {chars : List Byte} (hlen : 1 ≤ chars.length) (d : Byte) :
    checkAgrees (chars ++ [d]) = true
      ↔ crcOf (chars.take (chars.length - 1)) = byteAt chars (chars.length - 1) ++ d := by
  have hn : (chars ++ [d]).length - 2 = chars.length - 1 := by simp
  have hhalf : halfAt (chars ++ [d]) (chars.length - 1) = byteAt chars (chars.length - 1) ++ d := by
    have hd := byteAt_append_last chars d
    unfold halfAt
    rw [byteAt_append_left (by omega), Nat.sub_add_cancel hlen, hd]
  unfold checkAgrees
  dsimp only
  rw [hn, hhalf, List.take_append_of_le_length (by omega), beq_iff_eq]

/-- Settles O34: `State.frameComplete` by the check. -/
theorem checkFailuresAndClashes : Obligations.CheckFailuresAndClashes := by
  intro s c chars d clash now h ht ha hasm hlen hlast
  have hlisten : s.lc.tx.listening = true := by rw [ht]; rfl
  have hcheck := checkAgrees_append (chars := chars) (by omega) d
  have hkind : byteAt (chars ++ [d]) 1 = byteAt chars 1 := byteAt_append_left (by omega)
  refine ⟨_, exec_characterReceived_of_works h hlisten ha d false now, ?_⟩
  rw [State.characterReceived_in_frame hasm, State.nextCharacter_of_last hlen hlast]
  refine ⟨fun hfails => ?fails, fun hpasses hclash => ?ownNumber⟩
  case fails =>
    have hfail : State.frameComplete (s.heard now) (chars ++ [d]) clash
        = { s.heard now with lc := { (s.heard now).lc.countCheckFail with asm := .hunt } } :=
      if_neg (by rw [hcheck]; exact hfails)
    rw [hfail]
    exact ⟨rfl, rfl, rfl, rfl⟩
  case ownNumber =>
    have hpass : State.frameComplete (s.heard now) (chars ++ [d]) clash
        = State.numberClash { s.heard now with lc := (s.heard now).lc.framePassed } (byteAt chars 1) := by
      unfold State.frameComplete
      rw [if_pos (hcheck.2 hpasses), hclash, hkind]
      rfl
    have hnumber : State.numberClash { s.heard now with lc := (s.heard now).lc.framePassed } (byteAt chars 1)
        = { s with
          lc := { (s.heard now).lc.framePassed.countClash with clash := true, clashQuiet := 0 }
          ssl := if s.lc.clash then s.ssl
            else s.ssl.writeEvent ⟨.numberClash, (byteAt chars 1).toNat, s.scu.minute⟩ } := by
      have hmark : (s.heard now).lc.framePassed.clash = s.lc.clash := rfl
      unfold State.numberClash
      dsimp only
      rw [hmark]
      cases s.lc.clash <;> rfl
    rw [hpass, hnumber]
    refine ⟨rfl, rfl, rfl, rfl, rfl, ?_, rfl, fun hc => if_pos hc, fun hc => ?_⟩
    · obtain ⟨-, -, -, -, -, -, -, -, -, -, -, hbit⟩ := State.statusFlags_bits { s with
          lc := { (s.heard now).lc.framePassed.countClash with clash := true, clashQuiet := 0 }
          ssl := if s.lc.clash then s.ssl
            else s.ssl.writeEvent ⟨.numberClash, (byteAt chars 1).toNat, s.scu.minute⟩ }
      exact hbit
    · dsimp only
      rw [if_neg (by rw [hc]; decide), Ssl.writeEvent_events]

/-! ### A whole frame (R43, R45 to R48) -/

/-- A moment brought twice is brought once. -/
theorem Lc.expire_expire (l : Lc) (life : Nat) : (l.expire life).expire life = l.expire life := by
  have htx : (l.expire life).txWithoutOutlived life = (l.expire life).tx := by
    have hkept : (l.expire life).tx = l.txWithoutOutlived life := rfl
    have hout : (l.expire life).outlived life = l.outlived life := rfl
    unfold Lc.txWithoutOutlived
    rw [hkept, hout]
    unfold Lc.txWithoutOutlived
    split
    next n hn =>
      split
      next ho =>
        split at hn
        next m hm =>
          split at hn
          next => cases hn
          next hno =>
            rw [hm] at hn
            cases hn
            exact absurd ho hno
        next hno => exact absurd hn (hno n)
      next => rfl
    next => rfl
  have hnotices : (l.expire life).notices.filter (fun n => !(l.expire life).outlived life n)
      = (l.expire life).notices := by
    refine List.filter_eq_self.2 fun n hn => ?_
    exact (List.mem_filter.1 hn).2
  have hcount : satAdd (l.expire life).counters.noticeStale 0 = (l.expire life).counters.noticeStale :=
    satAdd_of_le (satAdd_le _ _)
  generalize l.expire life = m at htx hnotices hcount
  unfold Lc.expire
  simp only [htx, hnotices, if_true, Nat.sub_self, Nat.add_zero, hcount]

theorem Lc.advance_advance (l : Lc) (now : Nat) : (l.advance now).advance now = l.advance now := by
  have hclock : { l.advance now with clock := max (l.advance now).clock now } = l.advance now := by
    have hmax : max (l.advance now).clock now = (l.advance now).clock := by
      change max (max l.clock now) now = max l.clock now
      omega
    rw [hmax]
  have hexpire : (l.advance now).advance now
      = Lc.expire { l.advance now with clock := max (l.advance now).clock now } (noticeLife + 1) := rfl
  rw [hexpire, hclock]
  exact Lc.expire_expire _ _

theorem State.atMoment_atMoment (s : State) (now : Nat) : (s.atMoment now).atMoment now = s.atMoment now := by
  unfold State.atMoment
  rw [Lc.advance_advance]

/-- A frame of another station's in assembly, with the characters `p` of it and the commands `rest` to come. -/
def State.assembling (s : State) (now : Nat) (p : List Byte) (rest : List Instr) : State :=
  { s with
    lc := { s.lc.advance now with asm := .assemble p false, quiet := 0, holdHeard := false }
    pending := rest }

section Frame

variable {s : State} {c : Configuration} {now : Nat} {p : List Byte} {rest : List Instr} {d : Byte}

/-- The machine runs the front command on the queue's rest. -/
theorem run_cons {s t : State} {i : Instr} {rest : List Instr} (h : exec i { s with pending := rest } = .next t)
    (hs : s.pending = i :: rest) (k : Nat) :
    Host.Core.run Sys2Proof.core (k + 1) s = Host.Core.run Sys2Proof.core k t := by
  have hstep : step s = .next t := by
    unfold step
    rw [hs]
    exact h
  have hcore : Sys2Proof.core.step s = .next t := hstep
  refine (Host.Core.run.eq_def Sys2Proof.core (k + 1) s).trans ?_
  dsimp only
  rw [hcore]

/-- A moment leaves the transmitter listening. -/
theorem Lc.advance_listening {l : Lc} (h : l.tx.listening = true) (now : Nat) :
    (l.advance now).tx.listening = true := by
  have htx : (l.advance now).tx = Lc.txWithoutOutlived { l with clock := max l.clock now } (noticeLife + 1) := rfl
  rw [htx]
  unfold Lc.txWithoutOutlived
  dsimp only
  split
  · split
    · rfl
    · exact h
  · exact h

/-- A character behind the head, received in assembly. -/
theorem exec_character_assembling (h : s.works c) (ht : s.lc.tx.listening = true)
    (ha : s.lc.awaitRecessive = false) (p : List Byte) (rest : List Instr) (d : Byte) :
    exec (.characterReceived d false now) (s.assembling now p rest)
      = .next ((s.assembling now p rest).nextCharacter (p ++ [d]) false) := by
  have hworks : (s.assembling now p rest).works c := h
  have hsame : (s.assembling now p rest).heard now = s.assembling now p rest := by
    have hadvance : (s.assembling now p rest).lc.advance now = (s.assembling now p rest).lc := by
      have hmove : (s.assembling now p rest).lc.advance now
          = { (s.lc.advance now).advance now with asm := .assemble p false, quiet := 0, holdHeard := false } := rfl
      rw [hmove, Lc.advance_advance]
      rfl
    unfold State.heard
    rw [hadvance, Lc.active_of_recessive (l := (s.assembling now p rest).lc) ha]
    rfl
  rw [exec_characterReceived_of_works hworks (Lc.advance_listening ht now) ha,
    State.characterReceived_in_frame rfl, hsame]

/-- The head of a frame of another station (R46). -/
theorem exec_head (h : s.works c) (ht : s.lc.tx.listening = true) (ha : s.lc.awaitRecessive = false)
    (hasm : s.lc.asm = .hunt) {n : Byte} (hn : n.toNat ≠ s.ssl.own) (rest : List Instr) :
    exec (.characterReceived n true now) { s with pending := rest } = .next (s.assembling now [n] rest) := by
  have hworks : State.works { s with pending := rest } c := h
  have hin : ¬ ((s.lc.advance now).active).asm.inFrame = true := by
    change ¬ s.lc.asm.inFrame = true
    rw [hasm]
    decide
  have hclash : (n.toNat == s.ssl.own) = false := by simpa using hn
  rw [exec_characterReceived_of_works hworks ht ha]
  change Host.Outcome.next { s with lc := ((s.lc.advance now).active).head s.ssl.own n, pending := rest } = _
  unfold Lc.head
  rw [if_neg hin, hclash, Lc.active_of_recessive (l := s.lc.advance now) ha]
  rfl

/-- Characters of the body, and the first of the check value, are assembled (R47). -/
theorem run_body (h : s.works c) (ht : s.lc.tx.listening = true) (ha : s.lc.awaitRecessive = false) (k : Nat) :
    ∀ (m p : List Byte) (rest : List Instr), 3 ≤ p.length → p.length + m.length < (byteAt p 2).toNat + 5 →
      Host.Core.run Sys2Proof.core (m.length + k)
          (s.assembling now p ((m.map fun d => Instr.characterReceived d false now) ++ rest))
        = Host.Core.run Sys2Proof.core k (s.assembling now (p ++ m) rest)
  | [], p, rest, _, _ => by simp
  | d :: m, p, rest, hp, hlen => by
    have hbyte : byteAt (p ++ [d]) 2 = byteAt p 2 := byteAt_append_left (by omega)
    have hlen' : (p ++ [d]).length = p.length + 1 := by simp
    rw [List.length_cons] at hlen
    have hnext : ∀ r, (s.assembling now p r).nextCharacter (p ++ [d]) false = s.assembling now (p ++ [d]) r := by
      intro r
      unfold State.nextCharacter
      rw [hbyte, hlen', if_neg (by omega), if_neg (by omega), if_neg (by omega)]
      rfl
    have hexec := exec_character_assembling (now := now) h ht ha p
      ((m.map fun d => Instr.characterReceived d false now) ++ rest) d
    rw [hnext] at hexec
    rw [List.length_cons, Nat.add_right_comm, List.map_cons, List.cons_append,
      run_cons (s := s.assembling now p _) hexec rfl, run_body h ht ha k m (p ++ [d]) rest (by omega)
        (by rw [hbyte, hlen']; omega), List.append_assoc]
    rfl

/-- The two check bytes put together again (R45, R178). -/
theorem extract_append_extract (x : Half) : x.extractLsb' 8 8 ++ x.extractLsb' 0 8 = x := by
  ext i hi
  rw [BitVec.getElem_append]
  split
  · rw [BitVec.getElem_extractLsb', Nat.zero_add, BitVec.getLsbD_eq_getElem hi]
  · rw [BitVec.getElem_extractLsb', Nat.add_sub_cancel' (by omega), BitVec.getLsbD_eq_getElem hi]

/-- What the check value of a frame covers: head, kind, length and body (R45). -/
def frameFront (n : Byte) (k : Kind) (body : List Byte) : List Byte := [n, k.code, toByte body.length] ++ body

theorem frameFront_length (n : Byte) (k : Kind) (body : List Byte) :
    (frameFront n k body).length = body.length + 3 := by
  simp [frameFront]

/-- The characters of a frame: its front, then the check value high byte first (R45, R178). -/
theorem frameBytes_split (n : Byte) (k : Kind) (body : List Byte) :
    frameBytes n k body = [n, k.code, toByte body.length]
      ++ ((body ++ [(crcOf (frameFront n k body)).extractLsb' 8 8])
        ++ [(crcOf (frameFront n k body)).extractLsb' 0 8]) := by
  unfold frameBytes halfBytes frameFront
  simp

/-- A frame put together as it is sent passes its check (R45). -/
theorem checkAgrees_frame (n : Byte) (k : Kind) (body : List Byte) :
    checkAgrees (frameFront n k body ++ [(crcOf (frameFront n k body)).extractLsb' 8 8]
      ++ [(crcOf (frameFront n k body)).extractLsb' 0 8]) = true := by
  rw [checkAgrees_append (by simp), List.length_append, List.length_singleton, Nat.add_sub_cancel,
    List.take_left, byteAt_append_last]
  exact (extract_append_extract _).symm

/-- The characters of a frame, taken apart again, are handed on as the frame they came from (R48). -/
theorem State.handOver_frame (s : State) (n : Byte) {k : Kind} {body : List Byte} {f : Frame} {hi lo : Byte}
    (hlen : (toByte body.length).toNat = body.length) (hf : Frame.ofBytes k body = some f) :
    s.handOver (frameFront n k body ++ [hi] ++ [lo]) = s.handOn n.toNat f := by
  have hkind : byteAt (frameFront n k body ++ [hi] ++ [lo]) 1 = k.code := rfl
  have hcount : byteAt (frameFront n k body ++ [hi] ++ [lo]) 2 = toByte body.length := rfl
  have hbody : ((frameFront n k body ++ [hi] ++ [lo]).drop 3).take body.length = body := by
    simp [frameFront]
  unfold State.handOver
  rw [hkind, hcount, hlen, hbody, Kind.ofCode_code, Option.bind_some, hf]
  rfl

/-- The characters of a frame that the filter lets pass, received from the head on, end with the frame handed on
(R45 to R48). -/
theorem run_characters (h : s.works c) (ht : s.lc.tx.listening = true) (ha : s.lc.awaitRecessive = false)
    (hasm : s.lc.asm = .hunt) (hp : s.pending = []) {n : Byte} (hn : n.toNat ≠ s.ssl.own) {k : Kind}
    (hf : s.filterAccepts n.toNat k = true) {body : List Byte} (hfits : k.fits body.length = true)
    (hlen : body.length ≤ 48) {f : Frame} (hbody : Frame.ofBytes k body = some f) :
    Host.Core.run Sys2Proof.core (body.length + 5) { s with pending := characters now (frameBytes n k body) }
      = .next (State.handOn { s.atMoment now with lc := (s.atMoment now).lc.framePassed } n.toNat f) := by
  have hlength : (toByte body.length).toNat = body.length := by
    unfold toByte
    rw [BitVec.toNat_ofNat, Nat.mod_eq_of_lt (by omega)]
  have hkind : ∀ r, (s.assembling now [n] r).nextCharacter ([n] ++ [k.code]) false
      = s.assembling now [n, k.code] r := by
    intro r
    have hpass : (s.assembling now [n] r).filterAccepts n.toNat k = true := hf
    change State.kindCharacter (s.assembling now [n] r) [n, k.code] false = _
    unfold State.kindCharacter
    change (match Kind.ofCode k.code with
      | none => _
      | some k => if (false || (s.assembling now [n] r).filterAccepts n.toNat k) = true then _ else _) = _
    rw [Kind.ofCode_code]
    exact if_pos hpass
  have hcount : ∀ r, (s.assembling now [n, k.code] r).nextCharacter ([n, k.code] ++ [toByte body.length]) false
      = s.assembling now [n, k.code, toByte body.length] r := by
    intro r
    have hany : (Kind.ofCode k.code).any (fun k => k.fits (toByte body.length).toNat) = true := by
      rw [Kind.ofCode_code, hlength]
      exact hfits
    exact if_pos hany
  have hend : ∀ r, (s.assembling now (frameFront n k body ++ [(crcOf (frameFront n k body)).extractLsb' 8 8])
        r).nextCharacter (frameFront n k body ++ [(crcOf (frameFront n k body)).extractLsb' 8 8]
          ++ [(crcOf (frameFront n k body)).extractLsb' 0 8]) false
      = State.handOn { s.atMoment now with lc := (s.atMoment now).lc.framePassed, pending := r } n.toNat f := by
    intro r
    have hfront := frameFront_length n k body
    rw [State.nextCharacter_of_last]
    · unfold State.frameComplete
      rw [if_pos (checkAgrees_frame n k body), if_neg Bool.false_ne_true]
      have hpassed : (s.assembling now (frameFront n k body ++ [(crcOf (frameFront n k body)).extractLsb' 8 8])
          r).lc.framePassed = (s.atMoment now).lc.framePassed := by
        have hwait : (s.lc.advance now).awaitRecessive = false := ha
        simp [State.assembling, Lc.framePassed, hwait]
      dsimp only
      rw [hpassed, State.handOver_frame _ n hlength hbody]
      rfl
    · rw [List.length_append, List.length_singleton, hfront]
      omega
    · rw [byteAt_append_left (i := 2) (by rw [hfront]; omega), List.length_append, hfront]
      exact congrArg (· + 4) hlength.symm
  have hcharacters : characters now (frameBytes n k body) = .characterReceived n true now
      :: .characterReceived k.code false now :: .characterReceived (toByte body.length) false now
      :: (((body ++ [(crcOf (frameFront n k body)).extractLsb' 8 8]).map
          fun d => Instr.characterReceived d false now)
        ++ [.characterReceived ((crcOf (frameFront n k body)).extractLsb' 0 8) false now]) := by
    rw [frameBytes_split]
    simp [characters, markedChars]
  have hsteps : body.length + 5
      = (body ++ [(crcOf (frameFront n k body)).extractLsb' 8 8]).length + 1 + 1 + 1 + 1 := by simp
  have hinside : 3 + (body ++ [(crcOf (frameFront n k body)).extractLsb' 8 8]).length
      < (toByte body.length).toNat + 5 := by
    rw [hlength, List.length_append, List.length_singleton]
    omega
  have hmiddle := run_body (now := now) h ht ha 1 (body ++ [(crcOf (frameFront n k body)).extractLsb' 8 8])
    [n, k.code, toByte body.length]
    [.characterReceived ((crcOf (frameFront n k body)).extractLsb' 0 8) false now] le_rfl hinside
  have hlast := (exec_character_assembling (now := now) h ht ha
    (frameFront n k body ++ [(crcOf (frameFront n k body)).extractLsb' 8 8]) []
    ((crcOf (frameFront n k body)).extractLsb' 0 8)).trans (congrArg _ (hend []))
  rw [hcharacters, hsteps]
  refine (run_cons (s := { s with pending := .characterReceived n true now :: _ })
    (exec_head h ht ha hasm hn _) rfl _).trans ?_
  refine (run_cons ((exec_character_assembling h ht ha _ _ _).trans (congrArg _ (hkind _))) rfl _).trans ?_
  refine (run_cons ((exec_character_assembling h ht ha _ _ _).trans (congrArg _ (hcount _))) rfl _).trans ?_
  refine hmiddle.trans ((run_cons hlast rfl 0).trans ?_)
  exact congrArg (fun r => Host.Outcome.next
    (State.handOn { s.atMoment now with lc := (s.atMoment now).lc.framePassed, pending := r } n.toNat f)) hp.symm

end Frame

/-! ### The layouts (R178, Section 11.3) -/

/-- The twelve flags of two bytes: four of the first, all of the second. -/
theorem extract_flags (a b : Byte) : (a ++ b : Half).extractLsb' 0 12 = a.extractLsb' 0 4 ++ b := by
  ext i hi
  rw [BitVec.getElem_extractLsb', BitVec.getElem_append, BitVec.getLsbD_append, Nat.zero_add]
  split
  · rw [BitVec.getLsbD_eq_getElem ‹_›]
  · rw [BitVec.getElem_extractLsb', Nat.zero_add]

/-- The flags as two bytes, the four bits above them 0. -/
theorem halfBytes_flags (x : BitVec 12) :
    halfBytes ((0 : BitVec 4) ++ x) = [(0 : BitVec 4) ++ x.extractLsb' 8 4, x.extractLsb' 0 8] := by
  have hhigh : ((0 : BitVec 4) ++ x : Half).extractLsb' 8 8 = (0 : BitVec 4) ++ x.extractLsb' 8 4 := by
    ext i hi
    rw [BitVec.getElem_extractLsb', BitVec.getElem_append, BitVec.getLsbD_append]
    split
    · rw [dif_pos (by omega), BitVec.getElem_extractLsb']
    · rw [dif_neg (by omega)]
      simp
  have hlow : ((0 : BitVec 4) ++ x : Half).extractLsb' 0 8 = x.extractLsb' 0 8 := by
    ext i hi
    rw [BitVec.getElem_extractLsb', BitVec.getElem_extractLsb', BitVec.getLsbD_append, if_pos (by omega)]
  unfold halfBytes
  rw [hhigh, hlow]

theorem Kind.fits_le {k : Kind} {n : Nat} (h : k.fits n = true) : n ≤ 48 := by
  cases k <;> simp [Kind.fits] at h <;> omega

/-- A command without an argument takes the frame whatever its argument is (R40, Section 11.3). -/
theorem State.panelFrame_argument (s : State) (n : Nat) (a : PanelAddress) (x y : Half) {code : Byte}
    (h : code = 2 ∨ code = 4 ∨ code = 6 ∨ code = 7 ∨ code = 8) :
    s.panelFrame n ⟨a, code, x⟩ = s.panelFrame n ⟨a, code, y⟩ := by
  unfold State.panelFrame State.obey State.command
  rcases h with rfl | rfl | rfl | rfl | rfl <;> rfl

/-- Settles O35: `run_characters` for each kind, its row by `State.accept_of_hears`. -/
theorem statusCharactersMakeAStatusFrame : Obligations.StatusCharactersMakeAStatusFrame := by
  refine ⟨fun b => ?layout, fun s n now h ht ha hasm hp => ?kinds⟩
  case layout =>
    unfold StatusBody.bytes
    rw [halfBytes_flags]
    rfl
  case kinds =>
    obtain ⟨c, hc⟩ := Option.isSome_iff_exists.1 h.2.1
    have hrow : ∀ {k : Kind} {body : List Byte} {f : Frame} {i : Instr}, s.filterAccepts n.toNat k = true →
        k.fits body.length = true → Frame.ofBytes k body = some f →
        exec i (s.atMoment now) = .next ((s.atMoment now).accept n.toNat f) → s.receives now n k body i := by
      intro k body f i hf hfits hbody hi
      have haccept : (s.atMoment now).accept n.toNat f
          = State.handOn { s.atMoment now with lc := (s.atMoment now).lc.framePassed } n.toNat f :=
        State.accept_of_hears (State.hears_atMoment h now) ((Frame.kind_of_ofBytes hbody).symm ▸ hf)
      rw [haccept] at hi
      exact (run_characters ⟨h.1, hc⟩ ht ha hasm hp h.2.2.2.2 hf hfits (Kind.fits_le hfits) hbody).trans hi.symm
    refine ⟨fun hbay => ⟨fun l hl => ?status, fun diag v₁ v₀ g₁ g₀ interval => ?presence⟩,
      fun hf origin direction hops sequence => ?travel, fun origin alarmKind repeatCount => ?alarm,
      fun hpanel => ⟨fun sequence code first last x₁ x₀ => ?panel, fun m₁ m₀ second => ?time, fun target => ?inquiry⟩⟩
    case status =>
      refine hrow hbay (by rw [hl]; rfl) rfl ?_
      unfold StatusBody.ofBytes halfAt
      rw [extract_flags]
      rfl
    case presence => exact hrow hbay rfl rfl rfl
    case travel =>
      refine hrow hf rfl rfl ?_
      rw [exec_travel, whenReleased_free _ (by exact h.1), State.atMoment_atMoment]
      rfl
    case alarm => exact hrow rfl rfl rfl rfl
    case panel =>
      have hcommand : ∀ {i : Instr} (y : Half),
          (y = x₁ ++ x₀ ∨ code = 2 ∨ code = 4 ∨ code = 6 ∨ code = 7 ∨ code = 8) →
          exec i (s.atMoment now) = .next ((s.atMoment now).acceptPanel n ⟨sequence, first, last⟩ code y) →
          s.receives now n .panel [sequence, code, first, last, x₁, x₀] i := by
        intro i y hy hi
        refine hrow hpanel rfl rfl (hi.trans (congrArg Host.Outcome.next ?_))
        rcases hy with rfl | hcode
        · rfl
        · have hhears := State.hears_atMoment h now
          unfold State.acceptPanel
          rw [State.accept_of_hears (f := .panel _) hhears hpanel,
            State.accept_of_hears (f := .panel _) hhears hpanel]
          exact State.panelFrame_argument _ _ _ _ _ hcode
      dsimp only
      split
      next hcode => subst hcode; exact hcommand _ (.inl rfl) rfl
      next =>
      split
      next hcode => subst hcode; exact hcommand 0 (.inr (.inl rfl)) rfl
      next =>
      split
      next hcode => subst hcode; exact hcommand _ (.inl rfl) rfl
      next =>
      split
      next hcode => subst hcode; exact hcommand 0 (.inr (.inr (.inl rfl))) rfl
      next =>
      split
      next hcode => subst hcode; exact hcommand _ (.inl rfl) rfl
      next =>
      split
      next hcode => subst hcode; exact hcommand 0 (.inr (.inr (.inr (.inl rfl)))) rfl
      next =>
      split
      next hcode => subst hcode; exact hcommand 0 (.inr (.inr (.inr (.inr (.inl rfl))))) rfl
      next =>
      split
      next hcode => subst hcode; exact hcommand 0 (.inr (.inr (.inr (.inr (.inr rfl))))) rfl
      next => exact hcommand _ (.inl rfl) rfl
    case time => exact hrow hpanel rfl rfl rfl
    case inquiry =>
      refine hrow hpanel rfl rfl ?_
      rw [exec_inquiry, whenReleased_free _ (by exact h.1), State.atMoment_atMoment]
      rfl

end Sys2Proof.Machine
end

