-- ==== Sys2Proof/Proofs/StartUpSteps.lean ====
section
/-! PROOFS. The start-up states in their order: the adoption of the image that ends LOAD, and the samples that
end LISTEN and JOIN (O5, O6, O8). -/

namespace Sys2Proof.Machine

/-! ### LISTEN and JOIN (R170, R174) -/

section ListenAndJoin

variable {s : State}

theorem State.sslSample_of_listen_waiting (h : s.ssl.startup = .listen) (ht : s.ssl.ticks < 19) :
    s.sslSample = { s with ssl := { s.ssl with ticks := s.ssl.ticks + 1 } } := by
  unfold State.sslSample
  simp only [h]
  exact if_neg (by omega)

theorem State.sslSample_of_listen_over {c : Configuration} (h : s.ssl.startup = .listen)
    (ht : s.ssl.ticks = 19) (hc : s.cfg = some c) :
    s.sslSample = { s with
      ssl := { s.ssl with startup := .join, ticks := 0 }
      lc := s.lc.postNotice .presence (s.presenceBody c).bytes } := by
  unfold State.sslSample
  simp only [h, ht]
  unfold State.enterJoin
  simp only [hc]
  rfl

theorem State.sslSample_of_join_waiting (h : s.ssl.startup = .join) (ht : s.ssl.ticks = 0) :
    s.sslSample = { s with ssl := { s.ssl with ticks := 1 } } := by
  unfold State.sslSample
  simp only [h, ht]
  rfl

theorem State.sslSample_of_join_over (h : s.ssl.startup = .join) (ht : s.ssl.ticks = 1) :
    s.sslSample = s.enterRun := by
  unfold State.sslSample
  simp only [h, ht]
  rfl

theorem State.sslSample_of_untimed (h : s.ssl.startup = .selftest ∨ s.ssl.startup = .run
    ∨ s.ssl.startup = .strapFault) : s.sslSample = s := by
  unfold State.sslSample
  rcases h with h | h | h <;> rw [h]

/-- The moment of a command takes no frame to the STATUS place. -/
theorem Lc.advance_statusPlaceEmpty {l : Lc} (h : l.statusPlaceEmpty = true) (now : Nat) :
    (l.advance now).statusPlaceEmpty = true := by
  obtain ⟨hwait, hsent⟩ := l.statusPlaceEmpty_iff.1 h
  refine (Lc.statusPlaceEmpty_iff _).2 ⟨hwait, ?_⟩
  rcases Lc.txWithoutOutlived_frame { l with clock := max l.clock now } (noticeLife + 1) with hx | hx
  · exact (congrArg (Option.any TxFrame.isStatus) hx).trans hsent
  · exact congrArg (Option.any TxFrame.isStatus) hx

theorem Lc.postStatus_of_empty {l : Lc} (h : l.statusPlaceEmpty = true) :
    l.postStatus.statusWaiting = some ⟨0, false⟩ := by
  rcases l.postStatus_cases with ⟨-, heq⟩ | ⟨hfull, -⟩
  · rw [heq]
    rfl
  · exact absurd (h.symm.trans hfull) Bool.noConfusion

end ListenAndJoin

/-- Settles O8: the SSL's sample by start-up state and count; the PRESENCE is posted as any short notice is, the
first STATUS as any STATUS is. -/
theorem listenThenJoinThenRun : Obligations.ListenThenJoinThenRun := by
  intro s c now hworks
  obtain ⟨hheld, hcfg⟩ := hworks
  have hexec : exec (.sslSampleEvent now) s = .next (s.atMoment now).sslSample := by
    rw [exec_sslSampleEvent]
    exact whenReleased_free _ hheld
  refine ⟨fun hs ht => ?_, fun hs ht => ?_, fun hs ht => ?_, fun hs => ?_, fun hs ht => ?_⟩
  · rw [hexec, State.sslSample_of_listen_waiting (s := s.atMoment now) hs ht]
    rfl
  · have hstep := State.sslSample_of_listen_over (s := s.atMoment now) hs ht hcfg
    refine ⟨_, hexec, ?_, by rw [hstep]; rfl, ?_⟩
    · rw [exec_listenEnd]
      exact whenDue_due _ hheld (by rw [State.listenDue, hs, ht]; rfl)
    · rintro l rfl
      have hlc : (s.atMoment now).sslSample.lc
          = (s.lc.advance now).postNotice .presence (s.presenceBody c).bytes := by rw [hstep]; rfl
      obtain ⟨hroom, hfull⟩ := Lc.postNotice_of_short (s.lc.advance now) .presence
        (b := (s.presenceBody c).bytes) (show 6 ≤ 48 by decide)
      rw [hlc]
      exact ⟨hroom, hfull⟩
  · rw [hexec, State.sslSample_of_join_waiting (s := s.atMoment now) hs ht]
    rfl
  · rw [hexec, State.sslSample_of_untimed (s := s.atMoment now) hs]
  · have hstep := State.sslSample_of_join_over (s := s.atMoment now) hs ht
    refine ⟨_, hexec, ?_, by rw [hstep]; rfl, by rw [hstep]; rfl, fun hempty => ?_⟩
    · rw [exec_joinEnd]
      exact whenDue_due _ hheld (by rw [State.joinDue, hs, ht]; rfl)
    · rw [hstep]
      exact Lc.postStatus_of_empty (Lc.advance_statusPlaceEmpty hempty now)

/-! ### The adoption (R171, R172) -/

/-- A send that is made: the hold driven, its ALARM frame waiting (R165). -/
theorem State.makeSend_line (s : State) :
    s.makeSend.lc.tx = .holding
      ∧ s.makeSend.lc.alarmWaiting
        = some ⟨⟨toByte s.ssl.own, 1, toByte s.fmc.repeatCount⟩, s.lc.clock, ⟨0, false⟩⟩ := by
  have hlc : s.makeSend.lc = s.lc.orderHold.postAlarm ⟨toByte s.ssl.own, 1, toByte s.fmc.repeatCount⟩ := rfl
  rw [hlc, Lc.postAlarm_tx, Lc.orderHold_tx, Lc.postAlarm_alarmWaiting, s.lc.orderHold_kept.2.1]
  exact ⟨rfl, rfl⟩

section Adoption

variable (s : State) (j : Except Nat Configuration)

/-- An adoption, block by block: the first evaluation touches the SCU and the HSU alone, the owed send the LC and
the FMC alone. -/
theorem State.adopt_frame : s.adopt j = { s.adopted (adoptedConfig j) (failureCode j) with
    scu := (s.adopt j).scu, hsu := (s.adopt j).hsu, lc := (s.adopt j).lc, fmc := (s.adopt j).fmc } := by
  rw [State.adopt_eq]
  split <;> rfl

theorem State.adopt_scu :
    (s.adopt j).scu = s.scu.evaluated (adoptedConfig j) (s.br.adopt (adoptedConfig j).bay) false := by
  have hscu : (s.adopt j).scu = ((s.adopted (adoptedConfig j) (failureCode j)).evaluate false).scu := by
    rw [State.adopt_eq]
    split <;> rfl
  rw [hscu, State.evaluate_scu_of_cfg rfl, State.adopted_frame]

theorem State.adopt_hsu :
    (s.adopt j).hsu = if (s.adopt j).scu.phase = s.scu.phase then s.hsu.adopt (adoptedConfig j).bay
      else (s.hsu.adopt (adoptedConfig j).bay).bump := by
  have heval : (s.adopt j).hsu = ((s.adopted (adoptedConfig j) (failureCode j)).evaluate false).hsu
      ∧ (s.adopt j).scu = ((s.adopted (adoptedConfig j) (failureCode j)).evaluate false).scu := by
    rw [State.adopt_eq]
    split <;> exact ⟨rfl, rfl⟩
  rw [heval.1, heval.2, State.adopted_frame]
  rfl

/-- An adoption that makes no send (R165). -/
theorem State.adopt_of_unsent (h : s.fmc.owed = false ∨ s.br.fireInput = false ∨ isBayNumber s.ssl.own = false) :
    (s.adopt j).lc = s.lc ∧ (s.adopt j).fmc = { s.fmc with owed := false } := by
  have hno : ¬ (s.fmc.owed && s.br.fireInput && (s.ssl.adopt (failureCode j)).startup == .selftest) = true := by
    rcases h with h | h | h <;> simp [h, Ssl.adopt]
  rw [State.adopt_eq, if_neg hno, State.adopted_frame]
  exact ⟨rfl, rfl⟩

/-- An adoption that makes the owed send (R165). -/
theorem State.adopt_of_sent (ho : s.fmc.owed = true) (hi : s.br.fireInput = true)
    (hown : isBayNumber s.ssl.own = true) :
    (s.adopt j).fmc = { s.fmc with
        owed := false, repeatCount := min 255 (s.fmc.repeatCount + 1), timer := some 30 }
      ∧ (s.adopt j).lc.tx = .holding
      ∧ (s.adopt j).lc.alarmWaiting
        = some ⟨⟨toByte s.ssl.own, 1, toByte s.fmc.repeatCount⟩, s.lc.clock, ⟨0, false⟩⟩ := by
  have hyes : (s.fmc.owed && s.br.fireInput && (s.ssl.adopt (failureCode j)).startup == .selftest) = true := by
    simp [ho, hi, hown, Ssl.adopt]
  obtain ⟨htx, halarm⟩ := State.makeSend_line ((s.adopted (adoptedConfig j) (failureCode j)).evaluate false)
  rw [State.evaluate_ssl, State.adopted_own, State.evaluate_fmc, State.evaluate_lc] at halarm
  rw [State.adopt_eq, if_pos hyes]
  refine ⟨?_, htx, halarm.trans ?_⟩
  · rw [State.adopted_frame]
    rfl
  · rw [State.adopted_frame]

end Adoption

theorem Hsu.adopt_of_length {h : Hsu} {bay : BayBlock} (hl : h.stages.length = bay.stageCount) :
    h.adopt bay = h := if_pos hl

theorem Hsu.adopt_of_new_length {h : Hsu} {bay : BayBlock} (hl : h.stages.length ≠ bay.stageCount) :
    h.adopt bay = { h with
      stages := List.replicate bay.stageCount ⟨false, bay.minOff, false⟩
      rotation := (List.range bay.stageCount).map (· + 1) } := if_neg hl

/-- The operating phase of the first evaluation with no amendment recorded (R34, R35, R38). -/
theorem Scu.evaluated_of_unamended {u : Scu} (c : Configuration) (br : BayRecord) (h : u.amendments = []) :
    (u.evaluated c br false).amendments = []
      ∧ (u.valid = false ∨ c.calendar = [] → (u.evaluated c br false).phase = .work)
      ∧ (u.valid = true → c.calendar ≠ [] →
        (entryPhase c.calendar (baseEntry c.calendar u.minute) = .closed →
          (u.evaluated c br false).phase = if u.latch then .preheat else .closed)
        ∧ (entryPhase c.calendar (baseEntry c.calendar u.minute) ≠ .closed →
          (u.evaluated c br false).phase
            = operating (entryPhase c.calendar (baseEntry c.calendar u.minute)))) := by
  have hnone : (u.evaluated c br false).amendments = [] :=
    congrArg (List.filterMap (Amendment.broughtUp c.calendar u.minute)) h
  have hopen : (u.evaluated c br false).bayClosed = false := by rw [Scu.bayClosed, hnone]; rfl
  have hlatch : (u.latch || u.latches c br false) = u.latch := by simp [Scu.latches]
  refine ⟨hnone, fun hno => ?_, fun hv hcal => ?_⟩
  · cases hv : u.valid with
    | false => exact (Scu.evaluated_of_invalid hopen hv).1
    | true =>
      have hcal : c.calendar = [] := hno.resolve_left (by simp [hv])
      have hplanned : scheduledPhase c.calendar u.minute (u.evaluated c br false).amendments = .work := by
        rw [hcal]
        rfl
      have hphase := (Scu.evaluated_of_planned_open hopen hv (by rw [hplanned]; exact CalPhase.noConfusion)).1
      rw [hphase, hplanned]
      rfl
  · have hplanned : scheduledPhase c.calendar u.minute (u.evaluated c br false).amendments
        = entryPhase c.calendar (baseEntry c.calendar u.minute) := by
      rw [hnone]
      exact scheduledPhase_of_timed (List.length_pos_iff.2 hcal) rfl
    refine ⟨fun hp => ?_, fun hp => ?_⟩
    · obtain ⟨hphase, hlatched⟩ := Scu.evaluated_of_planned_closed hopen hv (hplanned.trans hp)
      rw [hphase, hlatched, hlatch]
    · rw [(Scu.evaluated_of_planned_open hopen hv (by rw [hplanned]; exact hp)).1, hplanned]

/-- Settles O5: a passed read is one a configuration stands in; what each block takes of it is `State.adopted`,
the SCU its first evaluation. -/
theorem storedImageIsAdopted : Obligations.StoredImageIsAdopted := by
  refine ⟨fun own l c => judgeImage_eq_ok, fun s m c hheld hload hown hj => ⟨s.adopt (.ok c), ?exec, ?_⟩⟩
  case exec =>
    rw [exec_imageAdopt, whenReleased_free _ hheld, State.imageAdopt, if_pos hload, hj]
  have hframe := (s.adopt_frame (.ok c)).trans (by rw [State.adopted_frame])
  have hscu : (s.adopt (.ok c)).scu = s.scu.evaluated c (s.br.adopt c.bay) false := s.adopt_scu (.ok c)
  have hhsu : (s.adopt (.ok c)).hsu = if (s.adopt (.ok c)).scu.phase = s.scu.phase then s.hsu.adopt c.bay
      else (s.hsu.adopt c.bay).bump := s.adopt_hsu (.ok c)
  have hunsent := s.adopt_of_unsent (.ok c)
  have hsent := s.adopt_of_sent (.ok c)
  generalize s.adopt (.ok c) = t at hframe hscu hhsu hunsent hsent ⊢
  have hstages : t.hsu.stages = (s.hsu.adopt c.bay).stages := by
    rw [hhsu]
    split
    · rfl
    · exact Hsu.bump_stages _
  refine ⟨by rw [hframe]; rfl, ?startup, by rw [hframe]; rfl, fun k => ?diag, by rw [hframe]; rfl,
      by rw [hframe]; rfl,
    by rw [hframe]; rfl, fun k hk => ?unfitted, fun k hk => ?fitted, fun k => ?zones, fun hn => ?normal,
    fun hf => ?fire, fun hl => ?same, fun hl => ?fresh, ?scu, fun hno => ?calendar, fun order ho => ?rotation,
    fun ho => ?unowed, fun ho hi => ?inactive, fun ho hi => ?sent, ?_⟩
  case startup => rw [hframe]; exact if_pos hown
  case diag => rw [hframe]; exact PerSensor.get_perSensor _ k
  case unfitted =>
    rw [hframe]
    exact (Eight.get_ofFn _ k).trans (if_neg (Bool.eq_false_iff.1 hk))
  case fitted =>
    rw [hframe]
    exact (Eight.get_ofFn _ k).trans (if_pos hk)
  case zones =>
    have hzone : t.br.zones.get k = { s.br.zones.get k with
        edge := (c.bay.zones.get k).edge, groups := (c.bay.zones.get k).groups } := by
      rw [hframe]
      exact Six.get_ofFn _ k
    rw [hzone]
    exact ⟨rfl, rfl, rfl⟩
  case normal =>
    have hfire : s.fmc.inForce = false := by rw [Fmc.inForce, hn]
    rw [hframe]
    refine ⟨fun g => ?_, ?_⟩
    · change (s.ltc.adopt c.site.startLevel s.fmc.inForce).groups.get g = _
      rw [hfire]
      exact Six.get_six _ g
    · change s.abu.adopt c.bay s.fmc.inForce = _
      rw [hfire]
      rfl
  case fire =>
    rw [hframe]
    change s.ltc.adopt c.site.startLevel s.fmc.inForce = s.ltc
      ∧ (s.abu.adopt c.bay s.fmc.inForce).speed = _ ∧ (s.abu.adopt c.bay s.fmc.inForce).damper = _
      ∧ (s.abu.adopt c.bay s.fmc.inForce).supply = _
    rw [hf]
    exact ⟨rfl, rfl, rfl, rfl⟩
  case same => rw [hstages, Hsu.adopt_of_length hl]
  case fresh =>
    rw [hstages, Hsu.adopt_of_new_length hl]
    exact ⟨List.length_replicate, fun g hg => (List.mem_replicate.1 hg).2⟩
  case scu => rw [hscu]; rfl
  case calendar => rw [hscu]; exact Scu.evaluated_of_unamended c _ hno
  case rotation =>
    have hrotation : (s.hsu.adopt c.bay).rotation = order := by
      rw [ho]
      unfold Hsu.adopt
      split <;> rfl
    refine ⟨fun hp => ?_, fun hp k rest hk => ?_⟩
    · rw [hhsu, if_pos hp, hrotation]
    · rw [hhsu, if_neg hp]
      exact Hsu.bump_of_cons (hrotation.trans hk)
  case unowed =>
    obtain ⟨hlc, hfmc⟩ := hunsent (.inl ho)
    exact ⟨hlc, by rw [hfmc, ← ho]⟩
  case inactive => exact hunsent (.inr (.inl hi))
  case sent => exact hsent ho hi hown
  · rw [hframe]
    exact ⟨hheld, rfl, rfl, rfl, rfl⟩

/-! ### The seven tests and their codes (R171, R172) -/

section Tests

variable {own : Nat} {l : List Byte}

theorem judgeImage_of_short (h : l.length < 8) : judgeImage own (.bytes l) = .error 1 := if_pos h

theorem judgeImage_of_unsigned (hl : 8 ≤ l.length) (h : halfAt l 0 ≠ 0x5D43) :
    judgeImage own (.bytes l) = .error 2 := by
  have hsign : u16At l 0 ≠ 0x5D43 := fun heq => h (BitVec.eq_of_toNat_eq heq)
  exact (if_neg (by omega)).trans (if_pos hsign)

theorem judgeImage_of_long (hl : 8 ≤ l.length) (h0 : halfAt l 0 = 0x5D43) (h : 4096 < (halfAt l 2).toNat) :
    judgeImage own (.bytes l) = .error 3 := by
  have hsign : ¬ u16At l 0 ≠ 0x5D43 := fun hne => hne (congrArg BitVec.toNat h0)
  exact (if_neg (by omega)).trans ((if_neg hsign).trans (if_pos h))

theorem judgeImage_of_cut (hl : 8 ≤ l.length) (h0 : halfAt l 0 = 0x5D43) (h2 : (halfAt l 2).toNat ≤ 4096)
    (h : l.length < (halfAt l 2).toNat) : judgeImage own (.bytes l) = .error 1 := by
  have hsign : ¬ u16At l 0 ≠ 0x5D43 := fun hne => hne (congrArg BitVec.toNat h0)
  have hlong : ¬ 4096 < u16At l 2 := Nat.not_lt.2 h2
  exact (if_neg (by omega)).trans ((if_neg hsign).trans ((if_neg hlong).trans (if_pos h)))

/-- A header that does not pass fails with the code of one of the first three tests. -/
theorem judgeImage_of_header_fails (h : ¬ headerPasses l) :
    ∃ n, judgeImage own (.bytes l) = .error n ∧ 1 ≤ n ∧ n ≤ 3 := by
  by_cases hl : l.length < 8
  · exact ⟨1, judgeImage_of_short hl, by omega⟩
  by_cases h0 : halfAt l 0 = 0x5D43
  · by_cases h2 : 4096 < (halfAt l 2).toNat
    · exact ⟨3, judgeImage_of_long (by omega) h0 h2, by omega⟩
    · have hcut : l.length < (halfAt l 2).toNat :=
        Nat.lt_of_not_le fun hwhole => h ⟨by omega, h0, by omega, hwhole⟩
      exact ⟨1, judgeImage_of_cut (by omega) h0 (by omega) hcut, by omega⟩
  · exact ⟨2, judgeImage_of_unsigned (by omega) h0, by omega⟩

theorem judgeImage_of_sum_fails (h : headerPasses l) (hsum : wordSum (l.take (halfAt l 2).toNat) % 65536 ≠ 0) :
    judgeImage own (.bytes l) = .error 4 := by
  rw [judgeImage_of_headerPasses own h, if_pos hsum]

theorem judgeImage_of_no_block (h : headerPasses l) (hsum : wordSum (l.take (halfAt l 2).toNat) % 65536 = 0)
    (hno : ∀ j, ¬ blockMatches (l.take (halfAt l 2).toNat) own j) : judgeImage own (.bytes l) = .error 5 := by
  rw [judgeImage_of_headerPasses own h, if_neg (not_not_intro hsum), ownBlock_eq_none.2 hno]

/-- Tests 6 and 7, with the own block found (R171). -/
theorem judgeImage_of_block (h : headerPasses l) (hsum : wordSum (l.take (halfAt l 2).toNat) % 65536 = 0)
    (hblock : ∃ j, blockMatches (l.take (halfAt l 2).toNat) own j) :
    ((∃ k, entryFalls (l.take (halfAt l 2).toNat) k) → judgeImage own (.bytes l) = .error 6)
    ∧ ((∀ k, ¬ entryFalls (l.take (halfAt l 2).toNat) k) →
      (∀ c : Configuration, ¬ c.standsIn (l.take (halfAt l 2).toNat) own) →
      judgeImage own (.bytes l) = .error 7) := by
  obtain ⟨i, hi⟩ : ∃ i, ownBlock (l.take (halfAt l 2).toNat) own = some i := by
    rw [← Option.ne_none_iff_exists']
    obtain ⟨j, hj⟩ := hblock
    exact fun hnone => ownBlock_eq_none.1 hnone j hj
  rw [judgeImage_of_headerPasses own h, if_neg (not_not_intro hsum), hi]
  dsimp only
  refine ⟨fun ⟨k, hk⟩ => if_neg fun hasc => ascending_minutesWithin_iff.1 hasc k hk, fun hrises hno => ?_⟩
  have hasc := ascending_minutesWithin_iff.2 hrises
  rw [if_pos hasc]
  cases hread : readSections (l.take (halfAt l 2).toNat) i with
  | none => rfl
  | some c => exact absurd (standsIn_iff.2 ⟨i, hi, hasc, hread⟩) (hno c)

/-- A failure carries the number of one of the seven tests. -/
theorem judgeImage_error_code {m : ImageRead} {n : Nat} (h : judgeImage own m = .error n) : 1 ≤ n ∧ n ≤ 7 := by
  cases m with
  | noAnswer => cases h; omega
  | bytes l =>
    by_cases hheader : headerPasses l
    · rw [judgeImage_of_headerPasses own hheader] at h
      (repeat' split at h) <;> cases h <;> omega
    · obtain ⟨k, hk, hbounds⟩ := judgeImage_of_header_fails (own := own) hheader
      cases hk.symm.trans h
      omega

/-- A number outside 1 to 48 has no block, so test 5 fails at the latest. -/
theorem judgeImage_of_no_bay (h : isBayNumber own = false) (m : ImageRead) :
    ∃ n, judgeImage own m = .error n ∧ n ≤ 5 := by
  cases m with
  | noAnswer => exact ⟨1, rfl, by omega⟩
  | bytes l =>
    by_cases hheader : headerPasses l
    · by_cases hsum : wordSum (l.take (halfAt l 2).toNat) % 65536 = 0
      · exact ⟨5, judgeImage_of_no_block hheader hsum fun j ⟨_, _, hown, _⟩ =>
          absurd (h.symm.trans hown) Bool.noConfusion, le_rfl⟩
      · exact ⟨4, judgeImage_of_sum_fails hheader hsum, by omega⟩
    · obtain ⟨n, hn, -, hle⟩ := judgeImage_of_header_fails (own := own) hheader
      exact ⟨n, hn, by omega⟩

end Tests

theorem byteSum_append (l l' : List Byte) : byteSum (l ++ l') = byteSum l + byteSum l' := by
  rw [byteSum, List.map_append, List.sum_append]
  rfl

/-- The signature sums four equal rows behind an entry count of 0 (R41). -/
theorem fallback_signature : fallback.signature = 12224 := by
  have hrow : byteSum (PhaseRow.bytes fallbackRow) = 3056 := by decide
  have hsum : byteSum fallbackSigned = 12224 := by
    have hcons : byteSum fallbackSigned = byteSum [0] + byteSum (PhaseRow.bytes fallbackRow
        ++ PhaseRow.bytes fallbackRow ++ PhaseRow.bytes fallbackRow ++ PhaseRow.bytes fallbackRow) :=
      byteSum_append [0] _
    rw [hcons, byteSum_append, byteSum_append, byteSum_append, hrow]
    rfl
  exact congrArg (· % 65536) hsum

/-- Settles O6: the tests one after another; a failure adopts the fallback by `State.adopted`. -/
theorem failedImageAdoptsFallback : Obligations.FailedImageAdoptsFallback := by
  refine ⟨⟨rfl, rfl, fallback_signature, rfl, by decide, rfl, by decide, by decide⟩, fun own => rfl,
    fun own l => judgeImage_of_short, fun own l hl => ⟨judgeImage_of_unsigned hl, judgeImage_of_long hl,
      judgeImage_of_cut hl⟩, ?tests, fun own m n => judgeImage_error_code, fun own m h => judgeImage_of_no_bay h m,
    fun s m n hheld hload hj => ⟨s.adopt (.error n), ?exec, ?_⟩⟩
  case tests =>
    rintro own l image hheader rfl
    exact ⟨judgeImage_of_sum_fails hheader, judgeImage_of_no_block hheader,
      fun hsum hblock => (judgeImage_of_block hheader hsum hblock).1,
      fun hsum hblock => (judgeImage_of_block hheader hsum hblock).2⟩
  case exec =>
    rw [exec_imageAdopt, whenReleased_free _ hheld, State.imageAdopt, if_pos hload, hj]
  have hframe := (s.adopt_frame (.error n)).trans (by rw [State.adopted_frame])
  have hssl : (s.adopt (.error n)).ssl = (s.ssl.adopt (some n)).writeEvent ⟨.imageFallback, n, s.scu.minute⟩ := by
    rw [hframe]
    rfl
  have hunsent := s.adopt_of_unsent (.error n)
  generalize s.adopt (.error n) = t at hframe hssl hunsent ⊢
  refine ⟨by rw [hframe]; rfl, ?flag, ?startup, ?events, fun hown => (hunsent (.inr (.inr hown))).symm,
    by rw [hframe]; exact ⟨hheld, rfl, rfl, rfl, rfl⟩⟩
  case flag =>
    obtain ⟨-, -, -, -, -, -, -, -, -, -, hflag, -⟩ := t.statusFlags_bits
    rw [hflag, Ssl.imageFallback, hssl, Ssl.writeEvent_checkResult]
    rfl
  case startup => rw [hssl, Ssl.writeEvent_startup]; rfl
  case events => rw [hssl, Ssl.writeEvent_events]; rfl

end Sys2Proof.Machine
end

