-- ==== Sys2Proof/Proofs/FieldSample.lean ====
section
/-! PROOFS. What a sample event of the FIU makes of the station, said once: the fields it samples, the events it
writes in their order, and what the fire input adds; with the rows that name a part of it. -/

namespace Sys2Proof.Machine

/-! ### Events written one after another (R175) -/

/-- Events written to the list one after another. -/
def Ssl.writeAll (l : Ssl) (es : List Event) : Ssl := es.foldl Ssl.writeEvent l

section Events

variable (l : Ssl) (es : List Event)

theorem Ssl.writeAll_append (es' : List Event) : l.writeAll (es ++ es') = (l.writeAll es).writeAll es' :=
  List.foldl_append

theorem Ssl.writeAll_kept : (l.writeAll es).own = l.own ∧ (l.writeAll es).startup = l.startup
    ∧ (l.writeAll es).ticks = l.ticks ∧ (l.writeAll es).diag = l.diag := by
  induction es generalizing l with
  | nil => exact ⟨rfl, rfl, rfl, rfl⟩
  | cons e es ih =>
    obtain ⟨hown, hstart, hticks, hdiag⟩ := ih (l.writeEvent e)
    exact ⟨hown.trans (l.writeEvent_own e), hstart.trans (l.writeEvent_startup e),
      hticks.trans (l.writeEvent_ticks e), hdiag.trans (l.writeEvent_diag e)⟩

theorem Ssl.writeAll_own : (l.writeAll es).own = l.own := (l.writeAll_kept es).1

/-- What goes are the oldest, as many as pass the eight places, or the places of a list already longer. -/
theorem Ssl.writeAll_events : (l.writeAll es).events
    = (l.events ++ es).drop (l.events.length + es.length - max 8 l.events.length) := by
  induction es generalizing l with
  | nil =>
    rw [List.append_nil, List.length_nil, show l.events.length + 0 - max 8 l.events.length = 0 by omega]
    rfl
  | cons e es ih =>
    have hstep : (l.writeAll (e :: es)).events = ((l.writeEvent e).writeAll es).events := rfl
    rw [hstep, ih, Ssl.writeEvent_events]
    by_cases hroom : l.events.length < 8
    · rw [if_pos hroom, List.append_assoc, List.singleton_append, List.length_append, List.length_singleton,
        List.length_cons]
      congr 1
      omega
    · obtain ⟨oldest, rest, heq⟩ := List.exists_cons_of_length_pos (show 0 < l.events.length by omega)
      rw [if_neg hroom]
      rw [heq] at hroom ⊢
      simp only [List.tail_cons, List.length_append, List.length_cons, List.length_nil] at hroom ⊢
      rw [List.append_assoc, List.singleton_append, List.cons_append,
        show rest.length + 1 + (es.length + 1) - max 8 (rest.length + 1)
          = rest.length + 1 + es.length - max 8 (rest.length + 1) + 1 by omega, List.drop_succ_cons]

/-- Of at most eight events written together each is in the list. -/
theorem Ssl.mem_writeAll {e : Event} (hlen : es.length ≤ 8) (he : e ∈ es) : e ∈ (l.writeAll es).events := by
  rw [Ssl.writeAll_events, List.drop_append_of_le_length (by omega)]
  exact List.mem_append_right _ he

theorem Ssl.writeAll_getLast? (e : Event) : (l.writeAll (es ++ [e])).events.getLast? = some e := by
  rw [Ssl.writeAll_append]
  exact (congrArg List.getLast? (Ssl.writeEvent_events (l.writeAll es) e)).trans List.getLast?_concat

end Events

/-- A fold that writes events and does nothing else writes them in its order. -/
theorem State.foldl_writes {ι : Type} {f : State → ι → State} {es : ι → List Event} (m : Nat)
    (h : ∀ (t : State) (k : ι), t.scu.minute = m → f t k = { t with ssl := t.ssl.writeAll (es k) }) :
    ∀ (l : List ι) (s : State), s.scu.minute = m →
      l.foldl f s = { s with ssl := s.ssl.writeAll (l.flatMap es) }
  | [], _, _ => rfl
  | k :: l, s, hs => by
    rw [List.foldl_cons, h s k hs, State.foldl_writes m h l { s with ssl := s.ssl.writeAll (es k) } hs,
      List.flatMap_cons, Ssl.writeAll_append]

/-! ### The parts of a sample event (R3 to R19) -/

section Parts

variable (s : State) (c : Configuration) (p : PerSensor SensorSample)

/-- The event of one sensor at a sample event (R4). -/
def State.sensorEvent (k : Sensor) : List Event :=
  ((p.get k).event.map fun e => (⟨e, k.code, s.scu.minute⟩ : Event)).toList

/-- The events of a sample event's sensors, in the order of R4. -/
def State.sensorEvents : List Event :=
  [Sensor.tempA, .tempB, .outdoor, .exhaust, .daylight].flatMap (s.sensorEvent p)

/-- The event of a bay temperature that goes blind (R8). -/
def State.blindEvents : List Event :=
  if s.blindEvent (s.selection p).2.1 then [⟨.tempBlind, 0, s.scu.minute⟩] else []

/-- The doors' records after a sample event. -/
def State.doorsAfter : Eight Door :=
  nextDoors c s.br.doors (sampleContacts c.bay.doorsFitted s.pins.doorOpen s.fiu.doorContacts)
    (sampleContacts c.bay.doorsFitted s.pins.trailer s.fiu.trailerContacts)

/-- The event of one door at a sample event (R15). -/
def State.doorEvent (k : Fin 8) : List Event :=
  if ((s.doorsAfter c).get k).longOpen && !(s.br.doors.get k).longOpen then
    [⟨.doorLongOpen, k.val + 1, s.scu.minute⟩] else []

/-- The events of a sample event's doors, by ascending number. -/
def State.doorEvents : List Event := (List.finRange 8).flatMap (s.doorEvent c)

theorem State.fiuSensors_eq : s.fiuSensors p = { s with
    br := { s.br with validity := PerSensor.ofFn fun k => (p.get k).validity }
    fiu := { s.fiu with restore := PerSensor.ofFn fun k => (p.get k).restore }
    ssl := s.ssl.writeAll (s.sensorEvents p) } := by
  have hrecord : s.recordSensors p = { s with ssl := s.ssl.writeAll (s.sensorEvents p) } := by
    refine State.foldl_writes (es := s.sensorEvent p) s.scu.minute (fun t k ht => ?_) _ s rfl
    unfold State.recordSensor State.sensorEvent
    rw [← ht]
    cases (p.get k).event <;> rfl
  unfold State.fiuSensors
  rw [hrecord]

theorem State.fiuTemp_eq : s.fiuTemp p = { s with
    br := { s.br with
      tBay := (s.selection p).1, tempSource := (s.selection p).2.1
      tempSubst := (s.selection p).2.1 == .substituted, tempBlind := (s.selection p).2.1.isBlind }
    fiu := { s.fiu with
      lastGood := (s.selection p).2.2.1, lastGoodAge := (s.selection p).2.2.2, selected := true }
    ssl := s.ssl.writeAll (s.blindEvents p) } := by
  unfold State.fiuTemp State.blindEvents
  dsimp only
  split <;> rfl

theorem State.fiuDoors_eq : s.fiuDoors c = { s with
    br := { s.br with
      doors := s.doorsAfter c
      unsealed := countDoors (s.doorsAfter c) .openUnsealed
      sealedDoors := countDoors (s.doorsAfter c) .openSealed
      doorLongOpen := (s.doorsAfter c).toList.any Door.longOpen }
    fiu := { s.fiu with
      doorContacts := sampleContacts c.bay.doorsFitted s.pins.doorOpen s.fiu.doorContacts
      trailerContacts := sampleContacts c.bay.doorsFitted s.pins.trailer s.fiu.trailerContacts }
    ssl := s.ssl.writeAll (s.doorEvents c) } := by
  have hrecord : s.recordDoors s.br.doors (s.doorsAfter c)
      = { s with ssl := s.ssl.writeAll (s.doorEvents c) } := by
    refine State.foldl_writes (es := s.doorEvent c) s.scu.minute (fun t k ht => ?_) _ s rfl
    unfold State.doorEvent
    rw [← ht]
    split <;> rfl
  unfold State.fiuDoors
  unfold State.doorsAfter at hrecord
  dsimp only
  rw [hrecord]
  rfl

/-- The arrivals a sample event hands to the LTC touch the LTC and the LC alone (R100). -/
theorem State.handArrivals_frame (zones : Six Zone) (found : BitVec 6) :
    s.handArrivals c zones found = { s with
      ltc := (s.handArrivals c zones found).ltc, lc := (s.handArrivals c zones found).lc } := by
  unfold State.handArrivals
  generalize List.finRange 6 = l
  induction l generalizing s with
  | nil => rfl
  | cons k l ih =>
    rw [List.foldl_cons, ih]
    split
    · rw [State.edgeArrival_frame]
    · rfl

theorem State.handArrivals_groups (zones : Six Zone) (found : BitVec 6) :
    (s.handArrivals c zones found).ltc.groups = s.ltc.groups := by
  have hone : ∀ (t : State) (e : Edge), (t.edgeArrival c e).ltc.groups = t.ltc.groups := fun t e => by
    unfold State.edgeArrival
    split <;> rfl
  unfold State.handArrivals
  generalize List.finRange 6 = l
  induction l generalizing s with
  | nil => rfl
  | cons k l ih =>
    rw [List.foldl_cons, ih]
    split
    · exact hone s _
    · rfl

end Parts

/-! ### The whole of it -/

/-- The station with every field but the fire input sampled (R1). -/
def State.sampled (s : State) (c : Configuration) : State :=
  let p := s.sensorSamples
  let r := s.selection p
  let o := selectOutdoor p.outdoor.value (s.pt.relayed s.ssl.own) c.site.designOutdoor
  { s with
    br := { s.br with
      validity := PerSensor.ofFn fun k => (p.get k).validity
      tBay := r.1, tempSource := r.2.1
      tempSubst := r.2.1 == .substituted, tempBlind := r.2.1.isBlind
      tOut := o.1, outdoorSource := o.2, outdoorOwn := o.2 == .own
      exhaust := p.exhaust.value.map Int.toNat, daylight := p.daylight.value.map Int.toNat
      doors := s.doorsAfter c
      unsealed := countDoors (s.doorsAfter c) .openUnsealed
      sealedDoors := countDoors (s.doorsAfter c) .openSealed
      doorLongOpen := (s.doorsAfter c).toList.any Door.longOpen
      zones := s.nextZones c
      occupiedZones := (s.nextZones c).toList.countP Zone.isOccupied }
    fiu := { s.fiu with
      restore := PerSensor.ofFn fun k => (p.get k).restore
      lastGood := r.2.2.1, lastGoodAge := r.2.2.2, selected := true
      doorContacts := sampleContacts c.bay.doorsFitted s.pins.doorOpen s.fiu.doorContacts
      trailerContacts := sampleContacts c.bay.doorsFitted s.pins.trailer s.fiu.trailerContacts }
    ssl := s.ssl.writeAll (s.sensorEvents p ++ s.blindEvents p ++ s.doorEvents c) }

theorem State.fiuInputs_eq {s : State} {c : Configuration} (h : s.cfg = some c) :
    s.fiuInputs = (s.sampled c).handArrivals c s.br.zones s.pins.occupied := by
  have hselect : ∀ b f es, State.selection { s with
      br := { s.br with validity := b }, fiu := { s.fiu with restore := f }, ssl := s.ssl.writeAll es }
        s.sensorSamples = s.selection s.sensorSamples := by
    intro b f es
    unfold State.selection
    rw [Ssl.writeAll_own]
  have hblind : ∀ b f es, State.blindEvents { s with
      br := { s.br with validity := b }, fiu := { s.fiu with restore := f }, ssl := s.ssl.writeAll es }
        s.sensorSamples = s.blindEvents s.sensorSamples := by
    intro b f es
    unfold State.blindEvents
    rw [hselect]
    rfl
  unfold State.fiuInputs
  rw [h]
  dsimp only
  rw [State.fiuSensors_eq, State.fiuTemp_eq, hselect, hblind]
  unfold State.fiuAir
  dsimp only
  rw [State.fiuDoors_eq]
  unfold State.fiuZones State.sampled
  dsimp only
  rw [Ssl.writeAll_append, Ssl.writeAll_append, Ssl.writeAll_own, Ssl.writeAll_own]
  rfl

/-! ### The fire input (R20, R162) -/

section FireInput

variable {s : State}

theorem State.fiuFire_of_same (h : s.pins.fire = s.br.fireInput) :
    s.fiuFire = { s with fiu := { s.fiu with firePending := false } } := by
  have hk : (Contact.mk s.br.fireInput s.fiu.firePending).sampled s.pins.fire = ⟨s.br.fireInput, false⟩ := if_pos h
  unfold State.fiuFire
  rw [hk]
  exact if_pos rfl

theorem State.fiuFire_of_first (h : s.pins.fire ≠ s.br.fireInput) (hp : s.fiu.firePending = false) :
    s.fiuFire = { s with fiu := { s.fiu with firePending := true } } := by
  have hk : (Contact.mk s.br.fireInput s.fiu.firePending).sampled s.pins.fire = ⟨s.br.fireInput, true⟩ :=
    (if_neg h).trans (if_neg (by simp [hp]))
  unfold State.fiuFire
  rw [hk]
  exact if_pos rfl

theorem State.fiuFire_of_second (h : s.pins.fire ≠ s.br.fireInput) (hp : s.fiu.firePending = true) :
    s.fiuFire = { s with
      br := { s.br with fireInput := s.pins.fire }
      fiu := { s.fiu with firePending := false } }.fireInputChanged s.pins.fire := by
  have hk : (Contact.mk s.br.fireInput s.fiu.firePending).sampled s.pins.fire = ⟨s.pins.fire, false⟩ :=
    (if_neg h).trans (if_pos hp)
  unfold State.fiuFire
  rw [hk]
  exact if_neg h

/-- Beside the input itself only the event, the line and the blocks a fire entry reaches can change (R162). -/
theorem State.fiuFire_frame (s : State) : s.fiuFire = { s with
    br := { s.br with fireInput := s.fiuFire.br.fireInput }
    fiu := { s.fiu with firePending := s.fiuFire.fiu.firePending }
    ssl := s.fiuFire.ssl, lc := s.fiuFire.lc, ltc := s.fiuFire.ltc, hru := s.fiuFire.hru
    hsu := s.fiuFire.hsu, abu := s.fiuFire.abu, fmc := s.fiuFire.fmc } := by
  by_cases h : s.pins.fire = s.br.fireInput
  · rw [State.fiuFire_of_same h]
  · cases hp : s.fiu.firePending with
    | false => rw [State.fiuFire_of_first h hp]
    | true => rw [State.fiuFire_of_second h hp, State.fireInputChanged_frame]

theorem ownOrigin_getD (own : Nat) : (ownOrigin own).getD 0 = own := by
  unfold ownOrigin
  split
  · rename_i h
    exact h.symm
  · rfl

/-- A change of the settled input writes one event, and only where it enters fire mode (R162, R164). -/
theorem State.fireInputChanged_ssl (s : State) (a : Bool) :
    (s.fireInputChanged a).ssl = s.ssl.writeAll (if s.fmc.mode = .normal ∧ a = true then
      [⟨.fireEnter, s.ssl.own, s.scu.minute⟩] else []) := by
  have hsend : ∀ t : State, t.send.ssl = t.ssl := fun t => by rw [State.send_frame]
  unfold State.fireInputChanged
  split
  next hm =>
    rw [hsend, State.enterFire_ssl, ownOrigin_getD, if_pos ⟨hm, rfl⟩]
    rfl
  next hm => rw [if_neg (by simp)]; rfl
  next hm => rw [hsend, if_neg (by simp [hm])]; rfl
  next hm => rw [if_neg (by simp)]; rfl
  next hm => rw [hsend, if_neg (by simp [hm])]; rfl
  next hm => rw [if_neg (by simp)]; rfl

/-- The event of the fire input at a sample event (R164). -/
def State.fireEvents (s : State) : List Event :=
  if s.pins.fire = true ∧ s.br.fireInput = false ∧ s.fiu.firePending = true ∧ s.fmc.mode = .normal then
    [⟨.fireEnter, s.ssl.own, s.scu.minute⟩] else []

theorem State.fiuFire_ssl (s : State) : s.fiuFire.ssl = s.ssl.writeAll s.fireEvents := by
  unfold State.fireEvents
  by_cases h : s.pins.fire = s.br.fireInput
  · rw [State.fiuFire_of_same h, if_neg fun ⟨ht, hf, _⟩ => absurd (ht.symm.trans (h.trans hf)) Bool.noConfusion]
    rfl
  · cases hp : s.fiu.firePending with
    | false => rw [State.fiuFire_of_first h hp, if_neg (by simp)]; rfl
    | true =>
      rw [State.fiuFire_of_second h hp, State.fireInputChanged_ssl]
      refine congrArg s.ssl.writeAll (if_congr ?_ rfl rfl)
      cases hi : s.br.fireInput <;> cases hx : s.pins.fire <;> simp_all

end FireInput

/-! ### SELFTEST (R170, R173) -/

theorem State.selftestSample_of_other {s : State} (h : s.ssl.startup ≠ .selftest) : s.selftestSample = s := by
  unfold State.selftestSample
  split
  next hs => exact absurd hs h
  all_goals rfl

/-- The SSL's count of SELFTEST samples leaves the event list alone. -/
theorem State.selftestSample_events (s : State) : s.selftestSample.ssl.events = s.ssl.events := by
  unfold State.selftestSample
  split
  · dsimp only
    split <;> rfl
  all_goals rfl

/-! ### The sample event as a whole -/

section Sample

variable {s : State} {c : Configuration}

/-- Every field a sample event sets is the sampled one; the rest is left to the arrivals, the fire input and the
SSL's count. -/
theorem State.fiuSample_frame (h : s.cfg = some c) : s.fiuSample = { s.sampled c with
    br := { (s.sampled c).br with fireInput := s.fiuSample.br.fireInput }
    fiu := { (s.sampled c).fiu with firePending := s.fiuSample.fiu.firePending }
    ssl := s.fiuSample.ssl, lc := s.fiuSample.lc, ltc := s.fiuSample.ltc, hru := s.fiuSample.hru
    hsu := s.fiuSample.hsu, abu := s.fiuSample.abu, fmc := s.fiuSample.fmc } := by
  unfold State.fiuSample
  rw [State.selftestSample_frame, State.fiuFire_frame, State.fiuInputs_eq h, State.handArrivals_frame]

/-- The fire input as it was: the FMC and the output blocks are not reached. -/
theorem State.fiuSample_of_same (h : s.cfg = some c) (hx : s.pins.fire = s.br.fireInput) :
    s.fiuSample = { s.sampled c with
      fiu := { (s.sampled c).fiu with firePending := false }
      ssl := s.fiuSample.ssl
      lc := ((s.sampled c).handArrivals c s.br.zones s.pins.occupied).lc
      ltc := ((s.sampled c).handArrivals c s.br.zones s.pins.occupied).ltc } := by
  have hsame : s.fiuInputs.pins.fire = s.fiuInputs.br.fireInput := by
    rw [State.fiuInputs_eq h, State.handArrivals_frame]
    exact hx
  unfold State.fiuSample
  rw [State.fiuFire_of_same hsame, State.selftestSample_frame, State.fiuInputs_eq h, State.handArrivals_frame]

/-- The events of a sample event in their order: sensors, bay temperature, doors, fire input (R1, log 32). -/
theorem State.fiuSample_events (h : s.cfg = some c) : s.fiuSample.ssl.events
    = (s.ssl.writeAll (s.sensorEvents s.sensorSamples ++ s.blindEvents s.sensorSamples ++ s.doorEvents c
      ++ s.fireEvents)).events := by
  have hfire : State.fireEvents ((s.sampled c).handArrivals c s.br.zones s.pins.occupied) = s.fireEvents := by
    rw [State.handArrivals_frame]
    unfold State.fireEvents State.sampled
    dsimp only
    rw [Ssl.writeAll_own]
  unfold State.fiuSample
  rw [State.selftestSample_events, State.fiuFire_ssl, State.fiuInputs_eq h, hfire, Ssl.writeAll_append,
    State.handArrivals_frame]
  rfl

end Sample

end Sys2Proof.Machine
end

