-- ==== Sys2Proof/Proofs/FieldInputs.lean ====
section
/-! PROOFS. The analogue sensors of a sample event and the events of sensors, bay temperature and doors (O9). -/

namespace Sys2Proof.Machine

section Sampled

variable {s : State} {c : Configuration} (x : InputLevels) (now : Nat)

theorem exec_fiuSampleEvent_of_works (h : s.works c) :
    exec (.fiuSampleEvent x now) s = .next (s.atField x now).fiuSample := by
  rw [exec_fiuSampleEvent]
  exact whenReleased_free _ h.1

/-! ### Analogue sensors (R3, R4) -/

/-- A sensor at a sample of the field levels `x`. -/
def State.sensorAt (s : State) (x : InputLevels) (k : Sensor) : SensorSample :=
  sensorStep k (s.br.validity.get k) (s.fiu.restore.get k) (x.reading.get k)

theorem State.sensorSamples_get (s : State) (k : Sensor) :
    (s.atField x now).sensorSamples.get k = s.sensorAt x k := PerSensor.get_ofFn _ k

theorem State.fieldSample_sensor (h : s.works c) (k : Sensor) :
    (s.atField x now).fiuSample.br.validity.get k = (s.sensorAt x k).validity
      ∧ (s.atField x now).fiuSample.fiu.restore.get k = (s.sensorAt x k).restore := by
  rw [State.fiuSample_frame (s := s.atField x now) h.2, ← s.sensorSamples_get x now k]
  exact ⟨PerSensor.get_ofFn _ k, PerSensor.get_ofFn _ k⟩

theorem State.fieldSample_doors (h : s.works c) :
    (s.atField x now).fiuSample.br.doors = (s.atField x now).doorsAfter c := by
  rw [State.fiuSample_frame (s := s.atField x now) h.2]
  rfl

/-- A sample that makes no door long-open writes no door's event (R15). -/
theorem State.doorEvents_of_noLate (h : s.works c) (hlate : s.makesNoDoorLate (s.atField x now).fiuSample) :
    (s.atField x now).doorEvents c = [] := by
  refine List.flatMap_eq_nil_iff.2 fun k _ => if_neg fun hk => ?_
  obtain ⟨hafter, hbefore⟩ : (((s.atField x now).doorsAfter c).get k).longOpen = true
      ∧ (s.br.doors.get k).longOpen = false := by simpa using hk
  rw [← State.fieldSample_doors x now h] at hafter
  exact absurd (hbefore.symm.trans (hlate k hafter)) Bool.noConfusion

theorem State.sensorEvents_length (s : State) (p : PerSensor SensorSample) : (s.sensorEvents p).length ≤ 5 := by
  have hone : ∀ k, (s.sensorEvent p k).length ≤ 1 := fun k => by
    unfold State.sensorEvent
    cases (p.get k).event <;> simp
  have h1 := hone .tempA
  have h2 := hone .tempB
  have h3 := hone .outdoor
  have h4 := hone .exhaust
  have h5 := hone .daylight
  simp only [State.sensorEvents, List.flatMap_cons, List.flatMap_nil, List.length_append, List.length_nil]
  omega

theorem State.blindEvents_length (s : State) (p : PerSensor SensorSample) : (s.blindEvents p).length ≤ 1 := by
  unfold State.blindEvents
  split <;> simp

theorem State.fireEvents_length (s : State) : s.fireEvents.length ≤ 1 := by
  unfold State.fireEvents
  split <;> simp

/-- What the sensors and the bay temperature write is in the list after a sample that makes no door long-open. -/
theorem State.mem_fieldSample_events (h : s.works c)
    (hlate : s.makesNoDoorLate (s.atField x now).fiuSample) {e : Event}
    (he : e ∈ (s.atField x now).sensorEvents (s.atField x now).sensorSamples
      ++ (s.atField x now).blindEvents (s.atField x now).sensorSamples) :
    e ∈ (s.atField x now).fiuSample.ssl.events := by
  have hs := (s.atField x now).sensorEvents_length (s.atField x now).sensorSamples
  have hb := (s.atField x now).blindEvents_length (s.atField x now).sensorSamples
  have hf := (s.atField x now).fireEvents_length
  rw [State.fiuSample_events (s := s.atField x now) h.2, State.doorEvents_of_noLate x now h hlate, List.append_nil]
  refine Ssl.mem_writeAll _ _ ?_ (List.mem_append_left _ he)
  simp only [List.length_append]
  omega

theorem State.sensorEvent_eq (s : State) (k : Sensor) :
    (s.atField x now).sensorEvent (s.atField x now).sensorSamples k
      = ((s.sensorAt x k).event.map fun e => (⟨e, k.code, s.scu.minute⟩ : Event)).toList := by
  unfold State.sensorEvent
  rw [State.sensorSamples_get]
  rfl

theorem State.mem_sensorEvents {k : Sensor} {e : EventKind} (he : (s.sensorAt x k).event = some e) :
    (⟨e, k.code, s.scu.minute⟩ : Event) ∈ (s.atField x now).sensorEvents (s.atField x now).sensorSamples := by
  refine List.mem_flatMap.2 ⟨k, by cases k <;> decide, ?_⟩
  rw [State.sensorEvent_eq, he]
  exact List.mem_singleton_self _

end Sampled

section Sensors

variable {k : Sensor} {v : Validity} {n : Nat} {r : Int}

theorem readingFits_iff (k : Sensor) (r : Int) : readingFits k r = true ↔ match k with
    | .tempA | .tempB | .outdoor => -400 ≤ r ∧ r ≤ 600
    | .exhaust => 0 ≤ r ∧ r ≤ 1000
    | .daylight => 0 ≤ r ∧ r ≤ 20000 := by
  unfold readingFits
  rw [Bool.and_eq_true, decide_eq_true_iff, decide_eq_true_iff]
  cases k <;> exact Iff.rfl

theorem sensorStep_of_fits (hv : v = .unsampled ∨ v = .valid) (hr : readingFits k r = true) :
    sensorStep k v n r = ⟨.valid, n, some r, none⟩ := by
  rcases hv with rfl | rfl <;> exact if_pos hr

theorem sensorStep_of_misfits (hv : v = .unsampled ∨ v = .valid) (hr : readingFits k r = false) :
    sensorStep k v n r = ⟨.fault, 0, none, some .sensorFault⟩ := by
  rcases hv with rfl | rfl <;> exact if_neg (Bool.eq_false_iff.1 hr)

theorem sensorStep_of_still_faulty (hr : readingFits k r = false) :
    sensorStep k .fault n r = ⟨.fault, 0, none, none⟩ := if_neg (Bool.eq_false_iff.1 hr)

theorem sensorStep_of_recovering (hr : readingFits k r = true) (hn : n < 2) :
    sensorStep k .fault n r = ⟨.fault, n + 1, none, none⟩ := (if_pos hr).trans (if_neg (by omega))

theorem sensorStep_of_restored (hr : readingFits k r = true) (hn : 2 ≤ n) :
    sensorStep k .fault n r = ⟨.valid, 0, some r, some .sensorRestored⟩ := (if_pos hr).trans (if_pos (by omega))

/-- The event that a change of validity writes (R4). -/
def validityEvent : Validity → Validity → Option EventKind
  | .unsampled, .fault | .valid, .fault => some .sensorFault
  | .fault, .valid => some .sensorRestored
  | _, _ => none

/-- A sensor contributes its reading while VALID, and its change of validity decides its event. -/
theorem sensorStep_value_event (k : Sensor) (v : Validity) (n : Nat) (r : Int) :
    (sensorStep k v n r).value = (if (sensorStep k v n r).validity = .valid then some r else none)
      ∧ (sensorStep k v n r).event = validityEvent v (sensorStep k v n r).validity := by
  cases v with
  | notFitted => exact ⟨rfl, rfl⟩
  | unsampled =>
    cases hr : readingFits k r with
    | true => rw [sensorStep_of_fits (.inl rfl) hr]; exact ⟨rfl, rfl⟩
    | false => rw [sensorStep_of_misfits (.inl rfl) hr]; exact ⟨rfl, rfl⟩
  | valid =>
    cases hr : readingFits k r with
    | true => rw [sensorStep_of_fits (.inr rfl) hr]; exact ⟨rfl, rfl⟩
    | false => rw [sensorStep_of_misfits (.inr rfl) hr]; exact ⟨rfl, rfl⟩
  | fault =>
    cases hr : readingFits k r with
    | false => rw [sensorStep_of_still_faulty hr]; exact ⟨rfl, rfl⟩
    | true =>
      by_cases hn : n < 2
      · rw [sensorStep_of_recovering hr hn]; exact ⟨rfl, rfl⟩
      · rw [sensorStep_of_restored hr (by omega)]; exact ⟨rfl, rfl⟩

end Sensors

/-- The event a change of validity writes, as a record. -/
theorem validityEvent_map (v w : Validity) (k : Sensor) (m : Nat) :
    (validityEvent v w).map (fun e => (⟨e, k.code, m⟩ : Event)) =
      match v, w with
      | .unsampled, .fault | .valid, .fault => some ⟨.sensorFault, k.code, m⟩
      | .fault, .valid => some ⟨.sensorRestored, k.code, m⟩
      | _, _ => none := by
  cases v <;> cases w <;> rfl

theorem TempSource.isBlind_iff (t : TempSource) : t.isBlind = true ↔ t = .blind := by
  cases t <;> simp [TempSource.isBlind]

theorem State.blindEvent_iff (s : State) (t : TempSource) :
    s.blindEvent t = true ↔ t = .blind ∧ (s.br.tempSource ≠ .blind ∨ s.fiu.selected = false) := by
  unfold State.blindEvent
  rw [Bool.and_eq_true, Bool.or_eq_true, Bool.not_eq_true', Bool.not_eq_true', TempSource.isBlind_iff,
    Bool.eq_false_iff, ne_eq, TempSource.isBlind_iff]

/-- The row that restores a sensor is the sample at which its third good reading falls (R3, log 1). -/
theorem exec_sensorRestored_of_due {s : State} {c : Configuration} (h : s.works c) {k : Sensor}
    {x : InputLevels} (now : Nat) (hv : s.br.validity.get k = .fault) (hr : readingFits k (x.reading.get k) = true)
    (hn : s.fiu.restore.get k = 2) :
    exec (.sensorRestored k x now) s = .next (s.atField x now).fiuSample := by
  rw [exec_sensorRestored]
  refine whenDue_due _ h.1 ?_
  simp [State.restoreDue, h.2, hv, hr, hn]

/-- Settles O9: the table is `sensorStep`, said case by case; the events are those written in order. -/
theorem sensorValidityTable : Obligations.SensorValidityTable := by
  refine ⟨readingFits_iff, fun s c x now h hlen hx => ⟨_, exec_fiuSampleEvent_of_works x now h, fun hlate => ?order⟩,
    fun s c x now k h => ⟨_, exec_fiuSampleEvent_of_works x now h, ?_⟩⟩
  case order =>
    rintro written rfl
    have hfire : (s.atField x now).fireEvents = [] := if_neg fun ⟨ht, hf, _⟩ => by
      cases ht.symm.trans (hx.trans hf)
    have hevents := State.fiuSample_events (s := s.atField x now) h.2
    rw [State.doorEvents_of_noLate x now h hlate, hfire, List.append_nil, List.append_nil,
        Ssl.writeAll_events] at hevents
    have hmax : max 8 s.ssl.events.length = 8 := Nat.max_eq_left hlen
    have hblind : (s.atField x now).blindEvents (s.atField x now).sensorSamples
        = if (s.atField x now).fiuSample.br.tempSource = .blind
            ∧ (s.br.tempSource ≠ .blind ∨ s.fiu.selected = false)
          then [⟨.tempBlind, 0, s.scu.minute⟩] else [] := by
      refine if_congr ?_ rfl rfl
      rw [State.blindEvent_iff, State.fiuSample_frame (s := s.atField x now) h.2]
      exact Iff.rfl
    have hsensors : (s.atField x now).sensorEvents (s.atField x now).sensorSamples
        = [Sensor.tempA, .tempB, .outdoor, .exhaust, .daylight].filterMap fun k =>
          match s.br.validity.get k, (s.atField x now).fiuSample.br.validity.get k with
          | .unsampled, .fault | .valid, .fault => some ⟨.sensorFault, k.code, s.scu.minute⟩
          | .fault, .valid => some ⟨.sensorRestored, k.code, s.scu.minute⟩
          | _, _ => none := by
      rw [List.filterMap_eq_flatMap_toList]
      refine congrArg (List.flatMap · _) (funext fun k => ?_)
      rw [State.sensorEvent_eq, State.sensorAt, (sensorStep_value_event _ _ _ _).2, validityEvent_map,
        (State.fieldSample_sensor x now h k).1]
      rfl
    rw [hsensors, hblind, State.atField_ssl, hmax] at hevents
    exact hevents
  · obtain ⟨hvalid, hrestore⟩ := State.fieldSample_sensor x now h k
    have hwritten : ∀ e, (s.sensorAt x k).event = some e → s.makesNoDoorLate (s.atField x now).fiuSample →
        (⟨e, k.code, s.scu.minute⟩ : Event) ∈ (s.atField x now).fiuSample.ssl.events := fun e he hlate =>
      State.mem_fieldSample_events x now h hlate (List.mem_append_left _ (State.mem_sensorEvents x now he))
    rw [hvalid, hrestore]
    refine ⟨fun hv => ?_, fun hv hr => ?_, fun hv hr => ?_, fun hv hr => ?_, fun hv hr hn => ?_,
      fun hv hr hn => ?_⟩
    · rw [State.sensorAt, hv]
      exact ⟨rfl, rfl⟩
    · rw [State.sensorAt, sensorStep_of_fits hv hr]
    · unfold State.sensorAt
      generalize s.br.validity.get k = v at hv
      cases v with
      | notFitted => exact absurd rfl hv
      | unsampled => rw [sensorStep_of_misfits (.inl rfl) hr]; exact ⟨rfl, rfl⟩
      | valid => rw [sensorStep_of_misfits (.inr rfl) hr]; exact ⟨rfl, rfl⟩
      | fault => rw [sensorStep_of_still_faulty hr]; exact ⟨rfl, rfl⟩
    · exact hwritten .sensorFault (by rw [State.sensorAt, sensorStep_of_misfits hv hr])
    · rw [State.sensorAt, hv, sensorStep_of_recovering hr hn]
      exact ⟨rfl, rfl⟩
    · have hstep : s.sensorAt x k = ⟨.valid, 0, some (x.reading.get k), some .sensorRestored⟩ := by
        rw [State.sensorAt, hv, sensorStep_of_restored hr hn.ge]
      refine ⟨by rw [hstep], by rw [hstep], exec_sensorRestored_of_due h now hv hr hn, hwritten _ ?_⟩
      rw [hstep]

end Sys2Proof.Machine
end

