-- ==== Sys2Proof/Proofs/FieldTemperatures.lean ====
section
/-! PROOFS. The bay temperature chain, the outdoor temperature, exhaust and daylight of a sample event (O10,
O11). -/

namespace Sys2Proof.Machine

section Selection

variable {s : State} {c : Configuration} (x : InputLevels) (now : Nat)

/-- The value of a sensor is its reading exactly while the sample leaves it VALID (R3). -/
theorem State.sensorAt_value (s : State) (x : InputLevels) (k : Sensor) :
    (s.sensorAt x k).value = if (s.sensorAt x k).validity = .valid then some (x.reading.get k) else none :=
  (sensorStep_value_event _ _ _ _).1

/-- The figure measured at a sample of the field levels `x` (R5, R6). -/
def State.measuredAt (s : State) (x : InputLevels) : Option (Int × TempSource) :=
  measured (s.sensorAt x .tempA).value (s.sensorAt x .tempB).value (s.pt.substitute? (s.ssl.own - 1))
    (s.pt.substitute? (s.ssl.own + 1))

/-- The bay temperature selected at a sample of the field levels `x` (R5). -/
def State.selectionAt (s : State) (x : InputLevels) : Int × TempSource × Option Int × Nat :=
  selectTemp (s.measuredAt x) s.fiu.lastGood s.fiu.lastGoodAge s.br.tBay

theorem State.selection_atField :
    (s.atField x now).selection (s.atField x now).sensorSamples = s.selectionAt x := rfl

theorem State.fieldSample_temp (h : s.works c) :
    (s.atField x now).fiuSample.br.tBay = (s.selectionAt x).1
      ∧ (s.atField x now).fiuSample.br.tempSource = (s.selectionAt x).2.1
      ∧ (s.atField x now).fiuSample.fiu.lastGood = (s.selectionAt x).2.2.1
      ∧ (s.atField x now).fiuSample.fiu.lastGoodAge = (s.selectionAt x).2.2.2
      ∧ (s.atField x now).fiuSample.br.tempSubst = ((s.selectionAt x).2.1 == .substituted)
      ∧ (s.atField x now).fiuSample.br.tempBlind = (s.selectionAt x).2.1.isBlind := by
  rw [State.fiuSample_frame (s := s.atField x now) h.2]
  exact ⟨rfl, rfl, rfl, rfl, rfl, rfl⟩

theorem measured_source {a b west east : Option Int} {t : Int} {u : TempSource}
    (h : measured a b west east = some (t, u)) : u = .own ∨ u = .substituted := by
  unfold measured at h
  split at h
  · cases h; exact .inl rfl
  · cases h; exact .inl rfl
  · cases h; exact .inl rfl
  · obtain ⟨v, -, hv⟩ := Option.map_eq_some_iff.1 h
    cases hv
    exact .inr rfl

/-- Without a figure the chain holds the last good value up to 600 s and is BLIND behind it (R7). -/
theorem selectTemp_none (lastGood : Option Int) (age : Nat) (t : Int) :
    (∀ g, lastGood = some g → age + 1 ≤ 600 →
      selectTemp none lastGood age t = (g, .held, some g, satAdd age 1))
    ∧ (lastGood = none ∨ 600 ≤ age → selectTemp none lastGood age t = (t, .blind, lastGood, satAdd age 1)) := by
  constructor
  · rintro g rfl hage
    exact if_pos (by unfold satAdd; omega)
  · intro h
    cases lastGood with
    | none => rfl
    | some g =>
      have hage : 600 ≤ age := h.resolve_left (Option.some_ne_none g)
      exact if_neg (by unfold satAdd; omega)

/-- The last good value and its age by the source selected (R7). -/
theorem State.selectionAt_lastGood (s : State) (x : InputLevels) :
    ((s.selectionAt x).2.1 = .own ∨ (s.selectionAt x).2.1 = .substituted →
      (s.selectionAt x).2.2.1 = some (s.selectionAt x).1 ∧ (s.selectionAt x).2.2.2 = 0)
    ∧ ((s.selectionAt x).2.1 = .held ∨ (s.selectionAt x).2.1 = .blind →
      (s.selectionAt x).2.2.1 = s.fiu.lastGood
        ∧ (s.selectionAt x).2.2.2 = min 65535 (s.fiu.lastGoodAge + 1)) := by
  unfold State.selectionAt
  cases hm : s.measuredAt x with
  | some m =>
    refine ⟨fun _ => ⟨rfl, rfl⟩, fun hold => ?_⟩
    have hsource : m.2 = .own ∨ m.2 = .substituted := measured_source (t := m.1) hm
    rcases hsource with hu | hu <;> rcases hold with hv | hv <;> cases hu.symm.trans hv
  | none =>
    obtain ⟨hheld, hblind⟩ := selectTemp_none s.fiu.lastGood s.fiu.lastGoodAge s.br.tBay
    by_cases hb : s.fiu.lastGood = none ∨ 600 ≤ s.fiu.lastGoodAge
    · rw [hblind hb]
      exact ⟨fun hno => (by rcases hno with hno | hno <;> cases hno), fun _ => ⟨rfl, rfl⟩⟩
    · obtain ⟨g, hg⟩ := Option.ne_none_iff_exists'.1 fun hnone => hb (.inl hnone)
      rw [hheld g hg (by omega)]
      exact ⟨fun hno => (by rcases hno with hno | hno <;> cases hno), fun _ => ⟨hg.symm, rfl⟩⟩

end Selection

theorem Peers.substitute?_iff (p : Peers) (n : Nat) (v : Int) : p.substitute? n = some v ↔
    ∃ b, p.fresh n = some b ∧ b.source = 0 ∧ b.tBay.toInt = v ∧ -400 ≤ v ∧ v ≤ 600 := by
  unfold Peers.substitute?
  cases p.fresh n with
  | none => simp
  | some b =>
    rw [Option.ite_none_right_eq_some, tempInRange_iff]
    constructor
    · rintro ⟨⟨hb, hlo, hhi⟩, hv⟩
      cases hv
      exact ⟨b, rfl, hb, rfl, hlo, hhi⟩
    · rintro ⟨b', hb', hb, rfl, hlo, hhi⟩
      cases hb'
      exact ⟨⟨hb, hlo, hhi⟩, rfl⟩

/-- The row that goes blind is the sample that selects BLIND and writes its event (R8, log 1). -/
theorem exec_tempBlind_of_due {s : State} {c : Configuration} (h : s.works c) {x : InputLevels} (now : Nat)
    (hs : (s.selectionAt x).2.1 = .blind) (hb : s.br.tempSource ≠ .blind ∨ s.fiu.selected = false) :
    exec (.tempBlind x now) s = .next (s.atField x now).fiuSample := by
  rw [exec_tempBlind]
  refine whenDue_due _ h.1 ?_
  have hevent : (s.atField x now).blindEvent (s.selectionAt x).2.1 = true :=
    (State.blindEvent_iff _ _).2 ⟨hs, hb⟩
  have hcfg : (s.atField x now).cfg.isSome = true := Option.isSome_iff_exists.2 ⟨c, h.2⟩
  unfold State.blindDue
  dsimp only
  rw [State.selection_atField, hevent, hcfg]
  rfl

/-- A sensor that a sample does not leave VALID (R3). -/
theorem State.sensorAt_invalid {s : State} {x : InputLevels} {k : Sensor}
    (h : s.br.validity.get k = .notFitted ∨ readingFits k (x.reading.get k) = false
      ∨ (s.br.validity.get k = .fault ∧ s.fiu.restore.get k < 2)) : (s.sensorAt x k).value = none := by
  have hfaulty : readingFits k (x.reading.get k) = false → (s.sensorAt x k).value = none := fun hr => by
    unfold State.sensorAt
    cases s.br.validity.get k with
    | notFitted => rfl
    | unsampled => rw [sensorStep_of_misfits (.inl rfl) hr]
    | valid => rw [sensorStep_of_misfits (.inr rfl) hr]
    | fault => rw [sensorStep_of_still_faulty hr]
  rcases h with hv | hr | ⟨hv, hn⟩
  · rw [State.sensorAt, hv]
    rfl
  · exact hfaulty hr
  · cases hr : readingFits k (x.reading.get k) with
    | false => exact hfaulty hr
    | true => rw [State.sensorAt, hv, sensorStep_of_recovering hr hn]

/-- Settles O10: the chain is `selectTemp` of what is `measured`. -/
theorem bayTemperatureChain : Obligations.BayTemperatureChain := by
  refine ⟨Peers.substitute?_iff, fun s c x now h hsensors hwest heast hlast hb => ?row, fun s c x now h =>
    ⟨_, exec_fiuSampleEvent_of_works x now h, ?_⟩⟩
  case row =>
    have hm : s.measuredAt x = none := by
      rw [State.measuredAt, State.sensorAt_invalid (hsensors .tempA (by decide)),
        State.sensorAt_invalid (hsensors .tempB (by decide)), hwest, heast]
      rfl
    have hselect : s.selectionAt x = (s.br.tBay, .blind, s.fiu.lastGood, satAdd s.fiu.lastGoodAge 1) := by
      rw [State.selectionAt, hm]
      exact (selectTemp_none _ _ _).2 hlast
    have hsource : (s.selectionAt x).2.1 = .blind := by rw [hselect]
    obtain ⟨hbay, hsrc, -, -, -, hblind⟩ := State.fieldSample_temp x now h
    rw [hselect] at hbay hsrc hblind
    refine ⟨_, exec_tempBlind_of_due h now hsource hb, exec_fiuSampleEvent_of_works x now h, hsrc, hbay, hblind,
      fun hlate => State.mem_fieldSample_events x now h hlate (List.mem_append_right _ ?_)⟩
    rw [State.blindEvents, State.selection_atField,
        if_pos ((State.blindEvent_iff (s.atField x now) _).2 ⟨hsource, hb⟩)]
    exact List.mem_singleton_self _
  · obtain ⟨hbay, hsrc, hgood, hage, hsubst, hblind⟩ := State.fieldSample_temp x now h
    have hA := s.sensorAt_value x .tempA
    have hB := s.sensorAt_value x .tempB
    rw [← (State.fieldSample_sensor x now h _).1] at hA hB
    obtain ⟨hlast, hkept⟩ := s.selectionAt_lastGood x
    rw [← hbay, ← hsrc, ← hgood, ← hage] at hlast
    rw [← hsrc, ← hgood, ← hage] at hkept
    have hchain : ∀ m, s.measuredAt x = some m → (s.atField x now).fiuSample.br.tBay = m.1
        ∧ (s.atField x now).fiuSample.br.tempSource = m.2 := fun m hm => by
      rw [hbay, hsrc, State.selectionAt, hm]
      exact ⟨rfl, rfl⟩
    have hneither : (s.atField x now).fiuSample.br.validity.tempA ≠ .valid →
        (s.atField x now).fiuSample.br.validity.tempB ≠ .valid →
        s.measuredAt x = (neighboursMean (s.pt.substitute? (s.ssl.own - 1)) (s.pt.substitute? (s.ssl.own + 1))).map
          fun t => (t, .substituted) := fun ha hb => by
      rw [State.measuredAt, hA.trans (if_neg ha), hB.trans (if_neg hb)]
      rfl
    refine ⟨fun ha hb => hchain (_, _) ?_, fun ha hb => hchain (_, _) ?_, fun ha hb => hchain (_, _) ?_,
      fun ha hb => ?neighbours, hlast, hkept, ?_, ?_⟩
    · rw [State.measuredAt, hA.trans (if_pos ha), hB.trans (if_pos hb)]
      rfl
    · rw [State.measuredAt, hA.trans (if_pos ha), hB.trans (if_neg hb)]
      rfl
    · rw [State.measuredAt, hA.trans (if_neg ha), hB.trans (if_pos hb)]
      rfl
    case neighbours =>
      have hm := hneither ha hb
      generalize s.pt.substitute? (s.ssl.own - 1) = west at hm ⊢
      generalize s.pt.substitute? (s.ssl.own + 1) = east at hm ⊢
      match west, east with
      | some w, some e => exact hchain _ hm
      | some w, none => exact hchain _ hm
      | none, some e => exact hchain _ hm
      | none, none =>
        have hselect : s.selectionAt x = selectTemp none s.fiu.lastGood s.fiu.lastGoodAge s.br.tBay :=
          congrArg (selectTemp · s.fiu.lastGood s.fiu.lastGoodAge s.br.tBay) hm
        obtain ⟨hheld, hblinded⟩ := selectTemp_none s.fiu.lastGood s.fiu.lastGoodAge s.br.tBay
        refine ⟨fun g hg hle => ?_, fun hno => ⟨?_, ?_, fun hb => exec_tempBlind_of_due h now ?_ (.inl hb)⟩⟩
        · rw [hbay, hsrc, hselect, hheld g hg hle]
          exact ⟨rfl, rfl⟩
        · rw [hbay, hselect, hblinded hno]
        · rw [hsrc, hselect, hblinded hno]
        · rw [hselect, hblinded hno]
    · rw [hsubst, hsrc, beq_iff_eq]
    · rw [hblind, hsrc, TempSource.isBlind_iff]

/-! ### The outdoor temperature (R10) -/

theorem BayEntry.outdoor?_iff (e : BayEntry) (v : Int) : e.outdoor? = some v ↔ ∃ b, e.age = .fresh
    ∧ e.announced = some b ∧ b.flags.getLsbD 7 = true ∧ b.tOut.toInt = v ∧ -400 ≤ v ∧ v ≤ 600 := by
  have hfresh : ∀ b, e.freshState = some b ↔ e.age = .fresh ∧ e.announced = some b := fun b => by
    unfold BayEntry.freshState
    cases e.age <;> simp
  unfold BayEntry.outdoor?
  constructor
  · intro h
    split at h
    next b hb =>
      rw [Option.ite_none_right_eq_some, Bool.and_eq_true, tempInRange_iff] at h
      obtain ⟨⟨hflag, hlo, hhi⟩, hv⟩ := h
      cases hv
      exact ⟨b, ((hfresh b).1 hb).1, ((hfresh b).1 hb).2, hflag, rfl, hlo, hhi⟩
    next => cases h
  · rintro ⟨b, hage, hann, hflag, rfl, hlo, hhi⟩
    rw [(hfresh b).2 ⟨hage, hann⟩]
    dsimp only
    rw [if_pos]
    rw [Bool.and_eq_true, tempInRange_iff]
    exact ⟨hflag, hlo, hhi⟩

section Relayed

variable {own : Nat}

/-- One peer's entry weighed against the best so far (R10). -/
def weighOutdoor (own : Nat) (best : Option (Nat × Int)) (e : Nat × BayEntry) : Option (Nat × Int) :=
  match e.2.outdoor? with
  | some t => nearer own best e.1 t
  | none => best

theorem weighOutdoor_of_some {best : Option (Nat × Int)} {e : Nat × BayEntry} {t : Int}
    (h : e.2.outdoor? = some t) : weighOutdoor own best e = nearer own best e.1 t := by
  rw [weighOutdoor, h]

theorem weighOutdoor_of_none {best : Option (Nat × Int)} {e : Nat × BayEntry} (h : e.2.outdoor? = none) :
    weighOutdoor own best e = best := by
  rw [weighOutdoor, h]

theorem nearer_eq_or (best : Option (Nat × Int)) (n : Nat) (t : Int) :
    nearer own best n t = best ∨ nearer own best n t = some (n, t) := by
  unfold nearer
  split
  · exact .inr rfl
  · split
    · exact .inr rfl
    · exact .inl rfl

/-- A best so far comes from one of the entries weighed. -/
theorem foldl_weighOutdoor_mem : ∀ {l : List (Nat × BayEntry)} {best : Option (Nat × Int)} {m : Nat} {u : Int},
    l.foldl (weighOutdoor own) best = some (m, u) →
      best = some (m, u) ∨ ∃ e, (m, e) ∈ l ∧ e.outdoor? = some u
  | [], _, _, _, h => .inl h
  | (k, e) :: l, best, m, u, h => by
    rcases foldl_weighOutdoor_mem (l := l) h with h | ⟨e', he', hu⟩
    · cases ht : e.outdoor? with
      | none => exact .inl ((weighOutdoor_of_none ht).symm.trans h)
      | some t =>
        rw [weighOutdoor_of_some ht] at h
        rcases nearer_eq_or (own := own) best k t with hkept | htaken
        · exact .inl (hkept.symm.trans h)
        · cases htaken.symm.trans h
          exact .inr ⟨e, List.mem_cons_self, ht⟩
    · exact .inr ⟨e', List.mem_cons_of_mem _ he', hu⟩

/-- A best no entry weighed is nearer than stays the best. -/
theorem foldl_weighOutdoor_kept {n : Nat} {v : Int} : ∀ {l : List (Nat × BayEntry)},
    (∀ m e u, (m, e) ∈ l → e.outdoor? = some u → distance own n ≤ distance own m) →
      l.foldl (weighOutdoor own) (some (n, v)) = some (n, v)
  | [], _ => rfl
  | (k, e) :: l, h => by
    have hstep : weighOutdoor own (some (n, v)) (k, e) = some (n, v) := by
      cases ht : e.outdoor? with
      | none => exact weighOutdoor_of_none ht
      | some t => exact (weighOutdoor_of_some ht).trans <| if_neg (Nat.not_lt.2 (h k e t List.mem_cons_self ht))
    rw [List.foldl_cons, hstep]
    exact foldl_weighOutdoor_kept fun m e' u hm hu => h m e' u (List.mem_cons_of_mem _ hm) hu

/-- In an ascending table the nearest relaying peer is chosen, the lower number of two equally near (R10). -/
theorem Peers.relayed_of_nearest {p : Peers} (hasc : (p.bays.map Prod.fst).Pairwise (· < ·)) {n : Nat}
    {e : BayEntry} {v : Int} (he : slot? p.bays n = some e) (hv : e.outdoor? = some v)
    (hmin : ∀ m e' v', slot? p.bays m = some e' → e'.outdoor? = some v' →
      distance own n < distance own m ∨ (distance own n = distance own m ∧ n ≤ m)) :
    p.relayed own = some v := by
  have hmem := (slot?_eq_some_iff hasc).1 he
  obtain ⟨before, behind, hl⟩ := List.append_of_mem hmem
  have hbefore : ∀ m e', (m, e') ∈ before → m < n := by
    rw [hl, List.map_append, List.pairwise_append] at hasc
    exact fun m e' hm => hasc.2.2 m (List.mem_map_of_mem hm) n (by simp)
  have hslot : ∀ {m e'}, (m, e') ∈ p.bays → slot? p.bays m = some e' := fun h => (slot?_eq_some_iff hasc).2 h
  have htaken : weighOutdoor own (before.foldl (weighOutdoor own) none) (n, e) = some (n, v) := by
    rw [weighOutdoor_of_some hv]
    cases hb : before.foldl (weighOutdoor own) none with
    | none => rfl
    | some b =>
      obtain ⟨m, u⟩ := b
      obtain hno | ⟨e', he', hu⟩ := foldl_weighOutdoor_mem hb
      · cases hno
      · have hlt := hbefore m e' he'
        have hnear := hmin m e' u (hslot (by rw [hl]; exact List.mem_append_left _ he')) hu
        exact if_pos (show distance own n < distance own m by omega)
  have hfold : p.bays.foldl (weighOutdoor own) none = some (n, v) := by
    rw [hl, List.foldl_append, List.foldl_cons]
    refine (congrArg (fun b => behind.foldl (weighOutdoor own) b) htaken).trans
      (foldl_weighOutdoor_kept fun m e' u hm hu => ?_)
    have hnear := hmin m e' u (hslot (by rw [hl]; exact List.mem_append_right _ (List.mem_cons_of_mem _ hm))) hu
    omega
  exact congrArg (Option.map Prod.snd) hfold

theorem Peers.relayed_of_none {p : Peers} (hasc : (p.bays.map Prod.fst).Pairwise (· < ·))
    (hno : ∀ m e, slot? p.bays m = some e → e.outdoor? = none) : p.relayed own = none := by
  have hfold : p.bays.foldl (weighOutdoor own) none = none := by
    rw [Option.eq_none_iff_forall_ne_some]
    rintro ⟨m, u⟩ h
    obtain h | ⟨e, he, hu⟩ := foldl_weighOutdoor_mem h
    · cases h
    · cases (hno m e ((slot?_eq_some_iff hasc).2 he)).symm.trans hu
  exact congrArg (Option.map Prod.snd) hfold

end Relayed

/-- The outdoor temperature selected at a sample of the field levels `x` (R10). -/
def State.outdoorAt (s : State) (c : Configuration) (x : InputLevels) : Int × OutdoorSource :=
  selectOutdoor (s.sensorAt x .outdoor).value (s.pt.relayed s.ssl.own) c.site.designOutdoor

theorem State.fieldSample_air {s : State} {c : Configuration} (x : InputLevels) (now : Nat) (h : s.works c) :
    (s.atField x now).fiuSample.br.tOut = (s.outdoorAt c x).1
      ∧ (s.atField x now).fiuSample.br.outdoorSource = (s.outdoorAt c x).2
      ∧ (s.atField x now).fiuSample.br.outdoorOwn = ((s.outdoorAt c x).2 == .own)
      ∧ (s.atField x now).fiuSample.br.exhaust = (s.sensorAt x .exhaust).value.map Int.toNat
      ∧ (s.atField x now).fiuSample.br.daylight = (s.sensorAt x .daylight).value.map Int.toNat := by
  rw [State.fiuSample_frame (s := s.atField x now) h.2]
  exact ⟨rfl, rfl, rfl, rfl, rfl⟩

/-- Settles O11: the outdoor choice by `selectOutdoor` of the own value and the nearest peer's. -/
theorem outdoorExhaustAndDaylightReadings : Obligations.OutdoorExhaustAndDaylightReadings := by
  refine ⟨BayEntry.outdoor?_iff, fun s c x now h hasc => ⟨_, exec_fiuSampleEvent_of_works x now h, ?_⟩,
    fun s c x now h => ⟨_, exec_fiuSampleEvent_of_works x now h, ?_⟩⟩
  · have hO := s.sensorAt_value x .outdoor
    rw [← (State.fieldSample_sensor x now h _).1] at hO
    obtain ⟨hout, hsource, hown, -, -⟩ := State.fieldSample_air x now h
    have hchosen : ∀ r, s.outdoorAt c x = r → (s.atField x now).fiuSample.br.tOut = r.1
        ∧ (s.atField x now).fiuSample.br.outdoorSource = r.2
        ∧ (s.atField x now).fiuSample.br.outdoorOwn = (r.2 == .own) := by
      rintro r rfl
      exact ⟨hout, hsource, hown⟩
    refine ⟨fun hv => hchosen (_, _) ?_, fun hv n e v he ho hmin => hchosen (_, _) ?_,
      fun hv hno => hchosen (_, _) ?_⟩
    · rw [State.outdoorAt, hO.trans (if_pos hv)]
      rfl
    · rw [State.outdoorAt, hO.trans (if_neg hv), Peers.relayed_of_nearest hasc he ho hmin]
      rfl
    · rw [State.outdoorAt, hO.trans (if_neg hv), Peers.relayed_of_none hasc hno]
      rfl
  · have hE := s.sensorAt_value x .exhaust
    have hD := s.sensorAt_value x .daylight
    rw [← (State.fieldSample_sensor x now h _).1] at hE hD
    obtain ⟨-, -, -, hexhaust, hdaylight⟩ := State.fieldSample_air x now h
    have hframe := State.fiuSample_frame (s := s.atField x now) h.2
    refine ⟨fun hv => ?_, fun hv => ?_, fun hv => ?_, fun hv => ?_, ?_⟩
    · rw [hexhaust, hE.trans (if_pos hv)]
      rfl
    · rw [hexhaust, hE.trans (if_neg hv)]
      rfl
    · rw [hdaylight, hD.trans (if_pos hv)]
      rfl
    · rw [hdaylight, hD.trans (if_neg hv)]
      rfl
    · refine ⟨by rw [hframe]; exact h.1, by rw [hframe]; rfl, by rw [hframe]; rfl, by rw [hframe]; rfl,
        by rw [hframe]; rfl, fun hx => ?_⟩
      have hsame := State.fiuSample_of_same (s := s.atField x now) h.2 hx
      rw [hsame]
      exact ⟨rfl, rfl, rfl, rfl, State.handArrivals_groups _ c _ _⟩

end Sys2Proof.Machine
end

