-- ==== Sys2Proof/Proofs/FieldDoors.lean ====
section
/-! PROOFS. Doors and zones of a sample event, and the count of SELFTEST samples (O7, O12, O13, O14). -/

namespace Sys2Proof.Machine

theorem Eight.toList_eq_map {α : Type} (l : Eight α) : l.toList = (List.finRange 8).map l.get := rfl

theorem Six.toList_eq_map {α : Type} (l : Six α) : l.toList = (List.finRange 6).map l.get := rfl

theorem countDoors_eq (l : Eight Door) (u : DoorState) :
    countDoors l u = (List.finRange 8).countP fun j => (l.get j).state == u := by
  rw [countDoors, Eight.toList_eq_map, List.countP_map]
  rfl

/-! ### Contacts (R12) -/

section Contacts

variable {k : Contact} {level : Bool}

theorem Contact.sampled_of_same (h : level = k.settled) : k.sampled level = ⟨k.settled, false⟩ := if_pos h

theorem Contact.sampled_of_first (h : level ≠ k.settled) (hp : k.pendingMark = false) :
    k.sampled level = ⟨k.settled, true⟩ := (if_neg h).trans (if_neg (Bool.eq_false_iff.1 hp))

theorem Contact.sampled_of_second (h : level ≠ k.settled) (hp : k.pendingMark = true) :
    k.sampled level = ⟨level, false⟩ := (if_neg h).trans (if_pos hp)

theorem sampleContacts_of_fitted {fitted levels : BitVec 8} {l : Eight Contact} {j : Fin 8}
    (h : fitted.getLsbD j.val = true) :
    (sampleContacts fitted levels l).get j = (l.get j).sampled (levels.getLsbD j.val) :=
  (Eight.get_ofFn _ j).trans (if_pos h)

theorem sampleContacts_of_unfitted {fitted levels : BitVec 8} {l : Eight Contact} {j : Fin 8}
    (h : fitted.getLsbD j.val = false) : (sampleContacts fitted levels l).get j = l.get j :=
  (Eight.get_ofFn _ j).trans (if_neg (Bool.eq_false_iff.1 h))

end Contacts

/-! ### Doors (R13 to R16) -/

section Doors

variable {s : State} {c : Configuration} (x : InputLevels) (now : Nat)

theorem State.fieldSample_contacts (h : s.works c) :
    (s.atField x now).fiuSample.fiu.doorContacts
        = sampleContacts c.bay.doorsFitted x.doorOpen s.fiu.doorContacts
      ∧ (s.atField x now).fiuSample.fiu.trailerContacts
        = sampleContacts c.bay.doorsFitted x.trailer s.fiu.trailerContacts := by
  rw [State.fiuSample_frame (s := s.atField x now) h.2]
  exact ⟨rfl, rfl⟩

/-- A door's record after a sample, from its contacts then settled (R13 to R15). -/
theorem State.fieldSample_door (h : s.works c) (k : Fin 8) :
    (s.atField x now).fiuSample.br.doors.get k = (s.br.doors.get k).next c.site.longOpenLimit
      (doorStateOf (c.bay.doorsFitted.getLsbD k.val)
        ((s.atField x now).fiuSample.fiu.doorContacts.get k).settled
        ((s.atField x now).fiuSample.fiu.trailerContacts.get k).settled) := by
  obtain ⟨hdoor, htrailer⟩ := State.fieldSample_contacts x now h
  rw [State.fieldSample_doors x now h, hdoor, htrailer]
  exact Eight.get_ofFn _ k

theorem State.fieldSample_doorCounts (h : s.works c) :
    (s.atField x now).fiuSample.br.unsealed = countDoors (s.atField x now).fiuSample.br.doors .openUnsealed
      ∧ (s.atField x now).fiuSample.br.sealedDoors = countDoors (s.atField x now).fiuSample.br.doors .openSealed
      ∧ (s.atField x now).fiuSample.br.doorLongOpen
        = (s.atField x now).fiuSample.br.doors.toList.any Door.longOpen := by
  rw [State.fiuSample_frame (s := s.atField x now) h.2]
  exact ⟨rfl, rfl, rfl⟩

theorem State.doorLongOpen_iff (h : s.works c) : (s.atField x now).fiuSample.br.doorLongOpen = true
    ↔ ∃ j, ((s.atField x now).fiuSample.br.doors.get j).longOpen = true := by
  rw [(State.fieldSample_doorCounts x now h).2.2, Eight.toList_eq_map, List.any_map, List.any_eq_true]
  exact ⟨fun ⟨j, _, hj⟩ => ⟨j, hj⟩, fun ⟨j, hj⟩ => ⟨j, List.mem_finRange j, hj⟩⟩

end Doors

/-- Settles O12: `Contact.sampled` of each contact, `doorStateOf` the settled levels. -/
theorem doorContactsAndStates : Obligations.DoorContactsAndStates := by
  intro s c x now k h
  obtain ⟨hdoors, htrailers⟩ := State.fieldSample_contacts x now h
  obtain ⟨hunsealed, hsealed, -⟩ := State.fieldSample_doorCounts x now h
  have hstate : ((s.atField x now).fiuSample.br.doors.get k).state
      = doorStateOf (c.bay.doorsFitted.getLsbD k.val)
        ((s.atField x now).fiuSample.fiu.doorContacts.get k).settled
        ((s.atField x now).fiuSample.fiu.trailerContacts.get k).settled := by
    rw [State.fieldSample_door x now h k]
    rfl
  refine ⟨_, exec_fiuSampleEvent_of_works x now h, fun hk => ⟨?_, ?_, ?_⟩, fun hk before after level hmem => ?settle,
    fun hk => ?state, hunsealed.trans (countDoors_eq _ _), hsealed.trans (countDoors_eq _ _)⟩
  · rw [hdoors, sampleContacts_of_unfitted hk]
  · rw [htrailers, sampleContacts_of_unfitted hk]
  · rw [hstate, hk]
    rfl
  case settle =>
    have hafter : after = before.sampled level := by
      rw [hdoors, htrailers, sampleContacts_of_fitted hk, sampleContacts_of_fitted hk] at hmem
      rcases List.mem_cons.1 hmem with heq | hmem
      · cases heq; rfl
      · cases List.mem_singleton.1 hmem; rfl
    rw [hafter]
    exact ⟨Contact.sampled_of_same, Contact.sampled_of_first, Contact.sampled_of_second⟩
  case state =>
    rw [hstate, hk]
    cases ((s.atField x now).fiuSample.fiu.doorContacts.get k).settled <;>
      cases ((s.atField x now).fiuSample.fiu.trailerContacts.get k).settled <;> rfl

/-! ### Long-open doors (R14, R15) -/

section LongOpen

variable {limit : Nat} {d : Door} {u : DoorState}

theorem Door.next_of_shut (h : u = .closed ∨ u = .disabled) : d.next limit u = ⟨u, 0, false⟩ := by
  rcases h with rfl | rfl <;> rfl

theorem Door.next_openSeconds (h : u = .openSealed ∨ u = .openUnsealed) :
    (d.next limit u).openSeconds = if d.state = u then min 65535 (d.openSeconds + 1) else 0 := by
  have hopen : u.isOpen = true := by rcases h with rfl | rfl <;> rfl
  have heq : (u.isOpen && u == d.state) = decide (d.state = u) := by
    rw [hopen, Bool.true_and]
    exact decide_eq_decide.2 eq_comm
  unfold Door.next
  dsimp only
  rw [heq]
  exact if_congr decide_eq_true_iff rfl rfl

theorem Door.next_longOpen_iff :
    (d.next limit u).longOpen = true ↔ u = .openUnsealed
      ∧ ((limit ≠ 0 ∧ limit < (d.next limit u).openSeconds) ∨ (u = d.state ∧ d.longOpen = true)) := by
  have hunsealed : u.isUnsealed = true ↔ u = .openUnsealed := by cases u <;> simp [DoorState.isUnsealed]
  rw [← hunsealed]
  unfold Door.next
  dsimp only
  simp only [Bool.and_eq_true, Bool.or_eq_true, decide_eq_true_eq, beq_iff_eq]

/-- A door that stands open unsealed for as long as the limit turns long-open (R15). -/
theorem Door.next_of_late (hs : d.state = .openUnsealed) (hl : limit ≠ 0) (hmax : limit < 65535)
    (hsecs : limit ≤ d.openSeconds) :
    d.next limit .openUnsealed = ⟨.openUnsealed, min 65535 (d.openSeconds + 1), true⟩ := by
  have hopen : (d.next limit .openUnsealed).openSeconds = min 65535 (d.openSeconds + 1) :=
    (Door.next_openSeconds (.inr rfl)).trans (if_pos hs)
  have hlong : (d.next limit .openUnsealed).longOpen = true :=
    Door.next_longOpen_iff.2 ⟨rfl, .inl ⟨hl, by rw [hopen]; omega⟩⟩
  calc d.next limit .openUnsealed
      = ⟨.openUnsealed, (d.next limit .openUnsealed).openSeconds, (d.next limit .openUnsealed).longOpen⟩ := rfl
    _ = ⟨.openUnsealed, min 65535 (d.openSeconds + 1), true⟩ := by rw [hopen, hlong]

/-- The row that sets a door's mark is the sample that sets it (R15, log 1). -/
theorem exec_doorLongOpen_of_due {s : State} {c : Configuration} (h : s.works c) {x : InputLevels} (now : Nat)
    {k : Fin 8} (hafter : ((s.atField x now).fiuSample.br.doors.get k).longOpen = true)
    (hbefore : (s.br.doors.get k).longOpen = false) :
    exec (.doorLongOpen k x now) s = .next (s.atField x now).fiuSample := by
  rw [exec_doorLongOpen]
  refine whenDue_due _ h.1 ?_
  have hdoor : (s.doorAfter c k x).longOpen = true := by
    rw [State.fieldSample_doors x now h] at hafter
    exact hafter
  unfold State.longOpenDue
  rw [h.2]
  dsimp only
  rw [hdoor, hbefore]
  rfl

theorem flatMap_finRange_single {α : Type} (f : Fin 8 → List α) (k : Fin 8) (h : ∀ j, j ≠ k → f j = []) :
    (List.finRange 8).flatMap f = f k := by
  have hsplit : ∀ l : List (Fin 8), l.Nodup → l.flatMap f = if k ∈ l then f k else [] := by
    intro l hl
    induction l with
    | nil => rfl
    | cons j l ih =>
      obtain ⟨hj, hl⟩ := List.nodup_cons.1 hl
      rw [List.flatMap_cons, ih hl]
      by_cases hjk : j = k
      · subst hjk
        rw [if_neg hj, if_pos List.mem_cons_self, List.append_nil]
      · rw [h j hjk, List.nil_append]
        exact if_congr (by simp [Ne.symm hjk]) rfl rfl
  rw [hsplit _ (List.nodup_finRange 8), if_pos (List.mem_finRange k)]

end LongOpen

/-- Settles O13: `Door.next` says the seconds and the mark; a mark set writes its door's event last. -/
theorem openSecondsAndLongOpen : Obligations.OpenSecondsAndLongOpen := by
  refine ⟨fun s c x now k h hfit hopen hmark hdoor hx htrailer hy hlimit hmax hsecs => ?row,
    fun s c x now k h => ⟨_, exec_fiuSampleEvent_of_works x now h, ?_⟩⟩
  case row =>
    obtain ⟨hdoors, htrailers⟩ := State.fieldSample_contacts x now h
    have hnext := State.fieldSample_door x now h k
    rw [hdoors, htrailers, sampleContacts_of_fitted hfit, sampleContacts_of_fitted hfit,
      Contact.sampled_of_same (hx.trans hdoor.symm), Contact.sampled_of_same (hy.trans htrailer.symm), hfit, hdoor,
      htrailer] at hnext
    have hrecord : (s.atField x now).fiuSample.br.doors.get k
        = ⟨.openUnsealed, min 65535 ((s.br.doors.get k).openSeconds + 1), true⟩ :=
      hnext.trans (Door.next_of_late hopen hlimit hmax hsecs)
    have hlate : ((s.atField x now).fiuSample.br.doors.get k).longOpen = true := by rw [hrecord]
    refine ⟨_, exec_doorLongOpen_of_due h now hlate hmark, exec_fiuSampleEvent_of_works x now h, hrecord,
      (State.doorLongOpen_iff x now h).2 ⟨k, hlate⟩, fun hothers hfire => ?_⟩
    have hfireless : (s.atField x now).fireEvents = [] := if_neg fun ⟨ht, hf, _⟩ => by
      cases ht.symm.trans (hfire.trans hf)
    have hother : ∀ j, j ≠ k → (s.atField x now).doorEvent c j = [] := fun j hj => if_neg fun hdue => by
      rw [← State.fieldSample_doors x now h, Bool.and_eq_true, Bool.not_eq_true'] at hdue
      exact absurd (hdue.2.symm.trans (hothers j hj hdue.1)) Bool.noConfusion
    have hown : (s.atField x now).doorEvent c k = [⟨.doorLongOpen, k.val + 1, s.scu.minute⟩] := if_pos (by
      rw [← State.fieldSample_doors x now h, hlate, State.atField_br, hmark]
      rfl)
    rw [State.fiuSample_events (s := s.atField x now) h.2, hfireless, List.append_nil, State.doorEvents,
      flatMap_finRange_single _ k hother, hown]
    exact Ssl.writeAll_getLast? _ _ _
  · have hnext := State.fieldSample_door x now h k
    have hstate : ((s.atField x now).fiuSample.br.doors.get k).state
        = doorStateOf (c.bay.doorsFitted.getLsbD k.val)
          ((s.atField x now).fiuSample.fiu.doorContacts.get k).settled
          ((s.atField x now).fiuSample.fiu.trailerContacts.get k).settled := congrArg Door.state hnext
    rw [← hstate] at hnext
    have hdue := fun ha hb => exec_doorLongOpen_of_due (x := x) (k := k) h now ha hb
    have hflag := State.doorLongOpen_iff x now h
    generalize (s.atField x now).fiuSample = t at hnext hdue hflag ⊢
    have hmark := Door.next_longOpen_iff (limit := c.site.longOpenLimit) (d := s.br.doors.get k)
      (u := (t.br.doors.get k).state)
    rw [← hnext] at hmark
    refine ⟨fun hshut => ?_, fun hsealed => ?_, fun hopen => ?_, fun hu hl hlt => ?_, fun hb hno => ?_, hflag⟩
    · rw [hnext, Door.next_of_shut hshut]
      exact ⟨rfl, rfl⟩
    · rw [Bool.eq_false_iff]
      intro hlong
      cases hsealed.symm.trans (hmark.1 hlong).1
    · exact (congrArg Door.openSeconds hnext).trans (Door.next_openSeconds hopen)
    · have hlong := hmark.2 ⟨hu, .inl ⟨hl, hlt⟩⟩
      exact ⟨hlong, hdue hlong⟩
    · rw [Bool.eq_false_iff]
      intro hlong
      obtain ⟨-, ⟨hl, hlt⟩ | ⟨-, hold⟩⟩ := hmark.1 hlong
      · omega
      · exact absurd (hb.symm.trans hold) Bool.noConfusion

/-! ### Zones (R17, R18) -/

section Zones

variable {z : Zone} {hold : Nat}

theorem Zone.next_kept (detected : Bool) :
    (z.next hold detected).edge = z.edge ∧ (z.next hold detected).groups = z.groups := by
  unfold Zone.next
  split
  · exact ⟨rfl, rfl⟩
  · exact ⟨rfl, rfl⟩
  · exact ⟨rfl, rfl⟩
  · exact ⟨rfl, rfl⟩
  · exact ⟨rfl, rfl⟩
  · split <;> exact ⟨rfl, rfl⟩

theorem Zone.next_of_detected : (z.next hold true).state = .occupied
    ∧ (z.state ≠ .occupied → (z.next hold true).holdRemaining = 0) := by
  unfold Zone.next
  cases hz : z.state with
  | vacant => exact ⟨rfl, fun _ => rfl⟩
  | hold => exact ⟨rfl, fun _ => rfl⟩
  | occupied => exact ⟨hz, fun h => absurd rfl h⟩

theorem Zone.next_of_vacant (hz : z.state = .vacant) : z.next hold false = z := by
  unfold Zone.next
  rw [hz]

theorem Zone.next_of_occupied (hz : z.state = .occupied) :
    z.next hold false = { z with state := .hold, holdRemaining := hold } := by
  unfold Zone.next
  rw [hz]

theorem Zone.next_of_holding (hz : z.state = .hold) (hr : 1 < z.holdRemaining) :
    z.next hold false = { z with holdRemaining := z.holdRemaining - 1 } := by
  unfold Zone.next
  rw [hz]
  exact if_neg (by omega)

theorem Zone.next_of_ending (hz : z.state = .hold) (hr : z.holdRemaining = 1) :
    z.next hold false = { z with state := .vacant, holdRemaining := 0 } := by
  unfold Zone.next
  rw [hz]
  exact if_pos hr.le

end Zones

/-- Settles O14: `Zone.next`, case by case. -/
theorem occupancyZones : Obligations.OccupancyZones := by
  intro s c x now k h
  have hframe := State.fiuSample_frame (s := s.atField x now) h.2
  have hzone : (s.atField x now).fiuSample.br.zones.get k
      = (s.br.zones.get k).next (c.row s.scu.phase).occHold (x.occupied.getLsbD k.val) := by
    rw [hframe]
    exact Six.get_ofFn _ k
  have hcount : (s.atField x now).fiuSample.br.occupiedZones
      = (s.atField x now).fiuSample.br.zones.toList.countP Zone.isOccupied := by
    rw [hframe]
    rfl
  refine ⟨_, exec_fiuSampleEvent_of_works x now h, ?_, ?_, fun hx => ?_, fun hx hz => ?_, fun hx hz => ?_,
    fun hx hz => ?_, fun hx hz hr => ?_, fun hx hz hr => ?_, ?_⟩
  · rw [hzone, (Zone.next_kept _).1]
  · rw [hzone, (Zone.next_kept _).2]
  · rw [hzone, hx]
    exact Zone.next_of_detected.1
  · rw [hzone, hx]
    exact Zone.next_of_detected.2 hz
  · rw [hzone, hx, Zone.next_of_vacant hz, hz]
  · rw [hzone, hx, Zone.next_of_occupied hz]
    exact ⟨rfl, rfl⟩
  · rw [hzone, hx, Zone.next_of_holding hz hr]
    exact ⟨hz, rfl⟩
  · rw [hzone, hx, Zone.next_of_ending hz hr]
    refine ⟨rfl, rfl, ?_⟩
    rw [exec_zoneHoldExpiry]
    exact whenDue_due _ h.1 (by unfold State.zoneDue; rw [h.2, hz, hr, hx]; rfl)
  · rw [hcount, Six.toList_eq_map, List.countP_map]
    rfl

/-! ### SELFTEST (R170, R173) -/

theorem State.selftestSample_of_selftest {s : State} (h : s.ssl.startup = .selftest) :
    s.selftestSample = { s with ssl := { s.ssl with
      startup := if 2 ≤ s.ssl.ticks then .listen else .selftest
      ticks := if 2 ≤ s.ssl.ticks then 0 else s.ssl.ticks + 1
      diag := diagAfter s.ssl.diag s.br.validity } } := by
  unfold State.selftestSample
  rw [h]
  dsimp only
  split
  · rfl
  · rw [h]

/-- Settles O7: the count is `State.selftestSample`, behind everything the sample takes. -/
theorem selftestEndsAtTheThirdSample : Obligations.SelftestEndsAtTheThirdSample := by
  intro s c x now h hs
  obtain ⟨u, hu, hssl⟩ : ∃ u : State, (s.atField x now).fiuSample = u.selftestSample
      ∧ ∃ es, u.ssl = s.ssl.writeAll es := by
    have hinputs : (s.atField x now).fiuInputs.ssl = s.ssl.writeAll
        ((s.atField x now).sensorEvents (s.atField x now).sensorSamples
          ++ (s.atField x now).blindEvents (s.atField x now).sensorSamples ++ (s.atField x now).doorEvents c) := by
      rw [State.fiuInputs_eq (s := s.atField x now) h.2, State.handArrivals_frame]
      rfl
    exact ⟨(s.atField x now).fiuInputs.fiuFire, rfl, _, (State.fiuFire_ssl _).trans
      ((congrArg (fun l : Ssl => l.writeAll _) hinputs).trans (Ssl.writeAll_append s.ssl _ _).symm)⟩
  obtain ⟨es, hes⟩ := hssl
  obtain ⟨-, hstart, hticks, hdiag⟩ := s.ssl.writeAll_kept es
  rw [← hes] at hstart hticks hdiag
  have hstep := State.selftestSample_of_selftest (hstart.trans hs)
  rw [← hu, hticks, hdiag] at hstep
  refine ⟨_, exec_fiuSampleEvent_of_works x now h, fun k => ?diag, fun ht => ?early, fun ht => ?third⟩
  case diag => rw [hstep]; exact PerSensor.get_ofFn _ k
  case early =>
    have hno : ¬ 2 ≤ s.ssl.ticks := by omega
    rw [hstep]
    exact ⟨if_neg hno, if_neg hno⟩
  case third =>
    refine ⟨by rw [hstep]; exact if_pos ht.ge, by rw [hstep]; exact if_pos ht.ge, ?_⟩
    rw [exec_selftestEnd]
    exact whenDue_due _ h.1 (by rw [State.selftestDue, hs, ht]; rfl)

end Sys2Proof.Machine
end

