-- ==== Sys2Proof/Proofs/EdgeArrivals.lean ====
section
/-! PROOFS. The edge arrivals of a sample event: pre-light, and a travel notice each (O16). -/

namespace Sys2Proof.Machine

section Arrivals

variable {s : State} {c : Configuration}

/-- The body of the notice an arrival at an edge raises (R101). -/
def arrivalBody (c : Configuration) (own : Nat) (e : Edge) (sequence : Nat) : List Byte :=
  [toByte own, if e = .east then 1 else 0, toByte (c.site.lookAhead - 1), toByte sequence]

/-- The LTC once an arrival has been handed to it (R99, R101, R104). -/
def Ltc.arrived (l : Ltc) (c : Configuration) (own : Nat) : Ltc :=
  { l with
    prelight := .active c.site.prelightHold
    recent := recentAdd (own, l.sequence) l.recent
    sequence := (l.sequence + 1) % 256 }

/-- The station once an arrival at an edge has been handed to it. -/
def State.handed (s : State) (c : Configuration) (e : Edge) : State :=
  { s with
    ltc := s.ltc.arrived c s.ssl.own
    lc := s.lc.postNotice .travel (arrivalBody c s.ssl.own e s.ltc.sequence) }

/-- An arrival in RUN outside fire mode (R100). -/
theorem State.edgeArrival_of_run (hrun : s.ssl.startup = .run) (hfire : s.fmc.inForce = false) (e : Edge) :
    s.edgeArrival c e = s.handed c e := by
  have hdir : directionCode e = if e = .east then 1 else 0 := by cases e <;> rfl
  have hworks : (s.ssl.startup.isRun && !s.fmc.inForce) = true := by rw [hrun, hfire]; rfl
  unfold State.edgeArrival State.handed arrivalBody
  rw [if_pos hworks, ← hdir]
  rfl

/-- An arrival at any other time (R100). -/
theorem State.edgeArrival_of_inert (h : s.ssl.startup ≠ .run ∨ s.fmc.inForce = true) (e : Edge) :
    s.edgeArrival c e = s := by
  refine if_neg fun hworks => ?_
  rw [Bool.and_eq_true, Bool.not_eq_true', Startup.isRun_iff] at hworks
  rcases h with h | h
  · exact h hworks.1
  · exact absurd (hworks.2.symm.trans h) Bool.noConfusion

/-- The zones a sample finds newly occupied at an edge, by ascending number (R19). -/
def arrivalsOf (zones : Six Zone) (found : BitVec 6) : List (Fin 6) :=
  (List.finRange 6).filter fun k => (zones.get k).state == .vacant && (zones.get k).edge != .noEdge
    && found.getLsbD k.val

theorem State.handArrivals_eq (s : State) (c : Configuration) (zones : Six Zone) (found : BitVec 6) :
    s.handArrivals c zones found
      = (arrivalsOf zones found).foldl (fun t k => t.edgeArrival c (zones.get k).edge) s := by
  have harrives : ∀ k, (zones.get k).arrives (found.getLsbD k.val) = ((zones.get k).state == .vacant
      && (zones.get k).edge != .noEdge && found.getLsbD k.val) := fun k => by
    unfold Zone.arrives
    rw [Bool.and_assoc, Bool.and_comm]
  unfold State.handArrivals arrivalsOf
  rw [List.foldl_filter]
  simp only [harrives]

theorem State.handArrivals_of_inert {zones : Six Zone} {found : BitVec 6}
    (h : s.ssl.startup ≠ .run ∨ s.fmc.inForce = true ∨ arrivalsOf zones found = []) :
    s.handArrivals c zones found = s := by
  rw [State.handArrivals_eq]
  by_cases hinert : s.ssl.startup ≠ .run ∨ s.fmc.inForce = true
  · generalize arrivalsOf zones found = l
    induction l with
    | nil => rfl
    | cons k l ih => rw [List.foldl_cons, State.edgeArrival_of_inert hinert, ih]
  · rw [(or_assoc.2 h).resolve_left hinert]
    rfl

variable {zones : Six Zone}

/-- Every arrival handed in RUN outside fire mode (R99, R101). -/
theorem State.handed_ltc : ∀ {ks : List (Fin 6)} {s : State}, s.ssl.startup = .run → s.fmc.inForce = false →
    ks ≠ [] →
    (ks.foldl (fun t k => t.edgeArrival c (zones.get k).edge) s).ltc.prelight = .active c.site.prelightHold
    ∧ (ks.foldl (fun t k => t.edgeArrival c (zones.get k).edge) s).ltc.sequence
      = (s.ltc.sequence + ks.length) % 256
  | [], _, _, _, h => absurd rfl h
  | k :: ks, s, hrun, hfire, _ => by
    rw [List.foldl_cons, State.edgeArrival_of_run hrun hfire]
    cases ks with
    | nil => exact ⟨rfl, rfl⟩
    | cons k' ks =>
      obtain ⟨hpre, hseq⟩ := State.handed_ltc (ks := k' :: ks)
        (s := s.handed c (zones.get k).edge) hrun hfire (List.cons_ne_nil _ _)
      refine ⟨hpre, hseq.trans ?_⟩
      change ((s.ltc.sequence + 1) % 256 + (ks.length + 1)) % 256 = (s.ltc.sequence + (ks.length + 1 + 1)) % 256
      omega

theorem toByte_mod (n : Nat) : toByte (n % 256) = toByte n := by
  apply BitVec.eq_of_toNat_eq
  simp [toByte]

/-- The notices of the arrivals in the zones `ks`, the first of sequence `q + i` (R101). -/
def arrivalNotices (c : Configuration) (zones : Six Zone) (own q clock i : Nat) (ks : List (Fin 6)) : List Notice :=
  (ks.zipIdx i).map fun e => ⟨.travel, arrivalBody c own (zones.get e.1).edge (q + e.2), clock, ⟨0, false⟩⟩

/-- Into a store of at most the notices of six arrivals, every notice of an arrival fits (R54, R55). -/
theorem State.handed_lc {q : Nat} : ∀ {ks : List (Fin 6)} {s : State} {i : Nat}, s.ssl.startup = .run →
    s.fmc.inForce = false → s.lc.tx = .idle → s.lc.alarmWaiting = none → toByte s.ltc.sequence = toByte (q + i) →
    (∀ n ∈ s.lc.notices, n.size = 9) → s.lc.notices.length + ks.length ≤ 6 →
    (ks.foldl (fun t k => t.edgeArrival c (zones.get k).edge) s).lc = { s.lc with
      notices := s.lc.notices ++ arrivalNotices c zones s.ssl.own q s.lc.clock i ks }
  | [], s, _, _, _, _, _, _, _, _ => by
    rw [arrivalNotices]
    simp
  | k :: ks, s, i, hrun, hfire, htx, halarm, hseq, hsizes, hlen => by
    have hother : s.lc.otherSizes = [] := by
      unfold Lc.otherSizes
      rw [halarm, htx]
      rfl
    have hbytes : s.lc.sharedBytes = s.lc.notices.length * 9 := by
      unfold Lc.sharedBytes
      rw [hother, List.map_congr_left hsizes, List.map_const', List.sum_replicate]
      simp
    have hframes : s.lc.sharedFrames = s.lc.notices.length := by
      unfold Lc.sharedFrames
      rw [hother, List.length_nil, Nat.zero_add]
    rw [List.length_cons] at hlen
    have hpost : (s.handed c (zones.get k).edge).lc = { s.lc with notices := s.lc.notices
        ++ [⟨.travel, arrivalBody c s.ssl.own (zones.get k).edge s.ltc.sequence, s.lc.clock, ⟨0, false⟩⟩] } :=
      (Lc.postNotice_of_short s.lc .travel
        (b := arrivalBody c s.ssl.own (zones.get k).edge s.ltc.sequence) (show 4 ≤ 48 by decide)).1
        (show s.lc.sharedBytes + 9 ≤ 223 by omega) (by omega)
    have hnext : toByte (s.handed c (zones.get k).edge).ltc.sequence = toByte (q + (i + 1)) := by
      change toByte ((s.ltc.sequence + 1) % 256) = _
      rw [toByte_mod]
      unfold toByte at hseq ⊢
      rw [← Nat.add_assoc, BitVec.ofNat_add, BitVec.ofNat_add (q + i), hseq]
    have hbody : arrivalBody c s.ssl.own (zones.get k).edge s.ltc.sequence
        = arrivalBody c s.ssl.own (zones.get k).edge (q + i) := by
      unfold arrivalBody
      rw [hseq]
    rw [List.foldl_cons, State.edgeArrival_of_run hrun hfire,
      State.handed_lc (s := s.handed c (zones.get k).edge) (i := i + 1) hrun hfire (by rw [hpost]; exact htx)
        (by rw [hpost]; exact halarm) hnext ?sizes ?len, hpost, hbody]
    case sizes =>
      rw [hpost]
      intro n hn
      rcases List.mem_append.1 hn with hn | hn
      · exact hsizes n hn
      · cases List.mem_singleton.1 hn
        rfl
    case len =>
      rw [hpost, List.length_append, List.length_singleton]
      omega
    · simp only [List.append_assoc]
      rfl

end Arrivals

/-- With the fire input as it was, the LTC and the LC after a sample are those the arrivals leave. -/
theorem State.fieldSample_handed {s : State} {c : Configuration} {x : InputLevels} (now : Nat) (h : s.works c)
    (hx : x.fire = s.br.fireInput) {v : State}
    (hv : ((s.atField x now).sampled c).handArrivals c s.br.zones x.occupied = v) :
    (s.atField x now).fiuSample.ltc = v.ltc ∧ (s.atField x now).fiuSample.lc = v.lc := by
  subst hv
  rw [State.fiuSample_of_same (s := s.atField x now) h.2 hx]
  exact ⟨rfl, rfl⟩

/-- Settles O16: the arrivals one after another by `State.handed`, behind every field the sample takes. -/
theorem edgeArrivalRaisesNotice : Obligations.EdgeArrivalRaisesNotice := by
  rintro s c x now h hx arrivals l harrivals rfl
  have hown : ((s.atField x now).sampled c).ssl.own = s.ssl.own := Ssl.writeAll_own _ _
  have hstart : ((s.atField x now).sampled c).ssl.startup = s.ssl.startup := (Ssl.writeAll_kept _ _).2.1
  have harr : arrivalsOf s.br.zones x.occupied = arrivals := harrivals.symm
  refine ⟨_, exec_fiuSampleEvent_of_works x now h, fun hinert => ?inert, fun hrun hfire hne =>
    ⟨?_, ?_, ?_, fun hnotices htx halarm => ?store, fun k hk => ?single⟩⟩
  case inert =>
    have hkept : ((s.atField x now).sampled c).handArrivals c s.br.zones x.occupied
        = (s.atField x now).sampled c :=
      State.handArrivals_of_inert (hinert.imp (fun hne => hstart ▸ hne) (Or.imp_right harr.trans))
    exact State.fieldSample_handed now h hx hkept
  all_goals have hrun' := hstart.trans hrun
  all_goals have hhand := State.handArrivals_eq ((s.atField x now).sampled c) c s.br.zones x.occupied
  all_goals rw [harr] at hhand
  · rw [(State.fieldSample_handed now h hx hhand).1]
    exact (State.handed_ltc hrun' hfire hne).1
  · rw [(State.fieldSample_handed now h hx rfl).1]
    exact State.handArrivals_groups _ c _ _
  · rw [(State.fieldSample_handed now h hx hhand).1]
    exact (State.handed_ltc hrun' hfire hne).2
  case store =>
    have hlen : arrivals.length ≤ 6 := by
      rw [harrivals]
      exact (List.length_filter_le _ _).trans (List.length_finRange (n := 6)).le
    have hempty : ((s.atField x now).sampled c).lc.notices = [] := hnotices
    have hhanded := State.handed_lc (c := c) (zones := s.br.zones) (q := s.ltc.sequence) (i := 0) (ks := arrivals)
      (s := (s.atField x now).sampled c) hrun' hfire htx halarm rfl
      (fun n hn => by rw [hempty] at hn; cases hn) (by rw [hempty, List.length_nil]; omega)
    rw [(State.fieldSample_handed now h hx hhand).2, hhanded, hown]
    refine ⟨rfl, ?_⟩
    rw [hempty]
    rfl
  case single =>
    rw [hk] at hhand
    have hone : ((s.atField x now).sampled c).handArrivals c s.br.zones x.occupied
        = ((s.atField x now).sampled c).handed c (s.br.zones.get k).edge :=
      hhand.trans (State.edgeArrival_of_run hrun' hfire _)
    obtain ⟨hroom, hfull⟩ := Lc.postNotice_of_short (s.lc.advance now) .travel
      (b := arrivalBody c s.ssl.own (s.br.zones.get k).edge s.ltc.sequence) (show 4 ≤ 48 by decide)
    have hpost : (s.atField x now).fiuSample.lc = (s.lc.advance now).postNotice .travel
        (arrivalBody c s.ssl.own (s.br.zones.get k).edge s.ltc.sequence) := by
      rw [(State.fieldSample_handed now h hx hone).2, ← hown]
      rfl
    refine ⟨?_, fun hbytes hframes => ?_, fun hno => ?_⟩
    · rw [(State.fieldSample_handed now h hx hone).1, ← hown]
      obtain ⟨kept, hkept, -⟩ := recentAdd_eq (((s.atField x now).sampled c).ssl.own, s.ltc.sequence) s.ltc.recent
      change (recentAdd (((s.atField x now).sampled c).ssl.own, s.ltc.sequence) s.ltc.recent).getLast? = _
      rw [hkept, List.getLast?_concat]
    · rw [hpost, hroom hbytes hframes]
      exact ⟨rfl, rfl⟩
    · rw [hpost, hfull hno]
      exact ⟨rfl, rfl⟩

end Sys2Proof.Machine
end

