-- ==== Sys2Proof/Proofs/FireInputs.lean ====
section
/-! PROOFS. The fire input of a sample event and what a settled change makes of the FMC (O15). -/

namespace Sys2Proof.Machine

/-! ### What the fire input finds (R1, log 32) -/

/-- `u` is the station when a sample event of the field levels `x` comes to its fire input. -/
structure State.InputsTaken (s : State) (x : InputLevels) (now : Nat) (u : State) : Prop where
  pins : u.pins = x
  fireInput : u.br.fireInput = s.br.fireInput
  firePending : u.fiu.firePending = s.fiu.firePending
  br : s.cfg = none → u.br = s.br
  own : u.ssl.own = s.ssl.own
  startup : u.ssl.startup = s.ssl.startup
  scu : u.scu = s.scu
  fmc : u.fmc = s.fmc
  hru : u.hru = s.hru
  hsu : u.hsu = s.hsu
  ltc : s.fmc.inForce = true → u.ltc = s.ltc
  tx : u.lc.tx = (s.lc.advance now).tx
  alarmWaiting : u.lc.alarmWaiting = s.lc.alarmWaiting
  clock : u.lc.clock = max s.lc.clock now

section Inputs

variable (s : State)

theorem Lc.postNotice_clock (l : Lc) (k : NoticeKind) (b : List Byte) : (l.postNotice k b).clock = l.clock := by
  rcases l.postNotice_cases k b with ⟨-, h⟩ | ⟨-, -, h⟩ | ⟨-, -, -, h⟩ <;> rw [h]

/-- The arrivals a sample hands over post notices and nothing else. -/
theorem State.handArrivals_line (c : Configuration) (zones : Six Zone) (found : BitVec 6) :
    (s.handArrivals c zones found).lc.tx = s.lc.tx
      ∧ (s.handArrivals c zones found).lc.alarmWaiting = s.lc.alarmWaiting
      ∧ (s.handArrivals c zones found).lc.clock = s.lc.clock := by
  have hone : ∀ (t : State) (e : Edge), (t.edgeArrival c e).lc.tx = t.lc.tx
      ∧ (t.edgeArrival c e).lc.alarmWaiting = t.lc.alarmWaiting
      ∧ (t.edgeArrival c e).lc.clock = t.lc.clock := fun t e => by
    unfold State.edgeArrival
    split
    · exact ⟨Lc.postNotice_tx _ _ _, Lc.postNotice_alarmWaiting _ _ _, Lc.postNotice_clock _ _ _⟩
    · exact ⟨rfl, rfl, rfl⟩
  rw [State.handArrivals_eq]
  generalize arrivalsOf zones found = l
  induction l generalizing s with
  | nil => exact ⟨rfl, rfl, rfl⟩
  | cons k l ih =>
    obtain ⟨htx, halarm, hclock⟩ := ih (s.edgeArrival c (zones.get k).edge)
    obtain ⟨htx', halarm', hclock'⟩ := hone s (zones.get k).edge
    exact ⟨htx.trans htx', halarm.trans halarm', hclock.trans hclock'⟩

/-- Every sample event comes to its fire input, and then to the SSL's count. -/
theorem State.fieldSample_fire (x : InputLevels) (now : Nat) :
    ∃ u, (s.atField x now).fiuSample = u.fiuFire.selftestSample ∧ s.InputsTaken x now u := by
  refine ⟨(s.atField x now).fiuInputs, rfl, ?_⟩
  cases hc : s.cfg with
  | none =>
    have hkept : (s.atField x now).fiuInputs = s.atField x now := by
      unfold State.fiuInputs
      rw [State.atField_cfg, hc]
    rw [hkept]
    exact {
      pins := rfl, fireInput := rfl, firePending := rfl, br := fun _ => rfl, own := rfl, startup := rfl, scu := rfl
      fmc := rfl, hru := rfl, hsu := rfl, ltc := fun _ => rfl, tx := rfl, alarmWaiting := rfl, clock := rfl }
  | some c =>
    rw [State.fiuInputs_eq (s := s.atField x now) hc]
    obtain ⟨htx, halarm, hclock⟩ := ((s.atField x now).sampled c).handArrivals_line c s.br.zones x.occupied
    have hltc : s.fmc.inForce = true → (((s.atField x now).sampled c).handArrivals c s.br.zones x.occupied).ltc
        = s.ltc := fun hf => by
      rw [State.handArrivals_of_inert (s := (s.atField x now).sampled c) (.inr (.inl hf))]
      rfl
    rw [State.handArrivals_frame] at *
    exact {
      pins := rfl, fireInput := rfl, firePending := rfl, br := fun hno => nomatch hc.symm.trans hno
      own := Ssl.writeAll_own _ _, startup := (Ssl.writeAll_kept _ _).2.1, scu := rfl, fmc := rfl, hru := rfl
      hsu := rfl, ltc := hltc, tx := htx, alarmWaiting := halarm, clock := hclock }

end Inputs

/-! ### The send a settled change starts (R162, R164, R165) -/

section Sends

variable {s : State}

theorem State.send_of_load (h : s.ssl.startup = .load) :
    s.send = { s with fmc := { s.fmc with owed := true } } := by
  unfold State.send
  rw [h]

theorem State.send_of_strapFault (h : s.ssl.startup = .strapFault) :
    s.send = { s with fmc := { s.fmc with owed := false, timer := none } } := by
  unfold State.send
  rw [h]

/-- Fire mode with the own input as its cause, before the send (R162). -/
def State.ownFire (s : State) : State :=
  match s.fmc.mode with
  | .normal => s.enterFire .own (ownOrigin s.ssl.own)
  | .fire .heard _ =>
    { s with
      fmc := { s.fmc with mode := .fire .own (ownOrigin s.ssl.own) }
      abu := s.abu.fireEnter s.bayOrFallback }
  | .fire .own _ => s

theorem State.fireInputChanged_active (s : State) : s.fireInputChanged true = s.ownFire.send := by
  unfold State.fireInputChanged State.ownFire
  split <;> simp_all

theorem State.fireInputChanged_of_normal (h : s.fmc.mode = .normal) : s.fireInputChanged false = s := by
  unfold State.fireInputChanged
  rw [h]

theorem State.fireInputChanged_of_own {o : Option Nat} (h : s.fmc.mode = .fire .own o) :
    s.fireInputChanged false = { s with fmc := { s.fmc with timer := none, owed := false } } := by
  unfold State.fireInputChanged
  rw [h]

theorem State.ownFire_of_normal (h : s.fmc.mode = .normal) :
    s.ownFire = s.enterFire .own (ownOrigin s.ssl.own) := by
  rw [State.ownFire, h]

theorem State.ownFire_of_heard {o : Option Nat} (h : s.fmc.mode = .fire .heard o) : s.ownFire = { s with
    fmc := { s.fmc with mode := .fire .own (ownOrigin s.ssl.own) }, abu := s.abu.fireEnter s.bayOrFallback } := by
  rw [State.ownFire, h]

theorem State.ownFire_of_own {o : Option Nat} (h : s.fmc.mode = .fire .own o) : s.ownFire = s := by
  rw [State.ownFire, h]

/-- What the own cause keeps of the FMC, the SSL and the line (R162, R164). -/
theorem State.ownFire_kept (s : State) : s.ownFire.fmc = { s.fmc with mode := s.ownFire.fmc.mode }
    ∧ s.ownFire.ssl.startup = s.ssl.startup ∧ s.ownFire.ssl.own = s.ssl.own
    ∧ s.ownFire.lc = if s.fmc.mode = .normal then s.lc.flush else s.lc := by
  cases hm : s.fmc.mode with
  | normal =>
    rw [State.ownFire_of_normal hm]
    exact ⟨rfl, Ssl.writeEvent_startup _ _, Ssl.writeEvent_own _ _, rfl⟩
  | fire q o =>
    cases q with
    | heard => rw [State.ownFire_of_heard hm]; exact ⟨rfl, rfl, rfl, rfl⟩
    | own => rw [State.ownFire_of_own hm]; exact ⟨rfl, rfl, rfl, rfl⟩

theorem State.send_mode (s : State) : s.send.fmc.mode = s.fmc.mode := by
  unfold State.send
  split <;> rfl

/-- A send made after a flush leaves no notice in the store (R53, R57, R164). -/
theorem Lc.flush_orderHold_notices (l : Lc) (a : AlarmBody) : (l.flush.orderHold.postAlarm a).notices = [] := by
  have hhold : l.flush.orderHold.notices = [] := by
    unfold Lc.orderHold
    split
    · rfl
    · unfold Lc.requeueTx
      cases hf : l.flush.tx.frame with
      | none => rfl
      | some f =>
        cases f with
        | notice n => exact absurd hf (l.flush_noNotice n)
        | status | alarm => rfl
  exact List.suffix_nil.1 (hhold ▸ Lc.postAlarm_notices_suffix _ a)

/-- The moment of a command leaves the transmitter a flush makes of it (R56, R57). -/
theorem Lc.advance_flush_tx (l : Lc) (now : Nat) : (l.advance now).tx.withoutNotice = l.tx.withoutNotice := by
  have hx : (l.advance now).tx = Lc.txWithoutOutlived { l with clock := max l.clock now } (noticeLife + 1) := rfl
  rw [hx]
  unfold Lc.txWithoutOutlived
  split
  next n hn =>
    have hn' : l.tx = .lost (some (.notice n)) := hn
    rw [hn']
    split <;> rfl
  next => rfl

end Sends

section Active

variable {s u : State} {x : InputLevels} {now : Nat}

/-- `z` is the station in fire mode with the own input as its cause, just before the send a sample starts. -/
structure State.OwnFireEntered (s : State) (now : Nat) (z : State) : Prop where
  startup : z.ssl.startup = s.ssl.startup
  own : z.ssl.own = s.ssl.own
  fmc : z.fmc = { s.fmc with mode := z.fmc.mode }
  ofOwn : ∀ o, s.fmc.mode = .fire .own o → z.fmc.mode = .fire .own o
  ofOther : s.fmc.mode = .normal ∨ (∃ o, s.fmc.mode = .fire .heard o) →
    z.fmc.mode = .fire .own (if s.ssl.own = 0 then none else some s.ssl.own)
  ofHeard : ∀ o, s.fmc.mode = .fire .heard o → z.ltc = s.ltc ∧ z.hru = s.hru ∧ z.hsu = s.hsu
  alarmWaiting : z.lc.alarmWaiting = s.lc.alarmWaiting
  clock : z.lc.clock = max s.lc.clock now
  tx : s.fmc.mode = .normal → z.lc.tx = s.lc.flush.tx
  flushed : s.fmc.mode = .normal → ∃ l : Lc, z.lc = l.flush

/-- The second ACTIVE sample in a row: the own cause, and its send (R20, R162). -/
theorem State.InputsTaken.active (h : s.InputsTaken x now u) (hx : x.fire = true) (hi : s.br.fireInput = false)
    (hp : s.fiu.firePending = true) : ∃ z, u.fiuFire = z.send ∧ s.OwnFireEntered now z
      ∧ z.br.fireInput = true ∧ z.fiu.firePending = false := by
  have hpins : u.pins.fire = true := by rw [h.pins]; exact hx
  have hne : u.pins.fire ≠ u.br.fireInput := by rw [hpins, h.fireInput, hi]; exact Bool.noConfusion
  have hstep := State.fiuFire_of_second hne (h.firePending.trans hp)
  rw [hpins, State.fireInputChanged_active] at hstep
  refine ⟨_, hstep, ?_⟩
  generalize hw : ({ u with
    br := { u.br with fireInput := true }, fiu := { u.fiu with firePending := false } } : State) = w
  have hfmc : w.fmc = s.fmc := hw ▸ h.fmc
  have hown : w.ssl.own = s.ssl.own := hw ▸ h.own
  have hlc : w.lc = u.lc := hw ▸ rfl
  have hfield : w.br.fireInput = true ∧ w.fiu.firePending = false := hw ▸ ⟨rfl, rfl⟩
  have hblocks : w.ltc = u.ltc ∧ w.hru = u.hru ∧ w.hsu = u.hsu := hw ▸ ⟨rfl, rfl, rfl⟩
  obtain ⟨hkept, hstart, hownKept, hline⟩ := w.ownFire_kept
  rw [hfmc, hlc] at hline
  rw [hfmc] at hkept
  refine ⟨?entered, ?field⟩
  case entered => exact {
    startup := hstart.trans (hw ▸ h.startup)
    own := hownKept.trans hown
    fmc := hkept
    ofOwn := fun o hm => by rw [State.ownFire_of_own (hfmc ▸ hm), hfmc]; exact hm
    ofOther := fun hm => by
      rw [← hfmc] at hm
      rw [← hown]
      rcases hm with hm | ⟨o, hm⟩
      · rw [State.ownFire_of_normal hm]
        rfl
      · rw [State.ownFire_of_heard hm]
        rfl
    ofHeard := fun o hm => by
      have hforce : s.fmc.inForce = true := (Fmc.inForce_iff _).2 (by rw [hm]; nofun)
      rw [State.ownFire_of_heard (hfmc ▸ hm)]
      exact ⟨hblocks.1.trans (h.ltc hforce), hblocks.2.1.trans h.hru, hblocks.2.2.trans h.hsu⟩
    alarmWaiting := by
      rw [hline]
      split <;> exact h.alarmWaiting
    clock := by
      rw [hline]
      split <;> exact h.clock
    tx := fun hm => by
      rw [hline, if_pos hm]
      exact (congrArg Tx.withoutNotice h.tx).trans (s.lc.advance_flush_tx now)
    flushed := fun hm => ⟨u.lc, by rw [hline, if_pos hm]⟩ }
  case field =>
    cases hm : w.fmc.mode with
    | normal => rw [State.ownFire_of_normal hm]; exact hfield
    | fire q o =>
      cases q with
      | heard => rw [State.ownFire_of_heard hm]; exact hfield
      | own => rw [State.ownFire_of_own hm]; exact hfield

end Active

/-- What the SSL's count leaves as it was, the event list with it. -/
theorem State.selftestSample_kept (s : State) : s.selftestSample.br = s.br ∧ s.selftestSample.fiu = s.fiu
    ∧ s.selftestSample.fmc = s.fmc ∧ s.selftestSample.ltc = s.ltc ∧ s.selftestSample.hru = s.hru
    ∧ s.selftestSample.hsu = s.hsu ∧ s.selftestSample.lc = s.lc := by
  rw [State.selftestSample_frame]
  exact ⟨rfl, rfl, rfl, rfl, rfl, rfl, rfl⟩

/-- Settles O15: the debounce of `State.fiuFire`, then `State.ownFire` and the send of the start-up state. -/
theorem fireInputSettlesAndEnters : Obligations.FireInputSettlesAndEnters := by
  intro s x now hheld
  obtain ⟨u, hu, hin⟩ := s.fieldSample_fire x now
  have hevents := (congrArg (fun t : State => t.ssl.events) hu).trans u.fiuFire.selftestSample_events
  have hrecord : s.cfg = none → (s.atField x now).fiuSample.br
      = { s.br with fireInput := (s.atField x now).fiuSample.br.fireInput } := fun hno => by
    rw [hu, u.fiuFire.selftestSample_kept.1, State.fiuFire_frame, hin.br hno]
  obtain ⟨hbr, hfiu, hfmc, hltc, hhru, hhsu, hlc⟩ := u.fiuFire.selftestSample_kept
  rw [← hu] at hbr hfiu hfmc hltc hhru hhsu hlc
  refine ⟨_, by rw [exec_fiuSampleEvent]; exact whenReleased_free _ hheld, fun hx => ?same, fun hx hp => ?first,
    fun hx hp => ?second, hrecord⟩
  all_goals rw [hbr, hfiu, hfmc]
  case same =>
    rw [State.fiuFire_of_same (by rw [hin.pins, hin.fireInput]; exact hx)]
    exact ⟨hin.fireInput, rfl, hin.fmc⟩
  case first =>
    rw [State.fiuFire_of_first (by rw [hin.pins, hin.fireInput]; exact hx) (hin.firePending.trans hp)]
    exact ⟨hin.fireInput, rfl, hin.fmc⟩
  case second =>
    cases hfire : x.fire with
    | false =>
      have hstep := State.fiuFire_of_second (s := u) (by rw [hin.pins, hin.fireInput]; exact hx)
        (hin.firePending.trans hp)
      rw [hin.pins, hfire] at hstep
      refine ⟨by rw [hstep, State.fireInputChanged_frame], by rw [hstep, State.fireInputChanged_frame],
        fun _ hm => ?_, fun o _ hm => ?_, fun h => nomatch h⟩
      · rw [hstep, State.fireInputChanged_of_normal (by exact hin.fmc ▸ hm)]
        exact hin.fmc
      · rw [hstep, State.fireInputChanged_of_own (by exact hin.fmc ▸ hm), ← hin.fmc]
    | true =>
      have hi : s.br.fireInput = false := by
        cases hb : s.br.fireInput with
        | false => rfl
        | true => exact absurd (hfire.trans hb.symm) hx
      obtain ⟨z, hz, hown, hzi, hzp⟩ := hin.active hfire hi hp
      have hlast : s.fmc.mode = .normal →
          u.fiuFire.ssl.events.getLast? = some ⟨.fireEnter, s.ssl.own, s.scu.minute⟩ := fun hm => by
        have hwrites : u.fireEvents = [⟨.fireEnter, s.ssl.own, s.scu.minute⟩] := by
          rw [← hin.own, ← hin.scu]
          exact if_pos ⟨by rw [hin.pins]; exact hfire, hin.fireInput.trans hi, hin.firePending.trans hp,
            by rw [hin.fmc]; exact hm⟩
        rw [State.fiuFire_ssl, hwrites]
        exact Ssl.writeAll_getLast? _ [] _
      rw [hevents, hltc, hhru, hhsu, hlc]
      refine ⟨by rw [hz, State.send_frame]; exact hzi, by rw [hz, State.send_frame]; exact hzp,
        fun h => (nomatch h), fun o h => (nomatch h), fun _ => ⟨fun o hm => ?_, fun hm => ?_, fun o hm => ?_, hlast,
          fun hs => ?load, fun hs => ?made, fun hs => ?strap⟩⟩
      · rw [hz, State.send_mode]
        exact hown.ofOwn o hm
      · rw [hz, State.send_mode]
        exact hown.ofOther hm
      · rw [hz, State.send_frame]
        exact hown.ofHeard o hm
      case load =>
        rw [hz, State.send_of_load (hown.startup.trans hs), hown.fmc]
        exact ⟨rfl, rfl, rfl, hown.tx⟩
      case made =>
        rw [← hown.startup] at hs
        obtain ⟨htx, halarm⟩ := z.makeSend_line
        rw [hz, State.send_of_made hs, halarm, hown.own, hown.clock]
        have hcount : z.fmc.repeatCount = s.fmc.repeatCount := by rw [hown.fmc]
        rw [hcount]
        refine ⟨rfl, ?_, htx, rfl, fun hm => ?_⟩
        · rw [← hcount]
          rfl
        · obtain ⟨l, hl⟩ := hown.flushed hm
          have hflush := l.flush_orderHold_notices ⟨toByte z.ssl.own, 1, toByte z.fmc.repeatCount⟩
          rw [← hl] at hflush
          exact hflush
      case strap =>
        rw [hz, State.send_of_strapFault (hown.startup.trans hs), hown.fmc]
        exact ⟨rfl, rfl, rfl, hown.alarmWaiting⟩

end Sys2Proof.Machine
end

