-- ==== Sys2Proof/Proofs/AlarmReset.lean ====
section
/-! PROOFS. ALARM_RESET: what it makes of the FMC, and its order with what falls at the same moment (O31). -/

namespace Sys2Proof.Machine

/-! ### The reset at the FMC (R167) -/

section Reset

variable {s t : State} {p : Byte} {a : PanelAddress}

theorem exec_alarmReset_of_takes (h : s.takesCommand p a) :
    exec (.alarmReset p a) s = .next (s.commanded p a.sequence).alarmResetAtFmc := by
  change Host.Outcome.next (s.acceptPanel p a 7 0) = _
  rw [State.acceptPanel_of_takes h]
  simp [State.obey, State.command]

theorem State.alarmResetAtFmc_of_normal (h : s.fmc.mode = .normal) : s.alarmResetAtFmc = s := by
  rw [State.alarmResetAtFmc, h]

theorem State.alarmResetAtFmc_of_active (h : s.br.fireInput = true) : s.alarmResetAtFmc = s := by
  unfold State.alarmResetAtFmc
  split
  · rfl
  · exact if_pos h

theorem State.alarmResetAtFmc_of_fire {q : Cause} {o : Option Nat} (hm : s.fmc.mode = .fire q o)
    (h : s.br.fireInput = false) : s.alarmResetAtFmc = s.exitFire o := by
  unfold State.alarmResetAtFmc
  rw [hm]
  exact if_neg (Bool.eq_false_iff.1 h)

/-- With the input INACTIVE the reset ends in no fire, whatever the mode before. -/
theorem State.alarmResetAtFmc_inactive (h : s.br.fireInput = false) : s.alarmResetAtFmc.fmc.mode = .normal
    ∧ s.alarmResetAtFmc.ssl.own = s.ssl.own ∧ s.alarmResetAtFmc.ssl.startup = s.ssl.startup
    ∧ (s.alarmResetAtFmc.lc = s.lc ∨ s.alarmResetAtFmc.lc = s.lc.removeAlarm) := by
  cases hm : s.fmc.mode with
  | normal => rw [State.alarmResetAtFmc_of_normal hm]; exact ⟨hm, rfl, rfl, .inl rfl⟩
  | fire q o =>
    rw [State.alarmResetAtFmc_of_fire hm h]
    exact ⟨rfl, Ssl.writeEvent_own _ _, Ssl.writeEvent_startup _ _, .inr rfl⟩

/-- A station that takes the command still does so while nothing its acceptance reads has changed. -/
theorem State.takesCommand.kept (h : s.takesCommand p a) (hheld : t.held = s.held) (hcfg : t.cfg = s.cfg)
    (hown : t.ssl.own = s.ssl.own) (hstart : t.ssl.startup = s.ssl.startup) (hpt : t.pt = s.pt)
    (htx : ∀ f, t.lc.tx ≠ .sending f) (hmarks : t.lc.awaitRecessive = true → t.lc.holdHeard = true) :
    t.takesCommand p a := by
  obtain ⟨⟨hnone, hsome, -, -, hne⟩, hpanel, hrun, hfirst, hlast, hnew⟩ := h
  refine ⟨⟨hheld.trans hnone, ?_, htx, hmarks, ?_⟩, hpanel, hstart.trans hrun, ?_, ?_, ?_⟩
  · rw [hcfg]; exact hsome
  · rw [hown]; exact hne
  · rw [hown]; exact hfirst
  · rw [hown]; exact hlast
  · rw [hpt]; exact hnew

theorem Tx.withoutNotice_sending {x : Tx} (h : ∀ f, x ≠ .sending f) (f : TxFrame) : x.withoutNotice ≠ .sending f := by
  unfold Tx.withoutNotice
  split
  · exact Tx.noConfusion
  · exact Tx.noConfusion
  · exact h f

theorem Tx.withoutLostAlarm_sending {x : Tx} (h : ∀ f, x ≠ .sending f) (f : TxFrame) :
    x.withoutLostAlarm ≠ .sending f := by
  unfold Tx.withoutLostAlarm
  split
  · exact Tx.noConfusion
  · exact h f

theorem Tx.withoutLostAlarm_isHolding (x : Tx) : x.withoutLostAlarm.isHolding = x.isHolding := by
  unfold Tx.withoutLostAlarm
  split <;> rfl

/-- A fire entry changes nothing a panel's command is taken by (R168). -/
theorem State.takesCommand.enterFire (h : s.takesCommand p a) {l : Lc} (htx : ∀ f, l.tx ≠ .sending f)
    (hmarks : l.awaitRecessive = true → l.holdHeard = true) (q : Cause) (o : Option Nat) :
    ({ s with lc := l }.enterFire q o).takesCommand p a :=
  h.kept rfl rfl (Ssl.writeEvent_own _ _) (Ssl.writeEvent_startup _ _) rfl (Tx.withoutNotice_sending htx) hmarks

theorem State.hears.framePassed_marks {n : Nat} (h : s.hears n) :
    s.lc.framePassed.awaitRecessive = true → s.lc.framePassed.holdHeard = true := fun hawait => by
  change (s.lc.holdHeard && s.lc.awaitRecessive) = true
  rw [h.2.2.2.1 hawait, show s.lc.awaitRecessive = true from hawait]
  rfl

/-- A reset taken with the input INACTIVE: no fire, and the frame's sequence recorded. -/
theorem exec_alarmReset_of_inactive (h : t.takesCommand p a) (hi : t.br.fireInput = false) (hpt : t.pt = s.pt) :
    ∃ u, exec (.alarmReset p a) t = .next u ∧ u.fmc.mode = .normal ∧ s.pt.recorded u.pt p a.sequence := by
  refine ⟨_, exec_alarmReset_of_takes h, (State.alarmResetAtFmc_inactive (s := t.commanded p a.sequence) hi).1, ?_⟩
  rw [State.alarmResetAtFmc_frame, ← hpt]
  exact t.pt.recorded_applied p a.sequence

/-- What a reset with the input INACTIVE leaves for what comes after it at the same moment. -/
theorem State.afterReset (h : s.takesCommand p a) (hi : s.br.fireInput = false) :
    ∃ t, exec (.alarmReset p a) s = .next t ∧ t.fmc.mode = .normal ∧ t.held = none ∧ t.cfg = s.cfg ∧ t.br = s.br
      ∧ t.fiu = s.fiu ∧ t.ssl.own = s.ssl.own ∧ t.ssl.startup = .run
      ∧ (∀ f, t.lc.tx ≠ .sending f) ∧ (s.lc.tx ≠ .holding → t.lc.tx ≠ .holding)
      ∧ t.lc.holdHeard = (s.lc.holdHeard && s.lc.awaitRecessive) ∧ t.lc.awaitRecessive = s.lc.awaitRecessive := by
  obtain ⟨hnormal, hown, hstart, hlc⟩ := State.alarmResetAtFmc_inactive (s := s.commanded p a.sequence) hi
  have hframe := (s.commanded p a.sequence).alarmResetAtFmc_frame
  have hexec := exec_alarmReset_of_takes h
  generalize (s.commanded p a.sequence).alarmResetAtFmc = t at *
  have hlost : s.lc.tx ≠ .holding → s.lc.tx.withoutLostAlarm ≠ .holding := fun hno heq => by
    have hhold := s.lc.tx.withoutLostAlarm_isHolding
    rw [heq] at hhold
    cases hx : s.lc.tx with
    | holding => exact hno hx
    | idle | sending | lost => rw [hx] at hhold; cases hhold
  refine ⟨t, hexec, hnormal, by rw [hframe]; exact h.1.1, by rw [hframe]; rfl, by rw [hframe]; rfl,
    by rw [hframe]; rfl, hown, hstart.trans h.2.2.1, ?_⟩
  rcases hlc with hlc | hlc <;> rw [hlc]
  · exact ⟨h.1.2.2.1, id, rfl, rfl⟩
  · exact ⟨Tx.withoutLostAlarm_sending h.1.2.2.1, hlost, rfl, rfl⟩

end Reset

/-! ### The receiver's marks through a sample event (R44, R52) -/

/-- Two LCs whose receiver waits for the same. -/
def Lc.sameMarks (l l' : Lc) : Prop := l'.awaitRecessive = l.awaitRecessive ∧ l'.holdHeard = l.holdHeard

section Marks

theorem Lc.sameMarks.trans {l l' l'' : Lc} (h : l.sameMarks l') (h' : l'.sameMarks l'') : l.sameMarks l'' :=
  ⟨h'.1.trans h.1, h'.2.trans h.2⟩

theorem Lc.postNotice_sameMarks (l : Lc) (k : NoticeKind) (b : List Byte) : l.sameMarks (l.postNotice k b) := by
  rcases l.postNotice_cases k b with ⟨-, h⟩ | ⟨-, -, h⟩ | ⟨-, -, -, h⟩ <;> rw [h] <;> exact ⟨rfl, rfl⟩

theorem Lc.orderHold_sameMarks (l : Lc) : l.sameMarks l.orderHold := by
  have hrequeue : l.sameMarks l.requeueTx := by
    unfold Lc.requeueTx
    split
    next f _ => cases f <;> exact ⟨rfl, rfl⟩
    next => exact ⟨rfl, rfl⟩
  unfold Lc.orderHold
  split
  · exact ⟨rfl, rfl⟩
  · exact hrequeue

theorem Lc.postAlarm_sameMarks (l : Lc) (b : AlarmBody) : l.sameMarks (l.postAlarm b) := by
  unfold Lc.postAlarm
  dsimp only
  split <;> exact ⟨rfl, rfl⟩

theorem State.send_sameMarks (s : State) : s.lc.sameMarks s.send.lc := by
  have hmade : s.lc.sameMarks s.makeSend.lc := s.lc.orderHold_sameMarks.trans (Lc.postAlarm_sameMarks _ _)
  unfold State.send
  split
  · exact ⟨rfl, rfl⟩
  · exact hmade
  · exact hmade
  · exact hmade
  · exact hmade
  · exact ⟨rfl, rfl⟩

theorem State.fireInputChanged_of_heard {s : State} {o : Option Nat} (h : s.fmc.mode = .fire .heard o) :
    s.fireInputChanged false = s := by
  unfold State.fireInputChanged
  rw [h]

theorem State.fireInputChanged_sameMarks (s : State) (active : Bool) :
    s.lc.sameMarks (s.fireInputChanged active).lc := by
  cases active with
  | true =>
    rw [State.fireInputChanged_active]
    have hown : s.lc.sameMarks s.ownFire.lc := by
      rw [s.ownFire_kept.2.2.2]
      split <;> exact ⟨rfl, rfl⟩
    exact hown.trans (State.send_sameMarks _)
  | false =>
    cases hm : s.fmc.mode with
    | normal => rw [State.fireInputChanged_of_normal hm]; exact ⟨rfl, rfl⟩
    | fire q o =>
      cases q with
      | heard => rw [State.fireInputChanged_of_heard hm]; exact ⟨rfl, rfl⟩
      | own => rw [State.fireInputChanged_of_own hm]; exact ⟨rfl, rfl⟩

theorem State.handArrivals_sameMarks (s : State) (c : Configuration) (zones : Six Zone) (found : BitVec 6) :
    s.lc.sameMarks (s.handArrivals c zones found).lc := by
  have hone : ∀ (t : State) (e : Edge), t.lc.sameMarks (t.edgeArrival c e).lc := fun t e => by
    unfold State.edgeArrival
    split
    · exact Lc.postNotice_sameMarks _ _ _
    · exact ⟨rfl, rfl⟩
  rw [State.handArrivals_eq]
  generalize arrivalsOf zones found = l
  induction l generalizing s with
  | nil => exact ⟨rfl, rfl⟩
  | cons k l ih => exact (hone s _).trans (ih _)

theorem State.fiuSample_sameMarks {s : State} {c : Configuration} (h : s.cfg = some c) :
    s.lc.sameMarks s.fiuSample.lc := by
  have hfire : ∀ t : State, t.lc.sameMarks t.fiuFire.lc := fun t => by
    unfold State.fiuFire
    dsimp only
    split
    · exact ⟨rfl, rfl⟩
    · exact State.fireInputChanged_sameMarks _ _
  have hinputs : s.lc.sameMarks s.fiuInputs.lc := by
    rw [State.fiuInputs_eq h]
    exact (s.sampled c).handArrivals_sameMarks c _ _
  unfold State.fiuSample
  rw [State.selftestSample_frame]
  exact hinputs.trans (hfire _)

end Marks

/-- A sample event in RUN that leaves the own hold driven takes a panel's command as before (R168). -/
theorem State.takesCommand.fiuSample {s : State} {p : Byte} {a : PanelAddress} (h : s.takesCommand p a)
    (x : InputLevels) (now : Nat) (htx : (s.atField x now).fiuSample.lc.tx = .holding) :
    (s.atField x now).fiuSample.takesCommand p a := by
  obtain ⟨u, hu, hin⟩ := s.fieldSample_fire x now
  obtain ⟨c, hc⟩ := Option.isSome_iff_exists.1 h.1.2.1
  have hframe := State.fiuSample_frame (s := s.atField x now) hc
  have hmarks := State.fiuSample_sameMarks (s := s.atField x now) hc
  have hssl : (s.atField x now).fiuSample.ssl.own = s.ssl.own
      ∧ (s.atField x now).fiuSample.ssl.startup = s.ssl.startup := by
    obtain ⟨hown, hstart, -⟩ := u.ssl.writeAll_kept u.fireEvents
    have hrun : u.fiuFire.ssl.startup ≠ .selftest := by
      rw [State.fiuFire_ssl, hstart, hin.startup, h.2.2.1]
      exact Startup.noConfusion
    rw [hu, State.selftestSample_of_other hrun, State.fiuFire_ssl, hown, hstart]
    exact ⟨hin.own, hin.startup⟩
  refine h.kept (by rw [hframe]; rfl) (by rw [hframe]; rfl) hssl.1 hssl.2 (by rw [hframe]; rfl)
    (fun f heq => by cases htx.symm.trans heq) fun hawait => ?_
  rw [hmarks.2]
  rw [hmarks.1] at hawait
  exact h.1.2.2.2.1 hawait

theorem exec_alarm_of_hears {s : State} {n : Byte} (h : s.hears n.toNat) (b : AlarmBody) :
    exec (.alarm n b) s = .next ({ s with lc := s.lc.framePassed }.alarmFrame b) := by
  change Host.Outcome.next (s.accept n.toNat (.alarm b)) = _
  rw [State.accept_of_canAccept (State.canAccept_of_hears (k := .alarm) h rfl)]
  rfl

/-- An ALARM frame leaves the station in fire mode, still taking a panel's command (R163, R168). -/
theorem State.takesCommand.alarmFrame {s : State} {p : Byte} {a : PanelAddress} (h : s.takesCommand p a)
    (b : AlarmBody) : ({ s with lc := s.lc.framePassed }.alarmFrame b).takesCommand p a
      ∧ ({ s with lc := s.lc.framePassed }.alarmFrame b).fmc.inForce = true := by
  have hmarks := h.1.framePassed_marks
  have htx : ∀ f, s.lc.framePassed.tx ≠ .sending f := h.1.2.2.1
  have hsame : ∀ f : Fmc, { s with lc := s.lc.framePassed, fmc := f }.takesCommand p a := fun f =>
    h.kept rfl rfl rfl rfl rfl htx hmarks
  unfold State.alarmFrame
  split
  next => exact ⟨h.enterFire htx hmarks _ _, rfl⟩
  next hm =>
    split
    · exact ⟨hsame _, rfl⟩
    · exact ⟨hsame s.fmc, (Fmc.inForce_iff _).2 (by rw [hm]; nofun)⟩
  next hm => exact ⟨hsame s.fmc, (Fmc.inForce_iff _).2 (by rw [hm]; nofun)⟩
  next hm => exact ⟨hsame s.fmc, (Fmc.inForce_iff _).2 (by rw [hm]; nofun)⟩

/-- An alarm hold heard leaves the station still taking a panel's command (R168). -/
theorem State.takesCommand.hearHold {s : State} {p : Byte} {a : PanelAddress} (h : s.takesCommand p a) :
    s.hearHold.takesCommand p a := by
  cases hf : s.fmc.inForce with
  | true =>
    rw [State.hearHold_of_fire hf]
    exact h.kept rfl rfl rfl rfl rfl h.1.2.2.1 fun _ => rfl
  | false =>
    have hn : s.fmc.mode = .normal := by
      by_contra hne
      exact absurd (hf.symm.trans ((Fmc.inForce_iff _).2 hne)) Bool.noConfusion
    rw [State.hearHold_of_normal hn]
    exact h.enterFire (l := s.lc.hearHold) h.1.2.2.1 (fun _ => rfl) _ _

/-- Settles O31: the reset at the FMC is `State.alarmResetAtFmc`; the later of two commands at one moment runs on
what the earlier left. -/
theorem alarmResetLeavesFireMode : Obligations.AlarmResetLeavesFireMode := by
  refine ⟨fun s p a h hi => ⟨fun htx hheard => ⟨?holdFirst, ?holdLast⟩, fun n b hn => ⟨?alarmFirst, ?alarmLast⟩,
    fun x now hp hx => ⟨?inputFirst, ?inputLast⟩⟩, fun s p a q o h hm => ?_⟩
  case holdFirst =>
    obtain ⟨c, hc⟩ := Option.isSome_iff_exists.1 h.1.2.1
    have hcan := State.works.canHear (c := c) ⟨h.1.1, hc⟩ htx hheard
    obtain ⟨u, hu⟩ := exec_alarmReset_of_inactive (s := s) h.hearHold
      (by unfold State.hearHold; rw [State.holdHeard_frame]; exact hi)
      (by unfold State.hearHold; rw [State.holdHeard_frame])
    exact ⟨_, u, exec_alarmHoldHeard_of_canHear h.1.1 hcan, s.hearHold_inForce, hu⟩
  case holdLast =>
    obtain ⟨t, hexec, hnormal, hheld, hcfg, -, -, -, -, -, hhold, hmark, -⟩ := State.afterReset h hi
    obtain ⟨c, hc⟩ := Option.isSome_iff_exists.1 h.1.2.1
    have hcan := State.works.canHear (s := t) (c := c) ⟨hheld, hcfg.trans hc⟩ (hhold htx) (by rw [hmark, hheard]; rfl)
    refine ⟨t, _, hexec, hnormal, exec_alarmHoldHeard_of_canHear hheld hcan, ?_⟩
    rw [State.hearHold_of_normal hnormal]
    rfl
  case alarmFirst =>
    have hears : s.hears n.toNat := ⟨h.1.1, h.1.2.1, h.1.2.2.1, h.1.2.2.2.1, hn⟩
    obtain ⟨htakes, hforce⟩ := h.alarmFrame b
    obtain ⟨u, hu⟩ := exec_alarmReset_of_inactive (s := s) htakes (by rw [State.alarmFrame_frame]; exact hi)
      (by rw [State.alarmFrame_frame])
    exact ⟨_, u, exec_alarm_of_hears hears b, hforce, hu⟩
  case alarmLast =>
    obtain ⟨t, hexec, hnormal, hheld, hcfg, -, -, hown, -, hsend, -, hheard, hawait⟩ := State.afterReset h hi
    have hears : t.hears n.toNat := by
      refine ⟨hheld, hcfg ▸ h.1.2.1, hsend, fun hw => ?_, hown ▸ hn⟩
      rw [hawait] at hw
      rw [hheard, h.1.2.2.2.1 hw, hw]
      rfl
    refine ⟨t, _, hexec, hnormal, exec_alarm_of_hears hears b, bodyOrigin b, ?_⟩
    have hmode : ({ t with lc := t.lc.framePassed } : State).fmc.mode = .normal := hnormal
    unfold State.alarmFrame
    rw [hmode]
    rfl
  case inputFirst =>
    have hne : x.fire ≠ s.br.fireInput := by rw [hx, hi]; exact Bool.noConfusion
    obtain ⟨t, hexec, -, -, hsecond, -⟩ := fireInputSettlesAndEnters s x now h.1.1
    obtain ⟨hactive, -, -, -, hchanged⟩ := hsecond hne hp
    obtain ⟨hofOwn, hofOther, -, -, -, hmade, -⟩ := hchanged hx
    obtain ⟨htimer, -, hholding, -⟩ := hmade (.inr (.inr (.inr h.2.2.1)))
    have ht : (s.atField x now).fiuSample = t := by
      rw [exec_fiuSampleEvent, whenReleased_free _ h.1.1] at hexec
      exact Host.Outcome.next.inj hexec
    have htakes : t.takesCommand p a := ht ▸ h.fiuSample x now (by rw [ht]; exact hholding)
    have hpt : t.pt = s.pt := by
      obtain ⟨c, hc⟩ := Option.isSome_iff_exists.1 h.1.2.1
      rw [← ht, State.fiuSample_frame (s := s.atField x now) hc]
      rfl
    have hforce : t.fmc.inForce = true := (Fmc.inForce_iff _).2 (by
      cases hm : s.fmc.mode with
      | normal => rw [hofOther (.inl hm)]; nofun
      | fire q o =>
        cases q with
        | heard => rw [hofOther (.inr ⟨o, hm⟩)]; nofun
        | own => rw [hofOwn o hm]; nofun)
    have hreset := exec_alarmReset_of_takes htakes
    rw [State.alarmResetAtFmc_of_active (s := t.commanded p a.sequence) (hactive.trans hx)] at hreset
    refine ⟨t, _, hexec, hforce, hreset, rfl, htimer, hholding, rfl, ?_⟩
    rw [← hpt]
    exact t.pt.recorded_applied p a.sequence
  case inputLast =>
    obtain ⟨t, hexec, hnormal, hheld, -, hbr, hfiu, hown, hrun, -⟩ := State.afterReset h hi
    have hne : x.fire ≠ t.br.fireInput := by rw [hx, hbr, hi]; exact Bool.noConfusion
    obtain ⟨u, hsample, -, -, hsecond, -⟩ := fireInputSettlesAndEnters t x now hheld
    obtain ⟨-, -, -, -, hchanged⟩ := hsecond hne (hfiu ▸ hp)
    obtain ⟨-, hofOther, -, -, -, hmade, -⟩ := hchanged hx
    obtain ⟨htimer, -, hholding, -⟩ := hmade (.inr (.inr (.inr hrun)))
    exact ⟨t, u, hexec, hnormal, hsample, hown ▸ hofOther (.inl hnormal), htimer, hholding⟩
  · have hmode : (s.commanded p a.sequence).fmc.mode = .fire q o := hm
    cases hi : s.br.fireInput with
    | true =>
      have hsame := State.alarmResetAtFmc_of_active (s := s.commanded p a.sequence) hi
      refine ⟨_, exec_alarmReset_of_takes h, ?_⟩
      rw [hsame]
      exact ⟨rfl, s.pt.recorded_applied p a.sequence, rfl, fun _ => ⟨rfl, rfl, s.lc.afterFrame_framePassed⟩,
        fun hno => nomatch hno⟩
    | false =>
      have hexit := State.alarmResetAtFmc_of_fire (s := s.commanded p a.sequence) hmode hi
      refine ⟨_, exec_alarmReset_of_takes h, ?_⟩
      rw [hexit]
      have hout : ((s.commanded p a.sequence).exitFire o).outputs = s.outputs :=
        congrArg (fun d => { s.outputs with lineDominant := d }) s.lc.tx.withoutLostAlarm_isHolding
      have hflag : ((s.commanded p a.sequence).exitFire o).statusFlags.getLsbD 0 = false :=
        (State.statusFlags_bits _).1
      exact ⟨rfl, s.pt.recorded_applied p a.sequence, hout, fun hno => (nomatch hno),
        fun _ => ⟨rfl, rfl, rfl, rfl, hflag, rfl, rfl, Ssl.writeEvent_events _ _⟩⟩

end Sys2Proof.Machine
end
